-- ==== Sys2Proof/Word.lean ====
section
/-! DEFINITION. The byte, the unit of every frame, record and image of the part (Frames and Record Formats). -/

namespace Sys2Proof

/-- One byte as sent on the line, the vehicle link and the station port; bit 7 is the most significant. -/
abbrev Byte := BitVec 8

end Sys2Proof
end

