-- ==== Sys2Proof/Syntax.lean ====
section
/-! DEFINITION. The commands: one constructor for each row of spec/opcode_table.json, with its operands. -/

namespace Sys2Proof

/-- The two line ports (chapter 1). -/
inductive Port where
  | A
  | B
  deriving DecidableEq, Repr

/-- The six debounced inputs, in the order of R172. -/
inductive Input where
  | pullCord
  | refugeDoor
  | pushToTalk
  | hook
  | callButton
  | pulse
  deriving DecidableEq, Repr

/-- A logical input level (chapter 10, 10.1). -/
inductive Level where
  | inactive
  | active
  deriving DecidableEq, Repr

/-- What a line access unit gathered from one stretch of carrier (R3): whether the start marker came within
the first 32 bit times, the whole bytes after it, whether a code violation was seen, and whether a final
partial byte was left. -/
structure Gathered where
  startMarker : Bool
  bytes : List Byte
  violation : Bool
  partialByte : Bool
  deriving DecidableEq, Repr

/-- The commands of the part: every event and operation of spec/opcode_table.json. -/
inductive Instr where
  -- resets and start
  | hardReset
  | configReadCompletion (answer : Option (List Byte))
  | joiningTimerExpiry
  -- the station port
  | hostTransfer (bytes : List Byte)
  | unknownRequest
  | configure
  | start
  | restart
  | placeCall
  | releaseCall
  | raiseAlarm
  | acknowledgeAlarm
  | clearAlarm
  | silence
  | sendText
  | readHistory
  | readChannel
  | readPeers
  | readAlarms
  | readTags
  | readCounters
  | requestHistory
  | coalescingTimerExpiry
  -- the roadway line
  | carrierStart (p : Port)
  | lineQuiet (p : Port)
  | frameEnd (p : Port) (g : Gathered)
  | windowHoldEnd (p : Port)
  | presencePulse (p : Port)
  | deferWaitExpiry (p : Port)
  | transmissionComplete (p : Port)
  | collision (p : Port)
  | jamEnd (p : Port)
  | responseWindowEnd (p : Port) (slots : List Nat)
  | counterSnapshot
  -- frames and peers
  | frameParse
  | peerSilentDeadline (station : Nat)
  | peerRemovalDeadline (station : Nat)
  | recentFrameExpiry
  | callsHeardExpiry (caller number : Nat)
  | beaconTimerExpiry
  -- air
  | loopSampleEvent (c : Fin 6) (code : BitVec 12)
  | pulseGateClose
  | trendEvent (c : Fin 7)
  | secondsEvent
  | packCompletion
  -- calls
  | codecSample (mic : BitVec 16)
  | denyToneEnd
  | setupTimerExpiry
  | pageSetupTimerExpiry
  | ringTimerExpiry
  | silenceTimerExpiry
  | holdingTimerExpiry
  | talkTimerExpiry
  | pageGapTimerExpiry
  -- inputs
  | rawInputChange (i : Input) (level : Level)
  | debounceTimerExpiry (i : Input)
  | immediateHoldExpiry (i : Input)
  -- tags
  | linkByteReceived (b : Byte) (framing overrun : Bool)
  | linkGapTimerExpiry
  | nearEntryExpiry (tag : Nat)
  | trackRemovalDeadline (tag : Nat)
  | advisoryRepeatDeadline (tag : Nat)
  | evacuationRepeatTimer
  | advisorySendComplete
  -- alarms and outputs
  | deliveryRepeatTimer (p : Port) (origin number : Nat)
  | lingerDeadline (origin number : Nat)
  | testWindowExpiry (origin number : Nat)
  | cadencePhaseChange
  deriving DecidableEq, Repr

end Sys2Proof
end

