-- ==== Sys2Proof/WellFormed.lean ====
section
/-! DEFINITION. Which commands the hardware can be given: the ranges of the operands that their types alone do
not bound. The machine gives every command a meaning, well-formed or not; a command outside these ranges names
no event of the part, and finds nothing to act on. -/

namespace Sys2Proof

/-- A station ID (00_scope 5.2): 1 to 4094. -/
def stationOk (n : Nat) : Bool := decide (1 ≤ n) && decide (n ≤ 4094)

/-- A tag ID (R135): 1 to 16 777 214. -/
def tagOk (n : Nat) : Bool := decide (1 ≤ n) && decide (n ≤ 16777214)

/-- Origin or caller ID with its number of 0 to 255 (00_scope 5.2). -/
def pairOk (station number : Nat) : Bool := stationOk station && decide (number ≤ 255)

/-- The well-formed commands. -/
def Instr.wellFormed : Instr → Bool
  -- R177: the read takes the image's fixed number of bytes
  | .configReadCompletion (some bytes) => bytes.length == 201
  -- R182: a transfer frames at least the first exchange
  | .hostTransfer bytes => !bytes.isEmpty
  -- R3: a byte is gathered only after a start marker
  | .frameEnd _ g => g.startMarker || g.bytes.isEmpty
  -- R5: the presence slots are 0 to 63
  | .responseWindowEnd _ slots => slots.all (fun n => decide (n < 64))
  | .peerSilentDeadline n => stationOk n
  | .peerRemovalDeadline n => stationOk n
  | .callsHeardExpiry n k => pairOk n k
  | .nearEntryExpiry t => tagOk t
  | .trackRemovalDeadline t => tagOk t
  | .advisoryRepeatDeadline t => tagOk t
  | .deliveryRepeatTimer _ n k => pairOk n k
  | .lingerDeadline n k => pairOk n k
  | .testWindowExpiry n k => pairOk n k
  | .configReadCompletion none => true
  | .hardReset => true
  | .joiningTimerExpiry => true
  | .unknownRequest => true
  | .configure => true
  | .start => true
  | .restart => true
  | .placeCall => true
  | .releaseCall => true
  | .raiseAlarm => true
  | .acknowledgeAlarm => true
  | .clearAlarm => true
  | .silence => true
  | .sendText => true
  | .readHistory => true
  | .readChannel => true
  | .readPeers => true
  | .readAlarms => true
  | .readTags => true
  | .readCounters => true
  | .requestHistory => true
  | .coalescingTimerExpiry => true
  | .carrierStart _ => true
  | .lineQuiet _ => true
  | .windowHoldEnd _ => true
  | .presencePulse _ => true
  | .deferWaitExpiry _ => true
  | .transmissionComplete _ => true
  | .collision _ => true
  | .jamEnd _ => true
  | .counterSnapshot => true
  | .frameParse => true
  | .recentFrameExpiry => true
  | .beaconTimerExpiry => true
  | .loopSampleEvent _ _ => true
  | .pulseGateClose => true
  | .trendEvent _ => true
  | .secondsEvent => true
  | .packCompletion => true
  | .codecSample _ => true
  | .denyToneEnd => true
  | .setupTimerExpiry => true
  | .pageSetupTimerExpiry => true
  | .ringTimerExpiry => true
  | .silenceTimerExpiry => true
  | .holdingTimerExpiry => true
  | .talkTimerExpiry => true
  | .pageGapTimerExpiry => true
  | .rawInputChange _ _ => true
  | .debounceTimerExpiry _ => true
  | .immediateHoldExpiry _ => true
  | .linkByteReceived _ _ _ => true
  | .linkGapTimerExpiry => true
  | .evacuationRepeatTimer => true
  | .advisorySendComplete => true
  | .cadencePhaseChange => true

end Sys2Proof
end

