-- ==== Sys2Proof/Decode.lean ====
section
/-! DEFINITION. Words of the table. The opcode table of this block gives no row any bits (98_reader: no row with
fixed bits, none with fields), so no word spells a command. -/

namespace Sys2Proof

/-- The command that a word spells by the table's bits: none, since no row of the table gives bits. -/
def decodeTableWord (_nbits _w : Nat) : Option Instr := none

/-- No word spells a command, whatever its length. -/
theorem decodeTableWord_none (nbits w : Nat) : decodeTableWord nbits w = none := rfl

end Sys2Proof
end

