-- ==== Sys2Proof/Config.lean ====
section
/-! DEFINITION. What the configuration image fixes (chapter 11, R180; chapter 4, R58), and the free values
the manual leaves open. -/

namespace Sys2Proof

/-- FREE VALUE (log 4). The n-th draw of the part: the deferral draw of R8 and the beacon draw of R50 are
this value reduced to the range the rule gives. Nothing constrains it. -/
opaque Config.freeDraw : Nat → Nat

/-- Gas kinds, with the codes of the AIR section (R25). -/
inductive GasKind where
  | methane
  | carbonMonoxide
  | oxygen
  | airVelocity
  | general
  deriving DecidableEq, Repr

/-- Line rates of R1 and R180: 62.5, 125 and 250 kbit/s. -/
inductive LineRate where
  | k62
  | k125
  | k250
  deriving DecidableEq, Repr

/-- Vehicle link rates of R132 and R180. -/
inductive LinkRate where
  | notUsed
  | r9600
  | r19200
  | r38400
  | r115200
  deriving DecidableEq, Repr

/-- One channel record of the configuration image (R58). A channel whose kind is absent is UNSET. -/
structure ChannelConfig where
  kind : Option GasKind
  /-- Sense LOW: lower is worse. -/
  lowSense : Bool
  fs : Nat
  z : Int
  g : Nat
  kq : Nat
  k : Nat
  l1 : Nat
  l2 : Nat
  h : Nat
  n : Nat
  m : Nat
  rise : Nat
  interval : Nat
  autoAlarm : Bool
  deriving DecidableEq, Repr

/-- One debounce setting (R172): mode IMMEDIATE or DELAYED, and T in ms. -/
structure CellConfig where
  immediate : Bool
  t : Nat
  deriving DecidableEq, Repr

/-- A lane section (chapter 8, 8.5): P_low, P_high and the approach distance, in metres. -/
structure LaneSection where
  pLow : Nat
  pHigh : Nat
  approach : Nat
  deriving DecidableEq, Repr

/-- The configuration: every field of the image of R180. An enabled port is one whose slot is present. -/
structure Configuration where
  station : Nat
  slotA : Option Nat
  slotB : Option Nat
  rate : LineRate
  zone : Nat
  roadway : Nat
  chainage : Nat
  /-- Airflow sense −1 (the air moves outbye). -/
  airflowNeg : Bool
  refuge : Bool
  operator : Bool
  beacon : Nat
  silent : Nat
  relay : Nat
  lockout : Nat
  channels : Vector ChannelConfig 7
  lane : Option LaneSection
  nearThreshold : Int
  musterThreshold : Int
  tagExpiry : Nat
  hotline : Nat
  coalesce : Nat
  cells : Vector CellConfig 6
  link : LinkRate
  deriving DecidableEq, Repr

/-- The record an absent channel has. -/
def ChannelConfig.absent : ChannelConfig :=
  { kind := none, lowSense := false, fs := 0, z := 0, g := 0, kq := 0, k := 0, l1 := 0, l2 := 0, h := 0, n := 0,
    m := 0, rise := 0, interval := 0, autoAlarm := false }

/-- What the configuration accessor answers while the part holds none: no port, no channel, no lane, no
link (log 22). No rule reads it: every unit that reads the configuration first asks for JOINING or RUNNING, or
finds its tables empty. -/
def Configuration.blank : Configuration :=
  { station := 0, slotA := none, slotB := none, rate := .k62, zone := 0, roadway := 0, chainage := 0,
    airflowNeg := false, refuge := false, operator := false, beacon := 0, silent := 0, relay := 0, lockout := 0,
    channels := Vector.replicate 7 ChannelConfig.absent, lane := none, nearThreshold := 0, musterThreshold := 0,
    tagExpiry := 0, hotline := 0, coalesce := 0, cells := Vector.replicate 6 { immediate := false, t := 0 },
    link := .notUsed }

end Sys2Proof
end

