-- ==== Sys2Proof/Machine/State.lean ====
section
/-! DEFINITION. The state of the part: every piece of state the manual gives its twelve units, grouped by the
unit that owns it, and the state after reset. -/

namespace Sys2Proof.Machine

/-- Why the machine can stop with a fault. The manual describes nothing that stops it: no constructor. -/
inductive Fault where
  deriving DecidableEq, Repr

/-- Why a command can be refused by the model. -/
inductive Refusal where
  /-- Raised by an arm of `exec` whose command has no meaning yet. Safe: nothing is claimed of such a step. No
  arm raises it now. -/
  | notModelled (mnemonic : String)
  deriving DecidableEq, Repr

/-- A pair of like things, one for each line port. -/
structure PortPair (α : Type) where
  a : α
  b : α
  deriving DecidableEq, Repr

/-! ### Counters (R21, R35, R134) -/

/-- A per-second counter: live value with its saturation mark, snapshot value with its overflow flag. -/
structure Counter where
  live : Nat
  mark : Bool
  snap : Nat
  overflow : Bool
  deriving DecidableEq, Repr

def Counter.zero : Counter := { live := 0, mark := false, snap := 0, overflow := false }

/-- The nine line counters of a port (R21). -/
structure LineCounters where
  good : Counter
  crcErrors : Counter
  collisions : Counter
  lateCollisions : Counter
  excessDrops : Counter
  queueFullDrops : Counter
  overruns : Counter
  duplicates : Counter
  relayedOut : Counter
  deriving DecidableEq, Repr

/-- The four parse counters of a port (R35). -/
structure ParseCounters where
  malformed : Counter
  unknown : Counter
  bad : Counter
  truncated : Counter
  deriving DecidableEq, Repr

/-- The six vehicle link counters (R134). -/
structure LinkCounters where
  whole : Counter
  framing : Counter
  overrun : Counter
  checksum : Counter
  bad : Counter
  dropped : Counter
  deriving DecidableEq, Repr

/-! ### Names shared by several units -/

/-- A call ID: the caller and its call number (00_scope 5.2). -/
structure CallId where
  caller : Nat
  number : Nat
  deriving DecidableEq, Repr

/-- An alarm ID: the origin and its alarm number (00_scope 5.2). -/
structure AlarmId where
  origin : Nat
  number : Nat
  deriving DecidableEq, Repr

/-- Frame classes, most urgent first (R24). -/
inductive FrameClass where
  | alarm
  | call
  | vehicle
  | air
  | routine
  deriving DecidableEq, Repr

/-- Channel states (R65). -/
inductive ChannelState where
  | unset
  | starting
  | normal
  | warn
  | fault
  | trip
  deriving DecidableEq, Repr

/-- Alarm kinds (R152). -/
inductive AlarmKind where
  | fire
  | evacuate
  | gas
  | vent
  | pullcord
  | refugeDoor
  | test
  deriving DecidableEq, Repr

/-- An alarm's scope: one zone, or ALL (R152). -/
inductive Scope where
  | zone (z : Nat)
  | all
  deriving DecidableEq, Repr

/-- An alarm's state (R152). -/
inductive AlarmState where
  | raised
  | acknowledged
  | cleared
  deriving DecidableEq, Repr

/-- Messages of a CALL section (R25). -/
inductive CallMessage where
  | setup
  | ringing
  | answer
  | floorTake
  | floorGive
  | holding
  | release
  deriving DecidableEq, Repr

/-- Release reasons (R25). -/
inductive ReleaseReason where
  | normal
  | busy
  | noAnswer
  | lost
  | lineFull
  deriving DecidableEq, Repr

inductive TagKind where
  | person
  | truck
  | service
  deriving DecidableEq, Repr

inductive Heading where
  | inbye
  | outbye
  | stopped
  deriving DecidableEq, Repr

/-- One entry of an AIR section or of a peer's air summary (R25, R39). -/
structure AirEntry where
  channel : Nat
  kind : GasKind
  state : ChannelState
  rising : Bool
  value : Nat
  deriving DecidableEq, Repr

/-- A REFUGE section's content, which is a peer's refuge summary (R25, R39). -/
structure RefugeSummary where
  active : Bool
  doorOpen : Bool
  muster : Nat
  overflow : Nat
  deriving DecidableEq, Repr

/-- The four outcomes a TX_DONE can carry (R16, R20). -/
inductive TxOutcome where
  | sent
  | excess
  | evicted
  | dropped
  deriving DecidableEq, Repr

/-! ### Records from the part (Frames and Record Formats, 2.8) -/

/-- Response codes. -/
inductive ResponseCode where
  | ok
  | badState
  | notPermitted
  | notAcknowledged
  | badArgument
  | lineFull
  | busy
  | noSuch
  deriving DecidableEq, Repr

inductive AlarmChange where
  | added
  | advanced
  | removed
  deriving DecidableEq, Repr

inductive CallEvent where
  | incoming
  | ringback
  | connected
  | released
  | pageHeard
  | pageEnded
  deriving DecidableEq, Repr

inductive LaneState where
  | outside
  | approaching
  | inSection
  deriving DecidableEq, Repr

/-- The position, roles and slots a STATUS section gives (R39, R42). -/
structure StatusPart where
  chainage : Nat
  zone : Nat
  roadway : Nat
  airflowNeg : Bool
  bridge : Bool
  refuge : Bool
  operator : Bool
  slotA : Option Nat
  slotB : Option Nat
  deriving DecidableEq, Repr

/-- Data items (table of data items). -/
inductive DataItem where
  | peer (station : Nat) (port : Port) (hops : Nat) (present : Bool) (age : Nat) (status : Option StatusPart)
      (inCall : Bool) (refuge : Option RefugeSummary)
  | alarm (id : AlarmId) (kind : AlarmKind) (scope : Scope) (state : AlarmState) (age : Nat) (silenced : Bool)
  | near (tag : Nat) (kind : TagKind) (strength : Int) (near : Bool) (age : Nat)
  | track (tag reporter chainage : Nat) (heading : Heading) (speed : Nat) (loaded : Bool) (lane : LaneState)
      (age : Nat)
  | channel (ch : Nat) (kind : GasKind) (state : ChannelState) (rising : Bool) (value : Nat)
      (raised : Option Nat)
  | counters (port : Nat) (snaps : List Nat) (overs : List Bool)
  | history (ch interval mask : Nat) (values : List Nat)
  deriving DecidableEq, Repr

/-- Records from the part (table of records). -/
inductive HostRecord where
  | response (tag kind : Nat) (code : ResponseCode) (detail count : Nat)
  | data (tag : Nat) (item : DataItem)
  | channelState (ch : Nat) (state : ChannelState) (rising : Bool) (value : Nat)
  | zoneState (kind : GasKind) (state : Option ChannelState) (worst : Nat)
  | peerSilent (station : Nat)
  | alarmChange (id : AlarmId) (kind : AlarmKind) (scope : Scope) (state : AlarmState) (change : AlarmChange)
  | deliveryIncomplete (id : AlarmId) (port : Port) (missing : Nat)
  | callEvent (event : CallEvent) (id : CallId) (peer : Nat) (reason : Option ReleaseReason)
  | floorDenied (id : CallId)
  | talkLimit (id : CallId)
  | txDone (tag : Nat) (port : Port) (outcome : TxOutcome)
  | textReceived (origin : Nat) (sticky : Bool) (text : List Byte)
  | historyReceived (origin ch interval mask : Nat) (values : List Nat)
  deriving DecidableEq, Repr

/-! ### Clock -/

/-- The part's time (00_scope 5.3). The 1 ms tick and the seconds counter are read from `usec`. -/
structure Clock where
  /-- Microseconds since the last reset. -/
  usec : Nat
  /-- The ms value of the next 1 s event (R91). -/
  secondDue : Nat
  /-- The ms value of the next snapshot event (R21). -/
  snapshotDue : Nat
  deriving DecidableEq, Repr

/-! ### SPU (chapter 11) -/

/-- The part state of R177; UNCONFIGURED has the phases LOADING and WAITING. -/
inductive PartState where
  | loading
  | waiting
  | joining
  | running
  deriving DecidableEq, Repr

/-- An image being assembled from CONFIGURE parts (R181). -/
structure Assembly where
  bytes : List Byte
  next : Nat
  deriving DecidableEq, Repr

/-- A record in the indication queue with the lost count it carries (R184). -/
structure Queued where
  record : HostRecord
  lost : Nat
  deriving DecidableEq, Repr

/-- The coalescing timer (R185): STOPPED, RUNNING to a deadline with its anchor, or EXPIRED. -/
inductive Coalescing where
  | stopped
  | running (deadline anchor : Nat)
  | expired
  deriving DecidableEq, Repr

structure Spu where
  part : PartState
  joinDue : Option Nat
  config : Option Configuration
  held : Option Configuration
  assembly : Option Assembly
  requests : List (List Byte)
  answer : List HostRecord
  owed : Bool
  ind : List Queued
  lost : Nat
  coal : Coalescing
  /-- The bytes the part returned in the last transfer (R182). -/
  portOut : List Byte
  deriving DecidableEq, Repr

/-! ### FRE (chapter 2) -/

structure Fre where
  seq : Nat
  lastPort : Port
  parse : PortPair ParseCounters
  deriving DecidableEq, Repr

/-! ### LAU (chapter 1) -/

/-- The access states of 1.4. -/
inductive Access where
  | idle
  | receive
  | defer
  | transmit
  | jam
  | backoff
  | responseWait
  deriving DecidableEq, Repr

/-- The live kinds of R14. -/
inductive LiveKind where
  | beacon
  | airReport
  | vehicleReport
  deriving DecidableEq, Repr

/-- The units that request fixed frames (R14). -/
inductive Requester where
  | pru
  | acu
  | clu
  | aru
  deriving DecidableEq, Repr

/-- A transmit list entry (R14). -/
structure TxEntry where
  /-- Absent for a fixed entry. -/
  live : Option LiveKind
  cls : FrameClass
  order : Nat
  /-- The composed frame; absent for a live entry not yet composed. -/
  frame : Option (List Byte)
  requester : Option Requester
  /-- The request tag of the SEND_TEXT that asked for the outcome. -/
  report : Option Nat
  voiceCall : Option CallId
  relayed : Bool
  fails : Nat
  deriving DecidableEq, Repr

/-- A frame in a receive list with its arrival time in ms (R4). -/
structure RxFrame where
  bytes : List Byte
  arrival : Nat
  deriving DecidableEq, Repr

/-- One line access unit. -/
structure Lau where
  access : Access
  list : List TxEntry
  nextOrder : Nat
  /-- The queue order of the entry in service (R10). -/
  service : Option Nat
  repBeacon : Bool
  repAir : Bool
  repVehicle : Bool
  received : List RxFrame
  hearMap : List Nat
  counters : LineCounters
  carrier : Bool
  gathering : Bool
  quietAt : Nat
  holdEnd : Option Nat
  draw : Nat
  wait : Nat
  startedAt : Nat
  /-- When each presence pulse still to be driven begins, in the order of the frames that asked for it (R6). -/
  pulses : List Nat
  pulseEnd : Option Nat
  deriving DecidableEq, Repr

/-! ### PRU (chapter 3) -/

/-- A peer table entry (R39). -/
structure Peer where
  station : Nat
  port : Port
  hops : Nat
  lastHeard : Nat
  lastSeq : Nat
  present : Bool
  status : Option StatusPart
  air : Option (List AirEntry)
  refuge : Option RefugeSummary
  text : Option (List Byte)
  inCall : Bool
  deriving DecidableEq, Repr

/-- A recent-frame list entry (R45). -/
structure RecentFrame where
  origin : Nat
  seq : Nat
  port : Port
  arrival : Nat
  deriving DecidableEq, Repr

/-- A calls-heard list entry (R55). -/
structure HeardCall where
  id : CallId
  last : Nat
  callee : Option Nat
  deriving DecidableEq, Repr

structure Pru where
  peers : List Peer
  recent : List RecentFrame
  heard : List HeardCall
  beaconDue : Option Nat
  text : Option (List Byte)
  deriving DecidableEq, Repr

/-! ### ACU (chapter 4) -/

/-- A trend ring slot (R57). -/
structure Slot where
  value : Nat
  valid : Bool
  deriving DecidableEq, Repr

/-- The working state of a channel record (R57). -/
structure Channel where
  level : ChannelState
  faults : Nat
  belowZero : Bool
  acc : Nat
  value : Nat
  up : Nat
  runMin : Option ChannelState
  clear : Nat
  rising : Bool
  raised : Option Nat
  ring : Vector Slot 16
  writeIx : Fin 16
  fill : Nat
  sampleDue : Option Nat
  trendDue : Option Nat
  deriving DecidableEq, Repr

structure Acu where
  channels : Vector Channel 7
  gateCount : Nat
  gateDue : Option Nat
  deriving DecidableEq, Repr

/-! ### ZAE (chapter 5) -/

/-- A zone air record (R83). -/
structure ZoneRecord where
  state : Option ChannelState
  worst : Option Nat
  lowSense : Bool
  deriving DecidableEq, Repr

/-- The gas advance record (R88). -/
structure Advance where
  source : Nat
  distance : Nat
  eta : Option Nat
  declared : Nat
  deriving DecidableEq, Repr

structure Zae where
  records : Vector ZoneRecord 5
  advance : Option Advance
  lockout : Bool
  deriving DecidableEq, Repr

/-! ### BPK (chapter 6) -/

/-- A history request list entry (R103): from the line or from the host. -/
inductive HistoryRequest where
  | line (channel : Fin 7) (requester : Nat) (port : Port)
  | host (channel : Fin 7) (tag : Nat)
  deriving DecidableEq, Repr

/-- A granted claim (R100): a voice block of the numbered capture run, or a history entry. -/
inductive Claim where
  | voice (run : Nat)
  | history (entry : HistoryRequest)
  deriving DecidableEq, Repr

/-- The pack in flight (R100): claim, inputs, and for a history pack its base and mask (R106). -/
structure Flight where
  claim : Claim
  inputs : List Int
  base : Nat
  mask : Nat
  granted : Nat
  deriving DecidableEq, Repr

structure Bpk where
  /-- Absent while the engine is FREE. -/
  flight : Option Flight
  history : List HistoryRequest
  deriving DecidableEq, Repr

/-! ### CLU (chapter 7) -/

/-- The call context's state (R110). -/
inductive CallState where
  | idle
  | outgoing
  | ringback
  | incoming
  | connected
  | paging
  | hearingPage
  deriving DecidableEq, Repr

/-- The floor of a connected call (R110). -/
inductive Floor where
  | none
  | localSide
  | remote
  deriving DecidableEq, Repr

/-- The call context (R110), with the SETUPs requested (R114) and the page talk span (R123). Timers hold
their deadline in ms. -/
structure CallContext where
  state : CallState
  call : Option CallId
  peer : Option Nat
  floor : Option Floor
  sendSeq : Option Nat
  expectSeq : Option Nat
  setupDue : Option Nat
  ringDue : Option Nat
  silenceDue : Option Nat
  holdingDue : Option Nat
  talkDue : Option Nat
  gapDue : Option Nat
  setups : Nat
  talkSpan : Bool
  deriving DecidableEq, Repr

/-- The capture path (R125). -/
structure Capture where
  /-- The number of the run in progress. -/
  run : Option Nat
  nextRun : Nat
  /-- The block being filled; absent when no run is in progress or all 16 places are taken. -/
  filling : Option (List Int)
  /-- Completed blocks of the current run waiting for the block packer, oldest first. -/
  waiting : List (List Int)
  packed : List (List Byte)
  deriving DecidableEq, Repr

/-- The playback ring (R127). -/
structure Playback where
  blocks : List (List Int)
  /-- Samples already given of the oldest block. -/
  given : Nat
  playing : Bool
  lastBlock : Option (List Int)
  deriving DecidableEq, Repr

/-- Sample counts of the tones (R129): the alarm tone, the ring or ringback tone, the deny tone. -/
structure Tones where
  alarm : Option Nat
  ring : Option Nat
  deny : Option Nat
  deriving DecidableEq, Repr

structure Clu where
  ctx : CallContext
  hookOff : Bool
  /-- The handset has been off the hook since the start, and has not gone on yet (R130). -/
  hookStale : Bool
  nextCall : Nat
  capture : Capture
  playback : Playback
  tones : Tones
  /-- The sample last sent to the codec (R128). -/
  earpiece : Int
  deriving DecidableEq, Repr

/-! ### TGU (chapter 8) -/

/-- The record assembler (R133): state, body bytes so far, running sum. -/
inductive Assembler where
  | hunt
  | length
  | body (got : List Byte) (sum : Nat)
  | check (got : List Byte) (sum : Nat)
  deriving DecidableEq, Repr

/-- A near table entry (R135). -/
structure NearEntry where
  tag : Nat
  kind : TagKind
  strength : Int
  firstSeen : Nat
  lastSeen : Nat
  heading : Heading
  speed : Nat
  loaded : Bool
  near : Bool
  up : Nat
  down : Nat
  deriving DecidableEq, Repr

/-- Advisory codes (R36). -/
inductive AdvisoryCode where
  | proceed
  | slow
  | hold
  | evacuate
  deriving DecidableEq, Repr

/-- A lane direction (R143). -/
inductive LaneDir where
  | inbye
  | outbye
  deriving DecidableEq, Repr

/-- A truck track table entry (R141). -/
structure Track where
  tag : Nat
  kind : TagKind
  reporter : Nat
  chainage : Nat
  strength : Int
  heading : Heading
  speed : Nat
  loaded : Bool
  sighted : Nat
  lane : LaneState
  dir : Option LaneDir
  entered : Option Nat
  advisory : Option AdvisoryCode
  repeatDue : Option Nat
  deriving DecidableEq, Repr

/-- An advisory in the queue (R147). -/
structure Advisory where
  tag : Nat
  code : AdvisoryCode
  validity : Nat
  deriving DecidableEq, Repr

/-- The record the transmitter is sending (R147). -/
structure Sending where
  advisory : Advisory
  bytes : List Byte
  startedAt : Nat
  deriving DecidableEq, Repr

structure Tgu where
  assembler : Assembler
  lastByte : Nat
  counters : LinkCounters
  near : List NearEntry
  tracks : List Track
  evacHeld : Bool
  evacDue : Option Nat
  advisories : List Advisory
  /-- Absent while the transmitter is IDLE. -/
  sending : Option Sending
  deriving DecidableEq, Repr

/-! ### ARU (chapter 9) -/

/-- An alarm table entry (R152), with the test window of a TEST entry (R154). -/
structure Alarm where
  id : AlarmId
  kind : AlarmKind
  scope : Scope
  state : AlarmState
  firstHeard : Nat
  silenced : Bool
  linger : Option Nat
  testUntil : Option Nat
  deriving DecidableEq, Repr

inductive DeliverySource where
  | own
  | relay
  deriving DecidableEq, Repr

inductive DeliveryPhase where
  | queued
  | waiting
  deriving DecidableEq, Repr

/-- A delivery record (R164). -/
structure Delivery where
  id : AlarmId
  source : DeliverySource
  frame : List Byte
  alarmState : AlarmState
  transmissions : Nat
  hearMap : List Nat
  phase : DeliveryPhase
  repeatDue : Option Nat
  deriving DecidableEq, Repr

structure Aru where
  alarms : List Alarm
  deliveries : PortPair (List Delivery)
  nextNumber : Nat
  pullRef : Option Nat
  doorRef : Option Nat
  musterActive : Bool
  muster : List Nat
  overflow : Nat
  doorOpen : Bool
  deriving DecidableEq, Repr

/-! ### IOU (chapter 10) -/

/-- A debounce cell (R172): its setting while it operates, the debounced level and its timer. An IMMEDIATE
cell is READY while the timer is stopped and HOLDING while it runs (R174). -/
structure Cell where
  setting : Option CellConfig
  level : Level
  /-- The instant in microseconds at which the running timer expires, or the hold ends (R173, R174). -/
  due : Option Nat
  deriving DecidableEq, Repr

/-- The cadence generator (R175): how many 125 ms phases of the SLOW period have passed (0 to 7), and when the
next change comes. -/
structure Cadence where
  phase : Nat
  due : Nat
  deriving DecidableEq, Repr

inductive Aspect where
  | red
  | amber
  | green
  | dark
  deriving DecidableEq, Repr

inductive CadenceName where
  | steady
  | slow
  | fast
  deriving DecidableEq, Repr

structure LampSetting where
  aspect : Aspect
  cadence : CadenceName
  deriving DecidableEq, Repr

inductive SounderPattern where
  | off
  | slow
  | fast
  deriving DecidableEq, Repr

structure Iou where
  raw : Vector Level 6
  cells : Vector Cell 6
  cadence : Option Cadence
  lampOut : Option LampSetting
  lampIn : Option LampSetting
  /-- The requested pattern, which is also the sounder decision of the ARU (R167, R176). -/
  sounder : SounderPattern
  deriving DecidableEq, Repr

/-! ### The whole part -/

/-- The state of the part, unit by unit, and the queue of commands waiting. -/
structure State where
  pending : List Instr
  clock : Clock
  /-- MODEL's own: how many free values have been drawn (log 4). -/
  draws : Nat
  spu : Spu
  fre : Fre
  lau : PortPair Lau
  pru : Pru
  acu : Acu
  zae : Zae
  bpk : Bpk
  clu : Clu
  tgu : Tgu
  aru : Aru
  iou : Iou
  deriving DecidableEq, Repr

/-! ### Reset values -/

def Clock.reset : Clock := { usec := 0, secondDue := 1000, snapshotDue := 1000 }

def LineCounters.zero : LineCounters :=
  { good := .zero, crcErrors := .zero, collisions := .zero, lateCollisions := .zero, excessDrops := .zero,
    queueFullDrops := .zero, overruns := .zero, duplicates := .zero, relayedOut := .zero }

def ParseCounters.zero : ParseCounters := { malformed := .zero, unknown := .zero, bad := .zero, truncated := .zero }

def LinkCounters.zero : LinkCounters :=
  { whole := .zero, framing := .zero, overrun := .zero, checksum := .zero, bad := .zero, dropped := .zero }

/-- The SPU after a hard reset (R177, R179, R185). -/
def Spu.reset : Spu :=
  { part := .loading, joinDue := none, config := none, held := none, assembly := none, requests := [], answer := [],
    owed := false, ind := [], lost := 0, coal := .stopped, portOut := [] }

/-- The FRE after a hard reset (R28, R31, R35). -/
def Fre.reset : Fre := { seq := 0, lastPort := .B, parse := ⟨.zero, .zero⟩ }

/-- A line access unit after either reset (R23). -/
def Lau.reset : Lau :=
  { access := .idle, list := [], nextOrder := 0, service := none, repBeacon := false, repAir := false,
    repVehicle := false, received := [], hearMap := [], counters := .zero, carrier := false, gathering := false,
    quietAt := 0, holdEnd := none, draw := 0, wait := 0, startedAt := 0, pulses := [], pulseEnd := none }

/-- The PRU after either reset (R56). -/
def Pru.reset : Pru := { peers := [], recent := [], heard := [], beaconDue := none, text := none }

/-- A channel's working state after a hard reset (R80). -/
def Channel.reset : Channel :=
  { level := .unset, faults := 0, belowZero := false, acc := 0, value := 0, up := 0, runMin := none, clear := 0,
    rising := false, raised := none, ring := Vector.replicate 16 { value := 0, valid := false }, writeIx := 0,
    fill := 0, sampleDue := none, trendDue := none }

/-- The ACU after a hard reset (R80). -/
def Acu.reset : Acu := { channels := Vector.replicate 7 .reset, gateCount := 0, gateDue := none }

/-- The ZAE after either reset (R95). -/
def Zae.reset : Zae :=
  { records := Vector.replicate 5 { state := none, worst := none, lowSense := false }, advance := none,
    lockout := false }

/-- The BPK after either reset (R109). -/
def Bpk.reset : Bpk := { flight := none, history := [] }

/-- The context in IDLE: every other field absent, stopped or 0 (R110, R131). -/
def CallContext.idle : CallContext :=
  { state := .idle, call := none, peer := none, floor := none, sendSeq := none, expectSeq := none, setupDue := none,
    ringDue := none, silenceDue := none, holdingDue := none, talkDue := none, gapDue := none, setups := 0,
    talkSpan := false }

/-- The playback ring emptied: WAITING, with no last decoded block (R127). -/
def Playback.empty : Playback := { blocks := [], given := 0, playing := false, lastBlock := none }

/-- The CLU after a hard reset (R131). -/
def Clu.reset : Clu :=
  { ctx := .idle, hookOff := false, hookStale := false, nextCall := 0,
    capture := { run := none, nextRun := 0, filling := none, waiting := [], packed := [] }, playback := .empty,
    tones := { alarm := none, ring := none, deny := none }, earpiece := 0 }

/-- The TGU after either reset (R151). -/
def Tgu.reset : Tgu :=
  { assembler := .hunt, lastByte := 0, counters := .zero, near := [], tracks := [], evacHeld := false, evacDue := none,
    advisories := [], sending := none }

/-- The ARU after a hard reset (R171). -/
def Aru.reset : Aru :=
  { alarms := [], deliveries := ⟨[], []⟩, nextNumber := 0, pullRef := none, doorRef := none, musterActive := false,
    muster := [], overflow := 0, doorOpen := false }

/-- The IOU after a hard reset (R172, R175, R176). -/
def Iou.reset : Iou :=
  { raw := Vector.replicate 6 .inactive,
    cells := Vector.replicate 6 { setting := none, level := .inactive, due := none }, cadence := none,
    lampOut := none, lampIn := none, sounder := .off }

/-- The part right after a hard reset: UNCONFIGURED in phase LOADING, every unit at the value its chapter
gives (R23, R35, R56, R80, R95, R109, R131, R151, R171, R172, R176, R177, R179). -/
def State.reset : State :=
  { pending := [], clock := .reset, draws := 0, spu := .reset, fre := .reset, lau := ⟨.reset, .reset⟩, pru := .reset,
    acu := .reset, zae := .reset, bpk := .reset, clu := .reset, tgu := .reset, aru := .reset, iou := .reset }

/-! ### One update per unit -/

def State.setPending (s : State) (x : List Instr) : State := { s with pending := x }
def State.setClock (s : State) (x : Clock) : State := { s with clock := x }
def State.setDraws (s : State) (x : Nat) : State := { s with draws := x }
def State.setSpu (s : State) (x : Spu) : State := { s with spu := x }
def State.setFre (s : State) (x : Fre) : State := { s with fre := x }
def State.setLaus (s : State) (x : PortPair Lau) : State := { s with lau := x }
def State.setPru (s : State) (x : Pru) : State := { s with pru := x }
def State.setAcu (s : State) (x : Acu) : State := { s with acu := x }
def State.setZae (s : State) (x : Zae) : State := { s with zae := x }
def State.setBpk (s : State) (x : Bpk) : State := { s with bpk := x }
def State.setClu (s : State) (x : Clu) : State := { s with clu := x }
def State.setTgu (s : State) (x : Tgu) : State := { s with tgu := x }
def State.setAru (s : State) (x : Aru) : State := { s with aru := x }
def State.setIou (s : State) (x : Iou) : State := { s with iou := x }

end Sys2Proof.Machine
end

