-- ==== Sys2Proof/Machine/Ops.lean ====
section
/-! DEFINITION. The operations every unit shares: time, configuration, ports, counters, free draws, and the
intake of records into the indication queue (R184, R185). -/

namespace Sys2Proof.Machine

/-! ### Ports -/

def PortPair.get {α : Type} (x : PortPair α) : Port → α
  | .A => x.a
  | .B => x.b

def PortPair.set {α : Type} (x : PortPair α) (p : Port) (v : α) : PortPair α :=
  match p with
  | .A => { x with a := v }
  | .B => { x with b := v }

def PortPair.map {α : Type} (x : PortPair α) (f : α → α) : PortPair α := ⟨f x.a, f x.b⟩

/-- The other port of a bridging station (R48). -/
def otherPort : Port → Port
  | .A => .B
  | .B => .A

/-- The port codes of the station port records. -/
def portCode : Port → Nat
  | .A => 0
  | .B => 1

/-- The line access unit of a port. -/
def State.port (s : State) (p : Port) : Lau := s.lau.get p

def State.setPort (s : State) (p : Port) (l : Lau) : State := s.setLaus (s.lau.set p l)

/-! ### Ordered lists -/

/-- Put an element before the first one it may precede. -/
def insertBy {α : Type} (le : α → α → Bool) (x : α) : List α → List α
  | [] => [x]
  | y :: ys => if le x y then x :: y :: ys else y :: insertBy le x ys

def sortBy {α : Type} (le : α → α → Bool) : List α → List α
  | [] => []
  | x :: xs => insertBy le x (sortBy le xs)

/-- The first element that no element of the list precedes under a total preorder: the earlier one on a tie. -/
def firstBy {α : Type} (le : α → α → Bool) : List α → Option α
  | [] => none
  | x :: xs =>
    match firstBy le xs with
    | none => some x
    | some y => if le x y then some x else some y

/-! ### Time and configuration -/

/-- The 1 ms tick (00_scope 5.3). Every timer of so many ms but those of the debounce cells is a deadline on it, counted
from the start of the present tick (DESIGN CHOICE, log 35). -/
def State.ms (s : State) : Nat := s.clock.usec / 1000

/-- The 32-bit station seconds counter (00_scope 5.3). -/
def State.seconds (s : State) : Nat := s.clock.usec / 1000000 % 4294967296

/-- Whether a deadline in ms has been reached. -/
def State.dueMs (s : State) (d : Option Nat) : Bool :=
  match d with
  | none => false
  | some t => decide (t ≤ s.ms)

/-- Whether a deadline in microseconds has been reached. -/
def State.dueUs (s : State) (d : Option Nat) : Bool :=
  match d with
  | none => false
  | some t => decide (t ≤ s.clock.usec)

/-- The instant n ms after the present one, in microseconds (00_scope 5.3). -/
def State.afterMs (s : State) (n : Nat) : Nat := s.clock.usec + 1000 * n

/-- The configuration the part runs on (R180). -/
def State.cfg (s : State) : Configuration := s.spu.config.getD Configuration.blank

def State.running (s : State) : Bool := decide (s.spu.part = .running)

/-- JOINING or RUNNING. -/
def State.started (s : State) : Bool := decide (s.spu.part = .joining) || decide (s.spu.part = .running)

/-- The station's segment slot on a port; absent when the port is not configured. -/
def State.slotOf (s : State) : Port → Option Nat
  | .A => s.cfg.slotA
  | .B => s.cfg.slotB

def State.configured (s : State) (p : Port) : Bool := (s.slotOf p).isSome

/-- The port receives and pulses: configured, and the part JOINING or RUNNING (R22). -/
def State.operating (s : State) (p : Port) : Bool := s.started && s.configured p

/-- Both ports configured (3.3). -/
def State.bridging (s : State) : Bool := s.configured .A && s.configured .B

/-- Do one thing on each configured port, A before B. -/
def State.onPorts (s : State) (f : Port → State → State) : State :=
  let s := if s.configured .A then f .A s else s
  if s.configured .B then f .B s else s

/-- A bit time in microseconds (R1). -/
def State.bitTime (s : State) : Nat :=
  match s.cfg.rate with
  | .k62 => 16
  | .k125 => 8
  | .k250 => 4

/-- The vehicle link rate in bit/s; 0 when NOT_USED (R132). -/
def linkBps : LinkRate → Nat
  | .notUsed => 0
  | .r9600 => 9600
  | .r19200 => 19200
  | .r38400 => 38400
  | .r115200 => 115200

/-- Whether 100 bit times of the vehicle link have passed since an instant: ten byte times of the gap timer
(R133), or the ten bytes of an ADVISORY record (R36, R147). -/
def State.linkHundredBits (s : State) (since : Nat) : Bool :=
  decide (100000000 ≤ (s.clock.usec - since) * linkBps s.cfg.link)

/-! ### Free draws (log 4) -/

/-- A draw uniform over 0 to n − 1 (R8, R50): a free value within the range, and the state that has used it. -/
def State.drawBelow (s : State) (n : Nat) : Nat × State := (Config.freeDraw s.draws % n, s.setDraws (s.draws + 1))

/-! ### Counters (R21) -/

/-- An increment: at 65 535 the value stands and the mark is set. -/
def Counter.bump (c : Counter) : Counter :=
  if c.live = 65535 then { c with mark := true } else { c with live := c.live + 1 }

/-- A snapshot event: value and mark are copied, then cleared. -/
def Counter.snapshot (c : Counter) : Counter := { live := 0, mark := false, snap := c.live, overflow := c.mark }

def LineCounters.snapshot (c : LineCounters) : LineCounters :=
  { good := c.good.snapshot, crcErrors := c.crcErrors.snapshot, collisions := c.collisions.snapshot,
    lateCollisions := c.lateCollisions.snapshot, excessDrops := c.excessDrops.snapshot,
    queueFullDrops := c.queueFullDrops.snapshot, overruns := c.overruns.snapshot,
    duplicates := c.duplicates.snapshot, relayedOut := c.relayedOut.snapshot }

def ParseCounters.snapshot (c : ParseCounters) : ParseCounters :=
  { malformed := c.malformed.snapshot, unknown := c.unknown.snapshot, bad := c.bad.snapshot,
    truncated := c.truncated.snapshot }

def LinkCounters.snapshot (c : LinkCounters) : LinkCounters :=
  { whole := c.whole.snapshot, framing := c.framing.snapshot, overrun := c.overrun.snapshot,
    checksum := c.checksum.snapshot, bad := c.bad.snapshot, dropped := c.dropped.snapshot }

/-- Change the line counters of a port. -/
def State.count (s : State) (p : Port) (f : LineCounters → LineCounters) : State :=
  s.setPort p { s.port p with counters := f (s.port p).counters }

/-- Change the parse counters of a port. -/
def State.countParse (s : State) (p : Port) (f : ParseCounters → ParseCounters) : State :=
  s.setFre { s.fre with parse := s.fre.parse.set p (f (s.fre.parse.get p)) }

/-- Change the vehicle link counters. -/
def State.countLink (s : State) (f : LinkCounters → LinkCounters) : State :=
  s.setTgu { s.tgu with counters := f s.tgu.counters }

/-! ### The indication queue (R184) and the coalescing timer (R185) -/

/-- Urgent records: RESPONSE, ALARM_CHANGE, DELIVERY_INCOMPLETE, and the DATA record of a READ_HISTORY (the
only DATA record the queue ever holds). Every other record is routine. -/
def HostRecord.urgent : HostRecord → Bool
  | .response .. => true
  | .alarmChange .. => true
  | .deliveryIncomplete .. => true
  | .data .. => true
  | .channelState .. => false
  | .zoneState .. => false
  | .peerSilent .. => false
  | .callEvent .. => false
  | .floorDenied .. => false
  | .talkLimit .. => false
  | .txDone .. => false
  | .textReceived .. => false
  | .historyReceived .. => false

def Queued.routine (q : Queued) : Bool := !q.record.urgent

/-- Step 1 of R184: discard the oldest routine record until `need` records fit in 32, or no routine record is
left. Answers the queue and how many were discarded. `fuel` bounds the discards by the queue's length. -/
def makeRoom (need : Nat) : Nat → List Queued → List Queued × Nat
  | 0, q => (q, 0)
  | fuel + 1, q =>
    if q.length + need ≤ 32 then (q, 0)
    else if q.any Queued.routine then
      let r := makeRoom need fuel (q.eraseP Queued.routine)
      (r.1, r.2 + 1)
    else (q, 0)

/-- The lost count saturates at 255 (R184). -/
def addLost (lost n : Nat) : Nat := min 255 (lost + n)

/-- A queue that no longer holds a routine record stops the coalescing timer and clears its anchor (R185). -/
def coalAfterLoss (q : List Queued) (c : Coalescing) : Coalescing := if q.any Queued.routine then c else .stopped

/-- A routine record taken in (R185): started from STOPPED, reloaded while RUNNING but never past 255 ms after
the anchor, left alone when EXPIRED. A deadline that is already reached is an expiry (D = 0). -/
def coalAfterRoutine (now delay : Nat) : Coalescing → Coalescing
  | .stopped => if delay = 0 then .expired else .running (now + delay) now
  | .running _ anchor =>
    if min (now + delay) (anchor + 255) ≤ now then .expired else .running (min (now + delay) (anchor + 255)) anchor
  | .expired => .expired

/-- Intake of one record, or of a RESPONSE and its DATA record as a pair (R184): room is made, and either the
records are taken in, the first carrying the lost count, or they are discarded whole and counted as lost. -/
def takeInAll (rs : List HostRecord) (s : State) : State :=
  let room := makeRoom rs.length s.spu.ind.length s.spu.ind
  let coal := coalAfterLoss room.1 s.spu.coal
  let lost := addLost s.spu.lost room.2
  if room.1.length + rs.length ≤ 32 then
    match rs with
    | [] => s
    | r :: more =>
      let q := room.1 ++ { record := r, lost := lost } :: more.map (fun d => { record := d, lost := 0 })
      let coal := if r.urgent then coal else coalAfterRoutine s.ms s.cfg.coalesce coal
      s.setSpu { s.spu with ind := q, lost := 0, coal := coal }
  else
    s.setSpu { s.spu with ind := room.1, lost := addLost lost rs.length, coal := coal }

/-- Intake of one record. -/
def takeIn (r : HostRecord) (s : State) : State := takeInAll [r] s

end Sys2Proof.Machine
end

