-- ==== Sys2Proof/Machine/Flags.lean ====
section
/-! DEFINITION. What is read off the state and not stored: published states and severities (R65, R74, R152), the
evacuation condition (R145), the alarm tone condition (R128), the attention line (R185), the lamps shown and the
sounder heard (R175, R176). -/

namespace Sys2Proof.Machine

/-! ### Air -/

/-- Severity ranks (R65); STARTING and UNSET take part in no comparison. -/
def ChannelState.rank : ChannelState → Nat
  | .unset => 0
  | .starting => 0
  | .normal => 1
  | .warn => 2
  | .fault => 3
  | .trip => 4

/-- The published state (R74). -/
def Channel.published (c : Channel) : ChannelState :=
  if c.rising = true ∧ c.level = .normal then .warn else c.level

/-- A channel's working record. -/
def State.channel (s : State) (c : Fin 7) : Channel := s.acu.channels[c]

/-- A channel's configuration record (R58). -/
def State.channelCfg (s : State) (c : Fin 7) : ChannelConfig := s.cfg.channels[c]

def State.setChannel (s : State) (c : Fin 7) (x : Channel) : State :=
  s.setAcu { s.acu with channels := s.acu.channels.set c x }

/-! ### Alarms (R152) -/

inductive AlarmClass where
  | evacuation
  | warning
  | door
  | test
  deriving DecidableEq, Repr

def AlarmKind.severity : AlarmKind → Nat
  | .fire => 3
  | .evacuate => 3
  | .gas => 2
  | .vent => 2
  | .pullcord => 2
  | .refugeDoor => 1
  | .test => 0

def AlarmKind.cls : AlarmKind → AlarmClass
  | .fire => .evacuation
  | .evacuate => .evacuation
  | .gas => .evacuation
  | .vent => .warning
  | .pullcord => .warning
  | .refugeDoor => .door
  | .test => .test

/-- The order RAISED, ACKNOWLEDGED, CLEARED. -/
def AlarmState.rank : AlarmState → Nat
  | .raised => 0
  | .acknowledged => 1
  | .cleared => 2

/-- Held in state RAISED or ACKNOWLEDGED. -/
def Alarm.standing (a : Alarm) : Bool := decide (a.state ≠ .cleared)

/-- Scope the given zone, or ALL. -/
def Scope.covers (x : Scope) (zone : Nat) : Bool := decide (x = .all) || decide (x = .zone zone)

/-- Standing, and covering the own zone. -/
def State.standsHere (s : State) (a : Alarm) : Bool := a.standing && a.scope.covers s.cfg.zone

/-- The evacuation condition (R145), which is also the alarm clause of lockout (R91) and muster (R168). -/
def State.evacuation (s : State) : Bool :=
  s.aru.alarms.any (fun a => decide (a.kind.cls = .evacuation) && s.standsHere a)

/-- The alarm-tone condition (R128). -/
def State.alarmTone (s : State) : Bool :=
  s.aru.alarms.any (fun a => decide (a.kind.cls = .evacuation) && s.standsHere a && !a.silenced)

/-! ### Tags -/

/-- The persons-near count (R140). -/
def State.personsNear (s : State) : Nat := s.tgu.near.countP (fun n => decide (n.kind = .person) && n.near)

/-! ### Outputs -/

/-- The attention line (R185). -/
def State.attention (s : State) : Bool :=
  s.spu.owed
    || (!s.spu.ind.isEmpty && (s.spu.ind.any (fun q => q.record.urgent) || decide (s.spu.coal = .expired)))

/-- Whether a cadence is ON (R175). The generator runs whenever an output follows it. -/
def Iou.cadenceOn (x : Iou) : CadenceName → Bool
  | .steady => true
  | .slow => (x.cadence.map (fun g => decide (g.phase < 4))).getD false
  | .fast => (x.cadence.map (fun g => decide (g.phase % 2 = 0))).getD false

/-- What a lamp shows (R176). -/
def State.lampShown (s : State) (setting : Option LampSetting) : Aspect :=
  if s.running then
    match setting with
    | none => .red
    | some x => if s.iou.cadenceOn x.cadence then x.aspect else .dark
  else .red

/-- Whether the sounder sounds (R176). -/
def State.sounding (s : State) : Bool :=
  s.running &&
    match s.iou.sounder with
    | .off => false
    | .slow => s.iou.cadenceOn .slow
    | .fast => s.iou.cadenceOn .fast

end Sys2Proof.Machine
end

