-- ==== Sys2Proof/Machine/Operands.lean ====
section
/-! DEFINITION. What commands carry, byte by byte: the CRC, frames and sections (chapter 2), packed blocks
(chapter 6), vehicle link records, station port requests and records, and the configuration image (R180). -/

namespace Sys2Proof.Machine

/-! ### Bytes -/

/-- The low byte of a number. -/
def byteOf (n : Nat) : Byte := BitVec.ofNat 8 n

/-- Two bytes, most significant first. -/
def be16 (n : Nat) : List Byte := [byteOf (n / 256), byteOf n]

/-- Three bytes, most significant first. -/
def be24 (n : Nat) : List Byte := [byteOf (n / 65536), byteOf (n / 256), byteOf n]

/-- The byte at an offset, 0 past the end. -/
def at8 (bs : List Byte) (i : Nat) : Nat := (bs.getD i 0).toNat

/-- The two bytes at an offset. -/
def at16 (bs : List Byte) (i : Nat) : Nat := at8 bs i * 256 + at8 bs (i + 1)

/-- The three bytes at an offset. -/
def at24 (bs : List Byte) (i : Nat) : Nat := at16 bs i * 256 + at8 bs (i + 2)

/-- The byte at an offset as two's complement. -/
def signed8 (bs : List Byte) (i : Nat) : Int := (bs.getD i 0).toInt

/-- A signed byte. -/
def byteOfInt (n : Int) : Byte := BitVec.ofInt 8 n

def bit (b : Bool) (n : Nat) : Nat := if b then n else 0

/-- Zero bytes up to a multiple of 4 (R25). -/
def padTo4 (bs : List Byte) : List Byte := bs ++ List.replicate ((4 - bs.length % 4) % 4) 0

/-! ### CRC (R27) -/

def crcBit (r : BitVec 16) (b : Bool) : BitVec 16 :=
  if r.msb != b then (r <<< 1) ^^^ 0x1021#16 else r <<< 1

def crcByte (r : BitVec 16) (x : Byte) : BitVec 16 :=
  (List.range 8).foldl (fun r i => crcBit r (x.getMsbD i)) r

/-- The CRC-16 of R27 over a list of bytes. -/
def crc16 (bs : List Byte) : Nat := (bs.foldl crcByte 0xFFFF#16).toNat

/-- The bytes with their CRC appended, high byte first. -/
def withCrc (bs : List Byte) : List Byte := bs ++ be16 (crc16 bs)

/-- Whether the last two bytes are the CRC of the rest (R3, R38). -/
def crcOk (bs : List Byte) : Bool :=
  decide (2 ≤ bs.length) && crc16 (bs.take (bs.length - 2)) == at16 bs (bs.length - 2)

/-! ### Codes -/

def FrameClass.code : FrameClass → Nat
  | .alarm => 0
  | .call => 1
  | .vehicle => 2
  | .air => 3
  | .routine => 4

def FrameClass.ofCode : Nat → Option FrameClass
  | 0 => some .alarm
  | 1 => some .call
  | 2 => some .vehicle
  | 3 => some .air
  | 4 => some .routine
  | _ => none

def gasCode : GasKind → Nat
  | .methane => 0
  | .carbonMonoxide => 1
  | .oxygen => 2
  | .airVelocity => 3
  | .general => 4

def gasOf : Nat → Option GasKind
  | 0 => some .methane
  | 1 => some .carbonMonoxide
  | 2 => some .oxygen
  | 3 => some .airVelocity
  | 4 => some .general
  | _ => none

/-- The state codes of the AIR section; an UNSET channel is never reported. -/
def stateCode : ChannelState → Nat
  | .unset => 0
  | .starting => 0
  | .normal => 1
  | .warn => 2
  | .fault => 3
  | .trip => 4

def stateOf : Nat → Option ChannelState
  | 0 => some .starting
  | 1 => some .normal
  | 2 => some .warn
  | 3 => some .fault
  | 4 => some .trip
  | _ => none

def alarmKindCode : AlarmKind → Nat
  | .fire => 0
  | .evacuate => 1
  | .gas => 2
  | .vent => 3
  | .pullcord => 4
  | .refugeDoor => 5
  | .test => 6

def alarmKindOf : Nat → Option AlarmKind
  | 0 => some .fire
  | 1 => some .evacuate
  | 2 => some .gas
  | 3 => some .vent
  | 4 => some .pullcord
  | 5 => some .refugeDoor
  | 6 => some .test
  | _ => none

def alarmStateCode : AlarmState → Nat
  | .raised => 0
  | .acknowledged => 1
  | .cleared => 2

def alarmStateOf : Nat → Option AlarmState
  | 0 => some .raised
  | 1 => some .acknowledged
  | 2 => some .cleared
  | _ => none

def scopeCode : Scope → Nat
  | .zone z => z
  | .all => 63

/-- Zone 0 to 31, or 63 for ALL. -/
def scopeOf (n : Nat) : Option Scope :=
  if n ≤ 31 then some (.zone n) else if n = 63 then some .all else none

def messageCode : CallMessage → Nat
  | .setup => 0
  | .ringing => 1
  | .answer => 2
  | .floorTake => 3
  | .floorGive => 4
  | .holding => 5
  | .release => 6

def messageOf : Nat → Option CallMessage
  | 0 => some .setup
  | 1 => some .ringing
  | 2 => some .answer
  | 3 => some .floorTake
  | 4 => some .floorGive
  | 5 => some .holding
  | 6 => some .release
  | _ => none

/-- Release-reason codes; 0 is absent. -/
def reasonCode : Option ReleaseReason → Nat
  | none => 0
  | some .normal => 1
  | some .busy => 2
  | some .noAnswer => 3
  | some .lost => 4
  | some .lineFull => 5

def reasonOf : Nat → Option ReleaseReason
  | 1 => some .normal
  | 2 => some .busy
  | 3 => some .noAnswer
  | 4 => some .lost
  | 5 => some .lineFull
  | _ => none

def tagKindCode : TagKind → Nat
  | .person => 0
  | .truck => 1
  | .service => 2

def tagKindOf : Nat → Option TagKind
  | 0 => some .person
  | 1 => some .truck
  | 2 => some .service
  | _ => none

def headingCode : Heading → Nat
  | .inbye => 0
  | .outbye => 1
  | .stopped => 2

def headingOf : Nat → Option Heading
  | 0 => some .inbye
  | 1 => some .outbye
  | 2 => some .stopped
  | _ => none

/-! ### Packed blocks (R96 to R99) -/

/-- The mantissa of a value at a trial exponent (R96). -/
def mantissa (x : Nat) (v : Int) : Int := if x = 0 then v else (v + 2 ^ (x - 1)) / 2 ^ x

def mantissaFits (m : Int) : Bool := decide (-32 ≤ m) && decide (m ≤ 31)

/-- The block exponent: the smallest of 0 to 10 at which every mantissa fits, else 10 (R96, R97). -/
def blockExponent (vs : List Int) : Nat :=
  ((List.range 11).find? (fun x => vs.all (fun v => mantissaFits (mantissa x v)))).getD 10

/-- The mantissas of a block: those of its exponent, a mantissa above 31 being set to 31 (R97). -/
def blockMantissas (vs : List Int) : List Int := vs.map (fun v => min 31 (mantissa (blockExponent vs) v))

/-- The bits of a number, most significant first. -/
def bitsOf (width n : Nat) : List Bool := (List.range width).map (fun i => n.testBit (width - 1 - i))

def natOfBits (bs : List Bool) : Nat := bs.foldl (fun n b => n * 2 + bit b 1) 0

/-- Thirteen bytes from 104 bits; bit 0 is bit 7 of byte 0 (R98). -/
def bytesOfBits (bs : List Bool) : List Byte :=
  (List.range 13).map (fun i => byteOf (natOfBits ((bs.drop (8 * i)).take 8)))

/-- The packed block of sixteen values (R96 to R98). -/
def packBlock (vs : List Int) : List Byte :=
  bytesOfBits (bitsOf 4 (blockExponent vs)
    ++ ((blockMantissas vs).map (fun m => bitsOf 6 (BitVec.ofInt 6 m).toNat)).flatten ++ bitsOf 4 0)

/-- The exponent of a packed block: its first four bits (R98). -/
def packedExponent (bs : List Byte) : Nat := at8 bs 0 / 16

def packedBits (bs : List Byte) : List Bool := (bs.map (fun b => bitsOf 8 b.toNat)).flatten

/-- The mantissas of a packed block, in order (R98). -/
def packedMantissas (bs : List Byte) : List Int :=
  (List.range 16).map (fun j =>
    (BitVec.ofNat 6 (natOfBits (((packedBits bs).drop (4 + 6 * j)).take 6))).toInt)

/-- Expansion in voice form (R99). -/
def expandVoice (bs : List Byte) : List Int := (packedMantissas bs).map (fun m => m * 2 ^ packedExponent bs)

/-- Whether slot j of a validity mask is valid: bit 15 − j (R99, R106). -/
def maskBit (mask j : Nat) : Bool := mask.testBit (15 - j)

/-- Expansion in history form (R99). -/
def expandHistory (base mask : Nat) (bs : List Byte) : List Nat :=
  (List.range 16).map (fun j =>
    if maskBit mask j then
      (min 65535 (max 0 ((base : Int) + (packedMantissas bs).getD j 0 * 2 ^ packedExponent bs))).toNat
    else 0)

/-! ### Sections (R25) -/

/-- One record of an ALARM section. -/
structure AlarmRecord where
  id : AlarmId
  kind : AlarmKind
  state : AlarmState
  scope : Scope
  age : Nat
  deriving DecidableEq, Repr

/-- One tag entry of a VEHICLE section. -/
structure TagEntry where
  tag : Nat
  kind : TagKind
  heading : Heading
  loaded : Bool
  strength : Int
  speed : Nat
  deriving DecidableEq, Repr

/-- The known section kinds with their content (R25). -/
inductive FrameSection where
  | status (chainage zone roadway slot : Nat) (airflowNeg running bridge refuge operator : Bool) (held : Nat)
  | air (entries : List AirEntry)
  | history (channel interval base mask : Nat) (block : List Byte)
  | alarm (records : List AlarmRecord)
  | call (id : CallId) (message : CallMessage) (callee : Nat) (reason : Option ReleaseReason)
  | voice (id : CallId) (seq : Nat) (blocks : List (List Byte))
  | vehicle (persons : Nat) (tags : List TagEntry)
  | refuge (summary : RefugeSummary)
  | historyRequest (channel : Nat)
  | text (sticky : Bool) (text : List Byte)
  deriving DecidableEq, Repr

def FrameSection.kind : FrameSection → Nat
  | .status .. => 1
  | .air .. => 2
  | .history .. => 3
  | .alarm .. => 4
  | .call .. => 5
  | .voice .. => 6
  | .vehicle .. => 7
  | .refuge .. => 8
  | .historyRequest .. => 9
  | .text .. => 10

def airEntryBytes (e : AirEntry) : List Byte :=
  [byteOf (e.channel * 16 + gasCode e.kind), byteOf (stateCode e.state * 16 + bit e.rising 1)] ++ be16 e.value

def alarmRecordBytes (r : AlarmRecord) : List Byte :=
  be16 (r.id.origin * 16 + alarmKindCode r.kind) ++ [byteOf r.id.number]
    ++ [byteOf (alarmStateCode r.state * 64 + scopeCode r.scope)] ++ be16 r.age

def tagEntryBytes (t : TagEntry) : List Byte :=
  be24 t.tag ++ [byteOf (tagKindCode t.kind * 64 + headingCode t.heading * 16 + bit t.loaded 1)]
    ++ [byteOfInt t.strength] ++ be16 t.speed ++ [0]

/-- The bytes of a section after its head, before padding. -/
def FrameSection.body : FrameSection → List Byte
  | .status chainage zone roadway slot neg run isBridge isRefuge isOperator held =>
    be16 chainage ++ [byteOf zone, byteOf roadway, byteOf (slot * 4 + bit neg 2 + bit run 1),
      byteOf (bit isBridge 128 + bit isRefuge 64 + bit isOperator 32 + held)]
  | .air entries => [byteOf entries.length, 0] ++ (entries.map airEntryBytes).flatten
  | .history channel interval base mask block =>
    [byteOf channel, byteOf interval] ++ be16 base ++ be16 mask ++ block ++ [0, 0, 0]
  | .alarm records => [byteOf records.length, 0] ++ (records.map alarmRecordBytes).flatten
  | .call id message callee reason =>
    be16 (id.caller * 16 + messageCode message) ++ [byteOf id.number] ++ be16 (callee * 16 + reasonCode reason) ++ [0]
  | .voice id seq blocks =>
    be16 (id.caller * 16 + blocks.length) ++ [byteOf id.number, byteOf seq] ++ blocks.flatten
  | .vehicle persons tags => [byteOf persons, byteOf tags.length] ++ (tags.map tagEntryBytes).flatten
  | .refuge r =>
    [byteOf (bit r.active 128 + bit r.doorOpen 1), byteOf r.muster] ++ be16 r.overflow ++ [0, 0]
  | .historyRequest channel => [byteOf channel, 0]
  | .text sticky words => [byteOf (bit sticky 1), byteOf words.length] ++ words

/-- A section's bytes: head (next kind, length in 4-byte units), body, padding (R25). -/
def FrameSection.encode (next : Nat) (x : FrameSection) : List Byte :=
  let whole := padTo4 ([0, 0] ++ x.body)
  byteOf next :: byteOf (whole.length / 4) :: whole.drop 2

/-- A section's length in bytes. -/
def FrameSection.size (x : FrameSection) : Nat := (x.encode 0).length

/-- The chained bytes of a list of sections: each head names the next kind, the last END (R25, R28). -/
def chainBytes : List FrameSection → List Byte
  | [] => []
  | [x] => x.encode 0
  | x :: y :: rest => x.encode y.kind ++ chainBytes (y :: rest)

/-- The sections that fit, in order: a section that would take the total past 244 bytes or would be the ninth
is left out, and the next is tried (R30). -/
def fitSections (xs : List FrameSection) : List FrameSection :=
  (xs.foldl
    (fun (acc : List FrameSection × Nat) x =>
      if acc.1.length < 8 ∧ acc.2 + x.size ≤ 244 then (acc.1 ++ [x], acc.2 + x.size) else acc)
    ([], 0)).1

/-- What the header of a frame says (R24). -/
structure FrameHeader where
  origin : Nat
  hops : Nat
  dest : Nat
  cls : Nat
  mapRequest : Bool
  seq : Nat
  firstKind : Nat
  sectionBytes : Nat
  deriving DecidableEq, Repr

/-- The header fields of a frame's bytes (R24). -/
def headerOf (f : List Byte) : FrameHeader :=
  { origin := at8 f 0 * 16 + at8 f 1 / 16, hops := at8 f 1 % 16, dest := at8 f 2 * 16 + at8 f 3 / 16,
    cls := at8 f 3 % 16 / 2, mapRequest := at8 f 3 % 2 == 1, seq := at16 f 4, firstKind := at8 f 6,
    sectionBytes := at8 f 7 }

def headerBytes (h : FrameHeader) : List Byte :=
  [byteOf (h.origin / 16), byteOf (h.origin % 16 * 16 + h.hops), byteOf (h.dest / 16),
    byteOf (h.dest % 16 * 16 + h.cls * 2 + bit h.mapRequest 1)] ++ be16 h.seq
    ++ [byteOf h.firstKind, byteOf h.sectionBytes]

/-- A composed frame (R28, R30): hops 0, the sections that fit, the CRC. -/
def buildFrame (origin dest : Nat) (cls : FrameClass) (mapRequest : Bool) (seq : Nat) (xs : List FrameSection) :
    List Byte :=
  let kept := fitSections xs
  let chain := chainBytes kept
  withCrc (headerBytes
    { origin := origin, hops := 0, dest := dest, cls := cls.code, mapRequest := mapRequest, seq := seq,
      firstKind := (kept.head?.map FrameSection.kind).getD 0, sectionBytes := chain.length } ++ chain)

/-- A relayed copy (R29): hops incremented, CRC recomputed, every other byte as received. -/
def relayCopy (f : List Byte) : List Byte :=
  withCrc ((f.take (f.length - 2)).set 1 (byteOf (at8 f 1 + 1)))

/-- What identifies a frame: origin and sequence (R24). -/
def frameKey (f : List Byte) : Nat × Nat := ((headerOf f).origin, (headerOf f).seq)

/-! ### Parsing (R26, R31, R32) -/

/-- The header check of R31: true when the frame is malformed. -/
def headerBad (f : List Byte) : Bool :=
  let h := headerOf f
  decide (5 ≤ h.cls) || h.origin == 0 || h.origin == 4095 || h.dest == 0 || decide (244 < h.sectionBytes)
    || h.sectionBytes % 4 != 0 || f.length != 10 + h.sectionBytes

/-- The walk of R32 over the section bytes: each section's kind and bytes, or none when the chain is
malformed. -/
def walkChain : Nat → Nat → List Byte → Option (List (Nat × List Byte))
  | 0, _, _ => none
  | fuel + 1, kind, rest =>
    if kind = 0 then (if rest.isEmpty then some [] else none)
    else
      let units := at8 rest 1
      if rest.isEmpty ∨ units = 0 ∨ 61 < units ∨ rest.length < 4 * units then none
      else
        (walkChain fuel (at8 rest 0) (rest.drop (4 * units))).map (fun more => (kind, rest.take (4 * units)) :: more)

/-- The chain of a frame whose header passes: 244 section bytes hold at most 61 sections. -/
def chainOf (f : List Byte) : Option (List (Nat × List Byte)) :=
  walkChain 62 (headerOf f).firstKind ((f.drop 8).take (f.length - 10))

/-- Apply a reader to each of n entries; none as soon as one entry is out of range. -/
def readEach {α : Type} (n : Nat) (f : Nat → Option α) : Option (List α) := (List.range n).mapM f

def roundUp4 (n : Nat) : Nat := (n + 3) / 4 * 4

def readAirEntry (b : List Byte) (o : Nat) : Option AirEntry := do
  let kind ← gasOf (at8 b o % 16)
  let state ← stateOf (at8 b (o + 1) / 16)
  let channel := at8 b o / 16
  if 6 < channel then none
  else if channel = 6 ∧ kind ≠ .airVelocity then none
  else some { channel := channel, kind := kind, state := state, rising := at8 b (o + 1) % 2 == 1,
              value := at16 b (o + 2) }

def readAlarmRecord (b : List Byte) (o : Nat) : Option AlarmRecord := do
  let origin := at16 b o / 16
  let kind ← alarmKindOf (at16 b o % 16)
  let state ← alarmStateOf (at8 b (o + 3) / 64)
  let scope ← scopeOf (at8 b (o + 3) % 64)
  if origin = 0 ∨ origin = 4095 then none
  else some { id := ⟨origin, at8 b (o + 2)⟩, kind := kind, state := state, scope := scope, age := at16 b (o + 4) }

def readTagEntry (b : List Byte) (o : Nat) : Option TagEntry := do
  let tag := at24 b o
  let kind ← tagKindOf (at8 b (o + 3) / 64)
  let heading ← headingOf (at8 b (o + 3) / 16 % 4)
  let strength := signed8 b (o + 4)
  let speed := at16 b (o + 5)
  if tag = 0 ∨ tag = 16777215 ∨ 0 < strength ∨ strength < -120 ∨ 800 < speed then none
  else some { tag := tag, kind := kind, heading := heading, loaded := at8 b (o + 3) % 2 == 1, strength := strength,
              speed := speed }

def readBlock (b : List Byte) (o : Nat) : Option (List Byte) :=
  let blk := (b.drop o).take 13
  if 10 < packedExponent blk then none else some blk

/-- Two entries with the same channel number (R26). -/
def channelsDistinct (es : List AirEntry) : Bool := decide (es.map AirEntry.channel).Nodup

/-- A section of a known kind, from its bytes (head included); none when it is out of range (R26). -/
def readSection (kind : Nat) (b : List Byte) : Option FrameSection :=
  match kind with
  | 1 =>
    if b.length = 8 ∧ at8 b 4 ≤ 31 ∧ at8 b 7 % 32 ≤ 16 then
      some (.status (at16 b 2) (at8 b 4) (at8 b 5) (at8 b 6 / 4) (at8 b 6 / 2 % 2 == 1) (at8 b 6 % 2 == 1)
        (at8 b 7 / 128 == 1) (at8 b 7 / 64 % 2 == 1) (at8 b 7 / 32 % 2 == 1) (at8 b 7 % 32))
    else none
  | 2 =>
    let e := at8 b 2
    if 1 ≤ e ∧ e ≤ 7 ∧ b.length = 4 + 4 * e then
      (readEach e (fun j => readAirEntry b (4 + 4 * j))).bind
        (fun es => if channelsDistinct es then some (.air es) else none)
    else none
  | 3 =>
    if b.length = 24 ∧ at8 b 2 ≤ 6 ∧ 1 ≤ at8 b 3 ∧ at8 b 3 ≤ 60 then
      (readBlock b 8).map (fun blk => .history (at8 b 2) (at8 b 3) (at16 b 4) (at16 b 6) blk)
    else none
  | 4 =>
    let a := at8 b 2
    if 1 ≤ a ∧ a ≤ 6 ∧ b.length = roundUp4 (4 + 6 * a) then
      (readEach a (fun j => readAlarmRecord b (4 + 6 * j))).map .alarm
    else none
  | 5 =>
    let caller := at16 b 2 / 16
    let callee := at16 b 5 / 16
    let reason := at16 b 5 % 16
    match messageOf (at16 b 2 % 16) with
    | none => none
    | some m =>
      if b.length = 8 ∧ caller ≠ 0 ∧ caller ≠ 4095 ∧ callee ≠ 0 ∧ reason ≤ 5 ∧ (reason ≠ 0 ↔ m = .release) then
        some (.call ⟨caller, at8 b 4⟩ m callee (reasonOf reason))
      else none
  | 6 =>
    let caller := at16 b 2 / 16
    let n := at16 b 2 % 16
    if 1 ≤ n ∧ n ≤ 8 ∧ caller ≠ 0 ∧ caller ≠ 4095 ∧ b.length = roundUp4 (6 + 13 * n) then
      (readEach n (fun j => readBlock b (6 + 13 * j))).map (.voice ⟨caller, at8 b 4⟩ (at8 b 5))
    else none
  | 7 =>
    let t := at8 b 3
    if at8 b 2 ≤ 64 ∧ t ≤ 8 ∧ b.length = 4 + 8 * t then
      (readEach t (fun j => readTagEntry b (4 + 8 * j))).map (.vehicle (at8 b 2))
    else none
  | 8 =>
    let active := at8 b 2 / 128 == 1
    if b.length = 8 ∧ at8 b 3 ≤ 64 ∧ (active = false → at8 b 3 = 0 ∧ at16 b 4 = 0) then
      some (.refuge { active := active, doorOpen := at8 b 2 % 2 == 1, muster := at8 b 3, overflow := at16 b 4 })
    else none
  | 9 => if b.length = 4 ∧ at8 b 2 ≤ 6 then some (.historyRequest (at8 b 2)) else none
  | 10 =>
    let x := at8 b 3
    if 1 ≤ x ∧ x ≤ 200 ∧ b.length = roundUp4 (4 + x) then some (.text (at8 b 2 % 2 == 1) ((b.drop 4).take x)) else none
  | _ => none

/-! ### Vehicle link records (R36) -/

/-- The checksum byte: it makes length, record and checksum sum to 0 modulo 256. -/
def linkChecksum (rest : List Byte) : Byte := byteOf (256 - (rest.map BitVec.toNat).sum % 256)

def advisoryCodeOf : AdvisoryCode → Nat
  | .proceed => 0
  | .slow => 1
  | .hold => 2
  | .evacuate => 3

/-- An ADVISORY record as sent: start byte, length 7, record, checksum (R36). -/
def advisoryBytes (a : Advisory) : List Byte :=
  let rest := [7, 2] ++ be24 a.tag ++ [byteOf (advisoryCodeOf a.code), byteOf a.validity, 0]
  0xC3#8 :: rest ++ [linkChecksum rest]

/-- A sighting (R36). -/
structure Sighting where
  tag : Nat
  kind : TagKind
  heading : Heading
  loaded : Bool
  strength : Int
  speed : Nat
  deriving DecidableEq, Repr

/-- A SIGHTING from its eight record bytes; none when the type is not 1 or a field is out of range (R36). -/
def readSighting (b : List Byte) : Option Sighting := do
  let kind ← tagKindOf (at8 b 4 / 64)
  let heading ← headingOf (at8 b 4 / 16 % 4)
  let strength := signed8 b 5
  if at8 b 0 ≠ 1 ∨ at24 b 1 = 0 ∨ at24 b 1 = 16777215 ∨ 0 < strength ∨ strength < -120 ∨ 800 < at16 b 6 then none
  else some { tag := at24 b 1, kind := kind, heading := heading, loaded := at8 b 4 % 2 == 1, strength := strength,
              speed := at16 b 6 }

/-! ### Requests (R37) -/

/-- A request record whose fields pass R37. -/
inductive Request where
  | configure (index : Nat) (last : Bool) (image : List Byte)
  | start
  | restart
  | placeCall (callee : Nat)
  | releaseCall
  | raiseAlarm (kind : AlarmKind) (scope : Scope)
  | acknowledgeAlarm (id : AlarmId)
  | clearAlarm (id : AlarmId)
  | silence
  | sendText (dest : Nat) (sticky report : Bool) (text : List Byte)
  | readHistory (channel : Fin 7)
  | readChannel (channel : Fin 7)
  | readPeers
  | readAlarms
  | readTags
  | readCounters
  | requestHistory (dest channel : Nat)
  deriving DecidableEq, Repr

def requestKind (r : List Byte) : Nat := at8 r 0

def requestTag (r : List Byte) : Nat := at8 r 1

def channelOf (n : Nat) : Option (Fin 7) := if h : n < 7 then some ⟨n, h⟩ else none

/-- The record check of R37: the request a record spells, or none when its kind, length or a field is wrong.
The list holds the bytes the length byte counts. -/
def readRequest (r : List Byte) : Option Request :=
  let n := r.length
  match requestKind r with
  | 1 =>
    if 5 ≤ n ∧ n ≤ 244 ∧ at8 r 2 ≤ 3 ∧ at8 r 3 ≤ 1 then some (.configure (at8 r 2) (at8 r 3 == 1) (r.drop 4)) else none
  | 2 => if n = 2 then some .start else none
  | 3 => if n = 2 then some .restart else none
  | 4 => if n = 4 ∧ 1 ≤ at16 r 2 ∧ at16 r 2 ≤ 4095 then some (.placeCall (at16 r 2)) else none
  | 5 => if n = 2 then some .releaseCall else none
  | 6 =>
    if n = 4 then (alarmKindOf (at8 r 2)).bind (fun k => (scopeOf (at8 r 3)).map (.raiseAlarm k)) else none
  | 7 => if n = 5 ∧ stationOk (at16 r 2) then some (.acknowledgeAlarm ⟨at16 r 2, at8 r 4⟩) else none
  | 8 => if n = 5 ∧ stationOk (at16 r 2) then some (.clearAlarm ⟨at16 r 2, at8 r 4⟩) else none
  | 9 => if n = 2 then some .silence else none
  | 10 =>
    if 6 ≤ n ∧ n ≤ 205 ∧ 1 ≤ at16 r 2 ∧ at16 r 2 ≤ 4095 then
      some (.sendText (at16 r 2) (at8 r 4 % 2 == 1) (at8 r 4 / 2 % 2 == 1) (r.drop 5))
    else none
  | 11 => if n = 3 then (channelOf (at8 r 2)).map .readHistory else none
  | 12 => if n = 3 then (channelOf (at8 r 2)).map .readChannel else none
  | 13 => if n = 2 then some .readPeers else none
  | 14 => if n = 2 then some .readAlarms else none
  | 15 => if n = 2 then some .readTags else none
  | 16 => if n = 2 then some .readCounters else none
  | 17 => if n = 5 ∧ stationOk (at16 r 2) ∧ at8 r 4 ≤ 6 then some (.requestHistory (at16 r 2) (at8 r 4)) else none
  | _ => none

/-! ### Records from the part (2.8) -/

def ResponseCode.code : ResponseCode → Nat
  | .ok => 0
  | .badState => 1
  | .notPermitted => 2
  | .notAcknowledged => 3
  | .badArgument => 4
  | .lineFull => 5
  | .busy => 6
  | .noSuch => 7

def alarmChangeCode : AlarmChange → Nat
  | .added => 0
  | .advanced => 1
  | .removed => 2

def callEventCode : CallEvent → Nat
  | .incoming => 0
  | .ringback => 1
  | .connected => 2
  | .released => 3
  | .pageHeard => 4
  | .pageEnded => 5

def txOutcomeCode : TxOutcome → Nat
  | .sent => 0
  | .excess => 1
  | .evicted => 2
  | .dropped => 3

def laneStateCode : LaneState → Nat
  | .outside => 0
  | .approaching => 1
  | .inSection => 2

def flag (b : Bool) : Byte := byteOf (bit b 1)

/-- STATUS byte 7, bits 7 to 5 (R25). -/
def roleByte (st : StatusPart) : Byte := byteOf (bit st.bridge 128 + bit st.refuge 64 + bit st.operator 32)

/-- Item kind and fields of a data item. -/
def DataItem.bytes : DataItem → List Byte
  | .peer station port hops present age status inCall refuge =>
    [1] ++ be16 station ++ [byteOf (portCode port), byteOf hops, flag present] ++ be16 age
      ++ (match status with
          | none => [0, 0, 0, 0, 0, 0]
          | some st => [1] ++ be16 st.chainage ++ [byteOf st.zone, byteOf st.roadway, roleByte st])
      ++ [flag inCall]
      ++ (match refuge with
          | none => [0, 0, 0, 0, 0, 0]
          | some r => [1, flag r.active, byteOf r.muster] ++ be16 r.overflow ++ [flag r.doorOpen])
  | .alarm id kind scope state age silenced =>
    [2] ++ be16 id.origin
      ++ [byteOf id.number, byteOf (alarmKindCode kind), byteOf (scopeCode scope), byteOf (alarmStateCode state)]
      ++ be16 age ++ [flag silenced]
  | .near tag kind strength isNear age =>
    [3] ++ be24 tag ++ [byteOf (tagKindCode kind), byteOfInt strength, flag isNear, byteOf age]
  | .track tag reporter chainage heading speed loaded lane age =>
    [4] ++ be24 tag ++ be16 reporter ++ be16 chainage ++ [byteOf (headingCode heading)] ++ be16 speed
      ++ [flag loaded, byteOf (laneStateCode lane), byteOf age]
  | .channel ch kind state rising value raised =>
    [5, byteOf ch, byteOf (gasCode kind), byteOf (stateCode state), flag rising] ++ be16 value
      ++ [flag raised.isSome, byteOf (raised.getD 0)]
  | .counters port snaps overs =>
    [6, byteOf port] ++ (snaps.map be16).flatten ++ be16 (natOfBits overs)
  | .history ch interval mask values =>
    [7, byteOf ch, byteOf interval] ++ be16 mask ++ (values.map be16).flatten

def callIdBytes (id : CallId) : List Byte := be16 id.caller ++ [byteOf id.number]

/-- Kind byte of a record. -/
def HostRecord.kind : HostRecord → Nat
  | .response .. => 128
  | .data .. => 129
  | .channelState .. => 130
  | .zoneState .. => 131
  | .peerSilent .. => 132
  | .alarmChange .. => 133
  | .deliveryIncomplete .. => 134
  | .callEvent .. => 135
  | .floorDenied .. => 136
  | .talkLimit .. => 137
  | .txDone .. => 138
  | .textReceived .. => 139
  | .historyReceived .. => 140

/-- The fields of a record after its lost count. -/
def HostRecord.fields : HostRecord → List Byte
  | .response tag kind code detail count =>
    [byteOf tag, byteOf kind, byteOf code.code, byteOf detail, byteOf count]
  | .data tag item => byteOf tag :: item.bytes
  | .channelState ch state rising value => [byteOf ch, byteOf (stateCode state), flag rising] ++ be16 value
  | .zoneState kind state worst =>
    [byteOf (gasCode kind), byteOf ((state.map stateCode).getD 0)] ++ be16 worst
  | .peerSilent station => be16 station
  | .alarmChange id kind scope state change =>
    be16 id.origin ++ [byteOf id.number, byteOf (alarmKindCode kind), byteOf (scopeCode scope),
      byteOf (alarmStateCode state), byteOf (alarmChangeCode change)]
  | .deliveryIncomplete id port missing =>
    be16 id.origin ++ [byteOf id.number, byteOf (portCode port), byteOf missing]
  | .callEvent event id peer reason =>
    [byteOf (callEventCode event)] ++ callIdBytes id ++ be16 peer ++ [byteOf (reasonCode reason)]
  | .floorDenied id => callIdBytes id
  | .talkLimit id => callIdBytes id
  | .txDone tag port outcome => [byteOf tag, byteOf (portCode port), byteOf (txOutcomeCode outcome)]
  | .textReceived origin sticky text => be16 origin ++ [flag sticky] ++ text
  | .historyReceived origin ch interval mask values =>
    be16 origin ++ [byteOf ch, byteOf interval] ++ be16 mask ++ (values.map be16).flatten

/-- A record as it leaves the part: length byte, kind, lost count, fields (2.8). -/
def recordBytes (r : HostRecord) (lost : Nat) : List Byte :=
  let rest := [byteOf r.kind, byteOf lost] ++ r.fields
  byteOf rest.length :: rest

/-! ### The configuration image (R38, R58, R180) -/

/-- How a field is encoded: bytes, and whether two's complement. -/
structure FieldForm where
  width : Nat
  signed : Bool
  deriving DecidableEq, Repr

/-- The fifteen fields of one channel record, in order (R180, R38): kind, sense, FS, Z, G, Kq, k, L1, L2, H, N,
M, rise limit, trend interval, auto-alarm enable. -/
def channelForms : List FieldForm :=
  [⟨1, false⟩, ⟨1, false⟩, ⟨2, false⟩, ⟨1, true⟩, ⟨2, false⟩, ⟨2, false⟩, ⟨1, false⟩, ⟨2, false⟩, ⟨2, false⟩,
    ⟨2, false⟩, ⟨1, false⟩, ⟨1, false⟩, ⟨2, false⟩, ⟨1, false⟩, ⟨1, false⟩]

/-- The encoding of fields 1 to 143, in index order (R180, R38). -/
def fieldForms : List FieldForm :=
  [⟨2, false⟩, ⟨1, false⟩, ⟨1, false⟩, ⟨1, false⟩, ⟨1, false⟩, ⟨1, false⟩, ⟨1, false⟩, ⟨1, false⟩, ⟨2, false⟩,
    ⟨1, false⟩, ⟨1, false⟩, ⟨1, false⟩, ⟨1, false⟩, ⟨1, false⟩, ⟨1, false⟩, ⟨2, false⟩]
    ++ (List.replicate 7 channelForms).flatten
    ++ [⟨1, false⟩, ⟨2, false⟩, ⟨2, false⟩, ⟨2, false⟩, ⟨1, true⟩, ⟨1, true⟩, ⟨1, false⟩, ⟨2, false⟩, ⟨1, false⟩]
    ++ List.replicate 12 ⟨1, false⟩ ++ [⟨1, false⟩]

/-- The image length: every field, and two bytes of CRC. -/
def imageLength : Nat := (fieldForms.map FieldForm.width).sum + 2

/-- The value of one field at an offset. -/
def readField (f : FieldForm) (bs : List Byte) (o : Nat) : Int :=
  if f.width = 2 then at16 bs o else if f.signed then signed8 bs o else at8 bs o

/-- The values of the fields from an offset on. -/
def readFields : List FieldForm → List Byte → Nat → List Int
  | [], _, _ => []
  | f :: fs, bs, o => readField f bs o :: readFields fs bs (o + f.width)

/-- The fields of an image; field i of R180 is at place i − 1. -/
abbrev RawImage := List Int

def RawImage.field (r : RawImage) (i : Nat) : Int := r.getD (i - 1) 0

def RawImage.yes (r : RawImage) (i : Nat) : Bool := r.field i == 1

def RawImage.nat (r : RawImage) (i : Nat) : Nat := (r.field i).toNat

def inRange (lo hi v : Int) : Bool := decide (lo ≤ v) && decide (v ≤ hi)

/-- Whether field f (0 to 14) of channel c passes R58; a condition that joins two fields is charged to the
later one. Fields 1 to 14 of a channel whose kind is absent are not checked. -/
def channelFieldOk (r : RawImage) (c f : Nat) : Bool :=
  let x := fun k => r.field (17 + 15 * c + k)
  let v := x f
  let top := 3 * x 2 / 2
  let low := x 1 == 1
  if f = 0 then
    if c = 6 then v == 255 || v == 3 else v == 255 || inRange 0 4 v
  else if x 0 == 255 then true
  else
    match f with
    | 1 => inRange 0 1 v
    | 2 => inRange 1 20000 v
    | 3 => inRange (-128) 127 v
    | 4 => inRange 12288 20480 v
    | 5 => inRange 1 65535 v
    | 6 => inRange 0 4 v
    | 7 => inRange 0 top v
    | 8 => inRange 0 top v && (if low then decide (v < x 7) else decide (x 7 < v))
    | 9 => inRange 0 (x 2 / 4) v
    | 10 => inRange 1 15 v
    | 11 => inRange 1 15 v
    | 12 => inRange 0 top v && (!low || v == 0)
    | 13 => inRange 1 60 v
    | _ => inRange 0 1 v

/-- Whether field i (1 to 143) passes the table of R180. -/
def fieldOk (r : RawImage) (i : Nat) : Bool :=
  let v := r.field i
  if 17 ≤ i ∧ i ≤ 121 then channelFieldOk r ((i - 17) / 15) ((i - 17) % 15)
  else if 131 ≤ i ∧ i ≤ 142 then
    if i % 2 = 1 then (if i = 141 then v == 1 else inRange 0 1 v) else inRange 1 255 v
  else
    match i with
    | 1 => inRange 1 4094 v
    | 2 => inRange 0 1 v
    | 3 => !r.yes 2 || inRange 0 63 v
    | 4 => inRange 0 1 v && (r.yes 2 || v == 1)
    | 5 => !r.yes 4 || inRange 0 63 v
    | 6 => inRange 0 2 v
    | 7 => inRange 0 31 v
    | 8 => inRange 0 255 v
    | 9 => inRange 0 65535 v
    | 10 => inRange 0 1 v
    | 11 => inRange 0 1 v
    | 12 => inRange 0 1 v
    | 13 => inRange 1 10 v
    | 14 => inRange 3 60 v
    | 15 => inRange 1 15 v
    | 16 => inRange 0 600 v
    | 122 => inRange 0 1 v
    | 123 => !r.yes 122 || inRange 0 65535 v
    | 124 => !r.yes 122 || (inRange 0 65535 v && decide (r.field 123 ≤ v))
    | 125 => !r.yes 122 || inRange 10 500 v
    | 126 => inRange (-120) 0 v
    | 127 => inRange (-120) 0 v
    | 128 => inRange 5 60 v
    | 129 => inRange 0 4094 v && v != r.field 1
    | 130 => inRange 0 255 v
    | 143 => inRange 0 4 v
    | _ => false

/-- The check of R180: the index of the first bad field, or none when the image passes. A length or CRC
failure is charged to field 144. -/
def imageFault (bs : List Byte) : Option Nat :=
  if bs.length ≠ imageLength then some 144
  else if !crcOk bs then some 144
  else ((List.range 143).map (· + 1)).find? (fun i => !fieldOk (readFields fieldForms bs 0) i)

def lineRateOf : Nat → LineRate
  | 0 => .k62
  | 1 => .k125
  | _ => .k250

def linkRateOf : Nat → LinkRate
  | 0 => .notUsed
  | 1 => .r9600
  | 2 => .r19200
  | 3 => .r38400
  | _ => .r115200

/-- The channel record c of an image. -/
def channelConfigOf (r : RawImage) (c : Nat) : ChannelConfig :=
  let o := 17 + 15 * c
  { kind := if r.field o == 255 then none else gasOf (r.nat o), lowSense := r.yes (o + 1), fs := r.nat (o + 2),
    z := r.field (o + 3), g := r.nat (o + 4), kq := r.nat (o + 5), k := r.nat (o + 6), l1 := r.nat (o + 7),
    l2 := r.nat (o + 8), h := r.nat (o + 9), n := r.nat (o + 10), m := r.nat (o + 11), rise := r.nat (o + 12),
    interval := r.nat (o + 13), autoAlarm := r.yes (o + 14) }

/-- The configuration an image spells (R180). -/
def configurationOf (bs : List Byte) : Configuration :=
  let r : RawImage := readFields fieldForms bs 0
  { station := r.nat 1, slotA := if r.yes 2 then some (r.nat 3) else none,
    slotB := if r.yes 4 then some (r.nat 5) else none, rate := lineRateOf (r.nat 6), zone := r.nat 7,
    roadway := r.nat 8, chainage := r.nat 9, airflowNeg := r.yes 10, refuge := r.yes 11, operator := r.yes 12,
    beacon := r.nat 13, silent := r.nat 14, relay := r.nat 15, lockout := r.nat 16,
    channels := Vector.ofFn (fun c : Fin 7 => channelConfigOf r c.val),
    lane := if r.yes 122 then some { pLow := r.nat 123, pHigh := r.nat 124, approach := r.nat 125 } else none,
    nearThreshold := r.field 126, musterThreshold := r.field 127, tagExpiry := r.nat 128, hotline := r.nat 129,
    coalesce := r.nat 130,
    cells := Vector.ofFn (fun i : Fin 6 => { immediate := r.yes (131 + 2 * i.val), t := r.nat (132 + 2 * i.val) }),
    link := linkRateOf (r.nat 143) }

/-- The image as the configuration, when it passes (R180). -/
def readImage (bs : List Byte) : Except Nat Configuration :=
  match imageFault bs with
  | none => .ok (configurationOf bs)
  | some i => .error i

end Sys2Proof.Machine
end

