-- ==== Sys2Proof/Machine/Compose.lean ====
section
/-! DEFINITION. Composing frames: the sections the units supply (R51, R52, R77, R140, R152, R169), the sequence
counter (R28), and the three live kinds (R17). -/

namespace Sys2Proof.Machine

/-- The STATUS section for port p (R51). -/
def State.statusSection (s : State) (p : Port) : FrameSection :=
  .status s.cfg.chainage s.cfg.zone s.cfg.roadway ((s.slotOf p).getD 0) s.cfg.airflowNeg true s.bridging s.cfg.refuge
    s.cfg.operator (s.aru.alarms.countP Alarm.standing)

/-- The AIR entry of one channel; none when its level state is UNSET (R77). -/
def State.airEntry (s : State) (c : Fin 7) : Option AirEntry :=
  match (s.channelCfg c).kind with
  | none => none
  | some kind =>
    if (s.channel c).level = .unset then none
    else some { channel := c.val, kind := kind, state := (s.channel c).published, rising := (s.channel c).rising,
                value := (s.channel c).value }

/-- The AIR entries, in channel order (R77). -/
def State.airEntries (s : State) : List AirEntry := (List.finRange 7).filterMap s.airEntry

/-- The AIR section, left out when every channel is UNSET (R51, R77). -/
def State.airSection (s : State) : List FrameSection :=
  if s.airEntries.isEmpty then [] else [.air s.airEntries]

/-- An alarm record as a frame carries it, with its age (R152). -/
def State.alarmRecord (s : State) (a : Alarm) : AlarmRecord :=
  { id := a.id, kind := a.kind, state := a.state, scope := a.scope, age := min 65535 ((s.ms - a.firstHeard) / 1000) }

/-- The ALARM section of a beacon: up to six standing entries in table order (R51). -/
def State.alarmSection (s : State) : List FrameSection :=
  let standing := (s.aru.alarms.filter Alarm.standing).take 6
  if standing.isEmpty then [] else [.alarm (standing.map s.alarmRecord)]

/-- Descending S, ties to the lower tag ID (R140). -/
def strongerTag (a b : NearEntry) : Bool :=
  decide (b.strength < a.strength) || (decide (a.strength = b.strength) && decide (a.tag ≤ b.tag))

/-- The tag entries of a VEHICLE section (R140). -/
def State.tagEntries (s : State) : List TagEntry :=
  ((sortBy strongerTag
      (s.tgu.near.filter (fun n => decide (n.kind ≠ .person) && decide (s.ms ≤ n.lastSeen + 2000)))).take 8).map
    (fun n => { tag := n.tag, kind := n.kind, heading := n.heading, loaded := n.loaded, strength := n.strength,
                speed := n.speed })

def State.vehicleSection (s : State) : FrameSection := .vehicle s.personsNear s.tagEntries

/-- The REFUGE section (R169). -/
def State.refugeSection (s : State) : FrameSection :=
  .refuge { active := s.aru.musterActive, doorOpen := s.aru.doorOpen, muster := s.aru.muster.length,
            overflow := s.aru.overflow }

/-- The sections of a beacon for port p (R51). -/
def State.beaconSections (s : State) (p : Port) : List FrameSection :=
  [s.statusSection p] ++ s.airSection ++ s.alarmSection ++ [s.vehicleSection]
    ++ (if s.cfg.refuge then [s.refugeSection] else [])
    ++ (s.pru.text.map (fun t => FrameSection.text true t)).toList

/-- The sections of a live kind for port p (R51, R52). -/
def State.liveSections (s : State) (p : Port) : LiveKind → List FrameSection
  | .beacon => s.beaconSections p
  | .airReport => [s.statusSection p] ++ s.airSection
  | .vehicleReport => [s.statusSection p, s.vehicleSection]

/-- The class of a live kind (R14). -/
def LiveKind.cls : LiveKind → FrameClass
  | .beacon => .routine
  | .airReport => .air
  | .vehicleReport => .vehicle

/-- The frame engine's composition (R28): the frame carries the current sequence, which is then incremented. -/
def State.compose (s : State) (dest : Nat) (cls : FrameClass) (mapRequest : Bool) (xs : List FrameSection) :
    List Byte × State :=
  (buildFrame s.cfg.station dest cls mapRequest s.fre.seq xs, s.setFre { s.fre with seq := (s.fre.seq + 1) % 65536 })

/-- Composition of a live entry at its first attempt (R17, R51): to all stations, map-request flag clear. -/
def State.composeLive (s : State) (p : Port) (k : LiveKind) : List Byte × State :=
  s.compose 4095 k.cls false (s.liveSections p k)

end Sys2Proof.Machine
end

