-- ==== Sys2Proof/Machine/Line.lean ====
section
/-! DEFINITION. The line access units (chapter 1): transmit lists and queue requests (R14 to R20), the access state
machine (R7 to R13), reception and the response window (R3 to R6), and the delivery outcome they hand to the alarm
and refuge unit (R165). -/

namespace Sys2Proof.Machine

/-! ### The state of one unit -/

/-- No carrier, and no window held (R2, R5). -/
def Lau.lineQuiet (l : Lau) : Bool := !l.carrier && l.holdEnd.isNone

/-- TRANSMIT and JAM drive the line (1.4). -/
def Lau.driving (l : Lau) : Bool := decide (l.access = .transmit) || decide (l.access = .jam)

/-- The entry with a given queue order. -/
def Lau.entryAt (l : Lau) (order : Nat) : Option TxEntry := l.list.find? (fun e => decide (e.order = order))

/-- The entry in service (R10). -/
def Lau.inService (l : Lau) : Option TxEntry := l.service.bind l.entryAt

/-- The entry the next attempt is for: the one in service, else the head (R9, R15). -/
def Lau.candidate (l : Lau) : Option TxEntry :=
  match l.inService with
  | some e => some e
  | none => l.list.head?

/-- The entries not in service. -/
def Lau.waiting (l : Lau) : List TxEntry := l.list.filter (fun e => decide (l.service ≠ some e.order))

/-- The list without the entry of a given queue order (R15: the rest keep their order). -/
def Lau.without (l : Lau) (order : Nat) : List TxEntry := l.list.filter (fun e => decide (e.order ≠ order))

/-- Whether the measured quiet has reached the wait D (R9). -/
def Lau.waitReached (l : Lau) (now bitTime : Nat) : Bool :=
  l.lineQuiet && decide (l.quietAt + l.wait * bitTime ≤ now)

/-- Change the entry of a given queue order. -/
def Lau.mapEntry (l : Lau) (order : Nat) (f : TxEntry → TxEntry) : List TxEntry :=
  l.list.map (fun e => if e.order = order then f e else e)

/-! ### Deferral (R8) -/

/-- W, from the failed attempts (R8). -/
def drawWindow (fails : Nat) : Nat := 4 * 2 ^ min fails 4

/-- D in bit times (R8). -/
def deferWait (cls : FrameClass) (r : Nat) : Nat := 48 + 24 * (4 * cls.code + r)

/-- A new draw and wait for the entry whose attempt is next (R8). -/
def State.newDraw (s : State) (p : Port) : State :=
  match (s.port p).candidate with
  | none => s
  | some e =>
    let r := s.drawBelow (drawWindow e.fails)
    r.2.setPort p { r.2.port p with draw := r.1, wait := deferWait e.cls r.1 }

/-- Into DEFER, with a new draw (R7, R8, R12). -/
def State.enterDefer (s : State) (p : Port) : State :=
  (s.setPort p { s.port p with access := .defer }).newDraw p

/-! ### Starting an attempt (R10, R17) -/

/-- Give the entry its composed frame: its own, or for a live entry at its first attempt a new one. -/
def State.composeEntry (s : State) (p : Port) (e : TxEntry) : List Byte × State :=
  match e.frame with
  | some f => (f, s)
  | none =>
    match e.live with
    | some k => s.composeLive p k
    | none => ([], s)

/-- Into TRANSMIT (R10): the candidate becomes the entry in service, composed if it has no frame yet. -/
def State.enterTransmit (s : State) (p : Port) : State :=
  match (s.port p).candidate with
  | none => s
  | some e =>
    let c := s.composeEntry p e
    let l := c.2.port p
    c.2.setPort p
      { l with access := .transmit, service := some e.order, list := l.mapEntry e.order (fun x => { x with frame := some c.1 }),
               startedAt := s.clock.usec, gathering := false }

/-- R9: after a change of the list while waiting. Idle units with something to send begin deferral when the part
is RUNNING (R7); a changed head with no entry in service gets a new draw, and is sent at once if the quiet already
counted meets the new wait. -/
def State.wakePort (s : State) (p : Port) (headBefore : Option Nat) : State :=
  let l := s.port p
  if !s.running || l.list.isEmpty then s
  else if l.access = .idle ∨ l.access = .receive then s.enterDefer p
  else if l.access = .defer ∧ l.inService.isNone ∧ l.list.head?.map TxEntry.order ≠ headBefore then
    let t := s.newDraw p
    if (t.port p).waitReached t.clock.usec t.bitTime then t.enterTransmit p else t
  else s

/-! ### Delivery outcomes (R165) -/

/-- The slots a port expects to answer (R42, R165), in ascending order. -/
def State.expectedSlots (s : State) (p : Port) : List Nat :=
  (List.range 64).filter (fun n =>
    s.pru.peers.any (fun x =>
      x.present && decide (x.hops = 0) && decide (x.port = p)
        && decide (x.status.bind (fun t => match p with | .A => t.slotA | .B => t.slotB) = some n)))

/-- The union of two slot sets, in ascending order. -/
def unionSlots (a b : List Nat) : List Nat := (List.range 64).filter (fun n => a.contains n || b.contains n)

/-- The expected slots that a hear map lacks (R165). -/
def State.missingSlots (s : State) (p : Port) (map : List Nat) : List Nat :=
  (s.expectedSlots p).filter (fun n => !map.contains n)

def State.deliveriesOn (s : State) (p : Port) : List Delivery := s.aru.deliveries.get p

def State.setDeliveries (s : State) (p : Port) (ds : List Delivery) : State :=
  s.setAru { s.aru with deliveries := s.aru.deliveries.set p ds }

/-- Take out the record of an alarm (R165). -/
def State.dropDelivery (s : State) (p : Port) (id : AlarmId) : State :=
  s.setDeliveries p ((s.deliveriesOn p).filter (fun d => decide (d.id ≠ id)))

/-- An outcome of a delivery frame (R165). One that is not the pending frame of a record is set aside. -/
def State.deliveryOutcome (s : State) (p : Port) (frame : List Byte) (map : List Nat) : State :=
  match (s.deliveriesOn p).find? (fun d => decide (frameKey d.frame = frameKey frame)) with
  | none => s
  | some d =>
    let heard := unionSlots d.hearMap map
    let missing := s.missingSlots p heard
    if missing.isEmpty then s.dropDelivery p d.id
    else if d.transmissions < 6 then
      s.setDeliveries p ((s.deliveriesOn p).map (fun x =>
        if x.id = d.id then { x with hearMap := heard, phase := .waiting, repeatDue := some (s.ms + 500) } else x))
    else takeIn (.deliveryIncomplete d.id p missing.length) (s.dropDelivery p d.id)

/-! ### Outcomes (R20) -/

/-- TX_DONE to the host for an entry with a report request (R20). -/
def State.reportOutcome (s : State) (p : Port) (e : TxEntry) (o : TxOutcome) : State :=
  match e.report with
  | some tag => takeIn (.txDone tag p o) s
  | none => s

/-- Hand an entry's outcome to whoever asked for it (R20). A live entry's outcome goes to nobody (R17). -/
def State.handOutcome (s : State) (p : Port) (e : TxEntry) (o : TxOutcome) (map : List Nat) : State :=
  let s := s.reportOutcome p e o
  let s := if e.cls = .alarm ∧ e.requester = some .aru then s.deliveryOutcome p (e.frame.getD []) map else s
  if e.relayed ∧ o = .sent then s.count p (fun c => { c with relayedOut := c.relayedOut.bump }) else s

/-! ### Queue requests (R15 to R19) -/

inductive QueueAnswer where
  | dropped
  | absorbed
  | queued
  deriving DecidableEq, Repr

/-- The place a newcomer takes: after its own class and more urgent ones (R15). -/
def insertEntry (e : TxEntry) (l : List TxEntry) : List TxEntry :=
  l.takeWhile (fun x => decide (x.cls.code ≤ e.cls.code)) ++ e :: l.dropWhile (fun x => decide (x.cls.code ≤ e.cls.code))

/-- The victim of R18 for a newcomer of a class. -/
def Lau.victim (l : Lau) (cls : FrameClass) : Option TxEntry :=
  let worst := (l.waiting.map (fun e => e.cls.code)).foldl max 0
  if cls.code < worst then l.waiting.find? (fun e => decide (e.cls.code = worst)) else none

/-- The entry R19 removes before a VOICE frame of a call is queued: the earliest of two or more waiting. -/
def Lau.voiceExcess (l : Lau) (call : CallId) : Option TxEntry :=
  let mine := l.waiting.filter (fun e => decide (e.voiceCall = some call))
  if 2 ≤ mine.length then mine.head? else none

/-- Whether a request finds its like in the list: its live kind, or its origin and sequence (R16). -/
def Lau.holdsLike (l : Lau) (e : TxEntry) : Bool :=
  match e.live with
  | some k => l.list.any (fun x => decide (x.live = some k))
  | none => l.list.any (fun x => decide (x.frame.map frameKey = e.frame.map frameKey))

/-- Mark a live kind as pending repeat when its entry in the list is composed, that is, in service (R17). -/
def Lau.markRepeat (l : Lau) (k : LiveKind) : Lau :=
  if l.list.any (fun x => decide (x.live = some k) && x.frame.isSome) then
    match k with
    | .beacon => { l with repBeacon := true }
    | .airReport => { l with repAir := true }
    | .vehicleReport => { l with repVehicle := true }
  else l

/-- An entry leaves the list with outcome EVICTED (R18, R19). -/
def State.evictEntry (s : State) (p : Port) (e : TxEntry) : State :=
  (s.setPort p { s.port p with list := (s.port p).without e.order }).handOutcome p e .evicted []

/-- The voice depth rule (R19). -/
def State.applyVoiceDepth (s : State) (p : Port) (e : TxEntry) : State :=
  match e.voiceCall.bind (s.port p).voiceExcess with
  | some x => s.evictEntry p x
  | none => s

/-- The newcomer takes its place, with the next queue order (R14, R15). -/
def State.placeEntry (s : State) (p : Port) (e : TxEntry) : State :=
  let l := s.port p
  s.setPort p { l with list := insertEntry { e with order := l.nextOrder } l.list, nextOrder := l.nextOrder + 1 }

/-- Room and place: QUEUED in a list of fewer than 12, or in a victim's stead; else DROPPED (R16, R18). -/
def State.enterList (s : State) (p : Port) (e : TxEntry) : QueueAnswer × State :=
  let l := s.port p
  if l.list.length < 12 then (.queued, s.placeEntry p e)
  else
    match l.victim e.cls with
    | some v => (.queued, (s.evictEntry p v).placeEntry p e)
    | none => (.dropped, s.count p (fun c => { c with queueFullDrops := c.queueFullDrops.bump }))

/-- The answer to a queue request (R16), and the state with the list as the request leaves it. -/
def State.answerRequest (s : State) (p : Port) (e : TxEntry) : QueueAnswer × State :=
  if !s.configured p then (.dropped, s)
  else if (s.port p).holdsLike e then
    match e.live with
    | some k => (.absorbed, s.setPort p ((s.port p).markRepeat k))
    | none => (.absorbed, s)
  else (s.applyVoiceDepth p e).enterList p e

/-- A queue request (R16): the answer's consequences are taken at once, and then the unit looks at its list (R7,
R9). A DROPPED request with a report request gives TX_DONE; a DROPPED delivery frame has an outcome with an empty
map (R165). -/
def State.queueRequest (s : State) (p : Port) (e : TxEntry) : State :=
  let headBefore := (s.port p).list.head?.map TxEntry.order
  let r := s.answerRequest p e
  match r.1 with
  | .dropped => (r.2.handOutcome p e .dropped []).wakePort p headBefore
  | .absorbed => r.2
  | .queued => r.2.wakePort p headBefore

/-- A transmit list entry as a request brings it: no failed attempts, its order given when it is placed. -/
def TxEntry.fixed (frame : List Byte) (cls : FrameClass) (requester : Requester) : TxEntry :=
  { live := none, cls := cls, order := 0, frame := some frame, requester := some requester, report := none,
    voiceCall := none, relayed := false, fails := 0 }

def TxEntry.ofLive (k : LiveKind) : TxEntry :=
  { live := some k, cls := k.cls, order := 0, frame := none, requester := none, report := none, voiceCall := none,
    relayed := false, fails := 0 }

/-- Request a live kind on a port (R17). -/
def State.requestLive (k : LiveKind) (p : Port) (s : State) : State := s.queueRequest p (.ofLive k)

/-- Compose a frame and request it on a port, as a fixed entry (R16, R28; log 6). -/
def State.requestFrame (s : State) (p : Port) (dest : Nat) (cls : FrameClass) (requester : Requester)
    (xs : List FrameSection) (f : TxEntry → TxEntry) : State :=
  let c := s.compose dest cls false xs
  c.2.queueRequest p (f (.fixed c.1 cls requester))

/-! ### Ending an attempt (R7, R10, R12, R13, R17) -/

/-- Whether a live kind has a pending repeat. -/
def Lau.repeatOf (l : Lau) : LiveKind → Bool
  | .beacon => l.repBeacon
  | .airReport => l.repAir
  | .vehicleReport => l.repVehicle

def Lau.clearRepeat (l : Lau) : LiveKind → Lau
  | .beacon => { l with repBeacon := false }
  | .airReport => { l with repAir := false }
  | .vehicleReport => { l with repVehicle := false }

/-- R17: at the outcome of a composed live entry, a pending repeat of its kind is queued and the mark cleared. -/
def State.queueRepeat (s : State) (p : Port) (e : TxEntry) : State :=
  match e.live with
  | none => s
  | some k =>
    if (s.port p).repeatOf k then (s.setPort p ((s.port p).clearRepeat k)).requestLive k p else s

/-- After an outcome (R7): back to DEFER with further entries, else IDLE or RECEIVE as the line is. -/
def State.proceed (s : State) (p : Port) : State :=
  let l := s.port p
  if s.running && !l.list.isEmpty then s.enterDefer p
  else s.setPort p { l with access := if l.lineQuiet then .idle else .receive }

/-- The entry in service reaches its outcome: it leaves the list, the outcome is handed on, and the unit goes on. -/
def State.finishService (s : State) (p : Port) (o : TxOutcome) (map : List Nat) : State :=
  match (s.port p).inService with
  | none => s.proceed p
  | some e =>
    let s := s.setPort p { s.port p with list := (s.port p).without e.order, service := none }
    ((s.handOutcome p e o map).queueRepeat p e).proceed p

/-! ### Reception (R3 to R6) -/

inductive Reception where
  | fragment
  | damaged
  | intact
  deriving DecidableEq, Repr

/-- The classification of what was gathered (R3). -/
def classify (g : Gathered) : Reception :=
  if !g.startMarker || decide (g.bytes.length < 10) then .fragment
  else if g.violation || g.partialByte || decide (256 < g.bytes.length) || !crcOk g.bytes then .damaged
  else .intact

/-- The instant of the last transition: the line has been seen quiet for 2 bit times (R2; log 9). -/
def State.frameEndAt (s : State) : Nat := s.clock.usec - 2 * s.bitTime

/-- Hold the line for a response window (R5). An idle unit then has carrier as far as access goes. -/
def State.holdWindow (s : State) (p : Port) : State :=
  let l := s.port p
  s.setPort p { l with holdEnd := some (max (l.holdEnd.getD 0) (s.frameEndAt + 272 * s.bitTime)),
                       access := if l.access = .idle then .receive else l.access }

/-- The presence pulses a frame taken in asks for: one, in the own slot, when its map-request flag is set (R6). -/
def State.pulsesFor (s : State) (p : Port) (bytes : List Byte) : List Nat :=
  if (headerOf bytes).mapRequest then [s.frameEndAt + (16 + 4 * (s.slotOf p).getD 0) * s.bitTime] else []

/-- Offer an intact frame to the receive list (R4); a frame taken in asks for its presence pulse beside those still to
be driven (R6; log 30). -/
def State.offerFrame (s : State) (p : Port) (bytes : List Byte) : State :=
  let l := s.port p
  if l.received.length < 4 then
    (s.setPort p { l with received := l.received ++ [{ bytes := bytes, arrival := s.ms }],
                          pulses := l.pulses ++ s.pulsesFor p bytes }).count p
      (fun c => { c with good := c.good.bump })
  else s.count p (fun c => { c with overruns := c.overruns.bump })

/-- What a frame end does (R3 to R6). -/
def State.receiveGathered (s : State) (p : Port) (g : Gathered) : State :=
  match classify g with
  | .fragment => s
  | .damaged => (s.count p (fun c => { c with crcErrors := c.crcErrors.bump })).holdWindow p
  | .intact =>
    let t := s.offerFrame p g.bytes
    if (headerOf g.bytes).mapRequest then t.holdWindow p else t

/-- The line has gone quiet as far as access goes (R7, R12). -/
def State.settleQuiet (s : State) (p : Port) : State :=
  let l := s.port p
  if !s.operating p || !l.lineQuiet then s
  else if l.access = .receive then s.setPort p { l with access := .idle }
  else if l.access = .backoff then s.enterDefer p
  else s

/-- The presence slot a transition falls in, for a window that began at an instant (R5). -/
def presenceSlot (start now bitTime : Nat) : Option Nat :=
  let n := (now - start) / bitTime
  if 16 ≤ n ∧ n < 272 then some ((n - 16) / 4) else none

/-- Slots heard join the map, but for the own slot (R13). -/
def State.joinHearMap (s : State) (p : Port) (slots : List Nat) : List Nat :=
  (unionSlots (s.port p).hearMap slots).filter (fun n => decide (s.slotOf p ≠ some n))

/-! ### The commands of the line -/

/-- CARRIER_START (R2, R7, R9, R13, R22): carrier of another station appears. It stands on the wire whether or not the
unit drives; what is gathered of it counts only once the unit no longer drives (R3; execFrameEnd). -/
def execCarrierStart (p : Port) (s : State) : Host.Outcome State Fault Refusal :=
  let l := s.port p
  .next (if l.carrier then s
    else if !s.operating p then s.setPort p { l with carrier := true }
    else
      let map := if l.access = .responseWait
        then s.joinHearMap p (presenceSlot l.startedAt s.clock.usec s.bitTime).toList else l.hearMap
      s.setPort p { l with carrier := true, gathering := true, hearMap := map,
                           access := if l.access = .idle then .receive else l.access })

/-- LINE_QUIET (R2, R7, R9, R12): no transition has been seen for 2 bit times. A line that the unit itself drives is
not quiet (R2; log 28). -/
def execLineQuiet (p : Port) (s : State) : Host.Outcome State Fault Refusal :=
  let l := s.port p
  .next (if l.driving || !l.carrier then s
    else (s.setPort p { l with carrier := false, quietAt := max l.quietAt s.frameEndAt }).settleQuiet p)

/-- FRAME_END (R3 to R6): gathered carrier ends and is classified. -/
def execFrameEnd (p : Port) (g : Gathered) (s : State) : Host.Outcome State Fault Refusal :=
  let l := s.port p
  .next (if s.operating p && l.gathering && !l.driving then
      (s.setPort p { l with gathering := false }).receiveGathered p g
    else s)

/-- WINDOW_HOLD_END (R5, R7): a held response window ends. -/
def execWindowHoldEnd (p : Port) (s : State) : Host.Outcome State Fault Refusal :=
  let l := s.port p
  .next (if s.dueUs l.holdEnd then
      (s.setPort p { l with holdEnd := none, quietAt := max l.quietAt (l.holdEnd.getD 0) }).settleQuiet p
    else s)

/-- PRESENCE_PULSE (R6): the station drives carrier for the first 3 bit times of its slot, for the first of the pulses
still to be driven. -/
def execPresencePulse (p : Port) (s : State) : Host.Outcome State Fault Refusal :=
  let l := s.port p
  .next (if s.operating p && s.dueUs l.pulses.head? then
      s.setPort p { l with pulses := l.pulses.tail, pulseEnd := some (s.clock.usec + 3 * s.bitTime) }
    else s)

/-- DEFER_WAIT_EXPIRY (R9, R10): the measured quiet reaches D. -/
def execDeferWaitExpiry (p : Port) (s : State) : Host.Outcome State Fault Refusal :=
  let l := s.port p
  .next (if s.running && decide (l.access = .defer) && l.waitReached s.clock.usec s.bitTime then s.enterTransmit p
    else s)

/-- The frame on the line. -/
def Lau.frameInService (l : Lau) : List Byte := (l.inService.bind TxEntry.frame).getD []

/-- When a transmission of n bytes ends: 16 + 8n bit times after its start (R1). -/
def State.transmitEnd (s : State) (p : Port) : Nat :=
  (s.port p).startedAt + (16 + 8 * (s.port p).frameInService.length) * s.bitTime

/-- TRANSMISSION_COMPLETE (R10): the last bit is sent with no collision. -/
def execTransmissionComplete (p : Port) (s : State) : Host.Outcome State Fault Refusal :=
  let l := s.port p
  .next (if decide (l.access = .transmit) && decide (s.transmitEnd p ≤ s.clock.usec) then
      if (headerOf l.frameInService).mapRequest then
        s.setPort p { l with access := .responseWait, hearMap := [], startedAt := s.clock.usec, quietAt := s.clock.usec }
      else (s.setPort p { l with quietAt := s.clock.usec }).finishService p .sent []
    else s)

/-- The list with one more failed attempt of the entry in service (R11). -/
def Lau.failService (l : Lau) : List TxEntry :=
  l.list.map (fun e => if l.service = some e.order then { e with fails := e.fails + 1 } else e)

/-- COLLISION (R11): the level read back differs from the level driven. Carrier of the other party to it is then on the
wire, and stays there until LINE_QUIET (R2, R22; log 28). -/
def execCollision (p : Port) (s : State) : Host.Outcome State Fault Refusal :=
  let l := s.port p
  .next (if l.access = .transmit then
      let early := decide (s.clock.usec < l.startedAt + 272 * s.bitTime)
      let t := s.setPort p { l with access := .jam, startedAt := s.clock.usec, carrier := true,
                                    list := l.failService }
      t.count p (fun c => if early then { c with collisions := c.collisions.bump }
        else { c with lateCollisions := c.lateCollisions.bump })
    else s)

/-- JAM_END (R11, R12): 32 bit times of jam end. At the eighth failure the entry leaves with outcome EXCESS here, on
entering BACKOFF: R12 does not say whether it leaves now or when the line goes quiet (DESIGN CHOICE, log 41). The unit no
longer drives, so it gathers what it still hears of another station's carrier until that ends (R3; log 28). -/
def execJamEnd (p : Port) (s : State) : Host.Outcome State Fault Refusal :=
  let l := s.port p
  .next (if decide (l.access = .jam) && decide (l.startedAt + 32 * s.bitTime ≤ s.clock.usec) then
      let t := s.setPort p { l with access := .backoff, carrier := true, gathering := true }
      if (l.inService.map TxEntry.fails).getD 0 ≥ 8 then
        (t.count p (fun c => { c with excessDrops := c.excessDrops.bump })).finishService p .excess []
      else t
    else s)

/-- RESPONSE_WINDOW_END (R13): the window of the own frame ends, with the slots in which transitions were seen. -/
def execResponseWindowEnd (p : Port) (slots : List Nat) (s : State) : Host.Outcome State Fault Refusal :=
  let l := s.port p
  .next (if decide (l.access = .responseWait) && decide (l.startedAt + 272 * s.bitTime ≤ s.clock.usec) then
      (s.setPort p { l with quietAt := max l.quietAt (l.startedAt + 272 * s.bitTime),
                            hearMap := s.joinHearMap p slots }).finishService p .sent (s.joinHearMap p slots)
    else s)

/-- COUNTER_SNAPSHOT (R21, R35, R134): every 1000 ms every counter is copied and cleared. -/
def execCounterSnapshot (s : State) : Host.Outcome State Fault Refusal :=
  .next (if s.dueMs (some s.clock.snapshotDue) then
      (((s.setLaus (s.lau.map (fun l => { l with counters := l.counters.snapshot }))).setFre
        { s.fre with parse := s.fre.parse.map ParseCounters.snapshot }).setTgu
          { s.tgu with counters := s.tgu.counters.snapshot }).setClock
            { s.clock with snapshotDue := s.clock.snapshotDue + 1000 }
    else s)

end Sys2Proof.Machine
end

