-- ==== Sys2Proof/Machine/Tags.lean ====
section
/-! DEFINITION. The advisory queue and transmitter (R147), and the lane monitor (R143 to R149). -/

namespace Sys2Proof.Machine

/-! ### The advisory queue (R147) -/

/-- Severity runs EVACUATE, HOLD, SLOW, PROCEED, from highest to lowest. -/
def AdvisoryCode.severity : AdvisoryCode → Nat
  | .proceed => 0
  | .slow => 1
  | .hold => 2
  | .evacuate => 3

/-- The tag ID that addresses all tags. -/
def allTags : Nat := 16777215

/-- The queue with a newcomer, and whether an advisory was dropped (R147). -/
def enqueueAdvisory (a : Advisory) (q : List Advisory) : List Advisory × Bool :=
  if q.any (fun x => decide (x.tag = a.tag)) then (q.map (fun x => if x.tag = a.tag then a else x), false)
  else if q.length < 8 then (q ++ [a], false)
  else
    match firstBy (fun x y => decide (x.code.severity ≤ y.code.severity)) q with
    | some v =>
      if a.code.severity < v.code.severity then (q, true)
      else (q.eraseP (fun x => decide (x = v)) ++ [a], true)
    | none => (q ++ [a], false)

/-- An IDLE transmitter takes the first advisory while the part is RUNNING (R147). -/
def State.startSending (s : State) : State :=
  if s.running && s.tgu.sending.isNone then
    match s.tgu.advisories with
    | [] => s
    | a :: more =>
      s.setTgu { s.tgu with advisories := more,
                            sending := some { advisory := a, bytes := advisoryBytes a, startedAt := s.clock.usec } }
  else s

/-- Queue an advisory (R147). While the link is NOT_USED the request is set aside (R132). DESIGN CHOICE (log 40): an IDLE
transmitter takes the first advisory at the first queueing, inside the evaluation that queues it, so of more than 8
advisories one is sent and 8 stay queued. -/
def State.queueAdvisory (a : Advisory) (s : State) : State :=
  if s.cfg.link = .notUsed then s
  else
    let r := enqueueAdvisory a s.tgu.advisories
    let s := s.setTgu { s.tgu with advisories := r.1 }
    let s := if r.2 then s.countLink (fun c => { c with dropped := c.dropped.bump }) else s
    s.startSending

/-! ### Lane states (R143) -/

def Heading.dir : Heading → Option LaneDir
  | .inbye => some .inbye
  | .outbye => some .outbye
  | .stopped => none

/-- Whether a truck heads a way, or stands where it already claimed that way (R143). -/
def Track.claims (t : Track) (h : Heading) (d : LaneDir) : Bool :=
  decide (t.heading = h)
    || (decide (t.heading = .stopped) && decide (t.lane = .approaching) && decide (t.dir = some d))

/-- Lane state and direction from position and heading (R143). A track at a station with no lane section is
OUTSIDE (8.5). -/
def lanePlace (lane : Option LaneSection) (t : Track) : LaneState × Option LaneDir :=
  match lane with
  | none => (.outside, none)
  | some x =>
    if x.pLow ≤ t.chainage ∧ t.chainage ≤ x.pHigh then
      (.inSection, match t.heading.dir with
        | some d => some d
        | none => t.dir)
    else if x.pLow ≤ t.chainage + x.approach ∧ t.chainage < x.pLow ∧ t.claims .inbye .inbye then
      (.approaching, some .inbye)
    else if x.pHigh < t.chainage ∧ t.chainage ≤ x.pHigh + x.approach ∧ t.claims .outbye .outbye then
      (.approaching, some .outbye)
    else (.outside, none)

/-- A track with its lane fields set at an evaluation (R143). -/
def placeTrack (lane : Option LaneSection) (now : Nat) (t : Track) : Track :=
  let r := lanePlace lane t
  if r.1 = .outside then { t with lane := .outside, dir := none, entered := none, advisory := none, repeatDue := none }
  else { t with lane := r.1, dir := r.2, entered := if t.lane = .outside then some now else t.entered }

/-! ### Conflicts (R144) -/

def Track.claimant (t : Track) : Bool := decide (t.lane ≠ .outside)

/-- The rank of a lane direction in test 3 of R144. -/
def dirRank : Option LaneDir → Nat
  | some .outbye => 0
  | some .inbye => 1
  | none => 2

/-- The tests of R144, in order, lower first. -/
def Track.claimKey (t : Track) : List Nat :=
  [if t.lane = .inSection then 0 else 1, if t.loaded then 0 else 1, dirRank t.dir, t.entered.getD 0, t.sighted, t.tag]

/-- Lexicographic order of the tests. -/
def keyLe : List Nat → List Nat → Bool
  | [], _ => true
  | _ :: _, [] => false
  | a :: as, b :: bs => if a < b then true else if b < a then false else keyLe as bs

/-- The winner among the claimants (R144). -/
def winnerOf (ts : List Track) : Option Track :=
  firstBy (fun a b => keyLe a.claimKey b.claimKey) (ts.filter Track.claimant)

/-- A claimant in conflict with the winner (R144). -/
def isLoser (w t : Track) : Bool := decide (t.tag ≠ w.tag) && (decide (t.dir ≠ w.dir) || t.dir.isNone || w.dir.isNone)

/-! ### Advisories (R145, R146) -/

/-- The advisory chosen for a claimant below row 1 of R145. -/
def chooseAdvisory (lockout personNear : Bool) (winner : Option Track) (t : Track) : AdvisoryCode :=
  if lockout then (if t.lane = .inSection then .slow else .hold)
  else if (winner.map (fun w => isLoser w t)).getD false then .hold
  else if personNear then .slow
  else .proceed

/-- One track's part of R146: the advisory to queue, if any, and the track after it. -/
def adviseTrack (evacuation lockout personNear : Bool) (winner : Option Track) (now : Nat) (t : Track) :
    Option Advisory × Track :=
  if !t.claimant then (none, t)
  else if evacuation then (none, { t with advisory := none, repeatDue := none })
  else
    let a := chooseAdvisory lockout personNear winner t
    if t.advisory = some a then (none, t)
    else (some { tag := t.tag, code := a, validity := 5 }, { t with advisory := some a, repeatDue := some (now + 2000) })

/-- The general evacuation advisory (R145). -/
def evacuateAdvisory : Advisory := { tag := allTags, code := .evacuate, validity := 10 }

/-- Queue the general advisory and start its repeat timer (R145). A link NOT_USED sends none. -/
def State.queueEvacuate (s : State) : State :=
  if s.cfg.link = .notUsed then s
  else (s.setTgu { s.tgu with evacDue := some (s.ms + 2000) }).queueAdvisory evacuateAdvisory

/-- The general evacuation advisory at an evaluation (R145). -/
def State.evacuationStep (s : State) : State :=
  let held := s.tgu.evacHeld
  let now := s.evacuation
  let s := s.setTgu { s.tgu with evacHeld := now }
  if now && !held then s.queueEvacuate
  else if !now then s.setTgu { s.tgu with evacDue := none }
  else s

/-! ### Lamps (R148) -/

def redSteady : LampSetting := { aspect := .red, cadence := .steady }
def greenSteady : LampSetting := { aspect := .green, cadence := .steady }
def amberSlow : LampSetting := { aspect := .amber, cadence := .slow }
def redFast : LampSetting := { aspect := .red, cadence := .fast }

/-- DARK, as a station with no lane section sets both lamps (R176). DESIGN CHOICE (log 36): the rule names no cadence for
it, and the model takes STEADY. -/
def darkSteady : LampSetting := { aspect := .dark, cadence := .steady }

/-- The outbye and inbye lamp settings (R148). -/
def lampSettings (evacuation lockout personNear : Bool) (winner : Option Track) : LampSetting × LampSetting :=
  if evacuation then (redFast, redFast)
  else if lockout then (redSteady, redSteady)
  else
    let green := if personNear then amberSlow else greenSteady
    match winner with
    | none => (greenSteady, greenSteady)
    | some w =>
      match w.dir with
      | some .inbye => (green, redSteady)
      | some .outbye => (redSteady, green)
      | none => (redSteady, redSteady)

def State.setLamps (s : State) (x : LampSetting × LampSetting) : State :=
  s.setIou { s.iou with lampOut := some x.1, lampIn := some x.2 }

/-! ### The evaluation (R149) -/

/-- The lane monitor's evaluation, taken whole while the part is RUNNING (R149; log 13). -/
def State.laneEvaluate (s : State) : State :=
  if !s.running then s
  else
    let s := s.setTgu { s.tgu with tracks := s.tgu.tracks.map (placeTrack s.cfg.lane s.ms) }
    let winner := winnerOf s.tgu.tracks
    let near := decide (0 < s.personsNear)
    let evac := s.evacuation
    let s := s.evacuationStep
    match s.cfg.lane with
    | none => s
    | some _ =>
      let advised := s.tgu.tracks.map (adviseTrack evac s.zae.lockout near winner s.ms)
      let s := s.setTgu { s.tgu with tracks := advised.map Prod.snd }
      let s := (advised.filterMap Prod.fst).foldl (fun s a => s.queueAdvisory a) s
      s.setLamps (lampSettings evac s.zae.lockout near winner)

end Sys2Proof.Machine
end

