-- ==== Sys2Proof/Machine/Zone.lean ====
section
/-! DEFINITION. The zone air evaluator (chapter 5): contributions and zone air records (R82 to R86), the gas
advance (R87 to R90), lockout (R91, R92). -/

namespace Sys2Proof.Machine

/-- The kinds in the order of R83. -/
def kindOrder : List GasKind := [.methane, .carbonMonoxide, .oxygen, .airVelocity, .general]

/-- The place of a kind's record. -/
def gasIndex : GasKind → Fin 5
  | .methane => 0
  | .carbonMonoxide => 1
  | .oxygen => 2
  | .airVelocity => 3
  | .general => 4

/-- The kind of a record's place. -/
def gasAt (i : Fin 5) : GasKind :=
  match i with
  | 0 => .methane
  | 1 => .carbonMonoxide
  | 2 => .oxygen
  | 3 => .airVelocity
  | 4 => .general

/-- The sense of a kind when no own channel has it (R83): true for LOW. -/
def defaultLow : GasKind → Bool
  | .methane => false
  | .carbonMonoxide => false
  | .oxygen => true
  | .airVelocity => true
  | .general => false

/-- The sense of a kind, from the lowest-numbered own channel that has it (R83). -/
def State.senseOf (s : State) (k : GasKind) : Bool :=
  match (List.finRange 7).find? (fun c => decide ((s.channelCfg c).kind = some k)) with
  | some c => (s.channelCfg c).lowSense
  | none => defaultLow k

/-! ### Contributions (R82) -/

def contributes (x : ChannelState) : Bool := decide (x ≠ .unset) && decide (x ≠ .starting)

/-- One own channel's contribution to a kind. -/
def State.ownContribution (s : State) (k : GasKind) (c : Fin 7) : Option (ChannelState × Nat) :=
  if (s.channelCfg c).kind = some k ∧ contributes (s.channel c).level = true then
    some ((s.channel c).published, (s.channel c).value)
  else none

/-- A peer's contributions to a kind. -/
def State.peerContributions (s : State) (k : GasKind) (x : Peer) : List (ChannelState × Nat) :=
  if x.present ∧ x.status.map StatusPart.zone = some s.cfg.zone then
    ((x.air.getD []).filter (fun e => decide (e.kind = k) && contributes e.state)).map (fun e => (e.state, e.value))
  else []

def State.contributions (s : State) (k : GasKind) : List (ChannelState × Nat) :=
  (List.finRange 7).filterMap (s.ownContribution k) ++ (s.pru.peers.map (s.peerContributions k)).flatten

/-- The more severe of two states (R65). -/
def worseState (a b : ChannelState) : ChannelState := if a.rank < b.rank then b else a

/-- The most severe contributed state; absent without a contribution (R84). -/
def worstState : List (ChannelState × Nat) → Option ChannelState
  | [] => none
  | x :: xs => some (xs.foldl (fun a y => worseState a y.1) x.1)

/-- The worst value by sense over the contributions that give a value (R84). -/
def worstValue (low : Bool) (xs : List (ChannelState × Nat)) : Option Nat :=
  match (xs.filter (fun x => decide (x.1 ≠ .fault))).map Prod.snd with
  | [] => none
  | v :: vs => some (vs.foldl (if low then min else max) v)

/-- One record rebuilt; its sense stands (R83, R84). -/
def State.rebuildRecord (s : State) (i : Fin 5) : ZoneRecord :=
  let low := s.zae.records[i].lowSense
  { state := worstState (s.contributions (gasAt i)), worst := worstValue low (s.contributions (gasAt i)), lowSense := low }

/-! ### The gas advance (R87 to R90) -/

def chainageDistance (a b : Nat) : Nat := if a ≤ b then b - a else a - b

/-- Whether a peer is upwind and tripped on methane (R87). -/
def State.upwind (s : State) (x : Peer) : Bool :=
  x.present &&
    match x.status with
    | none => false
    | some t =>
      decide (t.roadway = s.cfg.roadway) && decide (t.zone = s.cfg.zone)
        && (if s.cfg.airflowNeg then decide (s.cfg.chainage < t.chainage) else decide (t.chainage < s.cfg.chainage))
        && (x.air.getD []).any (fun e => decide (e.kind = .methane) && decide (e.state = .trip))

/-- A peer's distance (R88). -/
def State.distanceTo (s : State) (x : Peer) : Nat :=
  chainageDistance s.cfg.chainage ((x.status.map StatusPart.chainage).getD 0)

/-- The source: the nearest upwind peer, the lowest station ID on a tie (R88). -/
def State.advanceSource (s : State) : Option Peer :=
  firstBy (fun a b => decide (s.distanceTo a < s.distanceTo b)
      || (decide (s.distanceTo a = s.distanceTo b) && decide (a.station ≤ b.station)))
    (s.pru.peers.filter s.upwind)

/-- The air velocity for the ETA (R89). -/
def State.airVelocity (s : State) (source : Peer) : Option Nat :=
  let own := s.channel 6
  if (s.channelCfg 6).kind.isSome ∧ (own.published = .normal ∨ own.published = .warn) then some own.value
  else
    (firstBy (fun a b => decide (a.channel ≤ b.channel))
      ((source.air.getD []).filter (fun e => decide (e.kind = .airVelocity)
        && (decide (e.state = .normal) || decide (e.state = .warn) || decide (e.state = .trip))))).map AirEntry.value

/-- The ETA from distance and velocity (R90). -/
def etaOf (d : Nat) : Option Nat → Option Nat
  | none => none
  | some v => if v < 10 then none else some (min 65535 ((d * 100 + v - 1) / v))

/-- The advance record after a recompute (R88). -/
def State.rebuildAdvance (s : State) : Option Advance :=
  s.advanceSource.map (fun x =>
    let d := s.distanceTo x
    { source := x.station, distance := d, eta := etaOf d (s.airVelocity x),
      declared := match s.zae.advance with
        | some a => if a.source = x.station then a.declared else s.seconds
        | none => s.seconds })

/-- The remaining time of an advance with an ETA (R90). -/
def State.remaining (s : State) (a : Advance) (eta : Nat) : Nat := ((eta : Int) - ((s.seconds : Int) - a.declared)).toNat

/-! ### Lockout (R91, R92) -/

/-- The condition of R91. -/
def State.lockoutHolds (s : State) : Bool :=
  (List.finRange 7).any (fun c => decide ((s.channelCfg c).kind = some .methane)
      && (decide ((s.channel c).published = .fault) || decide ((s.channel c).published = .trip)))
    || (match s.zae.advance with
        | none => false
        | some a =>
          match a.eta with
          | none => true
          | some eta => decide (s.remaining a eta ≤ s.cfg.lockout))
    || s.evacuation

/-- Evaluate lockout, and hand a change to the lane monitor (R91, R92). -/
def State.evaluateLockout (s : State) : State :=
  let now := s.lockoutHolds
  if now = s.zae.lockout then s else (s.setZae { s.zae with lockout := now }).laneEvaluate

/-! ### The recompute (R85, R86) -/

/-- The indication of one kind whose zone state changed (R86). -/
def State.zoneIndication (before : Vector ZoneRecord 5) (s : State) (i : Fin 5) : State :=
  if before[i].state = s.zae.records[i].state then s
  else takeIn (.zoneState (gasAt i) s.zae.records[i].state (s.zae.records[i].worst.getD 0)) s

/-- The records and the advance rebuilt (R84, R88). -/
def State.rebuildZone (s : State) : State :=
  let s := s.setZae { s.zae with records := Vector.ofFn s.rebuildRecord }
  s.setZae { s.zae with advance := s.rebuildAdvance }

/-- A recompute, taken whole (R85): records, advance, lockout; then the indications; then the hand-off. -/
def State.recompute (s : State) : State :=
  let before := s.zae.records
  let held := s.zae.lockout
  let s := s.rebuildZone
  let s := s.setZae { s.zae with lockout := s.lockoutHolds }
  let s := (List.finRange 5).foldl (State.zoneIndication before) s
  if s.zae.lockout = held then s else s.laneEvaluate

/-- The senses, fixed when the part starts (R83, R95). -/
def State.setSenses (s : State) : State :=
  s.setZae { s.zae with
    records := Vector.ofFn (fun i => { s.zae.records[i] with lowSense := s.senseOf (gasAt i) }) }

/-- SECONDS_EVENT (R91, R149): each second lockout is evaluated, and then the lane monitor. -/
def execSecondsEvent (s : State) : Host.Outcome State Fault Refusal :=
  .next (if s.dueMs (some s.clock.secondDue) then
      let t := s.setClock { s.clock with secondDue := s.clock.secondDue + 1000 }
      if t.started then t.evaluateLockout.laneEvaluate else t
    else s)

end Sys2Proof.Machine
end

