-- ==== Sys2Proof/Machine/Alarms.lean ====
section
/-! DEFINITION. The alarm and refuge unit (chapter 9): the alarm table and its changes (R152 to R163), deliveries
(R164 to R166), the sounder (R167), muster and the door (R168, R169). -/

namespace Sys2Proof.Machine

/-! ### The table (R152) -/

/-- The table's order (R152). -/
def alarmBefore (a b : Alarm) : Bool :=
  if a.kind.severity ≠ b.kind.severity then decide (b.kind.severity < a.kind.severity)
  else if a.firstHeard ≠ b.firstHeard then decide (a.firstHeard < b.firstHeard)
  else if a.id.origin ≠ b.id.origin then decide (a.id.origin < b.id.origin)
  else decide (a.id.number ≤ b.id.number)

def State.setAlarms (s : State) (as : List Alarm) : State := s.setAru { s.aru with alarms := as }

def State.findAlarm (s : State) (id : AlarmId) : Option Alarm := s.aru.alarms.find? (fun a => decide (a.id = id))

/-- A held entry takes new values under its own ID. -/
def State.replaceAlarm (s : State) (a : Alarm) : State :=
  s.setAlarms (s.aru.alarms.map (fun x => if x.id = a.id then a else x))

/-! ### Sounder (R167) -/

/-- The pattern of R167. -/
def State.sounderPattern (s : State) : SounderPattern :=
  let heard := s.aru.alarms.filter (fun a => s.standsHere a && !a.silenced)
  if heard.any (fun a => decide (a.kind.cls = .evacuation)) then .fast
  else if heard.any (fun a => decide (a.kind.cls = .warning)) then .slow
  else if s.cfg.refuge && heard.any (fun a => decide (a.kind = .refugeDoor)) then .slow
  else if heard.any (fun a => decide (a.kind = .test) && a.testUntil.isSome) then .slow
  else .off

/-- The decision, handed to the input/output unit (R167, R176). -/
def State.decideSounder (s : State) : State := s.setIou { s.iou with sounder := s.sounderPattern }

/-! ### Muster (R168) -/

/-- One qualifying tag while muster is active. -/
def musterTag (tag : Nat) (x : Aru) : Aru :=
  if x.muster.contains tag then x
  else if x.muster.length < 64 then { x with muster := x.muster ++ [tag] }
  else { x with overflow := min 65535 (x.overflow + 1) }

/-- Whether a near table entry counts for muster. -/
def State.musters (s : State) (n : NearEntry) : Bool :=
  decide (n.kind = .person) && n.near && decide (s.cfg.musterThreshold ≤ n.strength)

/-- A hand-over from the tag unit (R139, R168). -/
def State.musterHandover (s : State) (n : NearEntry) : State :=
  if s.aru.musterActive && s.musters n then s.setAru (musterTag n.tag s.aru) else s

/-- Muster activation, tested at a table change (R168). The near table is kept in ascending order of tag ID. -/
def State.testMuster (s : State) : State :=
  let now := s.cfg.refuge && s.evacuation
  if now && !s.aru.musterActive then
    s.setAru ((s.tgu.near.filter s.musters).foldl (fun x n => musterTag n.tag x) { s.aru with musterActive := true })
  else if !now then s.setAru { s.aru with musterActive := false, muster := [], overflow := 0 }
  else s

/-! ### Handing a change on (R160) -/

/-- Step 1 of R160. -/
def placeAlarmChange (a : Alarm) (change : AlarmChange) (s : State) : State :=
  takeIn (.alarmChange a.id a.kind a.scope a.state change) s

/-- An own alarm that is CLEARED or gone (R157, R160). -/
def State.ownEnded (s : State) (a : Alarm) (removed : Bool) : Bool :=
  decide (a.id.origin = s.cfg.station) && (removed || decide (a.state = .cleared))

/-- Step 2 of R160: the references that name an ended own alarm become absent. -/
def State.clearReferences (s : State) (a : Alarm) (removed : Bool) : State :=
  if s.ownEnded a removed then
    s.setAru { s.aru with
      pullRef := if s.aru.pullRef = some a.id.number then none else s.aru.pullRef,
      doorRef := if s.aru.doorRef = some a.id.number then none else s.aru.doorRef }
  else s

/-- Whether the report of a change empties a channel's raised-alarm field (R94). -/
def emptiesField (a : Alarm) (ended : Bool) (c : Channel) : Bool :=
  decide (c.raised = some a.id.number)
    && (ended || (decide (a.state = .acknowledged) && decide (c.published = .normal)))

/-- Step 3 of R160: the report of an own alarm to the channel that raised it; whether it asks for a clear (R94). -/
def State.reportToChannels (s : State) (a : Alarm) (removed : Bool) : State × Bool :=
  if a.id.origin ≠ s.cfg.station then (s, false)
  else
    let ended := s.ownEnded a removed
    (s.setAcu { s.acu with
        channels := s.acu.channels.map (fun c => if emptiesField a ended c then { c with raised := none } else c) },
      !ended && s.acu.channels.toList.any (emptiesField a ended))

/-- Steps 2 to 6 of R160, and whether the zone air evaluator asked for a clear, which is a change of its own. -/
def State.handOn (s : State) (a : Alarm) (removed : Bool) : State × Bool :=
  let r := ((s.clearReferences a removed).evaluateLockout).reportToChannels a removed
  (r.1.laneEvaluate.testMuster.decideSounder, r.2)

/-- An entry leaves the table (R155). -/
def State.removeAlarm (s : State) (a : Alarm) : State :=
  ((placeAlarmChange a .removed (s.setAlarms (s.aru.alarms.filter (fun x => decide (x.id ≠ a.id))))).handOn a true).1

/-! ### Deliveries (R164, R165) -/

/-- A record ended to make room (R164, R165). -/
def State.endDelivery (s : State) (p : Port) (d : Delivery) : State :=
  let missing := s.missingSlots p d.hearMap
  let s := s.dropDelivery p d.id
  if missing.isEmpty then s else takeIn (.deliveryIncomplete d.id p missing.length) s

/-- The record of a frame: taken over when the alarm has one on the port, else new, the earliest ended for room
(R164; log 14). -/
def State.holdDelivery (s : State) (p : Port) (d : Delivery) : State :=
  if (s.deliveriesOn p).any (fun x => decide (x.id = d.id)) then
    s.setDeliveries p ((s.deliveriesOn p).map (fun x => if x.id = d.id then d else x))
  else
    let s := if (s.deliveriesOn p).length < 16 then s
      else match s.deliveriesOn p with
        | [] => s
        | first :: _ => s.endDelivery p first
    s.setDeliveries p (s.deliveriesOn p ++ [d])

/-- Open a delivery and queue its frame (R164). -/
def State.openDelivery (s : State) (p : Port) (id : AlarmId) (source : DeliverySource) (frame : List Byte)
    (state : AlarmState) : State :=
  (s.holdDelivery p
      { id := id, source := source, frame := frame, alarmState := state, transmissions := 1, hearMap := [],
        phase := .queued, repeatDue := none }).queueRequest p
    { TxEntry.fixed frame .alarm .aru with relayed := decide (source = .relay) }

/-- Open the delivery of an own change on a port (R164). -/
def State.openOwn (a : Alarm) (p : Port) (s : State) : State :=
  let c := s.compose 4095 .alarm true [.alarm [s.alarmRecord a]]
  c.2.openDelivery p a.id .own c.1 a.state

/-- An own change of a held entry's state: R161 and R162's order of indication, deliveries and hand-on. -/
def State.ownChange (s : State) (a : Alarm) : State × Bool :=
  ((placeAlarmChange a .advanced (s.replaceAlarm a)).onPorts (State.openOwn a)).handOn a false

/-- The entry brought to a state, with its linger deadline (R155). -/
def Alarm.become (a : Alarm) (state : AlarmState) (now : Nat) : Alarm :=
  { a with state := state, linger := if state = .cleared then some (now + 60000) else a.linger }

/-- A clear asked for by the zone air evaluator (R94, R162). -/
def State.clearAsOrigin (s : State) (id : AlarmId) : State :=
  match s.findAlarm id with
  | some a => if a.state = .acknowledged then (s.ownChange (a.become .cleared s.ms)).1 else s
  | none => s

/-- A change handed on whole, and then the clear it asked for (R160). -/
def State.thenClear (r : State × Bool) (id : AlarmId) : State := if r.2 then r.1.clearAsOrigin id else r.1

/-! ### Adding an entry (R153, R154, R163) -/

/-- The victim a newcomer to a full table displaces (R153). -/
def alarmVictim (as : List Alarm) (severity : Nat) (state : AlarmState) : Option Alarm :=
  match firstBy (fun a b => decide (a.linger.getD 0 ≤ b.linger.getD 0))
      (as.filter (fun a => decide (a.state = .cleared))) with
  | some a => some a
  | none =>
    match firstBy (fun a b => decide (a.kind.severity < b.kind.severity
        ∨ (a.kind.severity = b.kind.severity ∧ a.firstHeard ≤ b.firstHeard))) as with
    | some v => if state ≠ .cleared ∧ v.kind.severity < severity then some v else none
    | none => none

/-- Room for a newcomer, its victim removed whole; none when it is not held (R153). -/
def State.makeAlarmRoom (s : State) (kind : AlarmKind) (state : AlarmState) : Option State :=
  if s.aru.alarms.length < 16 then some s
  else (alarmVictim s.aru.alarms kind.severity state).map s.removeAlarm

/-- The local-silenced flag of a newcomer (R163). -/
def silencedAtEntry (as : List Alarm) (kind : AlarmKind) : Bool :=
  as.any (fun a => a.silenced && decide (kind.severity ≤ a.kind.severity))

/-- The entry as it is added (R154). -/
def State.newAlarm (s : State) (id : AlarmId) (kind : AlarmKind) (scope : Scope) (state : AlarmState) : Alarm :=
  { id := id, kind := kind, scope := scope, state := state, firstHeard := s.ms,
    silenced := silencedAtEntry s.aru.alarms kind,
    linger := if state = .cleared then some (s.ms + 60000) else none,
    testUntil := if kind = .test then some (s.ms + 5000) else none }

/-- The table with a newcomer in its place, and its indication (R152, R154). -/
def State.addAlarm (s : State) (a : Alarm) : State :=
  placeAlarmChange a .added (s.setAlarms (insertBy alarmBefore a s.aru.alarms))

/-! ### Raising (R156, R157) -/

/-- The next number this station holds no alarm under (R156). -/
def State.freeNumber (s : State) : Nat :=
  ((List.range 256).map (fun i => (s.aru.nextNumber + i) % 256)).find?
      (fun n => (s.findAlarm ⟨s.cfg.station, n⟩).isNone) |>.getD s.aru.nextNumber

/-- A raise (R156): the number taken, or none when the alarm is not held. -/
def State.raise (s : State) (kind : AlarmKind) (scope : Scope) : Option Nat × State :=
  let n := s.freeNumber
  match s.makeAlarmRoom kind .raised with
  | none => (none, s)
  | some s =>
    let a := s.newAlarm ⟨s.cfg.station, n⟩ kind scope .raised
    let s := s.addAlarm a
    let s := s.setAru { s.aru with nextNumber := (n + 1) % 256 }
    (some n, ((s.onPorts (State.openOwn a)).handOn a false).1)

/-- The cord is pulled (R157). -/
def State.pullCord (s : State) : State :=
  if !s.started || s.aru.pullRef.isSome then s
  else
    let r := s.raise .pullcord (.zone s.cfg.zone)
    match r.1 with
    | some n => r.2.setAru { r.2.aru with pullRef := some n }
    | none => r.2

/-- A door edge (R169). -/
def State.doorEdge (s : State) (opened : Bool) : State :=
  if !s.started || !s.cfg.refuge then s
  else
    let s := s.setAru { s.aru with doorOpen := opened }
    if opened && !s.aru.musterActive && s.aru.doorRef.isNone then
      let r := s.raise .refugeDoor (.zone s.cfg.zone)
      match r.1 with
      | some n => r.2.setAru { r.2.aru with doorRef := some n }
      | none => r.2
    else s

/-! ### Merging (R159) -/

/-- One alarm record of a dispatched ALARM section (R159). -/
def State.mergeAlarm (s : State) (r : AlarmRecord) : State :=
  match s.findAlarm r.id with
  | none =>
    match s.makeAlarmRoom r.kind r.state with
    | none => s
    | some s =>
      let a := s.newAlarm r.id r.kind r.scope r.state
      State.thenClear ((s.addAlarm a).handOn a false) a.id
  | some held =>
    if held.state.rank < r.state.rank then
      let a := held.become r.state s.ms
      State.thenClear ((placeAlarmChange a .advanced (s.replaceAlarm a)).handOn a false) a.id
    else s

/-- An ALARM section, record by record (R159). -/
def State.mergeAlarms (s : State) (rs : List AlarmRecord) : State := rs.foldl State.mergeAlarm s

/-! ### Relay deliveries (R166) -/

/-- The record that names a relayed copy's alarm (R166). -/
def firstAlarmRecord (f : List Byte) : Option AlarmRecord :=
  (((chainOf f).getD []).take 8).findSome? (fun x =>
    if x.1 = 4 then
      match readSection 4 x.2 with
      | some (.alarm (r :: _)) => some r
      | _ => none
    else none)

/-- Whether a held record stands against a relayed copy (R166). -/
def standsAgainst (d : Delivery) (r : AlarmRecord) : Bool :=
  decide (r.state.rank < d.alarmState.rank) || (decide (d.alarmState = r.state) && decide (d.source = .own))

/-- A relayed class-ALARM copy for port q (R166). -/
def State.relayAlarm (s : State) (q : Port) (f : List Byte) : State :=
  let once := s.queueRequest q { TxEntry.fixed f .alarm .aru with relayed := true }
  match firstAlarmRecord f with
  | none => once
  | some r =>
    if (s.deliveriesOn q).any (fun d => decide (d.id = r.id) && standsAgainst d r) then once
    else s.openDelivery q r.id .relay f r.state

/-! ### The commands of the alarm and refuge unit -/

/-- The delivery record whose repeat timer has expired (R165). -/
def State.repeatReady (s : State) (p : Port) (id : AlarmId) : Option Delivery :=
  (s.deliveriesOn p).find? (fun d => decide (d.id = id) && s.dueMs d.repeatDue)

/-- DELIVERY_REPEAT_TIMER (R165): the pending frame is queued again. -/
def execDeliveryRepeatTimer (p : Port) (origin number : Nat) (s : State) : Host.Outcome State Fault Refusal :=
  .next (match s.repeatReady p ⟨origin, number⟩ with
    | none => s
    | some d =>
      (s.setDeliveries p ((s.deliveriesOn p).map (fun x =>
          if x.id = d.id then { x with transmissions := x.transmissions + 1, phase := .queued, repeatDue := none }
          else x))).queueRequest p { TxEntry.fixed d.frame .alarm .aru with relayed := decide (d.source = .relay) })

/-- LINGER_DEADLINE (R155): a CLEARED entry leaves the table. -/
def execLingerDeadline (origin number : Nat) (s : State) : Host.Outcome State Fault Refusal :=
  .next (match s.findAlarm ⟨origin, number⟩ with
    | none => s
    | some a => if s.dueMs a.linger then s.removeAlarm a else s)

/-- TEST_WINDOW_EXPIRY (R154, R167): a TEST entry's window ends, and the sounder is decided afresh. -/
def execTestWindowExpiry (origin number : Nat) (s : State) : Host.Outcome State Fault Refusal :=
  .next (match s.findAlarm ⟨origin, number⟩ with
    | none => s
    | some a => if s.dueMs a.testUntil then (s.replaceAlarm { a with testUntil := none }).decideSounder else s)

end Sys2Proof.Machine
end

