-- ==== Sys2Proof/Machine/Channels.lean ====
section
/-! DEFINITION. The air channel unit (chapter 4): the sample stages (R60 to R62), smoothing (R63), the channel state
machine (R66 to R69), trend and rise (R70 to R73), and what a channel hands on (R64, R75, R76, R93, R94). -/

namespace Sys2Proof.Machine

/-! ### The sample stages -/

/-- floor(3FS/2). -/
def ceilingOf (fs : Nat) : Nat := 3 * fs / 2

/-- d of R61, before it is taken as 0. -/
def spanOrigin (z : Int) (code : Nat) : Int := (code : Int) - z - 640

/-- The engineering value of a valid loop sample (R61). -/
def loopValue (g : ChannelConfig) (code : Nat) : Nat :=
  min (((spanOrigin g.z code).toNat * g.g * g.fs + 20971520) / 41943040) (ceilingOf g.fs)

/-- The engineering value of a valid gate (R62). -/
def pulseValue (g : ChannelConfig) (n : Nat) : Nat := min ((n * g.kq + 512) / 1024) (ceilingOf g.fs)

/-! ### Judging (R59) -/

/-- L(v). -/
def levelOf (g : ChannelConfig) (v : Nat) : ChannelState :=
  if g.lowSense then (if v ≤ g.l2 then .trip else if v ≤ g.l1 then .warn else .normal)
  else (if g.l2 ≤ v then .trip else if g.l1 ≤ v then .warn else .normal)

/-- The clear condition of a level bound. -/
def clearsBound (g : ChannelConfig) (bound v : Nat) : Bool :=
  if g.lowSense then decide (bound + g.h < v) else decide (v + g.h < bound)

/-- The clear condition of a level state (R59, R69). -/
def clears (g : ChannelConfig) (x : ChannelState) (v : Nat) : Bool :=
  match x with
  | .trip => clearsBound g g.l2 v
  | .warn => clearsBound g g.l1 v
  | _ => false

/-- One level down (R69). -/
def levelBelow : ChannelState → ChannelState
  | .trip => .warn
  | .warn => .normal
  | x => x

/-! ### The state machine (R66 to R69) -/

/-- A change of level state leaves both counts at 0 and the run minimum absent (R68). -/
def Channel.enter (c : Channel) (x : ChannelState) : Channel := { c with level := x, up := 0, clear := 0, runMin := none }

/-- A fault sample (R67). -/
def Channel.faultSample (c : Channel) : Channel :=
  if c.faults = 0 then { c with faults := 1 }
  else if c.faults = 1 then
    (if c.level = .fault then { c with faults := 2 } else { c with faults := 2 }.enter .fault)
  else c

/-- The accumulator after a valid sample: seeded, or moved toward 16e (R63). -/
def smooth (k acc e : Nat) : Nat := ((acc : Int) + ((16 * e : Int) - acc) / 2 ^ k).toNat

/-- Accumulator and reported value (R63). -/
def Channel.withAcc (c : Channel) (a : Nat) : Channel := { c with acc := a, value := (a + 8) / 16 }

/-- The less severe of a run's levels (R68). -/
def lessSevere (held : Option ChannelState) (x : ChannelState) : ChannelState :=
  match held with
  | none => x
  | some y => if x.rank < y.rank then x else y

/-- Escalation for a level above the level state (R68). -/
def Channel.escalate (g : ChannelConfig) (c : Channel) (x : ChannelState) : Channel :=
  let least := lessSevere c.runMin x
  if c.up + 1 = g.n then c.enter least else { c with up := c.up + 1, runMin := some least }

/-- De-escalation (R69). -/
def Channel.deescalate (g : ChannelConfig) (c : Channel) : Channel :=
  if clears g c.level c.value then
    (if c.clear + 1 = g.m then c.enter (levelBelow c.level) else { c with clear := c.clear + 1 })
  else { c with clear := 0 }

/-- A valid sample in NORMAL, WARN or TRIP, after A and R are updated (R68, R69). A sample above the level state
cannot meet its clear condition, so its clear count becomes 0. -/
def Channel.judge (g : ChannelConfig) (c : Channel) : Channel :=
  let x := levelOf g c.value
  if c.level.rank < x.rank then ({ c with clear := 0 }).escalate g x
  else ({ c with up := 0, runMin := none }).deescalate g

/-- A valid sample with its engineering value (R63, R68). -/
def Channel.validSample (g : ChannelConfig) (e : Nat) (c : Channel) : Channel :=
  let c := { c with faults := 0 }
  if c.level = .starting ∨ c.level = .fault then
    let c := c.withAcc (16 * e)
    c.enter (levelOf g c.value)
  else (c.withAcc (smooth g.k c.acc e)).judge g

/-- A loop sample (R60, R61). -/
def Channel.loopSample (g : ChannelConfig) (code : Nat) (c : Channel) : Channel :=
  if code < 480 ∨ 3440 < code then c.faultSample
  else ({ c with belowZero := decide (spanOrigin g.z code < -64) }).validSample g (loopValue g code)

/-- A gate's count (R62). -/
def Channel.gateSample (g : ChannelConfig) (n : Nat) (c : Channel) : Channel :=
  if 2000 < n then c.faultSample else c.validSample g (pulseValue g n)

/-! ### Trend and rise (R70 to R73) -/

/-- The slot a trend event writes (R71). -/
def Channel.trendSlot (c : Channel) : Slot :=
  if c.level = .starting then { value := 0, valid := false }
  else { value := c.value, valid := !(decide (c.level = .fault) || c.belowZero) }

/-- The rise test over the newest and the older slot (R73). -/
def riseFlag (limit : Nat) (newest older : Slot) (held : Bool) : Bool :=
  if limit = 0 then false
  else if !newest.valid || !older.valid then false
  else if older.value + limit ≤ newest.value then true
  else if 2 * ((newest.value : Int) - older.value) < limit then false
  else held

/-- A trend event (R70, R71, R73): write, advance, test. The older slot is the one written eight events before. -/
def Channel.trendEvent (g : ChannelConfig) (c : Channel) : Channel :=
  let slot := c.trendSlot
  let older := c.ring[c.writeIx + 8]
  { c with ring := c.ring.set c.writeIx slot, writeIx := c.writeIx + 1, fill := min 16 (c.fill + 1),
           rising := riseFlag g.rise slot older c.rising }

/-- The ring in read order (R72). -/
def Channel.readOrder (c : Channel) : List Slot :=
  if c.fill = 16 then (List.finRange 16).map (fun i => c.ring[c.writeIx + i])
  else List.replicate (16 - c.fill) { value := 0, valid := false } ++ c.ring.toList.take c.fill

/-! ### Handing on -/

/-- The alarm a kind raises (R93). -/
def channelAlarm (zone : Nat) : GasKind → Option (AlarmKind × Scope)
  | .methane => some (.gas, .zone zone)
  | .carbonMonoxide => some (.fire, .all)
  | .airVelocity => some (.vent, .zone zone)
  | .oxygen => none
  | .general => none

/-- R93: a channel that enters TRIP asks for its alarm. -/
def State.raiseForChannel (s : State) (c : Fin 7) (before : ChannelState) : State :=
  let x := s.channel c
  if x.level = .trip ∧ before ≠ .trip ∧ (s.channelCfg c).autoAlarm = true ∧ x.raised = none then
    match (s.channelCfg c).kind.bind (channelAlarm s.cfg.zone) with
    | none => s
    | some k =>
      let r := s.raise k.1 k.2
      match r.1 with
      | none => r.2
      | some n => r.2.setChannel c { r.2.channel c with raised := some n }
  else s

/-- R94 at a change of published state: a channel at NORMAL with its alarm ACKNOWLEDGED asks for the clear. -/
def State.clearForChannel (s : State) (c : Fin 7) : State :=
  let x := s.channel c
  match x.raised with
  | none => s
  | some n =>
    if x.published = .normal ∧ (s.findAlarm ⟨s.cfg.station, n⟩).map Alarm.state = some .acknowledged then
      (s.setChannel c { x with raised := none }).clearAsOrigin ⟨s.cfg.station, n⟩
    else s

/-- CHANNEL_STATE and the AIR_REPORT requests (R75, R76). -/
def State.showChannel (s : State) (c : Fin 7) (x : Channel) : State :=
  (takeIn (.channelState c.val x.published x.rising x.value) s).onPorts (State.requestLive .airReport)

/-- What follows a sample or trend event (R64, R75, R76, R93, R94; 4.9). -/
def State.channelEvent (s : State) (c : Fin 7) (after : Channel) : State :=
  let old := s.channel c
  let s := s.setChannel c after
  let published := decide (old.published ≠ after.published)
  let s := if published || decide (old.value ≠ after.value) then
      let s := s.recompute.raiseForChannel c old.level
      if published then s.clearForChannel c else s
    else s
  if published || decide (old.rising ≠ after.rising) then s.showChannel c after else s

/-- A debounced rising pulse edge (R62). -/
def State.pulseEdge (s : State) : State :=
  if s.started ∧ (s.channel 6).level ≠ .unset then s.setAcu { s.acu with gateCount := s.acu.gateCount + 1 } else s

/-! ### Commands -/

/-- LOOP_SAMPLE_EVENT (R60 to R69): a loop channel's sample, every 250 ms. -/
def execLoopSampleEvent (c : Fin 6) (code : BitVec 12) (s : State) : Host.Outcome State Fault Refusal :=
  let i : Fin 7 := c.castSucc
  let x := s.channel i
  .next (if s.started && decide (x.level ≠ .unset) && s.dueMs x.sampleDue then
      s.channelEvent i
        ({ x with sampleDue := x.sampleDue.map (· + 250) }.loopSample (s.channelCfg i) code.toNat)
    else s)

/-- PULSE_GATE_CLOSE (R62): the pulse channel's sample, every 1000 ms; the next gate opens at 0. -/
def execPulseGateClose (s : State) : Host.Outcome State Fault Refusal :=
  .next (if s.started && decide ((s.channel 6).level ≠ .unset) && s.dueMs s.acu.gateDue then
      (s.setAcu { s.acu with gateCount := 0, gateDue := s.acu.gateDue.map (· + 1000) }).channelEvent 6
        ((s.channel 6).gateSample (s.channelCfg 6) s.acu.gateCount)
    else s)

/-- TREND_EVENT (R70 to R73). -/
def execTrendEvent (c : Fin 7) (s : State) : Host.Outcome State Fault Refusal :=
  let x := s.channel c
  .next (if s.started && decide (x.level ≠ .unset) && s.dueMs x.trendDue then
      s.channelEvent c
        ({ x with trendDue := x.trendDue.map (· + 1000 * (s.channelCfg c).interval) }.trendEvent (s.channelCfg c))
    else s)

end Sys2Proof.Machine
end

