-- ==== Sys2Proof/Machine/Packer.lean ====
section
/-! DEFINITION. The packing engine and its arbiter (R100 to R102), and the history requests (R103 to R108). -/

namespace Sys2Proof.Machine

/-! ### History inputs (R106) -/

/-- The validity mask of sixteen slots: bit 15 − j for slot j. -/
def validityMask (slots : List Slot) : Nat := natOfBits (slots.map Slot.valid)

/-- The value of the first valid slot, or 0. -/
def historyBase (slots : List Slot) : Nat := ((slots.find? Slot.valid).map Slot.value).getD 0

def historyInputs (slots : List Slot) : List Int :=
  slots.map (fun x => if x.valid then (x.value : Int) - historyBase slots else 0)

/-! ### The arbiter (R101) -/

def HistoryRequest.channel : HistoryRequest → Fin 7
  | .line c _ _ => c
  | .host c _ => c

/-- The grant of a voice block: it leaves the blocks waiting (R100, R102). -/
def State.grantVoice (s : State) (run : Nat) (block : List Int) (more : List (List Int)) : State :=
  (s.setClu { s.clu with capture := { s.clu.capture with waiting := more } }).setBpk
    { s.bpk with flight := some { claim := .voice run, inputs := block, base := 0, mask := 0, granted := s.clock.usec } }

/-- The grant of a history entry: its inputs are read from the ring now (R100, R106). -/
def State.grantHistory (s : State) (e : HistoryRequest) (more : List HistoryRequest) : State :=
  let slots := (s.channel e.channel).readOrder
  s.setBpk { flight := some { claim := .history e, inputs := historyInputs slots, base := historyBase slots,
                              mask := validityMask slots, granted := s.clock.usec }, history := more }

/-- The arbiter (R101): a FREE engine takes the oldest waiting voice block, else the first history entry. -/
def State.arbitrate (s : State) : State :=
  if s.bpk.flight.isSome then s
  else
    match s.clu.capture.waiting, s.bpk.history with
    | block :: more, _ => s.grantVoice (s.clu.capture.run.getD 0) block more
    | [], e :: more => s.grantHistory e more
    | [], [] => s

/-! ### History requests (R103, R104, R105) -/

def State.addHistory (s : State) (e : HistoryRequest) : State :=
  (s.setBpk { s.bpk with history := s.bpk.history ++ [e] }).arbitrate

/-- Whether the list holds a LINE entry with this requester and channel (R103). -/
def absorbsLine (channel : Fin 7) (requester : Nat) : HistoryRequest → Bool
  | .line c r _ => decide (c = channel) && decide (r = requester)
  | .host _ _ => false

/-- A dispatched HISTORY_REQUEST section (R103). -/
def State.historyRequested (s : State) (p : Port) (requester : Nat) (channel : Fin 7) : State :=
  if (s.channel channel).level = .unset then s
  else if s.bpk.history.any (absorbsLine channel requester) then s
  else if s.bpk.history.length < 4 then s.addHistory (.line channel requester p)
  else s.count p (fun c => { c with queueFullDrops := c.queueFullDrops.bump })

/-- A dispatched HISTORY section (R108). -/
def State.historyReceived (s : State) (origin channel interval base mask : Nat) (block : List Byte) : State :=
  takeIn (.historyReceived origin channel interval mask (expandHistory base mask block)) s

/-! ### Completion of a history pack (R107) -/

/-- The result of a history pack goes to its source: a HISTORY frame on the arrival port, or the host's RESPONSE and
DATA record. -/
def State.historyPacked (s : State) (e : HistoryRequest) (base mask : Nat) (block : List Byte) : State :=
  let interval := (s.channelCfg e.channel).interval
  match e with
  | .line c requester p =>
    s.requestFrame p requester .routine .acu [.history c.val interval base mask block] id
  | .host c tag =>
    takeInAll [.response tag 11 .ok 0 1, .data tag (.history c.val interval mask (expandHistory base mask block))] s

end Sys2Proof.Machine
end

