-- ==== Sys2Proof/Machine/Peers.lean ====
section
/-! DEFINITION. The tables of the peer and relay unit: peers (R39 to R44), recent frames (R46), calls heard (R55),
and the beacon timer (R50). -/

namespace Sys2Proof.Machine

/-! ### Tables -/

def State.setPeers (s : State) (ps : List Peer) : State := s.setPru { s.pru with peers := ps }

def State.findPeer (s : State) (station : Nat) : Option Peer :=
  s.pru.peers.find? (fun x => decide (x.station = station))

/-- Change the entry of one station. -/
def State.updatePeer (s : State) (station : Nat) (f : Peer → Peer) : State :=
  s.setPeers (s.pru.peers.map (fun x => if x.station = station then f x else x))

/-- An entry leaves the table, and the zone air evaluator recomputes (R44). -/
def State.removePeer (s : State) (station : Nat) : State :=
  (s.setPeers (s.pru.peers.filter (fun x => decide (x.station ≠ station)))).recompute

/-! ### Calls heard (R55) -/

/-- Whether a station is a party to a call heard (R55). -/
def partyHeard (heard : List HeardCall) (station : Nat) : Bool :=
  heard.any (fun h => decide (h.id.caller = station) || decide (h.callee = some station))

/-- The calls-heard list changes, and every in-call flag follows it (R55). -/
def State.setHeard (s : State) (heard : List HeardCall) : State :=
  s.setPru { s.pru with heard := heard,
                        peers := s.pru.peers.map (fun x => { x with inCall := partyHeard heard x.station }) }

/-- Without the entry of a call: an expiry, a RELEASE, or a call this station adopts (R55). -/
def State.forgetCall (s : State) (id : CallId) : State :=
  s.setHeard (s.pru.heard.filter (fun h => decide (h.id ≠ id)))

/-- The callee a CALL section gives, when it is not 4095 (R55). -/
def calleeGiven (callee : Option Nat) : Option Nat := callee.filter (fun n => decide (n ≠ 4095))

/-- The list after a section of a call that is not a RELEASE (R55; log 16). -/
def hearCall (heard : List HeardCall) (id : CallId) (callee : Option Nat) (arrival : Nat) : List HeardCall :=
  let newcomer : HeardCall := { id := id, last := arrival, callee := calleeGiven callee }
  if heard.any (fun h => decide (h.id = id)) then
    heard.map (fun h =>
      if h.id = id then { h with last := arrival, callee := (calleeGiven callee).orElse (fun _ => h.callee) } else h)
  else if heard.length < 4 then heard ++ [newcomer]
  else
    match firstBy (fun a b => decide (a.last ≤ b.last)) heard with
    | some oldest => heard.map (fun h => if h.id = oldest.id then newcomer else h)
    | none => heard ++ [newcomer]

/-- Whether a call is the station's own (R55). -/
def State.ownCall (s : State) (id : CallId) : Bool :=
  decide (s.clu.ctx.call = some id) || decide (id.caller = s.cfg.station)

/-- A CALL or VOICE section reaches the calls-heard list (R55). -/
def State.callHeard (s : State) (id : CallId) (callee : Option Nat) (release : Bool) (arrival : Nat) : State :=
  if s.ownCall id then s
  else if release then s.forgetCall id
  else s.setHeard (hearCall s.pru.heard id callee arrival)

/-! ### Commands -/

/-- PEER_SILENT_DEADLINE (R44): a PRESENT peer has not been heard for the silent timeout. -/
def execPeerSilentDeadline (station : Nat) (s : State) : Host.Outcome State Fault Refusal :=
  .next (match s.findPeer station with
    | none => s
    | some x =>
      if x.present && decide (x.lastHeard + 1000 * s.cfg.silent ≤ s.ms) then
        (takeIn (.peerSilent station)
          (s.updatePeer station (fun y => { y with present := false, air := none, refuge := none }))).recompute
      else s)

/-- PEER_REMOVAL_DEADLINE (R44): a SILENT entry is removed 300 s after its last-heard time. -/
def execPeerRemovalDeadline (station : Nat) (s : State) : Host.Outcome State Fault Refusal :=
  .next (match s.findPeer station with
    | none => s
    | some x => if !x.present && decide (x.lastHeard + 300000 ≤ s.ms) then s.removePeer station else s)

/-- RECENT_FRAME_EXPIRY (R46): every entry that is 20 s old leaves the list. -/
def execRecentFrameExpiry (s : State) : Host.Outcome State Fault Refusal :=
  .next (s.setPru { s.pru with recent := s.pru.recent.filter (fun r => decide (s.ms < r.arrival + 20000)) })

/-- CALLS_HEARD_EXPIRY (R55): an entry expires 2 s after its last-frame time. -/
def execCallsHeardExpiry (caller number : Nat) (s : State) : Host.Outcome State Fault Refusal :=
  .next (if s.pru.heard.any (fun h => decide (h.id = ⟨caller, number⟩) && decide (h.last + 2000 ≤ s.ms)) then
      s.forgetCall ⟨caller, number⟩
    else s)

/-- Start a beacon period from an instant (R50): B × 1000 + r ms, r drawn over 0 to 255. -/
def State.startBeaconPeriod (s : State) (start : Nat) : State :=
  let r := s.drawBelow 256
  r.2.setPru { r.2.pru with beaconDue := some (start + 1000 * s.cfg.beacon + r.1) }

/-- BEACON_TIMER_EXPIRY (R50): a BEACON on each configured port, and the next period. -/
def execBeaconTimerExpiry (s : State) : Host.Outcome State Fault Refusal :=
  .next (if s.running && s.dueMs s.pru.beaconDue then
      (s.onPorts (State.requestLive .beacon)).startBeaconPeriod (s.pru.beaconDue.getD 0)
    else s)

end Sys2Proof.Machine
end

