-- ==== Sys2Proof/Machine/Calls.lean ====
section
/-! DEFINITION. The call unit's context (R110 to R124): placing, answering, releasing, floor and pages; with the
capture runs (R125) and the playback ring (R126, R127) that those events act on. -/

namespace Sys2Proof.Machine

/-! ### Updates -/

def State.setCtx (s : State) (x : CallContext) : State := s.setClu { s.clu with ctx := x }
def State.setCapture (s : State) (x : Capture) : State := s.setClu { s.clu with capture := x }
def State.setPlayback (s : State) (x : Playback) : State := s.setClu { s.clu with playback := x }
def State.setTones (s : State) (x : Tones) : State := s.setClu { s.clu with tones := x }

/-- The ring tone and the ringback tone stop (R129). -/
def State.stopRing (s : State) : State := s.setTones { s.clu.tones with ring := none }

/-- The ring or ringback tone starts, and the deny tone stops (R129). -/
def State.startRing (s : State) : State := s.setTones { s.clu.tones with ring := some 0, deny := none }

/-- The deny tone starts, or starts again (R129). -/
def State.startDeny (s : State) : State := s.setTones { s.clu.tones with deny := some 0 }

/-- The call ID and the peer of the context. -/
def State.callId (s : State) : CallId := s.clu.ctx.call.getD ⟨0, 0⟩

def State.callPeer (s : State) : Nat := s.clu.ctx.peer.getD 0

/-- A CALL_EVENT indication with the context's fields (R110). -/
def State.callEvent (s : State) (e : CallEvent) (reason : Option ReleaseReason) : State :=
  takeIn (.callEvent e s.callId s.callPeer reason) s

/-! ### Sending (R111) -/

/-- Request a CALL-class frame: to 4095 on each port; to a PRESENT peer on its port; to any other on each port. -/
def State.sendCallFrame (s : State) (dest : Nat) (xs : List FrameSection) (f : TxEntry → TxEntry) : State :=
  let each := s.onPorts (fun p t => t.requestFrame p dest .call .clu xs f)
  if dest = 4095 then each
  else
    match s.findPeer dest with
    | some x => if x.present then s.requestFrame x.port dest .call .clu xs f else each
    | none => each

/-- The callee ID a CALL section of the context's call carries (R111). -/
def State.calleeField (s : State) : Nat :=
  if s.callPeer = 4095 then 4095 else if s.callId.caller = s.cfg.station then s.callPeer else s.cfg.station

/-- The holding timer starts again at each frame the unit requests for a CONNECTED call (R119). -/
def State.restartHolding (s : State) : State :=
  if s.clu.ctx.state = .connected then s.setCtx { s.clu.ctx with holdingDue := some (s.ms + 3000) } else s

/-- Request a CALL section of the context's call (R111). -/
def State.sendMessage (s : State) (m : CallMessage) (reason : Option ReleaseReason) : State :=
  (s.sendCallFrame s.callPeer [.call s.callId m s.calleeField reason] id).restartHolding

/-- Request the RELEASE of a call that is refused or abandoned (R115, R117). -/
def State.sendRelease (s : State) (id : CallId) (dest callee : Nat) (reason : ReleaseReason) : State :=
  s.sendCallFrame dest [.call id .release callee (some reason)] (fun e => e)

/-- Request a VOICE frame of the context's call with the next voice sequence (R111, R125). -/
def State.sendVoice (s : State) (blocks : List (List Byte)) : State :=
  let seq := s.clu.ctx.sendSeq.getD 0
  let id := s.callId
  let s := s.setCtx { s.clu.ctx with sendSeq := some ((seq + 1) % 256) }
  (s.sendCallFrame s.callPeer [.voice id seq blocks] (fun e => { e with voiceCall := some id })).restartHolding

/-! ### Capture runs (R125) -/

/-- The place of a voice block in flight. -/
def State.inFlightPlaces (s : State) : Nat :=
  match s.bpk.flight with
  | some f => (match f.claim with
    | .voice _ => 1
    | .history _ => 0)
  | none => 0

/-- A new block to be filled takes a place when one of the sixteen is free. -/
def State.takePlace (s : State) : State :=
  let c := s.clu.capture
  if c.run.isSome ∧ c.filling.isNone ∧ c.waiting.length + s.inFlightPlaces < 16 then
    s.setCapture { c with filling := some [] }
  else s

/-- A capture run starts (R120, R123). -/
def State.startRun (s : State) : State :=
  let c := s.clu.capture
  (s.setCapture { run := some c.nextRun, nextRun := c.nextRun + 1, filling := none, waiting := [], packed := [] }).takePlace

/-- A capture run ends: what is stored is discarded, and the packed list is sent or discarded (R125). -/
def State.endRun (s : State) (send : Bool) : State :=
  let c := s.clu.capture
  let t := s.setCapture { c with run := none, filling := none, waiting := [], packed := [] }
  if send && c.run.isSome && !c.packed.isEmpty then t.sendVoice c.packed else t

/-! ### Playback (R126, R127) -/

def State.emptyPlayback (s : State) : State := s.setPlayback .empty

/-- A decoded block is appended (R127). -/
def Playback.append (r : Playback) (b : List Int) : Playback :=
  let full := decide (64 ≤ r.blocks.length)
  let blocks := (if full then r.blocks.tail else r.blocks) ++ [b]
  { r with blocks := blocks, given := if full then 0 else r.given, playing := r.playing || decide (16 ≤ blocks.length) }

def Playback.appendAll (r : Playback) (bs : List (List Int)) : Playback := bs.foldl Playback.append r

/-- Playout starts if the ring waits with at least one block (R127). -/
def Playback.startIfHeld (r : Playback) : Playback := { r with playing := r.playing || !r.blocks.isEmpty }

def silenceBlock : List Int := List.replicate 16 0

/-- The concealment blocks for d missing frames (R126). -/
def concealment (last : Option (List Int)) (d : Nat) : List (List Int) :=
  ((last.map (fun b => b.map (· / 2))).getD silenceBlock) :: List.replicate (8 * d - 1) silenceBlock

/-- The ring after an accepted frame's blocks, with the concealment before them (R126). -/
def Playback.takeFrame (r : Playback) (d : Nat) (blocks : List (List Byte)) : Playback :=
  let decoded := blocks.map expandVoice
  let r := if 1 ≤ d ∧ d ≤ 8 then r.appendAll (concealment r.lastBlock d) else r
  let r := r.appendAll decoded
  { r with lastBlock := decoded.getLast?.orElse (fun _ => r.lastBlock) }

/-- d of R126. -/
def voiceDistance (expected : Option Nat) (seq : Nat) : Nat :=
  match expected with
  | none => 0
  | some e => (seq + 256 - e % 256) % 256

/-- An accepted VOICE frame goes to playback (R126). -/
def State.playVoice (s : State) (seq : Nat) (blocks : List (List Byte)) : State :=
  let d := voiceDistance s.clu.ctx.expectSeq seq
  if 128 ≤ d then s
  else (s.setPlayback (s.clu.playback.takeFrame d blocks)).setCtx { s.clu.ctx with expectSeq := some ((seq + 1) % 256) }

def State.startPlayout (s : State) : State := s.setPlayback s.clu.playback.startIfHeld

/-! ### Returning to IDLE (R110, R114, R118) -/

/-- The context returns to IDLE with its event (R110); every timer and tone of the call stops. -/
def State.toIdle (s : State) (e : CallEvent) (reason : Option ReleaseReason) : State :=
  ((s.callEvent e reason).setCtx .idle).stopRing

/-- A RELEASE is requested and the context returns to IDLE (R114, R116, R123). -/
def State.releaseCall (s : State) (reason : ReleaseReason) : State :=
  (s.sendMessage .release (some reason)).toIdle .released (some reason)

/-- The release of R118 and R119: the capture run ends, RELEASE, the ring is emptied, IDLE. -/
def State.dropCall (s : State) (reason : ReleaseReason) : State :=
  (((s.endRun false).sendMessage .release (some reason)).emptyPlayback).toIdle .released (some reason)

/-- A RELEASE of the context's call is received (R118): nothing is sent, and the ring plays out (R127). -/
def State.releasedByPeer (s : State) (reason : Option ReleaseReason) : State :=
  ((s.endRun false).startPlayout).toIdle .released reason

/-- The end of a heard page (R124). -/
def State.endHeardPage (s : State) : State := s.startPlayout.toIdle .pageEnded none

/-- The end of a page talk span (R123). -/
def State.endPage (s : State) : State := (s.endRun true).releaseCall .normal

/-- The states a local release acts in (R118). -/
def CallState.releasable : CallState → Bool
  | .outgoing => true
  | .ringback => true
  | .incoming => true
  | .connected => true
  | .paging => true
  | .idle => false
  | .hearingPage => false

/-! ### Placing (R112, R113, R123) -/

/-- The admission limit of a line rate (R112). -/
def admissionLimit : LineRate → Nat
  | .k62 => 0
  | .k125 => 1
  | .k250 => 2

/-- The context of a new call of this station's own. -/
def State.ownContext (s : State) (state : CallState) (peer : Nat) : CallContext :=
  { CallContext.idle with state := state, call := some ⟨s.cfg.station, s.clu.nextCall⟩, peer := some peer }

/-- A SETUP is requested and the setup timer starts (R112, R114). -/
def State.sendSetup (s : State) : State :=
  let s := s.sendMessage .setup none
  s.setCtx { s.clu.ctx with setups := s.clu.ctx.setups + 1, setupDue := some (s.ms + 1000) }

/-- A call is placed (R112). -/
def State.placeCall (s : State) (callee : Nat) : State :=
  ((s.setClu { s.clu with ctx := s.ownContext .outgoing callee, nextCall := (s.clu.nextCall + 1) % 256 }).emptyPlayback).sendSetup

/-- A page is placed (R123). -/
def State.placePage (s : State) : State :=
  (s.setClu { s.clu with
    ctx := { s.ownContext .paging 4095 with sendSeq := some 0, setupDue := some (s.ms + 10000) },
    nextCall := (s.clu.nextCall + 1) % 256 }).emptyPlayback

/-- The answer to an attempt to place a call: the first case of R112 that applies. -/
def State.callAnswer (s : State) (callee : Nat) : ResponseCode :=
  if !s.running then .badState
  else if callee = s.cfg.station then .badArgument
  else if callee = 4095 ∧ s.cfg.operator = false then .notPermitted
  else if s.clu.ctx.state ≠ .idle then .badState
  else if admissionLimit s.cfg.rate ≤ s.pru.heard.length then .lineFull
  else .ok

/-- Place the call or the page that R112 admits. -/
def State.placeAdmitted (s : State) (callee : Nat) : State :=
  if callee = 4095 then s.placePage else s.placeCall callee

/-- Whether the handset places and answers calls: OFF, and taken off the hook since the start (R130). -/
def State.handsetTaken (s : State) : Bool := s.clu.hookOff && !s.clu.hookStale

/-- The call button is pressed (R113). A handset off the hook since the start places no call (R130); that the press then
starts no deny tone either is log 34 (DEDUCED). -/
def State.buttonPressed (s : State) : State :=
  if s.running ∧ s.clu.ctx.state = .idle ∧ s.handsetTaken = true then
    if s.cfg.hotline ≠ 0 ∧ s.callAnswer s.cfg.hotline = .ok then s.placeAdmitted s.cfg.hotline else s.startDeny
  else s

/-! ### Connecting and answering (R116, R119) -/

/-- Entry to CONNECTED (R119). -/
def State.connect (s : State) : State :=
  (((s.setCtx { s.clu.ctx with state := .connected, floor := some .none, sendSeq := some 0, expectSeq := none,
                               setupDue := none, ringDue := none, silenceDue := some (s.ms + 10000),
                               holdingDue := some (s.ms + 3000) }).stopRing).callEvent .connected none)

/-- An off-hook edge answers an INCOMING call (R116). -/
def State.answerCall (s : State) : State := (s.sendMessage .answer none).connect

/-- The hook field takes a level: a change, or the level at the start, where OFF stands as no change (R113, R130). -/
def State.setHook (s : State) (off stale : Bool) : State := s.setClu { s.clu with hookOff := off, hookStale := stale }

/-- The hook changes (R113, R116, R118). -/
def State.hookEdge (s : State) (off : Bool) : State :=
  let s := s.setHook off false
  if off then (if s.clu.ctx.state = .incoming then s.answerCall else s)
  else if s.clu.ctx.state.releasable then s.dropCall .normal
  else s

/-- A SETUP is taken (R115). -/
def State.takeCall (s : State) (id : CallId) : State :=
  let s := (s.setCtx { CallContext.idle with state := .incoming, call := some id, peer := some id.caller,
                                             ringDue := some (s.ms + 30000) }).emptyPlayback
  (((s.forgetCall id).sendMessage .ringing none).startRing).callEvent .incoming none

/-- Glare (R117): the higher ID abandons its own call and takes the other's, and answers it with the hook OFF,
unless the handset has been off since the start (R130, log 34). -/
def State.glare (s : State) (id : CallId) : State :=
  if s.cfg.station < id.caller then s
  else
    let s := (s.sendMessage .release (some .normal)).takeCall id
    if s.handsetTaken then s.answerCall else s

/-- The calls heard that count against a SETUP (R115). -/
def State.heardBut (s : State) (id : CallId) : Nat := s.pru.heard.countP (fun h => decide (h.id ≠ id))

/-- A SETUP section (R115), addressed to this station and naming it as callee. -/
def State.setupReceived (s : State) (id : CallId) : State :=
  let ctx := s.clu.ctx
  if !s.running then s
  else if ctx.state = .incoming ∧ ctx.call = some id then s.sendMessage .ringing none
  else if ctx.state = .connected ∧ ctx.call = some id then s
  else if ctx.state = .outgoing ∧ ctx.peer = some id.caller then s.glare id
  else if ctx.state ≠ .idle ∨ s.clu.hookOff = true then s.sendRelease id id.caller s.cfg.station .busy
  else if s.cfg.rate = .k62 ∨ admissionLimit s.cfg.rate ≤ s.heardBut id then
    s.sendRelease id id.caller s.cfg.station .lineFull
  else s.takeCall id

/-! ### The floor (R120 to R122) -/

def State.setFloor (s : State) (f : Floor) : State := s.setCtx { s.clu.ctx with floor := some f }

/-- The give of R120. -/
def State.giveFloor (s : State) : State :=
  let s := (s.endRun true).sendMessage .floorGive none
  s.setCtx { s.clu.ctx with talkDue := none, floor := some .none }

/-- Push-to-talk is pressed (R120, R123). -/
def State.pttPressed (s : State) : State :=
  match s.clu.ctx.state with
  | .connected =>
    match s.clu.ctx.floor with
    | some .remote => (takeIn (.floorDenied s.callId) s).startDeny
    | some .none =>
      let s := s.sendMessage .floorTake none
      (s.setCtx { s.clu.ctx with floor := some .localSide, talkDue := some (s.ms + 60000) }).startRun
    | _ => s
  | .paging =>
    if s.clu.ctx.talkSpan then s
    else (s.setCtx { s.clu.ctx with setupDue := none, talkSpan := true, talkDue := some (s.ms + 60000) }).startRun
  | _ => s

/-- Push-to-talk is released (R120, R123). -/
def State.pttReleased (s : State) : State :=
  match s.clu.ctx.state with
  | .connected => if s.clu.ctx.floor = some .localSide then s.giveFloor else s
  | .paging => if s.clu.ctx.talkSpan then s.endPage else s
  | _ => s

/-- A callee yields to a crossed FLOOR_TAKE (R121). -/
def State.yieldFloor (s : State) : State :=
  let s := s.endRun false
  takeIn (.floorDenied s.callId) (s.setCtx { s.clu.ctx with talkDue := none, floor := some .remote })

/-- FLOOR_TAKE in CONNECTED (R121). -/
def State.floorTaken (s : State) : State :=
  match s.clu.ctx.floor with
  | some .localSide => if s.callId.caller = s.cfg.station then s else s.yieldFloor
  | some .remote => s
  | _ => s.setFloor .remote

/-- FLOOR_GIVE in CONNECTED (R121). -/
def State.floorGiven (s : State) : State :=
  match s.clu.ctx.floor with
  | some .localSide => s
  | some .remote => (s.setFloor .none).startPlayout
  | _ => s.startPlayout

/-- The silence timer starts again at each section of the call (R119). -/
def State.restartSilence (s : State) : State := s.setCtx { s.clu.ctx with silenceDue := some (s.ms + 10000) }

/-- A CALL section of the context's call in CONNECTED (R118, R119, R121). DESIGN CHOICE (log 33): a SETUP of the call
restarts the silence timer as R119 says of every CALL section of the call, and R115's "No effect" is read as no other
effect; so too a SETUP to 4095 or with another callee. -/
def State.connectedMessage (s : State) (m : CallMessage) (reason : Option ReleaseReason) : State :=
  let s := s.restartSilence
  match m with
  | .floorTake => s.floorTaken
  | .floorGive => s.floorGiven
  | .release => s.releasedByPeer reason
  | _ => s

/-- A VOICE section of the context's call in CONNECTED (R121). -/
def State.connectedVoice (s : State) (seq : Nat) (blocks : List (List Byte)) : State :=
  let s := s.restartSilence
  match s.clu.ctx.floor with
  | some .localSide => s
  | some .remote => s.playVoice seq blocks
  | _ => (s.setFloor .remote).playVoice seq blocks

/-! ### Sections received (R114 to R124) -/

/-- RINGING in OUTGOING (R114). -/
def State.enterRingback (s : State) : State :=
  ((s.setCtx { s.clu.ctx with state := .ringback, setupDue := none, ringDue := some (s.ms + 30000) }).startRing).callEvent
    .ringback none

/-- A CALL section of the context's call before it is CONNECTED (R114). -/
def State.dialMessage (s : State) (m : CallMessage) (reason : Option ReleaseReason) : State :=
  match m with
  | .ringing => if s.clu.ctx.state = .outgoing then s.enterRingback else s
  | .answer => s.connect
  | .release => s.releasedByPeer reason
  | .setup => s
  | _ => s.connect.connectedMessage m reason

/-- A CALL section of the context's call, by its state (R114, R116, R118, R121, R124). -/
def State.ownMessage (s : State) (dest : Nat) (m : CallMessage) (reason : Option ReleaseReason) : State :=
  match s.clu.ctx.state with
  | .outgoing => s.dialMessage m reason
  | .ringback => s.dialMessage m reason
  | .incoming => if m = .release then s.releasedByPeer reason else s
  | .connected => s.connectedMessage m reason
  | .hearingPage => if m = .release ∧ dest = 4095 then s.endHeardPage else s
  | _ => s

/-- Whether a SETUP acts under R115: it is not a SETUP of a call this station is still placing (R114; log 17). -/
def State.setupActs (s : State) (id : CallId) : Bool :=
  !(decide (s.clu.ctx.call = some id)
    && (decide (s.clu.ctx.state = .outgoing) || decide (s.clu.ctx.state = .ringback)))

/-- A CALL section dispatched to the call unit (R114 to R124). JOINING takes none (R130). -/
def State.callSection (s : State) (dest : Nat) (id : CallId) (m : CallMessage) (callee : Nat)
    (reason : Option ReleaseReason) : State :=
  if !s.running then s
  else
    let s := if s.clu.ctx.call = some id then s.ownMessage dest m reason else s
    if m = .setup ∧ dest = s.cfg.station ∧ callee = s.cfg.station ∧ s.setupActs id = true then s.setupReceived id else s

/-- A page begins to be heard (R124). -/
def State.hearPage (s : State) (id : CallId) : State :=
  (((s.setCtx { CallContext.idle with state := .hearingPage, call := some id, peer := some id.caller,
                                      gapDue := some (s.ms + 2000) }).emptyPlayback).forgetCall id).callEvent
    .pageHeard none

/-- A VOICE section from a frame to 4095 (R124). -/
def State.pageVoice (s : State) (id : CallId) (seq : Nat) (blocks : List (List Byte)) : State :=
  if s.clu.ctx.state = .idle then (s.hearPage id).playVoice seq blocks
  else if s.clu.ctx.state = .hearingPage ∧ s.clu.ctx.call = some id then
    (s.setCtx { s.clu.ctx with gapDue := some (s.ms + 2000) }).playVoice seq blocks
  else s

/-- A VOICE section dispatched to the call unit (R114, R121, R124; log 17). -/
def State.voiceSection (s : State) (dest : Nat) (id : CallId) (seq : Nat) (blocks : List (List Byte)) : State :=
  if !s.running then s
  else if dest = 4095 then s.pageVoice id seq blocks
  else if s.clu.ctx.call ≠ some id then s
  else
    match s.clu.ctx.state with
    | .outgoing => s.connect.connectedVoice seq blocks
    | .ringback => s.connect.connectedVoice seq blocks
    | .connected => s.connectedVoice seq blocks
    | _ => s

/-! ### Timers -/

/-- SETUP_TIMER_EXPIRY (R114). -/
def execSetupTimerExpiry (s : State) : Host.Outcome State Fault Refusal :=
  .next (if decide (s.clu.ctx.state = .outgoing) && s.dueMs s.clu.ctx.setupDue then
      (if s.clu.ctx.setups < 3 then s.sendSetup else s.releaseCall .lost)
    else s)

/-- PAGE_SETUP_TIMER_EXPIRY (R123): ten seconds without a press end the page. -/
def execPageSetupTimerExpiry (s : State) : Host.Outcome State Fault Refusal :=
  .next (if decide (s.clu.ctx.state = .paging) && s.dueMs s.clu.ctx.setupDue then s.releaseCall .normal else s)

/-- RING_TIMER_EXPIRY (R114, R116). -/
def execRingTimerExpiry (s : State) : Host.Outcome State Fault Refusal :=
  .next (if (decide (s.clu.ctx.state = .ringback) || decide (s.clu.ctx.state = .incoming)) && s.dueMs s.clu.ctx.ringDue
    then s.releaseCall .noAnswer else s)

/-- SILENCE_TIMER_EXPIRY (R119). -/
def execSilenceTimerExpiry (s : State) : Host.Outcome State Fault Refusal :=
  .next (if decide (s.clu.ctx.state = .connected) && s.dueMs s.clu.ctx.silenceDue then s.dropCall .lost else s)

/-- HOLDING_TIMER_EXPIRY (R119). -/
def execHoldingTimerExpiry (s : State) : Host.Outcome State Fault Refusal :=
  .next (if decide (s.clu.ctx.state = .connected) && s.dueMs s.clu.ctx.holdingDue then s.sendMessage .holding none
    else s)

/-- TALK_TIMER_EXPIRY (R122, R123): the floor is given, or the page ends, and TALK_LIMIT is placed. -/
def execTalkTimerExpiry (s : State) : Host.Outcome State Fault Refusal :=
  .next (if s.dueMs s.clu.ctx.talkDue then
      (if s.clu.ctx.state = .connected ∧ s.clu.ctx.floor = some .localSide then
        takeIn (.talkLimit s.callId) s.giveFloor
      else if s.clu.ctx.state = .paging ∧ s.clu.ctx.talkSpan = true then takeIn (.talkLimit s.callId) s.endPage
      else s)
    else s)

/-- PAGE_GAP_TIMER_EXPIRY (R124). -/
def execPageGapTimerExpiry (s : State) : Host.Outcome State Fault Refusal :=
  .next (if decide (s.clu.ctx.state = .hearingPage) && s.dueMs s.clu.ctx.gapDue then s.endHeardPage else s)

/-- DENY_TONE_END (R129): the deny tone stops after 1600 sample requests. -/
def execDenyToneEnd (s : State) : Host.Outcome State Fault Refusal :=
  .next (match s.clu.tones.deny with
    | none => s
    | some n => if 1600 ≤ n then s.setTones { s.clu.tones with deny := none } else s)

end Sys2Proof.Machine
end

