-- ==== Sys2Proof/Machine/Voice.lean ====
section
/-! DEFINITION. The codec port: tones and the earpiece (R128, R129), capture and playback samples (R125, R127); and
pack completion (R100, R102, R107). -/

namespace Sys2Proof.Machine

/-! ### Tones (R129) -/

/-- A square wave of half-period h: +A first. -/
def square (h : Nat) (amplitude : Int) (n : Nat) : Int := if n / h % 2 = 0 then amplitude else -amplitude

/-- The alarm tone at its n-th request: 800 and 1000 Hz, 2000 samples each. -/
def alarmSample (n : Nat) : Int := square (if n / 2000 % 2 = 0 then 5 else 4) 8192 (n % 2000)

/-- The ring and ringback tones: 1 s on, 2 s off. -/
def ringSample (amplitude : Int) (n : Nat) : Int :=
  if n % 24000 < 8000 then square 10 amplitude (n % 24000) else 0

def denySample (n : Nat) : Int := square 4 4096 n

/-- The deny tone runs for 1600 requests. -/
def Tones.denyRuns (t : Tones) : Bool :=
  match t.deny with
  | none => false
  | some n => decide (n < 1600)

/-- The tone counts at a request: the alarm tone's counts from the moment its condition begins (R129). DESIGN CHOICE
(log 39): the condition is looked at when a codec request reads the table (R128), so an end and a new beginning between two
requests do not start the count again. -/
def Tones.request (t : Tones) (alarm : Bool) : Tones :=
  { t with alarm := if alarm then some (t.alarm.getD 0) else none }

/-- The counts after a request. -/
def Tones.advance (t : Tones) : Tones :=
  { alarm := t.alarm.map (· + 1), ring := t.ring.map (· + 1),
    deny := t.deny.map (fun n => if n < 1600 then n + 1 else n) }

/-! ### Playback (R127) -/

/-- The sample a ring gives at a request, and the ring after it. -/
def Playback.giveSample (r : Playback) : Int × Playback :=
  if !r.playing then (0, r)
  else
    match r.blocks with
    | [] => (0, { r with playing := false })
    | b :: more =>
      (b.getD r.given 0,
        if 16 ≤ r.given + 1 then { r with blocks := more, given := 0 } else { r with given := r.given + 1 })

/-! ### The earpiece (R128) -/

/-- The sample sent to the codec: the first source that applies. -/
def State.earpieceSample (s : State) (t : Tones) (played : Int) : Int :=
  if s.alarmTone then alarmSample (t.alarm.getD 0)
  else if s.clu.ctx.state = .incoming then ringSample 8192 (t.ring.getD 0)
  else if s.clu.ctx.state = .ringback then ringSample 2048 (t.ring.getD 0)
  else if t.denyRuns then denySample (t.deny.getD 0)
  else if s.clu.ctx.state = .connected ∨ s.clu.ctx.state = .hearingPage ∨ s.clu.playback.playing = true then played
  else 0

/-- The part of a codec event that gives a sample (R127 to R129). -/
def State.codecOut (s : State) : State :=
  let t := s.clu.tones.request s.alarmTone
  let g := s.clu.playback.giveSample
  s.setClu { s.clu with earpiece := s.earpieceSample t g.1, playback := g.2, tones := t.advance }

/-! ### Capture (R125) -/

/-- The microphone sample joins the block being filled; the sixteenth completes it, and it becomes a claim. -/
def State.captureSample (s : State) (mic : Int) : State :=
  let c := s.clu.capture
  match c.filling with
  | none => s
  | some b =>
    if 15 ≤ b.length then
      ((s.setCapture { c with filling := none, waiting := c.waiting ++ [b ++ [mic]] }).takePlace).arbitrate
    else s.setCapture { c with filling := some (b ++ [mic]) }

/-- CODEC_SAMPLE (R125, R127 to R130): one sample each way. -/
def execCodecSample (mic : BitVec 16) (s : State) : Host.Outcome State Fault Refusal :=
  .next (if s.started then s.codecOut.captureSample mic.toInt else s.setClu { s.clu with earpiece := 0 })

/-! ### Pack completion -/

/-- A packed voice block comes back (R102, R125): one of the current run joins the packed list, and eight make a
frame; one of an ended run is discarded. Its place is freed. -/
def State.voicePacked (s : State) (run : Nat) (block : List Byte) : State :=
  let c := s.clu.capture
  let s :=
    if c.run = some run then
      let packed := c.packed ++ [block]
      if 8 ≤ packed.length then (s.setCapture { c with packed := [] }).sendVoice packed
      else s.setCapture { c with packed := packed }
    else s
  s.takePlace

/-- PACK_COMPLETION (R100, R102, R107; log 20): the result goes to its claimant, and the arbiter decides. -/
def execPackCompletion (s : State) : Host.Outcome State Fault Refusal :=
  .next (match s.bpk.flight with
    | none => s
    | some f =>
      let block := packBlock f.inputs
      let t := s.setBpk { s.bpk with flight := none }
      (match f.claim with
        | .voice run => t.voicePacked run block
        | .history e => t.historyPacked e f.base f.mask block).arbitrate)

end Sys2Proof.Machine
end

