-- ==== Sys2Proof/Machine/Sightings.lean ====
section
/-! DEFINITION. The vehicle link receiver (R132, R133), the near table (R135 to R139) and the truck track table (R141,
R142), with the tag unit's timers and its transmitter's completion (R145 to R147). -/

namespace Sys2Proof.Machine

/-! ### Track table (R141, R142) -/

/-- A truck sighting as the track table takes it (R141). -/
structure TruckSighting where
  tag : Nat
  kind : TagKind
  reporter : Nat
  chainage : Nat
  strength : Int
  heading : Heading
  speed : Nat
  loaded : Bool
  time : Nat
  deriving DecidableEq, Repr

/-- Whether a sighting replaces the current one (R142). -/
def replacesSighting (t : Track) (x : TruckSighting) : Bool :=
  decide (x.reporter = t.reporter) || decide (t.strength + 6 < x.strength) || decide (t.sighted + 3000 < x.time)

/-- The entry with the sighting as current; lane fields and advisory stand (R142). -/
def Track.sightedBy (t : Track) (x : TruckSighting) : Track :=
  { t with kind := x.kind, reporter := x.reporter, chainage := x.chainage, strength := x.strength, heading := x.heading,
           speed := x.speed, loaded := x.loaded, sighted := x.time }

/-- A new entry (R142). -/
def Track.ofSighting (x : TruckSighting) : Track :=
  { tag := x.tag, kind := x.kind, reporter := x.reporter, chainage := x.chainage, strength := x.strength,
    heading := x.heading, speed := x.speed, loaded := x.loaded, sighted := x.time, lane := .outside, dir := none,
    entered := none, advisory := none, repeatDue := none }

def trackBefore (a b : Track) : Bool := decide (a.tag ≤ b.tag)

/-- The victim of a full table (R142): OUTSIDE, the earliest sighting, the lower tag ID on a tie. -/
def trackVictim (ts : List Track) : Option Track :=
  firstBy (fun a b => decide (a.sighted < b.sighted ∨ (a.sighted = b.sighted ∧ a.tag ≤ b.tag)))
    (ts.filter (fun t => decide (t.lane = .outside)))

/-- The table after a sighting, and whether it changed (R142). -/
def enterTrack (ts : List Track) (x : TruckSighting) : List Track × Bool :=
  match ts.find? (fun t => decide (t.tag = x.tag)) with
  | some t =>
    if replacesSighting t x then (ts.map (fun u => if u.tag = x.tag then u.sightedBy x else u), true) else (ts, false)
  | none =>
    if ts.length < 16 then (insertBy trackBefore (.ofSighting x) ts, true)
    else
      match trackVictim ts with
      | some v => (insertBy trackBefore (.ofSighting x) (ts.filter (fun t => decide (t.tag ≠ v.tag))), true)
      | none => (ts, false)

def State.setTracks (s : State) (ts : List Track) : State := s.setTgu { s.tgu with tracks := ts }

/-- A truck sighting, and the evaluation after a change (R142, R149). -/
def State.truckSighting (s : State) (x : TruckSighting) : State :=
  let r := enterTrack s.tgu.tracks x
  if r.2 then (s.setTracks r.1).laneEvaluate else s

/-- A VEHICLE section of a peer on this roadway, tag entry by tag entry (R141). -/
def State.vehicleReceived (s : State) (origin : Nat) (tags : List TagEntry) (arrival : Nat) : State :=
  match (s.findPeer origin).bind Peer.status with
  | none => s
  | some st =>
    if st.roadway ≠ s.cfg.roadway then s
    else
      (tags.filter (fun t => decide (t.kind ≠ .person))).foldl
        (fun s t => s.truckSighting
          { tag := t.tag, kind := t.kind, reporter := origin, chainage := st.chainage, strength := t.strength,
            heading := t.heading, speed := t.speed, loaded := t.loaded, time := arrival })
        s

/-! ### Near table (R136, R137) -/

/-- The near judgement (R137). -/
def judgeNear (threshold : Int) (n : NearEntry) : NearEntry :=
  if n.near then
    (if n.strength < threshold - 4 then
      (if 3 ≤ n.down + 1 then { n with near := false, up := 0, down := 0 } else { n with down := n.down + 1 })
    else { n with down := 0 })
  else
    (if threshold ≤ n.strength then
      (if 2 ≤ n.up + 1 then { n with near := true, up := 0, down := 0 } else { n with up := n.up + 1 })
    else { n with up := 0 })

/-- An entry updated by a sighting, before the judgement (R136). -/
def NearEntry.sighted (n : NearEntry) (x : Sighting) (now : Nat) : NearEntry :=
  { n with strength := (3 * n.strength + x.strength) / 4, kind := x.kind, heading := x.heading, speed := x.speed,
           loaded := x.loaded, lastSeen := now }

/-- A new entry, before the judgement (R136). -/
def NearEntry.ofSighting (x : Sighting) (now : Nat) : NearEntry :=
  { tag := x.tag, kind := x.kind, strength := x.strength, firstSeen := now, lastSeen := now, heading := x.heading,
    speed := x.speed, loaded := x.loaded, near := false, up := 0, down := 0 }

def nearBefore (a b : NearEntry) : Bool := decide (a.tag ≤ b.tag)

/-- The entry a full table displaces (R136). -/
def nearVictim (ns : List NearEntry) : Option NearEntry :=
  firstBy (fun a b => decide (a.lastSeen < b.lastSeen ∨ (a.lastSeen = b.lastSeen ∧ (a.firstSeen < b.firstSeen
      ∨ (a.firstSeen = b.firstSeen ∧ a.tag ≤ b.tag))))) ns

def State.setNear (s : State) (ns : List NearEntry) : State := s.setTgu { s.tgu with near := ns }

/-- A VEHICLE_REPORT on each configured port (R139). -/
def State.requestVehicleReport (s : State) : State := s.onPorts (State.requestLive .vehicleReport)

/-- The removal of an entry (R138, R139): of a near PERSON, a change of its near flag. -/
def State.removeNear (s : State) (n : NearEntry) : State :=
  let t := s.setNear (s.tgu.near.filter (fun x => decide (x.tag ≠ n.tag)))
  if n.kind = .person ∧ n.near = true then t.laneEvaluate.requestVehicleReport else t

/-- Whether a sighting asks for a report (R139, step 4). -/
def wantsReport (before : Option NearEntry) (after : NearEntry) (countBefore countAfter : Nat) : Bool :=
  (decide (after.kind ≠ .person)
    && (match before with
        | none => true
        | some b => decide (b.heading ≠ after.heading) || decide (b.loaded ≠ after.loaded)))
    || decide (countBefore ≠ countAfter)

/-- Whether a sighting changed the near flag of a PERSON entry (R139, step 3). -/
def personFlagChanged (before : Option NearEntry) (after : NearEntry) : Bool :=
  decide (after.kind = .person) && decide ((before.map NearEntry.near).getD false ≠ after.near)

/-- The own sighting of a truck (R141). -/
def State.ownSighting (s : State) (n : NearEntry) : TruckSighting :=
  { tag := n.tag, kind := n.kind, reporter := s.cfg.station, chainage := s.cfg.chainage, strength := n.strength,
    heading := n.heading, speed := n.speed, loaded := n.loaded, time := n.lastSeen }

/-- What a sighting hands on (R139). -/
def State.handOnSighting (s : State) (before : Option NearEntry) (after : NearEntry) (countBefore : Nat) : State :=
  let s := s.musterHandover after
  let r := enterTrack s.tgu.tracks (s.ownSighting after)
  let tracked := decide (after.kind ≠ .person) && r.2
  let s := if tracked then s.setTracks r.1 else s
  let s := if tracked || personFlagChanged before after then s.laneEvaluate else s
  if wantsReport before after countBefore s.personsNear then s.requestVehicleReport else s

/-- A whole sighting (R136). -/
def State.takeSighting (s : State) (x : Sighting) : State :=
  match s.tgu.near.find? (fun n => decide (n.tag = x.tag)) with
  | some n =>
    let after := judgeNear s.cfg.nearThreshold (n.sighted x s.ms)
    (s.setNear (s.tgu.near.map (fun m => if m.tag = x.tag then after else m))).handOnSighting (some n) after s.personsNear
  | none =>
    let s :=
      if s.tgu.near.length < 64 then s
      else match nearVictim s.tgu.near with
        | some v => s.removeNear v
        | none => s
    let after := judgeNear s.cfg.nearThreshold (.ofSighting x s.ms)
    (s.setNear (insertBy nearBefore after s.tgu.near)).handOnSighting none after s.personsNear

/-! ### The record assembler (R133) -/

def State.setAssembler (s : State) (a : Assembler) : State := s.setTgu { s.tgu with assembler := a, lastByte := s.clock.usec }

/-- The link counter a lost byte is counted in (R132): a framing error before an overrun. -/
def State.countLostByte (s : State) (framing : Bool) : State :=
  s.countLink (fun c => if framing then { c with framing := c.framing.bump } else { c with overrun := c.overrun.bump })

/-- The end of a record, at its checksum byte (R133, R136). -/
def State.closeRecord (s : State) (got : List Byte) (sum : Nat) : State :=
  if sum % 256 ≠ 0 then s.countLink (fun c => { c with checksum := c.checksum.bump })
  else
    match readSighting got with
    | none => s.countLink (fun c => { c with bad := c.bad.bump })
    | some x => (s.countLink (fun c => { c with whole := c.whole.bump })).takeSighting x

/-- One good byte (R133). -/
def State.goodByte (s : State) (b : Byte) : State :=
  match s.tgu.assembler with
  | .hunt => if b = 0xC3#8 then s.setAssembler .length else s.setAssembler .hunt
  | .length =>
    if b = 8#8 then s.setAssembler (.body [] 8)
    else (s.setAssembler .hunt).countLink (fun c => { c with bad := c.bad.bump })
  | .body got sum =>
    if 7 ≤ got.length then s.setAssembler (.check (got ++ [b]) (sum + b.toNat))
    else s.setAssembler (.body (got ++ [b]) (sum + b.toNat))
  | .check got sum => (s.setAssembler .hunt).closeRecord got (sum + b.toNat)

/-- Whether the link input is taken (R132). -/
def State.linkOpen (s : State) : Bool := s.started && decide (s.cfg.link ≠ .notUsed)

/-- LINK_BYTE_RECEIVED (R132, R133). -/
def execLinkByteReceived (b : Byte) (framing overrun : Bool) (s : State) : Host.Outcome State Fault Refusal :=
  .next (if !s.linkOpen then s
    else if framing || overrun then (s.setAssembler .hunt).countLostByte framing
    else s.goodByte b)

/-- LINK_GAP_TIMER_EXPIRY (R133): ten byte times without a byte abandon the record in progress. -/
def execLinkGapTimerExpiry (s : State) : Host.Outcome State Fault Refusal :=
  .next (if s.linkOpen && decide (s.tgu.assembler ≠ .hunt) && s.linkHundredBits s.tgu.lastByte then
      (s.setTgu { s.tgu with assembler := .hunt }).countLink (fun c => { c with bad := c.bad.bump })
    else s)

/-! ### Timers and the transmitter -/

/-- NEAR_ENTRY_EXPIRY (R138). -/
def execNearEntryExpiry (tag : Nat) (s : State) : Host.Outcome State Fault Refusal :=
  .next (match s.tgu.near.find? (fun n => decide (n.tag = tag)) with
    | none => s
    | some n => if n.lastSeen + 1000 * s.cfg.tagExpiry ≤ s.ms then s.removeNear n else s)

/-- TRACK_REMOVAL_DEADLINE (R142): 30 s after the sighting time. -/
def execTrackRemovalDeadline (tag : Nat) (s : State) : Host.Outcome State Fault Refusal :=
  .next (match s.tgu.tracks.find? (fun t => decide (t.tag = tag)) with
    | none => s
    | some t =>
      if t.sighted + 30000 ≤ s.ms then (s.setTracks (s.tgu.tracks.filter (fun u => decide (u.tag ≠ tag)))).laneEvaluate
      else s)

/-- The advisory a repeat deadline queues again: that of a claimant whose deadline is reached (R146). -/
def State.repeatOfTag (s : State) (tag : Nat) : Option AdvisoryCode :=
  (s.tgu.tracks.find? (fun t => decide (t.tag = tag) && s.dueMs t.repeatDue)).bind Track.advisory

/-- ADVISORY_REPEAT_DEADLINE (R146): the same advisory is queued again, and the deadline starts again. -/
def execAdvisoryRepeatDeadline (tag : Nat) (s : State) : Host.Outcome State Fault Refusal :=
  .next (match s.repeatOfTag tag with
    | none => s
    | some a =>
      (s.setTracks (s.tgu.tracks.map (fun t => if t.tag = tag then { t with repeatDue := some (s.ms + 2000) } else t))).queueAdvisory
        { tag := tag, code := a, validity := 5 })

/-- EVACUATION_REPEAT_TIMER (R145). -/
def execEvacuationRepeatTimer (s : State) : Host.Outcome State Fault Refusal :=
  .next (if s.dueMs s.tgu.evacDue then s.queueEvacuate else s)

/-- ADVISORY_SEND_COMPLETE (R147): the record's ten bytes have gone, and the next advisory is taken. -/
def execAdvisorySendComplete (s : State) : Host.Outcome State Fault Refusal :=
  .next (match s.tgu.sending with
    | none => s
    | some x =>
      if s.linkHundredBits x.startedAt then (s.setTgu { s.tgu with sending := none }).startSending else s)

end Sys2Proof.Machine
end

