-- ==== Sys2Proof/Machine/Parse.lean ====
section
/-! DEFINITION. Parsing a received frame (R31 to R34): the verdict (R45, R47), the peer table (R40, R41), relaying
(R48, R49), and the dispatch of sections (R34, R42, R43, R54). -/

namespace Sys2Proof.Machine

/-- What the frame engine hands over with a frame (R33, R34). -/
structure Arrival where
  port : Port
  time : Nat
  header : FrameHeader
  deriving DecidableEq, Repr

def Arrival.origin (a : Arrival) : Nat := a.header.origin
def Arrival.hops (a : Arrival) : Nat := a.header.hops
def Arrival.dest (a : Arrival) : Nat := a.header.dest
def Arrival.seq (a : Arrival) : Nat := a.header.seq

/-! ### The verdict (R45) -/

inductive Verdict where
  | echo
  | duplicate
  | new
  deriving DecidableEq, Repr

def RecentFrame.is (r : RecentFrame) (a : Arrival) : Bool := decide (r.origin = a.origin) && decide (r.seq = a.seq)

/-- The verdict on a frame (R45). -/
def State.verdict (s : State) (a : Arrival) : Verdict :=
  if a.origin = s.cfg.station then .echo
  else if s.pru.recent.any (fun r => r.is a)
      || (s.findPeer a.origin).any (fun x => x.present && decide (x.lastSeq = a.seq)) then .duplicate
  else .new

/-- The recent-frame list with a NEW frame (R45). DESIGN CHOICE (log 32): the list is in the order of the verdicts, and
the entry that gives way is the one appended first, also when frames of the two ports are parsed out of their order of
arrival. -/
def addRecent (rs : List RecentFrame) (a : Arrival) : List RecentFrame :=
  (if 32 ≤ rs.length then rs.tail else rs) ++ [{ origin := a.origin, seq := a.seq, port := a.port, arrival := a.time }]

/-! ### The peer table (R40, R41, R47) -/

/-- The first two cases of R41's replacement test. -/
def betterRoute (x : Peer) (a : Arrival) : Bool :=
  decide (a.hops < x.hops) || (decide (a.hops = x.hops) && decide (a.port = x.port))

def Peer.withRoute (x : Peer) (a : Arrival) : Peer := { x with port := a.port, hops := a.hops }

/-- A NEW frame refreshes an entry (R41). -/
def Peer.refresh (x : Peer) (a : Arrival) : Peer :=
  let y := if betterRoute x a || !x.present then x.withRoute a else x
  { y with lastHeard := a.time, lastSeq := a.seq, present := true }

/-- A DUPLICATE frame's effect on an entry (R41, R47). DESIGN CHOICE (log 31): a SILENT entry whose last heard it
refreshes stays SILENT, as R41 makes an entry PRESENT for a NEW frame only. -/
def Peer.refreshDuplicate (x : Peer) (a : Arrival) (firstPort : Option Port) : Peer :=
  let y := if betterRoute x a then x.withRoute a else x
  if a.hops = 0 ∧ firstPort = some a.port then { y with lastHeard := a.time } else y

/-- A new entry (R40; the in-call flag follows the calls-heard list, R55, log 8). -/
def newPeer (heard : List HeardCall) (a : Arrival) : Peer :=
  { station := a.origin, port := a.port, hops := a.hops, lastHeard := a.time, lastSeq := a.seq, present := true,
    status := none, air := none, refuge := none, text := none, inCall := partyHeard heard a.origin }

def peerBefore (a b : Peer) : Bool := decide (a.station ≤ b.station)

/-- The SILENT entry a full table displaces (R40). -/
def peerVictim (ps : List Peer) : Option Peer :=
  firstBy (fun a b => decide (a.lastHeard < b.lastHeard ∨ (a.lastHeard = b.lastHeard ∧ a.station ≤ b.station)))
    (ps.filter (fun x => !x.present))

def State.insertPeer (s : State) (a : Arrival) : State :=
  s.setPeers (insertBy peerBefore (newPeer s.pru.heard a) s.pru.peers)

/-- The peer table takes up a NEW frame (R40, R41). -/
def State.peerHeard (s : State) (a : Arrival) : State :=
  match s.findPeer a.origin with
  | some _ => s.updatePeer a.origin (fun x => x.refresh a)
  | none =>
    if s.pru.peers.length < 48 then s.insertPeer a
    else
      match peerVictim s.pru.peers with
      | some v => (s.removePeer v.station).insertPeer a
      | none => s

/-- A DUPLICATE frame (R47): counted, and its peer's route and last-heard time looked at. -/
def State.duplicateHeard (s : State) (a : Arrival) : State :=
  let first := (s.pru.recent.find? (fun r => r.is a)).map RecentFrame.port
  (s.count a.port (fun c => { c with duplicates := c.duplicates.bump })).updatePeer a.origin
    (fun x => x.refreshDuplicate a first)

/-! ### Relaying (R48, R49) -/

/-- The relay decision, after the peer table has taken up the frame (R48). -/
def State.relays (s : State) (a : Arrival) : Bool :=
  s.bridging && s.running && decide (a.hops < s.cfg.relay) && decide (a.dest ≠ s.cfg.station)
    && !s.pru.peers.any (fun x => decide (x.station = a.dest) && decide (x.port = a.port))

/-- The copy is made and requested on the other port (R29, R49). -/
def State.relayFrame (s : State) (a : Arrival) (f : List Byte) : State :=
  if s.relays a then
    let copy := relayCopy f
    match FrameClass.ofCode a.header.cls with
    | none => s
    | some .alarm => s.relayAlarm (otherPort a.port) copy
    | some c => s.queueRequest (otherPort a.port) { TxEntry.fixed copy c .pru with relayed := true }
  else s

/-! ### Sections of the peer table (R42, R43, R54) -/

/-- The slots after a STATUS section: the arrival port's from a frame with no hops (R42). -/
def slotsAfter (old : Option StatusPart) (a : Arrival) (slot : Nat) : Option Nat × Option Nat :=
  let held := (old.bind StatusPart.slotA, old.bind StatusPart.slotB)
  if a.hops = 0 then
    match a.port with
    | .A => (some slot, held.2)
    | .B => (held.1, some slot)
  else held

/-- A STATUS section, and the recompute it causes (R42, R85). -/
def State.statusReceived (s : State) (a : Arrival) (chainage zone roadway slot : Nat)
    (neg bridge refuge operator : Bool) : State :=
  match s.findPeer a.origin with
  | none => s
  | some x =>
    let slots := slotsAfter x.status a slot
    (s.updatePeer a.origin (fun y => { y with
      status := some { chainage := chainage, zone := zone, roadway := roadway, airflowNeg := neg, bridge := bridge,
                       refuge := refuge, operator := operator, slotA := slots.1, slotB := slots.2 } })).recompute

/-- An AIR section (R43, R85). -/
def State.airReceived (s : State) (a : Arrival) (es : List AirEntry) : State :=
  (s.updatePeer a.origin (fun y => { y with air := some es })).recompute

/-- A REFUGE section (R43). -/
def State.refugeReceived (s : State) (a : Arrival) (r : RefugeSummary) : State :=
  s.updatePeer a.origin (fun y => { y with refuge := some r })

/-- A TEXT section (R54). -/
def State.textReceived (s : State) (a : Arrival) (sticky : Bool) (words : List Byte) : State :=
  let told := takeIn (.textReceived a.origin sticky words)
  if !sticky then told s
  else
    match s.findPeer a.origin with
    | none => told s
    | some x =>
      if words = [0#8] then
        (let t := s.updatePeer a.origin (fun y => { y with text := none })
         if x.text.isSome then told t else t)
      else if x.text = some (words.take 32) then s
      else told (s.updatePeer a.origin (fun y => { y with text := some (words.take 32) }))

/-! ### Dispatch (R34) -/

/-- Whether a frame's sections go to this station's units (R34). -/
def State.addressed (s : State) (a : Arrival) : Bool := decide (a.dest = s.cfg.station) || decide (a.dest = 4095)

/-- One in-range section to its owners, in order (R34). -/
def State.dispatchHere (s : State) (a : Arrival) : FrameSection → State
  | .status chainage zone roadway slot neg _ isBridge isRefuge isOperator _ =>
    s.statusReceived a chainage zone roadway slot neg isBridge isRefuge isOperator
  | .air es => s.airReceived a es
  | .history channel interval base mask block => s.historyReceived a.origin channel interval base mask block
  | .alarm rs => s.mergeAlarms rs
  | .call id m callee reason =>
    (s.callSection a.dest id m callee reason).callHeard id (some callee) (decide (m = .release)) a.time
  | .voice id seq blocks => (s.voiceSection a.dest id seq blocks).callHeard id none false a.time
  | .vehicle _ tags => s.vehicleReceived a.origin tags a.time
  | .refuge r => s.refugeReceived a r
  | .historyRequest channel =>
    match channelOf channel with
    | some c => s.historyRequested a.port a.origin c
    | none => s
  | .text sticky words => s.textReceived a sticky words

/-- A section of a frame for another station: CALL and VOICE reach the calls-heard list (R34, R55). -/
def State.dispatchElsewhere (s : State) (a : Arrival) : FrameSection → State
  | .call id m callee _ => s.callHeard id (some callee) (decide (m = .release)) a.time
  | .voice id _ _ => s.callHeard id none false a.time
  | _ => s

def State.dispatch (s : State) (a : Arrival) (x : FrameSection) : State :=
  if s.addressed a then s.dispatchHere a x else s.dispatchElsewhere a x

/-- A candidate section (R26, R32): unknown kinds and out-of-range sections are counted; the others are dispatched,
of a NEW frame. -/
def State.candidateSection (a : Arrival) (v : Verdict) (s : State) (x : Nat × List Byte) : State :=
  if 11 ≤ x.1 then s.countParse a.port (fun c => { c with unknown := c.unknown.bump })
  else
    match readSection x.1 x.2 with
    | none => s.countParse a.port (fun c => { c with bad := c.bad.bump })
    | some y => if v = .new then s.dispatch a y else s

/-- The sections of a well-formed frame (R32, R34; log 7). -/
def State.takeSections (s : State) (a : Arrival) (v : Verdict) (chain : List (Nat × List Byte)) : State :=
  let s := if 8 < chain.length then s.countParse a.port (fun c => { c with truncated := c.truncated.bump }) else s
  (chain.take 8).foldl (State.candidateSection a v) s

/-- What a verdict does before any section is looked at (R45, R47, R48). -/
def State.applyVerdict (s : State) (a : Arrival) (f : List Byte) : Verdict → State
  | .echo => s
  | .duplicate => s.duplicateHeard a
  | .new => ((s.setPru { s.pru with recent := addRecent s.pru.recent a }).peerHeard a).relayFrame a f

/-- A well-formed frame (R33). -/
def State.takeFrame (s : State) (a : Arrival) (f : List Byte) (chain : List (Nat × List Byte)) : State :=
  let v := s.verdict a
  if v = .echo then s else (s.applyVerdict a f v).takeSections a v chain

/-- The frame engine's parse of one frame (R31, R32). -/
def State.parseFrame (s : State) (p : Port) (r : RxFrame) : State :=
  let malformed := s.countParse p (fun c => { c with malformed := c.malformed.bump })
  if headerBad r.bytes then malformed
  else
    match chainOf r.bytes with
    | none => malformed
    | some chain => s.takeFrame { port := p, time := r.arrival, header := headerOf r.bytes } r.bytes chain

/-- The port served next (R31): the one that holds a frame; of two, the one not taken from last. -/
def State.nextPort (s : State) : Option Port :=
  match (s.port .A).received.isEmpty, (s.port .B).received.isEmpty with
  | true, true => none
  | false, true => some .A
  | true, false => some .B
  | false, false => some (otherPort s.fre.lastPort)

/-- FRAME_PARSE (R31 to R34): the frame leaves its list as it is taken. -/
def execFrameParse (s : State) : Host.Outcome State Fault Refusal :=
  .next (match s.nextPort with
    | none => s
    | some p =>
      match (s.port p).received with
      | [] => s
      | r :: more =>
        ((s.setPort p { s.port p with received := more }).setFre { s.fre with lastPort := p }).parseFrame p r)

end Sys2Proof.Machine
end

