-- ==== Sys2Proof/Machine/Inputs.lean ====
section
/-! DEFINITION. The debounce cells (R172 to R174) and the cadence generator (R175). -/

namespace Sys2Proof.Machine

/-- The place of an input, in the order of R172. -/
def inputIndex : Input → Fin 6
  | .pullCord => 0
  | .refugeDoor => 1
  | .pushToTalk => 2
  | .hook => 3
  | .callButton => 4
  | .pulse => 5

/-- The raw logical level of an input. -/
def State.rawLevel (s : State) (i : Input) : Level := s.iou.raw[inputIndex i]

def State.cell (s : State) (i : Input) : Cell := s.iou.cells[inputIndex i]

def State.setCell (s : State) (i : Input) (x : Cell) : State :=
  s.setIou { s.iou with cells := s.iou.cells.set (inputIndex i) x }

def State.setRaw (s : State) (i : Input) (x : Level) : State :=
  s.setIou { s.iou with raw := s.iou.raw.set (inputIndex i) x }

/-- An accepted edge, handed to the cell's unit when the table of 10.1 lists its direction (R172). -/
def State.handEdge (s : State) (i : Input) (x : Level) : State :=
  match i, x with
  | .pullCord, .active => s.pullCord
  | .pullCord, .inactive => s
  | .refugeDoor, .active => s.doorEdge true
  | .refugeDoor, .inactive => s.doorEdge false
  | .pushToTalk, .active => s.pttPressed
  | .pushToTalk, .inactive => s.pttReleased
  | .hook, .active => s.hookEdge true
  | .hook, .inactive => s.hookEdge false
  | .callButton, .active => s.buttonPressed
  | .callButton, .inactive => s
  | .pulse, .active => s.pulseEdge
  | .pulse, .inactive => s

/-- The cell accepts a level as an edge, its timer as given (R173, R174). -/
def State.acceptEdge (s : State) (i : Input) (x : Level) (due : Option Nat) : State :=
  (s.setCell i { s.cell i with level := x, due := due }).handEdge i x

/-- A cell takes a raw change (R173, R174): its timer or its hold lasts T ms from the change. -/
def State.cellRaw (s : State) (i : Input) (x : Level) : State :=
  let c := s.cell i
  match c.setting with
  | none => s
  | some g =>
    if g.immediate then
      (if c.due.isNone ∧ x ≠ c.level then s.acceptEdge i x (some (s.afterMs g.t)) else s)
    else s.setCell i { c with due := if x = c.level then none else some (s.afterMs g.t) }

/-- RAW_INPUT_CHANGE (R173, R174): a raw level changes. The pin keeps its level whatever the part does (log 5). -/
def execRawInputChange (i : Input) (level : Level) (s : State) : Host.Outcome State Fault Refusal :=
  .next (if s.rawLevel i = level then s else (s.setRaw i level).cellRaw i level)

/-- DEBOUNCE_TIMER_EXPIRY (R173): a DELAYED cell accepts the raw level. -/
def execDebounceTimerExpiry (i : Input) (s : State) : Host.Outcome State Fault Refusal :=
  let c := s.cell i
  .next (match c.setting with
    | none => s
    | some g => if !g.immediate && s.dueUs c.due then s.acceptEdge i (s.rawLevel i) none else s)

/-- IMMEDIATE_HOLD_EXPIRY (R174): a hold ends; a raw level that differs is accepted and held in turn. -/
def execImmediateHoldExpiry (i : Input) (s : State) : Host.Outcome State Fault Refusal :=
  let c := s.cell i
  .next (match c.setting with
    | none => s
    | some g =>
      if g.immediate && s.dueUs c.due then
        (if s.rawLevel i = c.level then s.setCell i { c with due := none }
        else s.acceptEdge i (s.rawLevel i) (some (s.afterMs g.t)))
      else s)

/-- CADENCE_PHASE_CHANGE (R175): the next 125 ms of the eight in a SLOW period. -/
def execCadencePhaseChange (s : State) : Host.Outcome State Fault Refusal :=
  .next (match s.iou.cadence with
    | none => s
    | some g =>
      if s.dueMs (some g.due) then
        s.setIou { s.iou with cadence := some { phase := (g.phase + 1) % 8, due := g.due + 125 } }
      else s)

/-- At entry to JOINING each cell takes its setting and its starting level (R172). -/
def State.startCells (s : State) : State :=
  s.setIou { s.iou with
    cells := Vector.ofFn (fun i => { setting := some s.cfg.cells[i], level := s.iou.raw[i], due := none }),
    cadence := some { phase := 0, due := s.ms + 125 } }

end Sys2Proof.Machine
end

