-- ==== Sys2Proof/Machine/Start.lean ====
section
/-! DEFINITION. Part states (R177, R178), resets (R179 and each chapter's reset rule), the memory read and the
joining timer. -/

namespace Sys2Proof.Machine

/-! ### What a reset leaves -/

/-- A line access unit after a reset: its own state as R23 gives, the wire's carrier as it is (log 5), that of the other
party to a collision too. It is not gathered, for its start is past (R22). -/
def Lau.afterReset (l : Lau) : Lau := { Lau.reset with carrier := l.carrier }

/-- The input/output unit after a reset: no setting, no request, the generator stopped; the pins as they are
(R172, R175, R176; log 5). -/
def Iou.afterReset (x : Iou) : Iou := { Iou.reset with raw := x.raw }

/-- A RESTART's values for every unit (R23, R28, R31, R35, R56, R80, R95, R109, R131, R151, R171, R172, R175, R176,
R179): as a hard reset, but the configuration, the sequence counter, the next call number and the next alarm number
are kept. -/
def State.restartUnits (s : State) : State :=
  { State.reset with
    pending := s.pending, draws := s.draws,
    spu := { Spu.reset with part := s.spu.part, config := s.spu.config, portOut := s.spu.portOut },
    fre := { Fre.reset with seq := s.fre.seq },
    lau := s.lau.map Lau.afterReset,
    clu := { Clu.reset with nextCall := s.clu.nextCall },
    aru := { Aru.reset with nextNumber := s.aru.nextNumber },
    iou := s.iou.afterReset }

/-- A hard reset (R177, R179): the machine of State.reset, but for what stands outside it: the queue, the free
values drawn, the pins and the wire (log 5). -/
def State.hardReset (s : State) : State :=
  { State.reset with
    pending := s.pending, draws := s.draws, lau := s.lau.map Lau.afterReset, iou := s.iou.afterReset }

/-! ### Entry to JOINING (R178) -/

/-- A configured channel begins in STARTING, its timers from now (R60, R66, R70). -/
def startChannel (g : ChannelConfig) (loop : Bool) (now : Nat) (c : Channel) : Channel :=
  if g.kind.isSome then
    { c with level := .starting, sampleDue := if loop then some (now + 250) else none,
             trendDue := some (now + 1000 * g.interval) }
  else c

/-- The channels and the gate start (R60, R62, R66, R70). -/
def State.startChannels (s : State) : State :=
  s.setAcu { s.acu with
    channels := Vector.ofFn (fun c : Fin 7 => startChannel (s.channelCfg c) (decide (c.val < 6)) s.ms (s.channel c)),
    gateDue := if (s.channelCfg 6).kind.isSome then some (s.ms + 1000) else none }

/-- The hook and door levels are reported as levels (R130, R169, R172). -/
def State.reportLevels (s : State) : State :=
  let off := decide (s.rawLevel .hook = .active)
  let s := s.setHook off off
  if s.cfg.refuge then s.setAru { s.aru with doorOpen := decide (s.rawLevel .refugeDoor = .active) } else s

/-- Entry to JOINING (R177, R178; log 12). -/
def State.enterJoining (s : State) : State :=
  let s := s.setSpu { s.spu with part := .joining, joinDue := some (s.ms + 2000 * s.cfg.beacon) }
  ((s.startChannels.setSenses.recompute).startCells.reportLevels).decideSounder

/-! ### Entry to RUNNING (R178) -/

/-- A unit with queued entries begins deferral (R7). -/
def State.beginDeferral (p : Port) (s : State) : State :=
  if (s.port p).list.isEmpty then s else s.enterDefer p

/-- Entry to RUNNING (R177, R178; log 12). -/
def State.enterRunning (s : State) : State :=
  let s := s.setSpu { s.spu with part := .running, joinDue := none }
  let s := (s.onPorts State.beginDeferral).onPorts (State.requestLive .beacon)
  let s := s.startBeaconPeriod s.ms
  let s := s.setTgu { s.tgu with evacHeld := false }
  let s := if s.cfg.lane.isNone then s.setLamps (darkSteady, darkSteady) else s
  s.laneEvaluate

/-- The configuration is taken, and the part enters JOINING (R177). -/
def State.startWith (s : State) (g : Configuration) : State :=
  (s.setSpu { s.spu with config := some g, held := none, assembly := none }).enterJoining

/-! ### Commands -/

/-- HARD_RESET (R177, R179). -/
def execHardReset (s : State) : Host.Outcome State Fault Refusal := .next s.hardReset

/-- CONFIG_READ_COMPLETION (R177): the memory's image, when it answers and passes, starts the part; else the host is
waited for. -/
def execConfigReadCompletion (answer : Option (List Byte)) (s : State) : Host.Outcome State Fault Refusal :=
  .next (if s.spu.part = .loading then
      (match answer.map readImage with
        | some (.ok g) => s.startWith g
        | _ => s.setSpu { s.spu with part := .waiting })
    else s)

/-- JOINING_TIMER_EXPIRY (R177). -/
def execJoiningTimerExpiry (s : State) : Host.Outcome State Fault Refusal :=
  .next (if decide (s.spu.part = .joining) && s.dueMs s.spu.joinDue then s.enterRunning else s)

end Sys2Proof.Machine
end

