-- ==== Sys2Proof/Machine/Port.lean ====
section
/-! DEFINITION. The station port (chapter 11): transfers (R182), the request queue and its answers (R37, R181, R183
and the owners' rules), and the coalescing timer (R185). -/

namespace Sys2Proof.Machine

/-! ### Serving the head request (R183) -/

/-- Urgent records held. -/
def State.urgentHeld (s : State) : Nat := s.spu.ind.countP (fun q => q.record.urgent)

/-- The requests answered from a table (R183). -/
def answeredFromTable (kind : Nat) : Bool := decide (12 ≤ kind) && decide (kind ≤ 16)

/-- The conditions of R183 on serving a request of a kind. DESIGN CHOICE (log 38): the kind alone decides whether a
request is answered from a table, so a head of kind 12 to 16 that R37 refuses, or that will be answered NO_SUCH, waits
for an empty answer buffer too. -/
def State.mayServe (s : State) (kind : Nat) : Bool :=
  decide (s.urgentHeld < 32) && (!answeredFromTable kind || s.spu.answer.isEmpty)

/-- Place a RESPONSE. -/
def State.respond (s : State) (tag kind : Nat) (code : ResponseCode) : State :=
  takeIn (.response tag kind code 0 0) s

/-- A table answer (R183): its DATA records are written into the answer buffer, and its RESPONSE placed. -/
def State.answerTable (s : State) (tag kind : Nat) (items : List DataItem) : State :=
  takeIn (.response tag kind .ok 0 items.length) (s.setSpu { s.spu with answer := items.map (HostRecord.data tag) })

/-- Serve the head request (R37, R183): it leaves the queue; one that fails the record check is answered
BAD_ARGUMENT; another goes to its owner's action with its tag. -/
def State.serveHead (s : State) (r : List Byte) (more : List (List Byte)) (act : Nat → Request → State → State) :
    State :=
  let t := s.setSpu { s.spu with requests := more }
  match readRequest r with
  | none => t.respond (requestTag r) (requestKind r) .badArgument
  | some q => act (requestTag r) q t

/-- Serve the head of the queue when it is of the kind named and can be served (R183; log 18). -/
def State.serveKind (s : State) (kind : Nat) (act : Nat → Request → State → State) : State :=
  match s.spu.requests with
  | [] => s
  | r :: more => if requestKind r = kind ∧ s.mayServe kind = true then s.serveHead r more act else s

/-- Whether a kind is one of R37's table. -/
def knownKind (kind : Nat) : Bool := decide (1 ≤ kind) && decide (kind ≤ 17)

/-- UNKNOWN_REQUEST (R37): a kind outside 1 to 17 is answered BAD_ARGUMENT. -/
def execUnknownRequest (s : State) : Host.Outcome State Fault Refusal :=
  .next (match s.spu.requests with
    | [] => s
    | r :: more =>
      if knownKind (requestKind r) = false ∧ s.mayServe 0 = true then
        (s.setSpu { s.spu with requests := more }).respond (requestTag r) (requestKind r) .badArgument
      else s)

/-! ### CONFIGURE, START, RESTART (R179, R181) -/

/-- A CONFIGURE part in WAITING (R181): the assembly it extends, or none when its index is not the next. -/
def assemblePart (a : Option Assembly) (index : Nat) (bytes : List Byte) : Option Assembly :=
  if index = 0 then some { bytes := bytes, next := 1 }
  else
    match a with
    | some x => if x.next = index then some { bytes := x.bytes ++ bytes, next := index + 1 } else none
    | none => none

/-- CONFIGURE in WAITING (R181). -/
def State.configurePart (s : State) (tag index : Nat) (last : Bool) (bytes : List Byte) : State :=
  let held := if index = 0 then none else s.spu.held
  match assemblePart s.spu.assembly index bytes with
  | none => (s.setSpu { s.spu with assembly := none, held := held }).respond tag 1 .badArgument
  | some x =>
    if last then
      match readImage x.bytes with
      | .ok g => (s.setSpu { s.spu with assembly := none, held := some g }).respond tag 1 .ok
      | .error i =>
        takeIn (.response tag 1 .badArgument i 0) (s.setSpu { s.spu with assembly := none, held := none })
    else (s.setSpu { s.spu with assembly := some x, held := held }).respond tag 1 .ok

/-- The service of CONFIGURE (R181). -/
def State.serveConfigure (tag : Nat) (q : Request) (s : State) : State :=
  match q, s.spu.part with
  | .configure _ _ _, .loading => s.respond tag 1 .busy
  | .configure index last bytes, .waiting => s.configurePart tag index last bytes
  | .configure _ _ _, _ => s.respond tag 1 .badState
  | _, _ => s

/-- CONFIGURE (R37, R181). -/
def execConfigure (s : State) : Host.Outcome State Fault Refusal := .next (s.serveKind 1 State.serveConfigure)

/-- The service of START (R181). -/
def State.serveStart (tag : Nat) (_ : Request) (s : State) : State :=
  match s.spu.part, s.spu.held with
  | .loading, _ => s.respond tag 2 .busy
  | .waiting, some g => (s.respond tag 2 .ok).startWith g
  | _, _ => s.respond tag 2 .badState

/-- START (R37, R177, R181). -/
def execStart (s : State) : Host.Outcome State Fault Refusal := .next (s.serveKind 2 State.serveStart)

/-- The service of RESTART (R179): the RESPONSE is the first record the host reads afterwards. -/
def State.serveRestart (tag : Nat) (_ : Request) (s : State) : State :=
  if s.started then (s.restartUnits.respond tag 3 .ok).enterJoining else s.respond tag 3 .badState

/-- RESTART (R37, R177, R179). -/
def execRestart (s : State) : Host.Outcome State Fault Refusal := .next (s.serveKind 3 State.serveRestart)

/-! ### Calls (R112, R118) -/

/-- PLACE_CALL at the call unit (R112). -/
def State.servePlaceCall (tag : Nat) (q : Request) (s : State) : State :=
  match q with
  | .placeCall callee =>
    if s.callAnswer callee = .ok then (s.placeAdmitted callee).respond tag 4 .ok
    else s.respond tag 4 (s.callAnswer callee)
  | _ => s

/-- PLACE_CALL (R37, R112). -/
def execPlaceCall (s : State) : Host.Outcome State Fault Refusal := .next (s.serveKind 4 State.servePlaceCall)

/-- RELEASE_CALL at the call unit (R118). -/
def State.serveReleaseCall (tag : Nat) (_ : Request) (s : State) : State :=
  if s.clu.ctx.state.releasable then (s.dropCall .normal).respond tag 5 .ok else s.respond tag 5 .badState

/-- RELEASE_CALL (R37, R118). -/
def execReleaseCall (s : State) : Host.Outcome State Fault Refusal := .next (s.serveKind 5 State.serveReleaseCall)

/-! ### Alarms (R158, R161 to R163) -/

/-- RAISE_ALARM at the alarm and refuge unit (R158). -/
def State.serveRaise (tag : Nat) (q : Request) (s : State) : State :=
  match q with
  | .raiseAlarm kind scope =>
    if s.started then
      (let r := s.raise kind scope
       r.2.respond tag 6 (if r.1.isSome then .ok else .busy))
    else s.respond tag 6 .badState
  | _ => s

/-- RAISE_ALARM (R37, R158). -/
def execRaiseAlarm (s : State) : Host.Outcome State Fault Refusal := .next (s.serveKind 6 State.serveRaise)

/-- The answer to an ACKNOWLEDGE_ALARM: the first case of R161 that applies. -/
def State.acknowledgeAnswer (s : State) (id : AlarmId) : ResponseCode :=
  if !s.started then .badState
  else if !s.cfg.operator then .notPermitted
  else
    match s.findAlarm id with
    | none => .noSuch
    | some a => if a.state = .cleared then .badState else .ok

/-- The effect of an ACKNOWLEDGE_ALARM answered OK (R161). -/
def State.acknowledge (s : State) (id : AlarmId) : State :=
  match s.findAlarm id with
  | none => s
  | some a =>
    if a.state = .raised then State.thenClear (s.ownChange (a.become .acknowledged s.ms)) id else s

/-- ACKNOWLEDGE_ALARM at the alarm and refuge unit (R161). -/
def State.serveAcknowledge (tag : Nat) (q : Request) (s : State) : State :=
  match q with
  | .acknowledgeAlarm id =>
    let t := if s.acknowledgeAnswer id = .ok then s.acknowledge id else s
    t.respond tag 7 (s.acknowledgeAnswer id)
  | _ => s

/-- ACKNOWLEDGE_ALARM (R37, R161). -/
def execAcknowledgeAlarm (s : State) : Host.Outcome State Fault Refusal := .next (s.serveKind 7 State.serveAcknowledge)

/-- The answer to a CLEAR_ALARM: the first case of R162 that applies. -/
def State.clearAnswer (s : State) (id : AlarmId) : ResponseCode :=
  if !s.started then .badState
  else
    match s.findAlarm id with
    | none => .noSuch
    | some a =>
      if id.origin ≠ s.cfg.station ∧ s.cfg.operator = false then .notPermitted
      else if a.state = .raised then .notAcknowledged
      else .ok

/-- CLEAR_ALARM at the alarm and refuge unit (R162). -/
def State.serveClear (tag : Nat) (q : Request) (s : State) : State :=
  match q with
  | .clearAlarm id =>
    let t := if s.clearAnswer id = .ok then s.clearAsOrigin id else s
    t.respond tag 8 (s.clearAnswer id)
  | _ => s

/-- CLEAR_ALARM (R37, R162). -/
def execClearAlarm (s : State) : Host.Outcome State Fault Refusal := .next (s.serveKind 8 State.serveClear)

/-- Every held entry is silenced, and the sounder decided afresh (R163, R167). -/
def State.silenceAll (s : State) : State :=
  (s.setAlarms (s.aru.alarms.map (fun a => { a with silenced := true }))).decideSounder

/-- SILENCE at the alarm and refuge unit (R163). -/
def State.serveSilence (tag : Nat) (_ : Request) (s : State) : State :=
  if s.started then s.silenceAll.respond tag 9 .ok else s.respond tag 9 .badState

/-- SILENCE (R37, R163). -/
def execSilence (s : State) : Host.Outcome State Fault Refusal := .next (s.serveKind 9 State.serveSilence)

/-! ### Text and history (R53, R104, R105) -/

/-- The standing text a sticky text leaves (R53). -/
def standingText (words : List Byte) : Option (List Byte) := if words = [0#8] then none else some (words.take 32)

/-- The work of a SEND_TEXT (R53): the standing text, and a frame on each configured port. -/
def State.sendText (s : State) (tag dest : Nat) (sticky report : Bool) (words : List Byte) : State :=
  let s := if sticky then s.setPru { s.pru with text := standingText words } else s
  s.onPorts (fun p t => t.requestFrame p dest .routine .pru [.text sticky words]
    (fun e => { e with report := if report then some tag else none }))

/-- SEND_TEXT at the peer and relay unit (R53, R183). -/
def State.serveSendText (tag : Nat) (q : Request) (s : State) : State :=
  match q with
  | .sendText dest sticky report words =>
    if s.started then (s.sendText tag dest sticky report words).respond tag 10 .ok else s.respond tag 10 .badState
  | _ => s

/-- SEND_TEXT (R37, R53). -/
def execSendText (s : State) : Host.Outcome State Fault Refusal := .next (s.serveKind 10 State.serveSendText)

/-- READ_HISTORY at the air channel unit (R104): the RESPONSE of an entry follows at its pack's completion. -/
def State.serveReadHistory (tag : Nat) (q : Request) (s : State) : State :=
  match q with
  | .readHistory c =>
    if (s.channel c).level = .unset then s.respond tag 11 .noSuch
    else if 4 ≤ s.bpk.history.length then s.respond tag 11 .busy
    else s.addHistory (.host c tag)
  | _ => s

/-- READ_HISTORY (R37, R104). -/
def execReadHistory (s : State) : Host.Outcome State Fault Refusal := .next (s.serveKind 11 State.serveReadHistory)

/-- REQUEST_HISTORY at the air channel unit (R105). -/
def State.serveRequestHistory (tag : Nat) (q : Request) (s : State) : State :=
  match q with
  | .requestHistory dest channel =>
    if !s.started then s.respond tag 17 .badState
    else if dest = s.cfg.station then s.respond tag 17 .badArgument
    else
      (s.onPorts (fun p t => t.requestFrame p dest .routine .acu [.historyRequest channel] id)).respond tag 17 .ok
  | _ => s

/-- REQUEST_HISTORY (R37, R105). -/
def execRequestHistory (s : State) : Host.Outcome State Fault Refusal :=
  .next (s.serveKind 17 State.serveRequestHistory)

/-! ### Tables (R39, R78, R150, R170, R183) -/

/-- The CHANNEL item of a channel (R78). -/
def State.channelItem (s : State) (c : Fin 7) (kind : GasKind) : DataItem :=
  let x := s.channel c
  .channel c.val kind x.published x.rising x.value x.raised

/-- READ_CHANNEL at the air channel unit (R78). -/
def State.serveReadChannel (tag : Nat) (q : Request) (s : State) : State :=
  match q with
  | .readChannel c =>
    match (s.channelCfg c).kind with
    | none => s.respond tag 12 .noSuch
    | some kind =>
      if (s.channel c).level = .unset then s.respond tag 12 .noSuch else s.answerTable tag 12 [s.channelItem c kind]
  | _ => s

/-- READ_CHANNEL (R37, R78). -/
def execReadChannel (s : State) : Host.Outcome State Fault Refusal := .next (s.serveKind 12 State.serveReadChannel)

/-- Whole seconds since a tick. -/
def State.secondsSince (s : State) (t : Nat) : Nat := (s.ms - t) / 1000

/-- The PEER item of an entry (R39). -/
def State.peerItem (s : State) (x : Peer) : DataItem :=
  .peer x.station x.port x.hops x.present (min 65535 (s.secondsSince x.lastHeard)) x.status x.inCall x.refuge

/-- READ_PEERS at the peer and relay unit (R39): the table is kept in ascending order of station ID. -/
def State.serveReadPeers (tag : Nat) (_ : Request) (s : State) : State :=
  s.answerTable tag 13 (s.pru.peers.map s.peerItem)

/-- READ_PEERS (R37, R39). -/
def execReadPeers (s : State) : Host.Outcome State Fault Refusal := .next (s.serveKind 13 State.serveReadPeers)

/-- The ALARM item of an entry (R170). -/
def State.alarmItem (s : State) (a : Alarm) : DataItem :=
  .alarm a.id a.kind a.scope a.state (min 65535 (s.secondsSince a.firstHeard)) a.silenced

/-- READ_ALARMS at the alarm and refuge unit (R170). -/
def State.serveReadAlarms (tag : Nat) (_ : Request) (s : State) : State :=
  s.answerTable tag 14 (s.aru.alarms.map s.alarmItem)

/-- READ_ALARMS (R37, R170). -/
def execReadAlarms (s : State) : Host.Outcome State Fault Refusal := .next (s.serveKind 14 State.serveReadAlarms)

/-- The NEAR item of an entry (R150). -/
def State.nearItem (s : State) (n : NearEntry) : DataItem :=
  .near n.tag n.kind n.strength n.near (s.secondsSince n.lastSeen)

/-- The TRACK item of an entry (R150). -/
def State.trackItem (s : State) (t : Track) : DataItem :=
  .track t.tag t.reporter t.chainage t.heading t.speed t.loaded t.lane (s.secondsSince t.sighted)

/-- READ_TAGS at the tag unit (R150): both tables are kept in ascending order of tag ID. -/
def State.serveReadTags (tag : Nat) (_ : Request) (s : State) : State :=
  s.answerTable tag 15 (s.tgu.near.map s.nearItem ++ s.tgu.tracks.map s.trackItem)

/-- READ_TAGS (R37, R150). -/
def execReadTags (s : State) : Host.Outcome State Fault Refusal := .next (s.serveKind 15 State.serveReadTags)

def LineCounters.all (c : LineCounters) : List Counter :=
  [c.good, c.crcErrors, c.collisions, c.lateCollisions, c.excessDrops, c.queueFullDrops, c.overruns, c.duplicates,
    c.relayedOut]

def ParseCounters.all (c : ParseCounters) : List Counter := [c.malformed, c.unknown, c.bad, c.truncated]

def LinkCounters.all (c : LinkCounters) : List Counter :=
  [c.whole, c.framing, c.overrun, c.checksum, c.bad, c.dropped]

/-- A COUNTERS item from thirteen counters' snapshots (2.8). -/
def counterItem (port : Nat) (cs : List Counter) : DataItem :=
  .counters port (cs.map Counter.snap) (cs.map Counter.overflow)

/-- The item of a port: the nine line counters, then the four parse counters (R183). -/
def State.portItem (s : State) (p : Port) : DataItem :=
  counterItem (portCode p) ((s.port p).counters.all ++ (s.fre.parse.get p).all)

/-- The item of the vehicle link: six counters, and seven zeros (R134). -/
def State.linkItem (s : State) : DataItem := counterItem 2 (s.tgu.counters.all ++ List.replicate 7 .zero)

/-- The service of READ_COUNTERS (R183). -/
def State.serveReadCounters (tag : Nat) (_ : Request) (s : State) : State :=
  s.answerTable tag 16 [s.portItem .A, s.portItem .B, s.linkItem]

/-- READ_COUNTERS (R37, R183). -/
def execReadCounters (s : State) : Host.Outcome State Fault Refusal := .next (s.serveKind 16 State.serveReadCounters)

/-! ### Transfers (R182, R183) -/

/-- The next record the part has to send, with its lost count (R183). -/
def State.nextRecord (s : State) : Option (HostRecord × Nat) :=
  if s.spu.owed then s.spu.answer.head?.map (fun r => (r, 0))
  else s.spu.ind.head?.map (fun q => (q.record, q.lost))

/-- Whether a record taken by the host makes the answer buffer's records owed (R183). -/
def HostRecord.owes : HostRecord → Bool
  | .response _ kind _ _ count => answeredFromTable kind && decide (count ≠ 0)
  | _ => false

/-- The host has taken the next record whole (R183, R185). -/
def State.recordTaken (s : State) : State :=
  if s.spu.owed then
    s.setSpu { s.spu with answer := s.spu.answer.tail, owed := !s.spu.answer.tail.isEmpty }
  else
    match s.spu.ind with
    | [] => s
    | q :: more =>
      s.setSpu { s.spu with ind := more, coal := coalAfterLoss more s.spu.coal, owed := q.record.owes }

/-- The host's length byte; an invalid one counts as 0 (R182). -/
def hostLength (bytes : List Byte) : Nat :=
  let n := at8 bytes 0
  if 2 ≤ n ∧ n ≤ 250 then n else 0

/-- A list cut or filled with zero bytes to a length. -/
def fillTo (n : Nat) (bs : List Byte) : List Byte := bs.take n ++ List.replicate (n - bs.length) 0

/-- A transfer of a run of host bytes (R182): what the part returns, the request taken, the record sent. DESIGN CHOICE
(log 37): in exchanges beyond what the longer of the two records needs the part returns zero bytes and ignores the
host's. -/
def State.transfer (s : State) (bytes : List Byte) : State :=
  let n := hostLength bytes
  if n ≠ 0 ∧ 8 ≤ s.spu.requests.length then
    s.setSpu { s.spu with portOut := fillTo bytes.length [255#8] }
  else
    let out := (s.nextRecord.map (fun r => recordBytes r.1 r.2)).getD []
    let t := if !out.isEmpty && decide (out.length ≤ bytes.length) then s.recordTaken else s
    let requests := if n ≠ 0 ∧ n + 1 ≤ bytes.length then t.spu.requests ++ [(bytes.drop 1).take n] else t.spu.requests
    t.setSpu { t.spu with requests := requests, portOut := fillTo bytes.length out }

/-- HOST_TRANSFER (R182). -/
def execHostTransfer (bytes : List Byte) (s : State) : Host.Outcome State Fault Refusal :=
  .next (if bytes.isEmpty then s else s.transfer bytes)

/-- COALESCING_TIMER_EXPIRY (R185). -/
def execCoalescingTimerExpiry (s : State) : Host.Outcome State Fault Refusal :=
  .next (match s.spu.coal with
    | .running deadline _ => if deadline ≤ s.ms then s.setSpu { s.spu with coal := .expired } else s
    | _ => s)

end Sys2Proof.Machine
end

