-- ==== Sys2Proof/Machine/Clock.lean ====
section
/-! DEFINITION. The clock (log 1): one microsecond passes, and the part's own events that have fallen due are put in
the queue. What comes from outside (samples, carrier, gathered frames, link bytes, raw inputs, transfers, the memory's
answer) is the sender's. -/

namespace Sys2Proof.Machine

/-- A command when its condition holds. -/
def onlyIf (b : Bool) (c : Instr) : List Instr := if b then [c] else []

/-- The command that serves a request of a kind (R37). -/
def serviceOf (kind : Nat) : Instr :=
  match kind with
  | 1 => .configure
  | 2 => .start
  | 3 => .restart
  | 4 => .placeCall
  | 5 => .releaseCall
  | 6 => .raiseAlarm
  | 7 => .acknowledgeAlarm
  | 8 => .clearAlarm
  | 9 => .silence
  | 10 => .sendText
  | 11 => .readHistory
  | 12 => .readChannel
  | 13 => .readPeers
  | 14 => .readAlarms
  | 15 => .readTags
  | 16 => .readCounters
  | 17 => .requestHistory
  | _ => .unknownRequest

/-- The station port's due commands. -/
def State.duePort (s : State) : List Instr :=
  onlyIf (decide (s.spu.part = .joining) && s.dueMs s.spu.joinDue) .joiningTimerExpiry
    ++ (match s.spu.requests with
        | [] => []
        | r :: _ => onlyIf (s.mayServe (requestKind r)) (serviceOf (requestKind r)))
    ++ (match s.spu.coal with
        | .running deadline _ => onlyIf (decide (deadline ≤ s.ms)) .coalescingTimerExpiry
        | _ => [])

/-- A line access unit's due commands. -/
def State.dueLine (s : State) (p : Port) : List Instr :=
  let l := s.port p
  onlyIf (s.dueUs l.holdEnd) (.windowHoldEnd p)
    ++ onlyIf (s.operating p && s.dueUs l.pulses.head?) (.presencePulse p)
    ++ onlyIf (s.running && decide (l.access = .defer) && l.waitReached s.clock.usec s.bitTime) (.deferWaitExpiry p)
    ++ onlyIf (decide (l.access = .transmit) && decide (s.transmitEnd p ≤ s.clock.usec)) (.transmissionComplete p)
    ++ onlyIf (decide (l.access = .jam) && decide (l.startedAt + 32 * s.bitTime ≤ s.clock.usec)) (.jamEnd p)

/-- The frame engine's and the peer and relay unit's due commands. -/
def State.duePeers (s : State) : List Instr :=
  onlyIf s.nextPort.isSome .frameParse
    ++ (s.pru.peers.filter (fun x => x.present && decide (x.lastHeard + 1000 * s.cfg.silent ≤ s.ms))).map
        (fun x => .peerSilentDeadline x.station)
    ++ (s.pru.peers.filter (fun x => !x.present && decide (x.lastHeard + 300000 ≤ s.ms))).map
        (fun x => .peerRemovalDeadline x.station)
    ++ onlyIf (s.pru.recent.any (fun r => decide (r.arrival + 20000 ≤ s.ms))) .recentFrameExpiry
    ++ (s.pru.heard.filter (fun h => decide (h.last + 2000 ≤ s.ms))).map
        (fun h => .callsHeardExpiry h.id.caller h.id.number)
    ++ onlyIf (s.running && s.dueMs s.pru.beaconDue) .beaconTimerExpiry

/-- The air units' and the block packer's due commands. -/
def State.dueAir (s : State) : List Instr :=
  onlyIf (s.dueMs (some s.clock.secondDue)) .secondsEvent
    ++ onlyIf (s.dueMs (some s.clock.snapshotDue)) .counterSnapshot
    ++ onlyIf (s.started && decide ((s.channel 6).level ≠ .unset) && s.dueMs s.acu.gateDue) .pulseGateClose
    ++ ((List.finRange 7).filter (fun c =>
          s.started && decide ((s.channel c).level ≠ .unset) && s.dueMs (s.channel c).trendDue)).map .trendEvent
    ++ (match s.bpk.flight with
        | some f => onlyIf (decide (f.granted + 40 ≤ s.clock.usec)) .packCompletion
        | none => [])

/-- The call unit's due commands. -/
def State.dueCalls (s : State) : List Instr :=
  let x := s.clu.ctx
  onlyIf (match s.clu.tones.deny with
      | some n => decide (1600 ≤ n)
      | none => false) .denyToneEnd
    ++ onlyIf (decide (x.state = .outgoing) && s.dueMs x.setupDue) .setupTimerExpiry
    ++ onlyIf (decide (x.state = .paging) && s.dueMs x.setupDue) .pageSetupTimerExpiry
    ++ onlyIf ((decide (x.state = .ringback) || decide (x.state = .incoming)) && s.dueMs x.ringDue) .ringTimerExpiry
    ++ onlyIf (decide (x.state = .connected) && s.dueMs x.silenceDue) .silenceTimerExpiry
    ++ onlyIf (decide (x.state = .connected) && s.dueMs x.holdingDue) .holdingTimerExpiry
    ++ onlyIf (s.dueMs x.talkDue) .talkTimerExpiry
    ++ onlyIf (decide (x.state = .hearingPage) && s.dueMs x.gapDue) .pageGapTimerExpiry

/-- The six inputs, in the order of R172. -/
def allInputs : List Input := [.pullCord, .refugeDoor, .pushToTalk, .hook, .callButton, .pulse]

/-- One cell's due command. -/
def State.dueCell (s : State) (i : Input) : List Instr :=
  match (s.cell i).setting with
  | none => []
  | some g =>
    onlyIf (s.dueUs (s.cell i).due) (if g.immediate then .immediateHoldExpiry i else .debounceTimerExpiry i)

/-- The input/output unit's due commands. -/
def State.dueInputs (s : State) : List Instr :=
  (allInputs.map s.dueCell).flatten
    ++ (match s.iou.cadence with
        | some g => onlyIf (s.dueMs (some g.due)) .cadencePhaseChange
        | none => [])

/-- The tag unit's due commands. -/
def State.dueTags (s : State) : List Instr :=
  onlyIf (s.linkOpen && decide (s.tgu.assembler ≠ .hunt) && s.linkHundredBits s.tgu.lastByte) .linkGapTimerExpiry
    ++ (s.tgu.near.filter (fun n => decide (n.lastSeen + 1000 * s.cfg.tagExpiry ≤ s.ms))).map
        (fun n => .nearEntryExpiry n.tag)
    ++ (s.tgu.tracks.filter (fun t => decide (t.sighted + 30000 ≤ s.ms))).map (fun t => .trackRemovalDeadline t.tag)
    ++ (s.tgu.tracks.filter (fun t => s.dueMs t.repeatDue)).map (fun t => .advisoryRepeatDeadline t.tag)
    ++ onlyIf (s.dueMs s.tgu.evacDue) .evacuationRepeatTimer
    ++ (match s.tgu.sending with
        | some x => onlyIf (s.linkHundredBits x.startedAt) .advisorySendComplete
        | none => [])

/-- One port's due repeats of deliveries. -/
def State.dueDeliveries (s : State) (p : Port) : List Instr :=
  ((s.deliveriesOn p).filter (fun d => s.dueMs d.repeatDue)).map
    (fun d => .deliveryRepeatTimer p d.id.origin d.id.number)

/-- The alarm and refuge unit's due commands. -/
def State.dueAlarms (s : State) : List Instr :=
  s.dueDeliveries .A ++ s.dueDeliveries .B
    ++ (s.aru.alarms.filter (fun a => s.dueMs a.linger)).map (fun a => .lingerDeadline a.id.origin a.id.number)
    ++ (s.aru.alarms.filter (fun a => s.dueMs a.testUntil)).map (fun a => .testWindowExpiry a.id.origin a.id.number)

/-- Every command that has fallen due (log 1). -/
def State.dueCommands (s : State) : List Instr :=
  s.duePort ++ s.dueLine .A ++ s.dueLine .B ++ s.duePeers ++ s.dueAir ++ s.dueCalls ++ s.dueInputs ++ s.dueTags
    ++ s.dueAlarms

/-- One microsecond on an empty queue (log 1). -/
def State.tick (s : State) : State :=
  let t := s.setClock { s.clock with usec := s.clock.usec + 1 }
  t.setPending t.dueCommands

end Sys2Proof.Machine
end

