-- ==== Sys2Proof/Machine/Dispatch.lean ====
section
/-! DEFINITION. One arm per command: the call of its meaning. -/

namespace Sys2Proof.Machine

def exec (i : Instr) (s : State) : Host.Outcome State Fault Refusal :=
  match i with
  | .hardReset => Sys2Proof.Machine.execHardReset s
  | .configReadCompletion answer => Sys2Proof.Machine.execConfigReadCompletion answer s
  | .joiningTimerExpiry => Sys2Proof.Machine.execJoiningTimerExpiry s
  | .hostTransfer bytes => Sys2Proof.Machine.execHostTransfer bytes s
  | .unknownRequest => Sys2Proof.Machine.execUnknownRequest s
  | .configure => Sys2Proof.Machine.execConfigure s
  | .start => Sys2Proof.Machine.execStart s
  | .restart => Sys2Proof.Machine.execRestart s
  | .placeCall => Sys2Proof.Machine.execPlaceCall s
  | .releaseCall => Sys2Proof.Machine.execReleaseCall s
  | .raiseAlarm => Sys2Proof.Machine.execRaiseAlarm s
  | .acknowledgeAlarm => Sys2Proof.Machine.execAcknowledgeAlarm s
  | .clearAlarm => Sys2Proof.Machine.execClearAlarm s
  | .silence => Sys2Proof.Machine.execSilence s
  | .sendText => Sys2Proof.Machine.execSendText s
  | .readHistory => Sys2Proof.Machine.execReadHistory s
  | .readChannel => Sys2Proof.Machine.execReadChannel s
  | .readPeers => Sys2Proof.Machine.execReadPeers s
  | .readAlarms => Sys2Proof.Machine.execReadAlarms s
  | .readTags => Sys2Proof.Machine.execReadTags s
  | .readCounters => Sys2Proof.Machine.execReadCounters s
  | .requestHistory => Sys2Proof.Machine.execRequestHistory s
  | .coalescingTimerExpiry => Sys2Proof.Machine.execCoalescingTimerExpiry s
  | .carrierStart p => Sys2Proof.Machine.execCarrierStart p s
  | .lineQuiet p => Sys2Proof.Machine.execLineQuiet p s
  | .frameEnd p g => Sys2Proof.Machine.execFrameEnd p g s
  | .windowHoldEnd p => Sys2Proof.Machine.execWindowHoldEnd p s
  | .presencePulse p => Sys2Proof.Machine.execPresencePulse p s
  | .deferWaitExpiry p => Sys2Proof.Machine.execDeferWaitExpiry p s
  | .transmissionComplete p => Sys2Proof.Machine.execTransmissionComplete p s
  | .collision p => Sys2Proof.Machine.execCollision p s
  | .jamEnd p => Sys2Proof.Machine.execJamEnd p s
  | .responseWindowEnd p slots => Sys2Proof.Machine.execResponseWindowEnd p slots s
  | .counterSnapshot => Sys2Proof.Machine.execCounterSnapshot s
  | .frameParse => Sys2Proof.Machine.execFrameParse s
  | .peerSilentDeadline station => Sys2Proof.Machine.execPeerSilentDeadline station s
  | .peerRemovalDeadline station => Sys2Proof.Machine.execPeerRemovalDeadline station s
  | .recentFrameExpiry => Sys2Proof.Machine.execRecentFrameExpiry s
  | .callsHeardExpiry caller number => Sys2Proof.Machine.execCallsHeardExpiry caller number s
  | .beaconTimerExpiry => Sys2Proof.Machine.execBeaconTimerExpiry s
  | .loopSampleEvent c code => Sys2Proof.Machine.execLoopSampleEvent c code s
  | .pulseGateClose => Sys2Proof.Machine.execPulseGateClose s
  | .trendEvent c => Sys2Proof.Machine.execTrendEvent c s
  | .secondsEvent => Sys2Proof.Machine.execSecondsEvent s
  | .packCompletion => Sys2Proof.Machine.execPackCompletion s
  | .codecSample mic => Sys2Proof.Machine.execCodecSample mic s
  | .denyToneEnd => Sys2Proof.Machine.execDenyToneEnd s
  | .setupTimerExpiry => Sys2Proof.Machine.execSetupTimerExpiry s
  | .pageSetupTimerExpiry => Sys2Proof.Machine.execPageSetupTimerExpiry s
  | .ringTimerExpiry => Sys2Proof.Machine.execRingTimerExpiry s
  | .silenceTimerExpiry => Sys2Proof.Machine.execSilenceTimerExpiry s
  | .holdingTimerExpiry => Sys2Proof.Machine.execHoldingTimerExpiry s
  | .talkTimerExpiry => Sys2Proof.Machine.execTalkTimerExpiry s
  | .pageGapTimerExpiry => Sys2Proof.Machine.execPageGapTimerExpiry s
  | .rawInputChange x level => Sys2Proof.Machine.execRawInputChange x level s
  | .debounceTimerExpiry x => Sys2Proof.Machine.execDebounceTimerExpiry x s
  | .immediateHoldExpiry x => Sys2Proof.Machine.execImmediateHoldExpiry x s
  | .linkByteReceived b framing overrun => Sys2Proof.Machine.execLinkByteReceived b framing overrun s
  | .linkGapTimerExpiry => Sys2Proof.Machine.execLinkGapTimerExpiry s
  | .nearEntryExpiry tag => Sys2Proof.Machine.execNearEntryExpiry tag s
  | .trackRemovalDeadline tag => Sys2Proof.Machine.execTrackRemovalDeadline tag s
  | .advisoryRepeatDeadline tag => Sys2Proof.Machine.execAdvisoryRepeatDeadline tag s
  | .evacuationRepeatTimer => Sys2Proof.Machine.execEvacuationRepeatTimer s
  | .advisorySendComplete => Sys2Proof.Machine.execAdvisorySendComplete s
  | .deliveryRepeatTimer p origin number => Sys2Proof.Machine.execDeliveryRepeatTimer p origin number s
  | .lingerDeadline origin number => Sys2Proof.Machine.execLingerDeadline origin number s
  | .testWindowExpiry origin number => Sys2Proof.Machine.execTestWindowExpiry origin number s
  | .cadencePhaseChange => Sys2Proof.Machine.execCadencePhaseChange s

end Sys2Proof.Machine
end

