-- ==== Sys2Proof/Safety.lean ====
section
/-! DEFINITION. What can be said of every step: the parts of the state and which of them an operation may touch, and
the invariants the rules promise (capacities, the muster list, the transmit lists). -/

namespace Sys2Proof.Machine

/-! ### The parts of the state -/

/-- The state divided into parts, each a field or a few fields that the rules change together. -/
inductive Part where
  | pending
  | clock
  | draws
  | partState
  | intake
  | requests
  | answer
  | indications
  | portOut
  | sequence
  | lastPort
  | parse
  | line (p : Port)
  | peers
  | recent
  | heard
  | beacon
  | text
  | channels
  | gate
  | zone
  | advance
  | lockout
  | engine
  | history
  | context
  | hook
  | nextCall
  | capture
  | playback
  | tones
  | earpiece
  | assembler
  | linkCounters
  | near
  | tracks
  | evacuation
  | advisories
  | alarms
  | deliveries (p : Port)
  | alarmNumber
  | references
  | muster
  | door
  | raw
  | cells
  | cadence
  | lamps
  | sounder
  deriving DecidableEq, Repr

/-- A part has the same value in two states. -/
def Part.same (x : Part) (s t : State) : Prop :=
  match x with
  | .pending => t.pending = s.pending
  | .clock => t.clock = s.clock
  | .draws => t.draws = s.draws
  | .partState => t.spu.part = s.spu.part ∧ t.spu.joinDue = s.spu.joinDue ∧ t.spu.config = s.spu.config
  | .intake => t.spu.held = s.spu.held ∧ t.spu.assembly = s.spu.assembly
  | .requests => t.spu.requests = s.spu.requests
  | .answer => t.spu.answer = s.spu.answer ∧ t.spu.owed = s.spu.owed
  | .indications => t.spu.ind = s.spu.ind ∧ t.spu.lost = s.spu.lost ∧ t.spu.coal = s.spu.coal
  | .portOut => t.spu.portOut = s.spu.portOut
  | .sequence => t.fre.seq = s.fre.seq
  | .lastPort => t.fre.lastPort = s.fre.lastPort
  | .parse => t.fre.parse = s.fre.parse
  | .line p => t.port p = s.port p
  | .peers => t.pru.peers = s.pru.peers
  | .recent => t.pru.recent = s.pru.recent
  | .heard => t.pru.heard = s.pru.heard
  | .beacon => t.pru.beaconDue = s.pru.beaconDue
  | .text => t.pru.text = s.pru.text
  | .channels => t.acu.channels = s.acu.channels
  | .gate => t.acu.gateCount = s.acu.gateCount ∧ t.acu.gateDue = s.acu.gateDue
  | .zone => t.zae.records = s.zae.records
  | .advance => t.zae.advance = s.zae.advance
  | .lockout => t.zae.lockout = s.zae.lockout
  | .engine => t.bpk.flight = s.bpk.flight
  | .history => t.bpk.history = s.bpk.history
  | .context => t.clu.ctx = s.clu.ctx
  | .hook => t.clu.hookOff = s.clu.hookOff ∧ t.clu.hookStale = s.clu.hookStale
  | .nextCall => t.clu.nextCall = s.clu.nextCall
  | .capture => t.clu.capture = s.clu.capture
  | .playback => t.clu.playback = s.clu.playback
  | .tones => t.clu.tones = s.clu.tones
  | .earpiece => t.clu.earpiece = s.clu.earpiece
  | .assembler => t.tgu.assembler = s.tgu.assembler ∧ t.tgu.lastByte = s.tgu.lastByte
  | .linkCounters => t.tgu.counters = s.tgu.counters
  | .near => t.tgu.near = s.tgu.near
  | .tracks => t.tgu.tracks = s.tgu.tracks
  | .evacuation => t.tgu.evacHeld = s.tgu.evacHeld ∧ t.tgu.evacDue = s.tgu.evacDue
  | .advisories => t.tgu.advisories = s.tgu.advisories ∧ t.tgu.sending = s.tgu.sending
  | .alarms => t.aru.alarms = s.aru.alarms
  | .deliveries p => t.deliveriesOn p = s.deliveriesOn p
  | .alarmNumber => t.aru.nextNumber = s.aru.nextNumber
  | .references => t.aru.pullRef = s.aru.pullRef ∧ t.aru.doorRef = s.aru.doorRef
  | .muster =>
    t.aru.musterActive = s.aru.musterActive ∧ t.aru.muster = s.aru.muster ∧ t.aru.overflow = s.aru.overflow
  | .door => t.aru.doorOpen = s.aru.doorOpen
  | .raw => t.iou.raw = s.iou.raw
  | .cells => t.iou.cells = s.iou.cells
  | .cadence => t.iou.cadence = s.iou.cadence
  | .lamps => t.iou.lampOut = s.iou.lampOut ∧ t.iou.lampIn = s.iou.lampIn
  | .sounder => t.iou.sounder = s.iou.sounder

/-- From s to t, no part outside the list changes. -/
def OnlyTouches (parts : List Part) (s t : State) : Prop := ∀ x, x ∉ parts → x.same s t

/-! ### Footprints: the parts a shared operation may touch -/

/-- A queue request on a port (R16 to R20, R165). -/
def queueFoot (p : Port) : List Part := [.draws, .sequence, .line p, .indications, .deliveries p]

/-- A queue request on a port for a frame that is no alarm and no voice. -/
def plainQueueFoot (p : Port) : List Part := [.draws, .sequence, .line p, .indications]

/-- Plain queue requests on both ports. -/
def plainQueuesFoot : List Part := [.draws, .sequence, .line .A, .line .B, .indications]

/-- Queue requests on both ports. -/
def queuesFoot : List Part :=
  [.draws, .sequence, .line .A, .line .B, .indications, .deliveries .A, .deliveries .B]

/-- An advisory request (R147). -/
def advisoryFoot : List Part := [.advisories, .linkCounters]

/-- An evaluation of the lane monitor (R149). -/
def laneFoot : List Part := [.tracks, .evacuation, .advisories, .linkCounters, .lamps]

/-- An evaluation of lockout, with the lane monitor's (R91, R92). -/
def lockoutFoot : List Part := [.lockout, .tracks, .evacuation, .advisories, .linkCounters, .lamps]

/-- A recompute (R85). -/
def recomputeFoot : List Part :=
  [.zone, .advance, .lockout, .indications, .tracks, .evacuation, .advisories, .linkCounters, .lamps]

/-- Handing on a change of the alarm table (R160). -/
def handOnFoot : List Part :=
  [.references, .channels, .lockout, .tracks, .evacuation, .advisories, .linkCounters, .lamps, .muster, .sounder]

/-- A change of the alarm table with its deliveries (R156, R160 to R162, R164). -/
def alarmFoot : List Part :=
  [.alarms, .references, .channels, .lockout, .tracks, .evacuation, .advisories, .linkCounters, .lamps, .muster, .sounder,
    .draws, .sequence, .line .A, .line .B, .indications, .deliveries .A, .deliveries .B]

/-- A raise (R156). -/
def raiseFoot : List Part := .alarmNumber :: alarmFoot

/-- What a sample or trend event hands on (R64, R75, R76, R93, R94). -/
def channelFoot : List Part := .zone :: .advance :: raiseFoot

/-- A frame of the call unit (R111). -/
def callFrameFoot : List Part := .context :: queuesFoot

/-- The end of a capture run, with what it sends (R125). -/
def captureFoot : List Part := .capture :: callFrameFoot

/-- A release of the call (R118). -/
def releaseFoot : List Part := [.playback, .tones] ++ captureFoot

/-- A call or page placed or taken (R112, R115, R123). -/
def placeFoot : List Part := [.nextCall, .playback, .tones] ++ callFrameFoot

/-- A section of a call received (R114 to R124). -/
def callFoot : List Part := [.playback, .tones, .peers, .heard] ++ captureFoot

/-- The engine's next grant (R101). -/
def grantFoot : List Part := [.engine, .history, .capture]

/-- A sighting in the near table (R136 to R139). -/
def sightingFoot : List Part :=
  [.near, .tracks, .evacuation, .advisories, .linkCounters, .lamps, .muster] ++ plainQueuesFoot

/-- Entry to JOINING (R178). -/
def joiningFoot : List Part :=
  [.partState, .gate, .channels, .cells, .cadence, .hook, .door, .sounder] ++ recomputeFoot

/-- Entry to RUNNING (R178). -/
def runningFoot : List Part := [.partState, .beacon] ++ plainQueuesFoot ++ laneFoot

/-- What a section dispatched at this station can touch (R34). -/
def sectionFoot : List Part := [.zone, .advance] ++ grantFoot ++ callFoot ++ alarmFoot

/-- What a reset touches: everything but the queue, the free values drawn, and the pins (log 5). -/
def resetFoot : List Part :=
  [.clock, .partState, .intake, .requests, .answer, .indications, .portOut, .sequence, .lastPort, .parse, .line .A,
    .line .B, .peers, .recent, .heard, .beacon, .text, .channels, .gate, .zone, .advance, .lockout, .engine, .history,
    .context, .hook, .nextCall, .capture, .playback, .tones, .earpiece, .assembler, .linkCounters, .near, .tracks,
    .evacuation, .advisories, .alarms, .deliveries .A, .deliveries .B, .alarmNumber, .references, .muster, .door,
    .cells, .cadence, .lamps, .sounder]

/-- What an accepted edge of an input can touch (the table of 10.1). -/
def edgeFoot : Input → List Part
  | .pullCord => raiseFoot
  | .refugeDoor => .door :: raiseFoot
  | .pushToTalk => .tones :: captureFoot
  | .hook => .hook :: releaseFoot
  | .callButton => placeFoot
  | .pulse => [.gate]

/-- What a command can touch. -/
def footprint : Instr → List Part
  | .hardReset => resetFoot
  | .configReadCompletion _ => .intake :: joiningFoot
  | .joiningTimerExpiry => runningFoot
  | .hostTransfer _ => [.requests, .answer, .indications, .portOut]
  | .unknownRequest => [.requests, .indications]
  | .configure => [.requests, .indications, .intake]
  | .start => [.requests, .intake] ++ joiningFoot
  | .restart => resetFoot
  | .placeCall => .requests :: placeFoot
  | .releaseCall => .requests :: releaseFoot
  | .raiseAlarm => .requests :: raiseFoot
  | .acknowledgeAlarm => .requests :: alarmFoot
  | .clearAlarm => .requests :: alarmFoot
  | .silence => [.requests, .indications, .alarms, .sounder]
  | .sendText => [.requests, .text] ++ plainQueuesFoot
  | .readHistory => [.requests, .indications] ++ grantFoot
  | .readChannel => [.requests, .answer, .indications]
  | .readPeers => [.requests, .answer, .indications]
  | .readAlarms => [.requests, .answer, .indications]
  | .readTags => [.requests, .answer, .indications]
  | .readCounters => [.requests, .answer, .indications]
  | .requestHistory => .requests :: plainQueuesFoot
  | .coalescingTimerExpiry => [.indications]
  | .carrierStart p => [.line p]
  | .lineQuiet p => [.draws, .line p]
  | .frameEnd p _ => [.line p]
  | .windowHoldEnd p => [.draws, .line p]
  | .presencePulse p => [.line p]
  | .deferWaitExpiry p => [.sequence, .line p]
  | .transmissionComplete p => queueFoot p
  | .collision p => [.line p]
  | .jamEnd p => queueFoot p
  | .responseWindowEnd p _ => queueFoot p
  | .counterSnapshot => [.clock, .line .A, .line .B, .parse, .linkCounters]
  | .frameParse => [.lastPort, .parse, .recent] ++ sectionFoot
  | .peerSilentDeadline _ => .peers :: recomputeFoot
  | .peerRemovalDeadline _ => .peers :: recomputeFoot
  | .recentFrameExpiry => [.recent]
  | .callsHeardExpiry _ _ => [.peers, .heard]
  | .beaconTimerExpiry => .beacon :: plainQueuesFoot
  | .loopSampleEvent _ _ => channelFoot
  | .pulseGateClose => .gate :: channelFoot
  | .trendEvent _ => channelFoot
  | .secondsEvent => .clock :: lockoutFoot
  | .packCompletion => grantFoot ++ captureFoot
  | .codecSample _ => [.earpiece, .playback, .tones] ++ grantFoot
  | .denyToneEnd => [.tones]
  | .setupTimerExpiry => .tones :: callFrameFoot
  | .pageSetupTimerExpiry => .tones :: callFrameFoot
  | .ringTimerExpiry => .tones :: callFrameFoot
  | .silenceTimerExpiry => releaseFoot
  | .holdingTimerExpiry => callFrameFoot
  | .talkTimerExpiry => .tones :: captureFoot
  | .pageGapTimerExpiry => [.playback, .tones, .context, .indications]
  | .rawInputChange i _ => [.raw, .cells] ++ edgeFoot i
  | .debounceTimerExpiry i => .cells :: edgeFoot i
  | .immediateHoldExpiry i => .cells :: edgeFoot i
  | .linkByteReceived _ _ _ => .assembler :: sightingFoot
  | .linkGapTimerExpiry => [.assembler, .linkCounters]
  | .nearEntryExpiry _ => sightingFoot
  | .trackRemovalDeadline _ => laneFoot
  | .advisoryRepeatDeadline _ => .tracks :: advisoryFoot
  | .evacuationRepeatTimer => [.evacuation, .advisories, .linkCounters]
  | .advisorySendComplete => [.advisories]
  | .deliveryRepeatTimer p _ _ => queueFoot p
  | .lingerDeadline _ _ => [.alarms, .indications] ++ handOnFoot
  | .testWindowExpiry _ _ => [.alarms, .sounder]
  | .cadencePhaseChange => [.cadence]

/-! ### Capacities -/

/-- The capacities of a line access unit (R4, R14). -/
def Lau.fits (l : Lau) : Prop := l.list.length ≤ 12 ∧ l.received.length ≤ 4

/-- The places of the capture ring that are taken (R125): the block being filled, the blocks that wait for the block
packer, and the voice block whose pack is in flight. -/
def State.placesTaken (s : State) : Nat :=
  s.clu.capture.filling.toList.length + s.clu.capture.waiting.length + s.inFlightPlaces

/-- The capacities of the capture path (R125): sixteen places, and at most eight packed blocks. -/
def CaptureFits (s : State) : Prop := s.placesTaken ≤ 16 ∧ s.clu.capture.packed.length ≤ 8

/-- The capacities the rules give every list, queue and table of the part. -/
def Capacity (s : State) : Prop :=
  -- R182 to R184
  s.spu.requests.length ≤ 8 ∧ s.spu.answer.length ≤ 80 ∧ s.spu.ind.length ≤ 32 ∧ s.spu.lost ≤ 255
  -- R4, R14
  ∧ s.lau.a.fits ∧ s.lau.b.fits
  -- R39, R45, R55
  ∧ s.pru.peers.length ≤ 48 ∧ s.pru.recent.length ≤ 32 ∧ s.pru.heard.length ≤ 4
  -- R103, R127
  ∧ s.bpk.history.length ≤ 4 ∧ s.clu.playback.blocks.length ≤ 64
  -- R135, R141, R147
  ∧ s.tgu.near.length ≤ 64 ∧ s.tgu.tracks.length ≤ 16 ∧ s.tgu.advisories.length ≤ 8
  -- R152, R164
  ∧ s.aru.alarms.length ≤ 16 ∧ s.aru.deliveries.a.length ≤ 16 ∧ s.aru.deliveries.b.length ≤ 16
  -- R125
  ∧ CaptureFits s

/-- R168: the muster list holds no duplicate, at most 64 tags, and is empty while muster is inactive; the overflow
count stays within 0 to 65 535. -/
def MusterOk (s : State) : Prop :=
  s.aru.muster.Nodup ∧ s.aru.muster.length ≤ 64 ∧ s.aru.overflow ≤ 65535
    ∧ (s.aru.musterActive = false → s.aru.muster = [] ∧ s.aru.overflow = 0)

/-! ### Order -/

/-- R15: an entry stands before another of a less urgent class, or of its own class and queued later. -/
def TxEntry.before (a b : TxEntry) : Prop := a.cls.code < b.cls.code ∨ (a.cls.code = b.cls.code ∧ a.order < b.order)

/-- R14, R15: the transmit list of a port is in its order, and the next queue order is above every one given. -/
def Lau.ordered (l : Lau) : Prop := l.list.Pairwise TxEntry.before ∧ ∀ e ∈ l.list, e.order < l.nextOrder

/-- Both transmit lists are in the order of R15. -/
def ListsOrdered (s : State) : Prop := s.lau.a.ordered ∧ s.lau.b.ordered

/-- The tables are in their order, one entry a station, a tag, an alarm ID (R39, R135, R141, R152). -/
def TablesOk (s : State) : Prop :=
  s.pru.peers.Pairwise (fun a b => a.station < b.station)
    ∧ s.tgu.near.Pairwise (fun a b => a.tag < b.tag)
    ∧ s.tgu.tracks.Pairwise (fun a b => a.tag < b.tag)
    ∧ s.aru.alarms.Pairwise (fun a b => alarmBefore a b = true ∧ a.id ≠ b.id)

/-- R55: a peer's in-call flag is set while a call heard names the peer. -/
def InCallOk (s : State) : Prop := ∀ x ∈ s.pru.peers, x.inCall = partyHeard s.pru.heard x.station

/-- The wrapping numbers stay within their widths (R28, R112, R156). -/
def NumbersOk (s : State) : Prop := s.fre.seq < 65536 ∧ s.clu.nextCall < 256 ∧ s.aru.nextNumber < 256

/-! ### Families of commands -/

/-- The families the opcode table's commands fall into, by the unit that takes them. -/
inductive Family where
  | start
  | request
  | line
  | frames
  | air
  | call
  | input
  | tag
  | alarm
  deriving DecidableEq, Repr

/-- The family of a command. -/
def familyOf : Instr → Family
  | .hardReset => .start
  | .configReadCompletion _ => .start
  | .joiningTimerExpiry => .start
  | .start => .start
  | .restart => .start
  | .hostTransfer _ => .request
  | .unknownRequest => .request
  | .configure => .request
  | .placeCall => .request
  | .releaseCall => .request
  | .raiseAlarm => .request
  | .acknowledgeAlarm => .request
  | .clearAlarm => .request
  | .silence => .request
  | .sendText => .request
  | .readHistory => .request
  | .readChannel => .request
  | .readPeers => .request
  | .readAlarms => .request
  | .readTags => .request
  | .readCounters => .request
  | .requestHistory => .request
  | .coalescingTimerExpiry => .request
  | .carrierStart _ => .line
  | .lineQuiet _ => .line
  | .frameEnd _ _ => .line
  | .windowHoldEnd _ => .line
  | .presencePulse _ => .line
  | .deferWaitExpiry _ => .line
  | .transmissionComplete _ => .line
  | .collision _ => .line
  | .jamEnd _ => .line
  | .responseWindowEnd _ _ => .line
  | .counterSnapshot => .line
  | .frameParse => .frames
  | .peerSilentDeadline _ => .frames
  | .peerRemovalDeadline _ => .frames
  | .recentFrameExpiry => .frames
  | .callsHeardExpiry _ _ => .frames
  | .beaconTimerExpiry => .frames
  | .loopSampleEvent _ _ => .air
  | .pulseGateClose => .air
  | .trendEvent _ => .air
  | .secondsEvent => .air
  | .packCompletion => .air
  | .codecSample _ => .call
  | .denyToneEnd => .call
  | .setupTimerExpiry => .call
  | .pageSetupTimerExpiry => .call
  | .ringTimerExpiry => .call
  | .silenceTimerExpiry => .call
  | .holdingTimerExpiry => .call
  | .talkTimerExpiry => .call
  | .pageGapTimerExpiry => .call
  | .rawInputChange _ _ => .input
  | .debounceTimerExpiry _ => .input
  | .immediateHoldExpiry _ => .input
  | .cadencePhaseChange => .input
  | .linkByteReceived _ _ _ => .tag
  | .linkGapTimerExpiry => .tag
  | .nearEntryExpiry _ => .tag
  | .trackRemovalDeadline _ => .tag
  | .advisoryRepeatDeadline _ => .tag
  | .evacuationRepeatTimer => .tag
  | .advisorySendComplete => .tag
  | .deliveryRepeatTimer _ _ _ => .alarm
  | .lingerDeadline _ _ => .alarm
  | .testWindowExpiry _ _ => .alarm

/-- No command of a family changes a part of the state outside its footprint. -/
def FamilyFrame (f : Family) : Prop :=
  ∀ c s t, familyOf c = f → exec c s = .next t → OnlyTouches (footprint c) s t

/-! ### What the request and start commands are stated with -/

/-- The head of the request queue is a record that passes R37 as request q with this tag, more requests wait
behind it, and R183 lets it be served: fewer than 32 urgent records are held, and for a request answered from a
table the answer buffer is empty. -/
def Serving (s : State) (q : Request) (tag : Nat) (more : List (List Byte)) : Prop :=
  ∃ r, s.spu.requests = r :: more ∧ readRequest r = some q ∧ requestTag r = tag ∧ s.urgentHeld < 32
    ∧ (answeredFromTable (requestKind r) = true → s.spu.answer = [])

/-- The last record of the indication queue is this RESPONSE. -/
def Answered (t : State) (tag kind : Nat) (code : ResponseCode) (detail count : Nat) : Prop :=
  ∃ lost, t.spu.ind.getLast? = some { record := .response tag kind code detail count, lost := lost }

/-- The part has entered JOINING with configuration g at the tick `now`, the raw input levels being `raw` (R60, R62,
R66, R70, R130, R172, R175, R177, R178). -/
def JoiningEntered (now : Nat) (raw : Vector Level 6) (t : State) (g : Configuration) : Prop :=
  t.spu.part = .joining ∧ t.spu.config = some g ∧ t.spu.joinDue = some (now + 2 * g.beacon * 1000)
    ∧ (∀ c : Fin 7, g.channels[c].kind.isSome = true →
        (t.channel c).level = .starting ∧ (t.channel c).trendDue = some (now + g.channels[c].interval * 1000)
          ∧ (c.val < 6 → (t.channel c).sampleDue = some (now + 250)))
    ∧ (g.channels[6].kind.isSome = true → t.acu.gateDue = some (now + 1000))
    ∧ (∀ i : Input, t.cell i
        = { setting := some g.cells[inputIndex i], level := raw[inputIndex i], due := none })
    ∧ t.iou.cadence = some { phase := 0, due := now + 125 }
    ∧ t.clu.hookOff = decide (raw[inputIndex .hook] = .active)
    ∧ t.clu.hookStale = decide (raw[inputIndex .hook] = .active)
    ∧ (g.refuge = true → t.aru.doorOpen = decide (raw[inputIndex .refugeDoor] = .active))

/-! ### What the line, call, zone and lane statements are stated with -/

/-- The entry e of port p has reached outcome o with a hear map (R7, R17, R20): from s to t it has left service and the
list, what its outcome owes has been handed on, and the unit has gone on. -/
def OutcomeTaken (s t : State) (p : Port) (e : TxEntry) (f : List Byte) (o : TxOutcome) (map : List Nat) : Prop :=
  let rest := (s.port p).list.filter (fun x => decide (x.order ≠ e.order))
  (t.port p).service = none
    -- R17: a live entry's pending repeat is queued at the outcome, and the mark cleared
    ∧ ((∀ k, e.live = some k → (s.port p).repeatOf k = false) → (t.port p).list = rest)
    ∧ (∀ k, e.live = some k → (s.port p).repeatOf k = true → (∀ x ∈ rest, x.live ≠ some k) →
        (t.port p).list = insertEntry { TxEntry.ofLive k with order := (s.port p).nextOrder } rest
          ∧ (t.port p).repeatOf k = false)
    -- R7: back to DEFER with further entries, else IDLE or RECEIVE as the line is
    ∧ (s.running = true → (t.port p).list ≠ [] → (t.port p).access = .defer)
    ∧ ((t.port p).list = [] → (t.port p).access
        = if (t.port p).carrier = false ∧ (t.port p).holdEnd = none then .idle else .receive)
    -- R20: TX_DONE for a report request, the hear map to the alarm unit for an ALARM frame of its own
    ∧ (∀ tag, e.report = some tag → e.cls ≠ .alarm → s.urgentHeld < 32 →
        ∃ lost, t.spu.ind.getLast? = some { record := .txDone tag p o, lost := lost })
    ∧ (e.report = none → e.cls ≠ .alarm → t.spu.ind = s.spu.ind)
    ∧ (e.cls = .alarm → e.requester = some .aru → e.report = none →
        t.deliveriesOn p = (s.deliveryOutcome p f map).deliveriesOn p
          ∧ t.spu.ind = (s.deliveryOutcome p f map).spu.ind)
    ∧ (e.cls ≠ .alarm → t.deliveriesOn p = s.deliveriesOn p)

/-- From s to t the context has entered CONNECTED (R119): its fields, the ring tone stopped, and CALL_EVENT CONNECTED. -/
def Connects (s t : State) : Prop :=
  ∃ u : State, OnlyTouches [.context, .tones] s u
    ∧ u.clu.ctx = { s.clu.ctx with
        state := .connected, floor := some .none, sendSeq := some 0, expectSeq := none, setupDue := none,
        ringDue := none, silenceDue := some (s.ms + 10000), holdingDue := some (s.ms + 3000) }
    ∧ u.clu.tones = { s.clu.tones with ring := none }
    ∧ t = takeIn (.callEvent .connected s.callId s.callPeer none) u

/-- From s to t the context has returned to IDLE with an event (R110, R118, R124): every timer stopped, the ring tone
too, and the playback ring left to play out (R127). -/
def EndsCall (s t : State) (e : CallEvent) (reason : Option ReleaseReason) : Prop :=
  t.clu.ctx = CallContext.idle ∧ t.clu.tones = { s.clu.tones with ring := none }
    ∧ t.clu.playback = { s.clu.playback with playing := s.clu.playback.playing || !s.clu.playback.blocks.isEmpty }
    ∧ t.spu = (takeIn (.callEvent e s.callId s.callPeer reason) s).spu

/-- A capture run ended with nothing sent (R125): nothing is filled, waiting or packed any more. -/
def RunEnded (s t : State) : Prop :=
  t.clu.capture = { run := none, nextRun := s.clu.capture.nextRun, filling := none, waiting := [], packed := [] }

/-- From s to t a call is taken (R115): the context is INCOMING, the playback ring is empty, the call is no longer heard,
RINGING is requested, the ring tone and the ring timer run, and CALL_EVENT INCOMING is placed. -/
def TakesCall (s t : State) (id : CallId) : Prop :=
  ∃ u v : State, OnlyTouches [.context, .playback, .peers, .heard] s u
    ∧ u.clu.ctx = { CallContext.idle with
        state := .incoming, call := some id, peer := some id.caller, ringDue := some (s.ms + 30000) }
    ∧ u.clu.playback = Playback.empty ∧ u.pru.heard = s.pru.heard.filter (fun h => decide (h.id ≠ id))
    ∧ OnlyTouches [.tones] (u.sendMessage .ringing none) v
    ∧ v.clu.tones = { s.clu.tones with ring := some 0, deny := none }
    ∧ t = takeIn (.callEvent .incoming id id.caller none) v

/-- From s to t a page begins to be heard (R124). -/
def HearsPage (s t : State) (id : CallId) : Prop :=
  ∃ u : State, OnlyTouches [.context, .playback, .peers, .heard] s u
    ∧ u.clu.ctx = { CallContext.idle with
        state := .hearingPage, call := some id, peer := some id.caller, gapDue := some (s.ms + 2000) }
    ∧ u.clu.playback = Playback.empty ∧ u.pru.heard = s.pru.heard.filter (fun h => decide (h.id ≠ id))
    ∧ t = takeIn (.callEvent .pageHeard id id.caller none) u

/-- A contribution to a gas kind (R82): a published state with a value, from an own channel that is neither UNSET nor
STARTING, or from an entry of the air summary of a PRESENT peer in the own zone. -/
def Contributes (s : State) (k : GasKind) (x : ChannelState) (v : Nat) : Prop :=
  (∃ c : Fin 7, (s.channelCfg c).kind = some k ∧ (s.channel c).level ≠ .unset ∧ (s.channel c).level ≠ .starting
      ∧ x = (s.channel c).published ∧ v = (s.channel c).value)
    ∨ (∃ y ∈ s.pru.peers, y.present = true ∧ (∃ t, y.status = some t ∧ t.zone = s.cfg.zone)
        ∧ ∃ es, y.air = some es ∧ ∃ e ∈ es, e.kind = k ∧ e.state ≠ .unset ∧ e.state ≠ .starting
          ∧ x = e.state ∧ v = e.value)

/-- The order of the claimants (R144), each test applied where those before it leave the two equal. -/
def ClaimsBefore (a b : Track) : Prop :=
  (a.lane = .inSection ∧ b.lane ≠ .inSection) ∨ ((a.lane = .inSection ↔ b.lane = .inSection) ∧
    ((a.loaded = true ∧ b.loaded = false) ∨ (a.loaded = b.loaded ∧
      ((a.dir = some .outbye ∧ b.dir ≠ some .outbye) ∨ (a.dir = some .inbye ∧ b.dir = none) ∨ (a.dir = b.dir ∧
        (a.entered.getD 0 < b.entered.getD 0 ∨ (a.entered.getD 0 = b.entered.getD 0 ∧
          (a.sighted < b.sighted ∨ (a.sighted = b.sighted ∧ a.tag < b.tag)))))))))

/-! ### What the input, alarm, frame, tag and zone statements are stated with -/

/-- From s to t a capture run starts (R125), its first block being filled. -/
def RunStarted (s t : State) : Prop :=
  t.clu.capture
    = { run := some s.clu.capture.nextRun, nextRun := s.clu.capture.nextRun + 1, filling := some [], waiting := [],
        packed := [] }

/-- From s to t a capture run ends, and the packed blocks that wait for a frame leave as one VOICE frame (R125). -/
def RunSent (s t : State) : Prop :=
  RunEnded s t
    ∧ (s.clu.capture.run = none ∨ s.clu.capture.packed = [] → OnlyTouches [.capture] s t)
    ∧ (s.clu.capture.run ≠ none → s.clu.capture.packed ≠ [] →
      ∃ u : State, OnlyTouches [.capture, .context] s u
        ∧ u.clu.ctx = { s.clu.ctx with sendSeq := some ((s.clu.ctx.sendSeq.getD 0 + 1) % 256) }
        ∧ OnlyTouches [.context]
            (u.sendCallFrame s.callPeer [.voice s.callId (s.clu.ctx.sendSeq.getD 0) s.clu.capture.packed]
              (fun e => { e with voiceCall := some s.callId })) t
        ∧ t.clu.ctx = { u.clu.ctx with
            holdingDue := if s.clu.ctx.state = .connected then some (s.ms + 3000) else s.clu.ctx.holdingDue })

/-- From s to t the call is released from this end, for a reason (R118, R119). -/
def ReleasesCall (s t : State) (reason : ReleaseReason) : Prop :=
  ∃ u : State, OnlyTouches [.capture] s u ∧ RunEnded s u
    ∧ OnlyTouches [.playback, .tones, .context, .indications] (u.sendMessage .release (some reason)) t
    ∧ t.clu.ctx = CallContext.idle ∧ t.clu.playback = Playback.empty ∧ t.clu.tones = { s.clu.tones with ring := none }
    ∧ t.spu = (takeIn (.callEvent .released s.callId s.callPeer (some reason))
        (u.sendMessage .release (some reason))).spu

/-- From s to t a RELEASE is requested and the context returns to IDLE with RELEASED (R114, R116, R123). -/
def LeavesCall (s t : State) (reason : ReleaseReason) : Prop :=
  OnlyTouches [.context, .tones, .indications] (s.sendMessage .release (some reason)) t
    ∧ t.clu.ctx = CallContext.idle ∧ t.clu.tones = { s.clu.tones with ring := none }
    ∧ t.spu = (takeIn (.callEvent .released s.callId s.callPeer (some reason))
        (s.sendMessage .release (some reason))).spu

/-- From s to t the floor is given (R120): the run ends and sends what is packed, and FLOOR_GIVE is requested. -/
def GivesFloor (s t : State) : Prop :=
  ∃ u : State, RunSent s u ∧ OnlyTouches [.context] (u.sendMessage .floorGive none) t
    ∧ t.clu.ctx = { u.clu.ctx with holdingDue := some (s.ms + 3000), talkDue := none, floor := some .none }

/-- From s to t the talk span of a page ends (R123): the run ends and sends what is packed, and the page is released. -/
def EndsPage (s t : State) : Prop :=
  ∃ u : State, RunSent s u ∧ OnlyTouches [.context, .tones, .indications] (u.sendMessage .release (some .normal)) t
    ∧ t.clu.ctx = CallContext.idle
    ∧ t.spu = (takeIn (.callEvent .released s.callId s.callPeer (some .normal))
        (u.sendMessage .release (some .normal))).spu

/-- From s to t a call is placed (R112): the context, the next call number and the playback ring, then the first SETUP
and the setup timer. -/
def PlacesCall (s t : State) (callee : Nat) : Prop :=
  ∃ u : State, OnlyTouches [.context, .nextCall, .playback] s u
    ∧ u.clu.ctx = { CallContext.idle with
        state := .outgoing, call := some ⟨s.cfg.station, s.clu.nextCall⟩, peer := some callee }
    ∧ u.clu.nextCall = (s.clu.nextCall + 1) % 256 ∧ u.clu.playback = Playback.empty
    ∧ OnlyTouches [.context] (u.sendMessage .setup none) t
    ∧ t.clu.ctx = { u.clu.ctx with setups := 1, setupDue := some (s.ms + 1000) }

/-- From s to t a page is placed (R112, R123). -/
def PlacesPage (s t : State) : Prop :=
  OnlyTouches [.context, .nextCall, .playback] s t
    ∧ t.clu.ctx = { CallContext.idle with
        state := .paging, call := some ⟨s.cfg.station, s.clu.nextCall⟩, peer := some 4095, sendSeq := some 0,
        setupDue := some (s.ms + 10000) }
    ∧ t.clu.nextCall = (s.clu.nextCall + 1) % 256 ∧ t.clu.playback = Playback.empty

/-- The entry of a full table that a newcomer displaces (R153): the CLEARED entry of the earliest linger deadline, or,
for a newcomer that stands, the earliest heard of the entries of the lowest severity when that is below the newcomer's;
the first in table order on a tie. -/
def Displaces (as : List Alarm) (severity : Nat) (state : AlarmState) (v : Alarm) : Prop :=
  ∃ before after, as = before ++ v :: after ∧
    ((v.state = .cleared ∧ (∀ x ∈ before, x.state = .cleared → v.linger.getD 0 < x.linger.getD 0)
        ∧ ∀ x ∈ after, x.state = .cleared → v.linger.getD 0 ≤ x.linger.getD 0)
      ∨ ((∀ x ∈ as, x.state ≠ .cleared) ∧ state ≠ .cleared ∧ v.kind.severity < severity
        ∧ (∀ x ∈ before, v.kind.severity < x.kind.severity
            ∨ (v.kind.severity = x.kind.severity ∧ v.firstHeard < x.firstHeard))
        ∧ ∀ x ∈ after, v.kind.severity < x.kind.severity
            ∨ (v.kind.severity = x.kind.severity ∧ v.firstHeard ≤ x.firstHeard)))

/-- The table can hold a new RAISED alarm of a kind (R153). -/
def HasRoom (s : State) (kind : AlarmKind) : Prop :=
  s.aru.alarms.length < 16 ∨ ∃ v, Displaces s.aru.alarms kind.severity .raised v

/-- From s to t an entry leaves the alarm table (R155, R160): its REMOVED indication, and the change handed on. -/
def RemovesAlarm (s t : State) (a : Alarm) : Prop :=
  ∃ u : State, OnlyTouches [.alarms, .indications] s u
    ∧ u.aru.alarms = s.aru.alarms.filter (fun x => decide (x.id ≠ a.id))
    ∧ u.spu = (takeIn (.alarmChange a.id a.kind a.scope a.state .removed) s).spu ∧ t = (u.handOn a true).1

/-- From s to t room is made for a newcomer (R153): nothing to do, or the entry it displaces removed whole. -/
def MakesRoom (s t : State) (severity : Nat) (state : AlarmState) : Prop :=
  (s.aru.alarms.length < 16 → t = s)
    ∧ (16 ≤ s.aru.alarms.length → ∃ v, Displaces s.aru.alarms severity state v ∧ RemovesAlarm s t v)

/-- From s to t an entry is added with its ADDED indication (R154), its local-silenced flag as R163 gives it. -/
def AddsAlarm (s t : State) (a : Alarm) : Prop :=
  OnlyTouches [.alarms, .indications] s t ∧ (∀ x, x ∈ t.aru.alarms ↔ x = a ∨ x ∈ s.aru.alarms)
    ∧ t.spu = (takeIn (.alarmChange a.id a.kind a.scope a.state .added) s).spu ∧ a.firstHeard = s.ms
    ∧ (a.silenced = true ↔ ∃ x ∈ s.aru.alarms, x.silenced = true ∧ a.kind.severity ≤ x.kind.severity)
    ∧ a.linger = (if a.state = .cleared then some (s.ms + 60000) else none)
    ∧ a.testUntil = (if a.kind = .test then some (s.ms + 5000) else none)

/-- From s to t a held entry takes later values with its ADVANCED indication (R159, R161, R162). -/
def AdvancesAlarm (s t : State) (a : Alarm) : Prop :=
  OnlyTouches [.alarms, .indications] s t ∧ t.aru.alarms = s.aru.alarms.map (fun x => if x.id = a.id then a else x)
    ∧ t.spu = (takeIn (.alarmChange a.id a.kind a.scope a.state .advanced) s).spu

/-- From s to t a change of this station's own to entry a, already in the table, is delivered and handed on (R160,
R164). -/
def Announces (s t : State) (a : Alarm) : Prop := t = ((s.onPorts (State.openOwn a)).handOn a false).1

/-- From s to t an alarm of this station's own origin is raised under number n (R156): the first number not held from the
next alarm number on, room for it, the entry, and its announcement. -/
def RaisesAlarm (s t : State) (kind : AlarmKind) (scope : Scope) (n : Nat) : Prop :=
  (s.aru.alarms.length ≤ 16 → ∃ k, k < 256 ∧ n = (s.aru.nextNumber + k) % 256 ∧ s.findAlarm ⟨s.cfg.station, n⟩ = none
      ∧ ∀ j, j < k → s.findAlarm ⟨s.cfg.station, (s.aru.nextNumber + j) % 256⟩ ≠ none)
    ∧ ∃ (u v w : State) (a : Alarm), a.id = ⟨s.cfg.station, n⟩ ∧ a.kind = kind ∧ a.scope = scope ∧ a.state = .raised
      ∧ MakesRoom s u kind.severity .raised ∧ AddsAlarm u v a
      ∧ w = v.setAru { v.aru with nextNumber := (n + 1) % 256 } ∧ Announces w t a

/-- From s to t the alarm unit holds a delivery (R164): taken over where the alarm has one on the port, else new, the
record opened earliest ended for room (R165). -/
def HoldsDelivery (p : Port) (d : Delivery) (s t : State) : Prop :=
  ((∃ x ∈ s.deliveriesOn p, x.id = d.id) → OnlyTouches [.deliveries p] s t
      ∧ t.deliveriesOn p = (s.deliveriesOn p).map (fun x => if x.id = d.id then d else x))
    ∧ ((∀ x ∈ s.deliveriesOn p, x.id ≠ d.id) →
      ((s.deliveriesOn p).length < 16 → OnlyTouches [.deliveries p] s t ∧ t.deliveriesOn p = s.deliveriesOn p ++ [d])
      ∧ (∀ first later, s.deliveriesOn p = first :: later → 16 ≤ (s.deliveriesOn p).length →
        OnlyTouches [.deliveries p, .indications] s t
        ∧ t.deliveriesOn p = later.filter (fun x => decide (x.id ≠ first.id)) ++ [d]
        ∧ ((∀ n ∈ s.expectedSlots p, n ∈ first.hearMap) → t.spu = s.spu)
        ∧ ((∃ n ∈ s.expectedSlots p, n ∉ first.hearMap) → t.spu = (takeIn (.deliveryIncomplete first.id p
            ((s.expectedSlots p).filter (fun n => !first.hearMap.contains n)).length) s).spu)))

/-- A channel event asks for an alarm (R93): the channel has entered TRIP, its auto-alarm is enabled, and it names none. -/
def AsksRaise (s : State) (c : Fin 7) (after : Channel) (kind : AlarmKind) (scope : Scope) : Prop :=
  (s.channel c).level ≠ .trip ∧ after.level = .trip ∧ (s.channelCfg c).autoAlarm = true ∧ after.raised = none
    ∧ (((s.channelCfg c).kind = some .methane ∧ kind = .gas ∧ scope = .zone s.cfg.zone)
      ∨ ((s.channelCfg c).kind = some .carbonMonoxide ∧ kind = .fire ∧ scope = .all)
      ∨ ((s.channelCfg c).kind = some .airVelocity ∧ kind = .vent ∧ scope = .zone s.cfg.zone))

/-- A channel event asks for a clear (R94): the published state has become NORMAL, and the alarm named is
ACKNOWLEDGED. -/
def AsksOwnClear (s : State) (c : Fin 7) (after : Channel) (n : Nat) : Prop :=
  (s.channel c).published ≠ after.published ∧ after.published = .normal ∧ after.raised = some n
    ∧ ∃ a, s.findAlarm ⟨s.cfg.station, n⟩ = some a ∧ a.state = .acknowledged

/-- The oldest n routine records leave the indication queue (R184, step 1). -/
def Discards : Nat → List Queued → List Queued → Prop
  | 0, q, kept => kept = q
  | n + 1, q, kept =>
    ∃ before x after, q = before ++ x :: after ∧ (∀ y ∈ before, y.record.urgent = true) ∧ x.record.urgent = false
      ∧ Discards n (before ++ after) kept

/-- The clear of R94 is asked for when an alarm is handed on in this state: it is ACKNOWLEDGED, of this station's own
origin, and a channel whose raised-alarm field names it has its published state at NORMAL. -/
def AsksClear (s : State) (id : AlarmId) (x : AlarmState) : Prop :=
  x = .acknowledged ∧ id.origin = s.cfg.station
    ∧ ∃ c, (s.channel c).raised = some id.number ∧ (s.channel c).published = .normal

/-- What an accepted edge of an input does (R172 and the rules of the cell's unit), by the direction of the edge. -/
def EdgeTaken : Input → Level → State → State → Prop
  -- R62
  | .pulse, .active, s, t =>
    (s.started = true → (s.channel 6).level ≠ .unset → t = s.setAcu { s.acu with gateCount := s.acu.gateCount + 1 })
      ∧ (s.started = false ∨ (s.channel 6).level = .unset → t = s)
  | .pulse, .inactive, s, t => t = s
  -- R157
  | .pullCord, .active, s, t =>
    (s.started = false ∨ s.aru.pullRef ≠ none → t = s)
      ∧ (s.started = true → s.aru.pullRef = none →
        (HasRoom s .pullcord →
          ∃ n v, RaisesAlarm s v .pullcord (.zone s.cfg.zone) n ∧ t = v.setAru { v.aru with pullRef := some n })
        ∧ (¬ HasRoom s .pullcord → t = s))
  | .pullCord, .inactive, s, t => t = s
  -- R169
  | .refugeDoor, x, s, t =>
    (s.started = false ∨ s.cfg.refuge = false → t = s)
      ∧ (s.started = true → s.cfg.refuge = true →
        ∃ u : State, u = s.setAru { s.aru with doorOpen := decide (x = .active) }
        ∧ (x = .inactive ∨ s.aru.musterActive = true ∨ s.aru.doorRef ≠ none → t = u)
        ∧ (x = .active → s.aru.musterActive = false → s.aru.doorRef = none →
          (HasRoom s .refugeDoor → ∃ n v, RaisesAlarm u v .refugeDoor (.zone s.cfg.zone) n
            ∧ t = v.setAru { v.aru with doorRef := some n })
          ∧ (¬ HasRoom s .refugeDoor → t = u)))
  -- R113, R116
  | .hook, .active, s, t =>
    ∃ u : State, OnlyTouches [.hook] s u ∧ u.clu.hookOff = true ∧ u.clu.hookStale = false
      ∧ (s.clu.ctx.state = .incoming → Connects (u.sendMessage .answer none) t)
      ∧ (s.clu.ctx.state ≠ .incoming → t = u)
  -- R113, R118
  | .hook, .inactive, s, t =>
    ∃ u : State, OnlyTouches [.hook] s u ∧ u.clu.hookOff = false ∧ u.clu.hookStale = false
      ∧ (s.clu.ctx.state = .idle ∨ s.clu.ctx.state = .hearingPage → t = u)
      ∧ (s.clu.ctx.state ≠ .idle → s.clu.ctx.state ≠ .hearingPage → ReleasesCall u t .normal)
  -- R113, R130
  | .callButton, .active, s, t =>
    (s.running = true → s.clu.ctx.state = .idle → s.clu.hookOff = true → s.clu.hookStale = false →
      (s.cfg.hotline ≠ 0 → s.cfg.hotline ≠ s.cfg.station → (s.cfg.hotline = 4095 → s.cfg.operator = true) →
        s.pru.heard.length < admissionLimit s.cfg.rate →
        (s.cfg.hotline ≠ 4095 → PlacesCall s t s.cfg.hotline) ∧ (s.cfg.hotline = 4095 → PlacesPage s t))
      ∧ (s.cfg.hotline = 0 ∨ s.cfg.hotline = s.cfg.station ∨ (s.cfg.hotline = 4095 ∧ s.cfg.operator = false)
          ∨ admissionLimit s.cfg.rate ≤ s.pru.heard.length →
        OnlyTouches [.tones] s t ∧ t.clu.tones = { s.clu.tones with deny := some 0 }))
      ∧ (s.running = false ∨ s.clu.ctx.state ≠ .idle ∨ s.clu.hookOff = false ∨ s.clu.hookStale = true → t = s)
  | .callButton, .inactive, s, t => t = s
  -- R120, R123
  | .pushToTalk, .active, s, t =>
    (s.clu.ctx.state = .connected →
      (s.clu.ctx.floor = some .none →
        OnlyTouches [.context, .capture] (s.sendMessage .floorTake none) t ∧ RunStarted s t
          ∧ t.clu.ctx = { s.clu.ctx with
              holdingDue := some (s.ms + 3000), floor := some .localSide, talkDue := some (s.ms + 60000) })
      ∧ (s.clu.ctx.floor = some .localSide → t = s)
      ∧ (s.clu.ctx.floor = some .remote →
        OnlyTouches [.tones, .indications] s t ∧ t.spu = (takeIn (.floorDenied s.callId) s).spu
          ∧ t.clu.tones = { s.clu.tones with deny := some 0 }))
      ∧ (s.clu.ctx.state = .paging →
        (s.clu.ctx.talkSpan = false → OnlyTouches [.context, .capture] s t ∧ RunStarted s t
          ∧ t.clu.ctx = { s.clu.ctx with setupDue := none, talkSpan := true, talkDue := some (s.ms + 60000) })
        ∧ (s.clu.ctx.talkSpan = true → t = s))
      ∧ (s.clu.ctx.state ≠ .connected → s.clu.ctx.state ≠ .paging → t = s)
  | .pushToTalk, .inactive, s, t =>
    (s.clu.ctx.state = .connected → s.clu.ctx.floor = some .localSide → GivesFloor s t)
      ∧ (s.clu.ctx.state = .paging → s.clu.ctx.talkSpan = true → EndsPage s t)
      ∧ ((s.clu.ctx.state = .connected ∧ s.clu.ctx.floor ≠ some .localSide)
          ∨ (s.clu.ctx.state = .paging ∧ s.clu.ctx.talkSpan = false)
          ∨ (s.clu.ctx.state ≠ .connected ∧ s.clu.ctx.state ≠ .paging) → t = s)

/-- An entry that stands, covers the own zone and is not silenced here (R167). -/
def Sounds (s : State) (a : Alarm) : Prop :=
  a ∈ s.aru.alarms ∧ a.state ≠ .cleared ∧ (a.scope = .zone s.cfg.zone ∨ a.scope = .all) ∧ a.silenced = false

/-- The evacuation condition of muster (R168): a standing entry of evacuation class that covers the own zone. -/
def Evacuates (s : State) : Prop :=
  ∃ a ∈ s.aru.alarms, (a.kind = .fire ∨ a.kind = .evacuate ∨ a.kind = .gas) ∧ a.state ≠ .cleared
    ∧ (a.scope = .zone s.cfg.zone ∨ a.scope = .all)

/-- A near table entry that counts for muster (R168). -/
def Musters (s : State) (n : NearEntry) : Prop :=
  n.kind = .person ∧ n.near = true ∧ s.cfg.musterThreshold ≤ n.strength

/-- A relayed copy names its alarm by a record (R166): the first record of the first ALARM section in range among its
first eight sections. -/
def NamesAlarm (f : List Byte) (r : AlarmRecord) : Prop :=
  ∃ chain before bytes after rest, chainOf f = some chain ∧ chain.take 8 = before ++ (4, bytes) :: after
    ∧ readSection 4 bytes = some (.alarm (r :: rest)) ∧ ∀ y ∈ before, y.1 = 4 → readSection 4 y.2 = none

/-- A relayed copy has no alarm record in range (R166). -/
def NamesNoAlarm (f : List Byte) : Prop :=
  ∀ chain, chainOf f = some chain → ∀ y ∈ chain.take 8, y.1 = 4 → readSection 4 y.2 = none

/-- The conditions under which a NEW frame is relayed (R48). -/
def Relayed (s : State) (a : Arrival) : Prop :=
  s.configured .A = true ∧ s.configured .B = true ∧ s.running = true ∧ a.hops < s.cfg.relay ∧ a.dest ≠ s.cfg.station
    ∧ ∀ x ∈ s.pru.peers, x.station = a.dest → x.port ≠ a.port

/-- A peer that is upwind and tripped on methane (R87). -/
def Upwind (s : State) (x : Peer) : Prop :=
  x.present = true
    ∧ (∃ t, x.status = some t ∧ t.roadway = s.cfg.roadway ∧ t.zone = s.cfg.zone
        ∧ (s.cfg.airflowNeg = false → t.chainage < s.cfg.chainage)
        ∧ (s.cfg.airflowNeg = true → s.cfg.chainage < t.chainage))
    ∧ ∃ es, x.air = some es ∧ ∃ e ∈ es, e.kind = .methane ∧ e.state = .trip

/-- The distance to a peer at a chainage (R88). -/
def metresTo (s : State) (x : Peer) : Nat :=
  (((s.cfg.chainage : Int) - ((x.status.map StatusPart.chainage).getD 0 : Nat))).natAbs

end Sys2Proof.Machine
end

