-- ==== Sys2Proof/Certificates/Slice0/Obligations.lean ====
section
/-! DEFINITION. The statements for the provers: what the numbered rules say each command and the machine do. -/

section

open Sys2Proof Sys2Proof.Machine

/-! ### The machine -/

/-- A step takes the command at the front of the queue and executes it on the queue's rest. -/
def Obligations.StepRunsTheFrontCommand : Prop :=
  ∀ (c : Instr) (rest : List Instr) (s : State), s.pending = c :: rest → step s = exec c (s.setPending rest)

/-- The model's choice (log 1): on an empty queue one microsecond passes, the part's own events that have fallen due
are put in the queue, and nothing else changes. -/
def Obligations.EmptyQueueRunsTheClock : Prop :=
  ∀ s : State, s.pending = [] →
    ∃ t, step s = .next t ∧ t.clock.usec = s.clock.usec + 1 ∧ t.clock.secondDue = s.clock.secondDue
      ∧ t.clock.snapshotDue = s.clock.snapshotDue ∧ t.pending = t.dueCommands ∧ OnlyTouches [.pending, .clock] s t

/-- Every command completes in every state, and leaves the queue of waiting commands alone. That HARD_RESET and RESTART
leave it too is the model's choice (log 26, DESIGN CHOICE): no rule speaks of a queue of commands. -/
def Obligations.CommandsCompleteAndKeepTheQueue : Prop :=
  ∀ (c : Instr) (s : State), ∃ t, exec c s = .next t ∧ t.pending = s.pending

/-- What a hard reset leaves of the values the rules name. The levels of the pins and of the wire are no part of it
(log 5). -/
def Obligations.ResetState : Prop :=
  State.reset.spu.part = .loading ∧ State.reset.spu.joinDue = none ∧ State.reset.spu.config = none
    ∧ State.reset.spu.held = none ∧ State.reset.spu.assembly = none ∧ State.reset.spu.requests = []
    ∧ State.reset.spu.answer = [] ∧ State.reset.spu.owed = false ∧ State.reset.spu.ind = [] ∧ State.reset.spu.lost = 0
    ∧ State.reset.spu.coal = .stopped ∧ State.reset.attention = false
    ∧ State.reset.fre.seq = 0 ∧ State.reset.fre.lastPort = .B
    ∧ (∀ p, (State.reset.port p).access = .idle ∧ (State.reset.port p).list = [] ∧ (State.reset.port p).service = none
        ∧ (∀ k, (State.reset.port p).repeatOf k = false)
        ∧ (State.reset.port p).received = [] ∧ (State.reset.port p).hearMap = []
        ∧ (State.reset.port p).holdEnd = none ∧ (State.reset.port p).pulses = [] ∧ (State.reset.port p).pulseEnd = none
        ∧ ((State.reset.port p).counters.all ++ (State.reset.fre.parse.get p).all)
            = List.replicate 13 { live := 0, mark := false, snap := 0, overflow := false })
    ∧ State.reset.pru.peers = [] ∧ State.reset.pru.recent = [] ∧ State.reset.pru.heard = []
    ∧ State.reset.pru.beaconDue = none ∧ State.reset.pru.text = none
    ∧ (∀ c, (State.reset.channel c).level = .unset ∧ (State.reset.channel c).faults = 0
        ∧ (State.reset.channel c).belowZero = false ∧ (State.reset.channel c).acc = 0
        ∧ (State.reset.channel c).value = 0 ∧ (State.reset.channel c).up = 0 ∧ (State.reset.channel c).runMin = none
        ∧ (State.reset.channel c).clear = 0 ∧ (State.reset.channel c).rising = false
        ∧ (State.reset.channel c).raised = none ∧ (State.reset.channel c).writeIx = 0
        ∧ (State.reset.channel c).fill = 0 ∧ (∀ i : Fin 16, (State.reset.channel c).ring[i].valid = false)
        ∧ (State.reset.channel c).sampleDue = none ∧ (State.reset.channel c).trendDue = none)
    ∧ State.reset.acu.gateCount = 0 ∧ State.reset.acu.gateDue = none
    ∧ (∀ i : Fin 5, State.reset.zae.records[i].state = none ∧ State.reset.zae.records[i].worst = none)
    ∧ State.reset.zae.advance = none ∧ State.reset.zae.lockout = false
    ∧ State.reset.bpk.flight = none ∧ State.reset.bpk.history = []
    ∧ State.reset.clu.ctx.state = .idle ∧ State.reset.clu.ctx.call = none ∧ State.reset.clu.ctx.peer = none
    ∧ State.reset.clu.ctx.floor = none ∧ State.reset.clu.ctx.sendSeq = none ∧ State.reset.clu.ctx.expectSeq = none
    ∧ State.reset.clu.ctx.setupDue = none ∧ State.reset.clu.ctx.ringDue = none
    ∧ State.reset.clu.ctx.silenceDue = none ∧ State.reset.clu.ctx.holdingDue = none
    ∧ State.reset.clu.ctx.talkDue = none ∧ State.reset.clu.ctx.gapDue = none
    ∧ State.reset.clu.nextCall = 0 ∧ State.reset.clu.hookOff = false
    ∧ State.reset.clu.hookStale = false
    ∧ State.reset.clu.capture.run = none ∧ State.reset.clu.capture.filling = none
    ∧ State.reset.clu.capture.waiting = [] ∧ State.reset.clu.capture.packed = []
    ∧ State.reset.clu.playback.blocks = [] ∧ State.reset.clu.playback.playing = false
    ∧ State.reset.clu.playback.lastBlock = none
    ∧ State.reset.clu.tones.alarm = none ∧ State.reset.clu.tones.ring = none ∧ State.reset.clu.tones.deny = none
    ∧ State.reset.tgu.assembler = .hunt ∧ State.reset.tgu.near = [] ∧ State.reset.tgu.tracks = []
    ∧ State.reset.tgu.counters.all = List.replicate 6 { live := 0, mark := false, snap := 0, overflow := false }
    ∧ State.reset.tgu.evacDue = none ∧ State.reset.tgu.advisories = [] ∧ State.reset.tgu.sending = none
    ∧ State.reset.aru.alarms = [] ∧ State.reset.aru.deliveries = ⟨[], []⟩ ∧ State.reset.aru.nextNumber = 0
    ∧ State.reset.aru.pullRef = none ∧ State.reset.aru.doorRef = none ∧ State.reset.aru.musterActive = false
    ∧ State.reset.aru.muster = [] ∧ State.reset.aru.overflow = 0
    ∧ (∀ i, (State.reset.cell i).setting = none ∧ (State.reset.cell i).due = none) ∧ State.reset.iou.cadence = none
    ∧ State.reset.iou.lampOut = none ∧ State.reset.iou.lampIn = none ∧ State.reset.iou.sounder = .off

/-- The invariants of Safety.lean hold at reset. -/
def Obligations.ResetHoldsTheInvariants : Prop :=
  Capacity State.reset ∧ MusterOk State.reset ∧ TablesOk State.reset ∧ ListsOrdered State.reset
    ∧ InCallOk State.reset ∧ NumbersOk State.reset

/-- R4, R14, R39, R45, R55, R103, R125, R127, R135, R141, R147, R152, R164, R182 to R184: no step takes a list, queue or
table past its capacity, the sixteen places of the capture ring and its packed list among them. -/
def Obligations.StepKeepsCapacity : Prop :=
  ∀ s t : State, Capacity s → step s = .next t → Capacity t

/-- R168: no step puts a tag twice in the muster list, or a sixty-fifth, or leaves a tag in it while muster is
inactive. -/
def Obligations.StepKeepsMuster : Prop :=
  ∀ s t : State, MusterOk s → step s = .next t → MusterOk t

/-- R39, R135, R141, R152: every step from a state within capacity keeps the four tables in their order, with at most
one entry for each key. -/
def Obligations.StepKeepsTables : Prop :=
  ∀ s t : State, Capacity s → TablesOk s → step s = .next t → TablesOk t

/-- R14, R15: every step keeps both transmit lists in order of class, and within a class in queue order. -/
def Obligations.StepKeepsTransmitOrder : Prop :=
  ∀ s t : State, ListsOrdered s → step s = .next t → ListsOrdered t

/-- R28, R39, R55, R112, R156: every step keeps each peer's in-call flag set exactly while a call heard names the peer,
and keeps the sequence counter and the next call and alarm numbers within their widths. That an entry is created with the
flag as the calls heard have it, where R40 writes "clear", is log 8 (DEDUCED from R39 and R55). -/
def Obligations.StepKeepsFlagsAndNumbers : Prop :=
  (∀ s t : State, InCallOk s → step s = .next t → InCallOk t)
    ∧ (∀ s t : State, NumbersOk s → step s = .next t → NumbersOk t)

/-! ### Frames: what a command leaves as it was -/

/-- The start commands, the commands of the station port, those of the roadway line with COUNTER_SNAPSHOT, and those of
the frame engine and the peer and relay unit change no part of the state outside their footprints. -/
def Obligations.StationAndLineFrame : Prop :=
  FamilyFrame .start ∧ FamilyFrame .request ∧ FamilyFrame .line ∧ FamilyFrame .frames

/-- The commands of the air channel unit, the zone air evaluator and the block packer, of the call unit, of the
input/output unit, of the tag unit, and of the alarm and refuge unit change no part of the state outside their
footprints. -/
def Obligations.UnitFrame : Prop :=
  FamilyFrame .air ∧ FamilyFrame .call ∧ FamilyFrame .input ∧ FamilyFrame .tag ∧ FamilyFrame .alarm

/-! ### Part states and starting -/

/-- R177: HARD_RESET gives every unit the values of a hard reset. The pins, the wire's carrier and the count of
free draws stand outside it (logs 4, 5), and that the queue of commands does is the model's choice (log 26, DESIGN
CHOICE). -/
def Obligations.HardResetResult : Prop :=
  ∀ s : State, ∃ t, exec .hardReset s = .next t ∧ t.clock = State.reset.clock ∧ t.spu = State.reset.spu
    ∧ t.fre = State.reset.fre ∧ t.pru = State.reset.pru ∧ t.acu = State.reset.acu ∧ t.zae = State.reset.zae
    ∧ t.bpk = State.reset.bpk ∧ t.clu = State.reset.clu ∧ t.tgu = State.reset.tgu ∧ t.aru = State.reset.aru
    ∧ (∀ p, t.port p = { State.reset.port p with carrier := (s.port p).carrier })
    ∧ t.iou = { State.reset.iou with raw := s.iou.raw } ∧ t.pending = s.pending ∧ t.draws = s.draws

/-- R177: in LOADING, a read completion with an image that passes R180 makes it the configuration and the part enters
JOINING; with no answer, or an image that fails, the part goes to phase WAITING and nothing else changes. -/
def Obligations.ConfigReadResult : Prop :=
  ∀ s : State, s.spu.part = .loading →
    (∀ bytes, imageFault bytes = none →
      ∃ t, exec (.configReadCompletion (some bytes)) s = .next t
        ∧ JoiningEntered s.ms s.iou.raw t (configurationOf bytes))
    ∧ (∀ bytes, imageFault bytes ≠ none →
      ∃ t, exec (.configReadCompletion (some bytes)) s = .next t ∧ t.spu = { s.spu with part := .waiting }
        ∧ OnlyTouches [.partState] s t)
    ∧ (∃ t, exec (.configReadCompletion none) s = .next t ∧ t.spu = { s.spu with part := .waiting }
        ∧ OnlyTouches [.partState] s t)

/-- R50, R176, R177: at the expiry of the joining timer the part enters RUNNING; the beacon timer starts for the
beacon interval and a draw of 0 to 255 ms; a BEACON is in the list of each configured port that had room; a station
with no lane section sets both lamps DARK, with the cadence STEADY (log 36, DESIGN CHOICE). -/
def Obligations.RunningBegins : Prop :=
  ∀ (s : State) (d : Nat), s.spu.part = .joining → s.spu.joinDue = some d → d ≤ s.ms →
    ∃ t, exec .joiningTimerExpiry s = .next t ∧ t.spu.part = .running ∧ t.spu.joinDue = none
      ∧ t.spu.config = s.spu.config
      ∧ (∃ r, r < 256 ∧ t.pru.beaconDue = some (s.ms + s.cfg.beacon * 1000 + r))
      ∧ (∀ p, s.configured p = true → (s.port p).list.length < 12 →
          ∃ e ∈ (t.port p).list, e.live = some .beacon)
      ∧ (s.cfg.lane = none → t.iou.lampOut = some { aspect := .dark, cadence := .steady }
          ∧ t.iou.lampIn = some { aspect := .dark, cadence := .steady })

/-- R181: START in WAITING with a held image starts the part with it, and the RESPONSE OK is in the queue; in LOADING
it is answered BUSY; in WAITING with no held image, and in JOINING or RUNNING, BAD_STATE. -/
def Obligations.StartResult : Prop :=
  ∀ (s : State) (tag : Nat) (more : List (List Byte)), Serving s .start tag more →
    (∀ g, s.spu.part = .waiting → s.spu.held = some g →
      ∃ t, exec .start s = .next t ∧ JoiningEntered s.ms s.iou.raw t g ∧ t.spu.requests = more
        ∧ ∃ q ∈ t.spu.ind, q.record = .response tag 2 .ok 0 0)
    ∧ (s.spu.part = .loading →
      ∃ t, exec .start s = .next t ∧ t.spu.requests = more ∧ Answered t tag 2 .busy 0 0
        ∧ OnlyTouches [.requests, .indications] s t)
    ∧ ((s.spu.part = .waiting ∧ s.spu.held = none) ∨ s.spu.part = .joining ∨ s.spu.part = .running →
      ∃ t, exec .start s = .next t ∧ t.spu.requests = more ∧ Answered t tag 2 .badState 0 0
        ∧ OnlyTouches [.requests, .indications] s t)

/-- R179: a RESTART taken in JOINING or RUNNING keeps the configuration, the sequence counter, the next call number and
the next alarm number, empties the request queue, the answer buffer and the tables, and enters JOINING at tick 0; its
RESPONSE OK is the first record the host reads. Each port starts in IDLE, its carrier as the wire has it (log 5) and not
gathered (R22, R23). In UNCONFIGURED it is refused BAD_STATE. -/
def Obligations.RestartResult : Prop :=
  ∀ (s : State) (tag : Nat) (more : List (List Byte)), Serving s .restart tag more →
    (∀ g, s.started = true → s.spu.config = some g →
      ∃ t, exec .restart s = .next t ∧ JoiningEntered 0 s.iou.raw t g ∧ t.clock = State.reset.clock
        ∧ t.fre.seq = s.fre.seq ∧ t.clu.nextCall = s.clu.nextCall ∧ t.aru.nextNumber = s.aru.nextNumber
        ∧ t.spu.requests = [] ∧ t.spu.answer = []
        ∧ t.spu.ind.head? = some { record := .response tag 3 .ok 0 0, lost := 0 }
        ∧ (∀ p, t.port p = { State.reset.port p with carrier := (s.port p).carrier })
        ∧ t.pru.peers = [] ∧ t.pru.recent = [] ∧ t.pru.heard = [] ∧ t.bpk = State.reset.bpk
        ∧ t.clu.ctx = State.reset.clu.ctx ∧ t.tgu.near = [] ∧ t.tgu.tracks = [] ∧ t.aru.alarms = []
        ∧ t.aru.deliveries = ⟨[], []⟩)
    ∧ (s.started = false →
      ∃ t, exec .restart s = .next t ∧ t.spu.requests = more ∧ Answered t tag 3 .badState 0 0
        ∧ OnlyTouches [.requests, .indications] s t)

/-! ### The station port -/

/-- R182, R183, R185: a transfer. A request found with eight waiting is answered 255 and taken no further; otherwise a
request whose last byte has arrived joins the queue; the part returns the next record it has to send, and that record
leaves the part when its last byte has been sent. A RESPONSE to a table read with a DATA count above 0 then makes its DATA
records owed, which go before any other record until the last of them is taken, and a queue left without a routine record
stops the coalescing timer. Exchanges beyond the longer record carry zeros, and the host's bytes in them are ignored (log
37, DESIGN CHOICE). -/
def Obligations.HostTransferResult : Prop :=
  ∀ (s : State) (b : Byte) (rest : List Byte),
    (2 ≤ b.toNat → b.toNat ≤ 250 → 8 ≤ s.spu.requests.length →
      ∃ t, exec (.hostTransfer (b :: rest)) s = .next t
        ∧ t.spu.portOut = 255#8 :: List.replicate rest.length 0 ∧ OnlyTouches [.portOut] s t)
    ∧ (s.spu.requests.length < 8 ∨ b.toNat < 2 ∨ 250 < b.toNat →
      ∃ t, exec (.hostTransfer (b :: rest)) s = .next t
        ∧ t.spu.requests = (if 2 ≤ b.toNat ∧ b.toNat ≤ 250 ∧ b.toNat ≤ rest.length
            then s.spu.requests ++ [rest.take b.toNat] else s.spu.requests)
        ∧ (s.spu.owed = false → s.spu.ind = [] →
            t.spu.portOut = List.replicate (rest.length + 1) 0 ∧ t.spu.ind = [] ∧ t.spu.owed = false
              ∧ t.spu.coal = s.spu.coal)
        ∧ (∀ q more, s.spu.owed = false → s.spu.ind = q :: more →
            t.spu.portOut = (recordBytes q.record q.lost).take (rest.length + 1)
              ++ List.replicate (rest.length + 1 - (recordBytes q.record q.lost).length) 0
            ∧ t.spu.ind = (if (recordBytes q.record q.lost).length ≤ rest.length + 1 then more else q :: more)
            ∧ ((recordBytes q.record q.lost).length ≤ rest.length + 1 →
              (t.spu.owed = true ↔ ∃ tag kind code detail count, q.record = .response tag kind code detail count
                ∧ 12 ≤ kind ∧ kind ≤ 16 ∧ count ≠ 0)
              ∧ ((∃ x ∈ more, x.record.urgent = false) → t.spu.coal = s.spu.coal)
              ∧ ((∀ x ∈ more, x.record.urgent = true) → t.spu.coal = .stopped))
            ∧ (rest.length + 1 < (recordBytes q.record q.lost).length →
              t.spu.owed = false ∧ t.spu.coal = s.spu.coal))
        ∧ (∀ r more, s.spu.owed = true → s.spu.answer = r :: more →
            t.spu.portOut = (recordBytes r 0).take (rest.length + 1)
              ++ List.replicate (rest.length + 1 - (recordBytes r 0).length) 0
            ∧ t.spu.answer = (if (recordBytes r 0).length ≤ rest.length + 1 then more else r :: more)
            ∧ (t.spu.owed = true ↔ t.spu.answer ≠ [])
            ∧ t.spu.ind = s.spu.ind ∧ t.spu.coal = s.spu.coal))

/-- R37: a head request that fails the record check, of any kind, is answered BAD_ARGUMENT with detail 0 and its own tag
and kind, and goes no further. One of a kind answered from a table waits for an empty answer buffer (log 38, DESIGN
CHOICE). -/
def Obligations.MalformedRequestAnswered : Prop :=
  ∀ (s : State) (r : List Byte) (more : List (List Byte)), s.spu.requests = r :: more → s.urgentHeld < 32 →
    (answeredFromTable (requestKind r) = true → s.spu.answer = []) → readRequest r = none →
      ∃ t, exec (serviceOf (requestKind r)) s = .next t ∧ t.spu.requests = more
        ∧ Answered t (requestTag r) (requestKind r) .badArgument 0 0 ∧ OnlyTouches [.requests, .indications] s t

/-- R184, R185: a record taken into the queue, and a RESPONSE with its DATA record as one. With room it joins the end with
the lost count, which returns to 0; in a full queue the oldest routine records give way; when there is none, the newcomer is
discarded whole and counted. The coalescing timer is stopped when the discards leave no routine record, which acts before
the newcomer does (log 15, DEDUCED); then a routine newcomer starts it, or reloads it up to 255 ms after the anchor. -/
def Obligations.RecordIntake : Prop :=
  (∀ (s : State) (r : HostRecord), s.spu.lost ≤ 255 →
    (s.spu.ind.length < 32 →
      (takeIn r s).spu.ind = s.spu.ind ++ [{ record := r, lost := s.spu.lost }] ∧ (takeIn r s).spu.lost = 0)
    ∧ (∀ before q after, s.spu.ind = before ++ q :: after → s.spu.ind.length = 32 →
        (∀ x ∈ before, x.record.urgent = true) → q.record.urgent = false →
        (takeIn r s).spu.ind = before ++ after ++ [{ record := r, lost := min 255 (s.spu.lost + 1) }]
          ∧ (takeIn r s).spu.lost = 0)
    ∧ (s.spu.ind.length = 32 → (∀ x ∈ s.spu.ind, x.record.urgent = true) →
        (takeIn r s).spu.ind = s.spu.ind ∧ (takeIn r s).spu.lost = min 255 (s.spu.lost + 1))
    ∧ (∀ q ∈ s.spu.ind, q.record.urgent = true → q ∈ (takeIn r s).spu.ind))
  ∧ (∀ (s : State) (r : HostRecord), takeIn r s = takeInAll [r] s)
  ∧ (∀ (s : State) (r : HostRecord) (more : List HostRecord),
      ∃ (n : Nat) (kept : List Queued) (c : Coalescing), Discards n s.spu.ind kept
        ∧ (0 < n → 32 < kept.length + 1 + (more.length + 1))
        ∧ (32 < kept.length + (more.length + 1) → ∀ x ∈ kept, x.record.urgent = true)
        ∧ ((∃ x ∈ kept, x.record.urgent = false) → c = s.spu.coal)
        ∧ ((∀ x ∈ kept, x.record.urgent = true) → c = .stopped)
        ∧ (32 < kept.length + (more.length + 1) → takeInAll (r :: more) s = s.setSpu { s.spu with
            ind := kept, lost := min 255 (s.spu.lost + n + (more.length + 1)), coal := c })
        ∧ (kept.length + (more.length + 1) ≤ 32 →
          ∃ d, takeInAll (r :: more) s = s.setSpu { s.spu with
              ind := kept ++ { record := r, lost := min 255 (s.spu.lost + n) }
                :: more.map (fun x => { record := x, lost := 0 }),
              lost := 0, coal := d }
            ∧ (r.urgent = true → d = c)
            ∧ (r.urgent = false →
              (c = .stopped → d = if s.cfg.coalesce = 0 then .expired else .running (s.ms + s.cfg.coalesce) s.ms)
              ∧ (∀ deadline anchor latest, c = .running deadline anchor →
                  latest = min (s.ms + s.cfg.coalesce) (anchor + 255) →
                  d = if latest ≤ s.ms then .expired else .running latest anchor)
              ∧ (c = .expired → d = .expired))))

/-- R185: the coalescing timer's expiry, and the attention line, which is asserted for owed DATA records, an urgent
record, or an expired timer with a record held. -/
def Obligations.CoalescingExpiryResult : Prop :=
  (∀ (s : State) (deadline anchor : Nat), s.spu.coal = .running deadline anchor → deadline ≤ s.ms →
    ∃ t, exec .coalescingTimerExpiry s = .next t ∧ t.spu = { s.spu with coal := .expired }
      ∧ (s.spu.ind ≠ [] → t.attention = true))
  ∧ (∀ s : State, s.attention = true ↔
      s.spu.owed = true ∨ (s.spu.ind ≠ [] ∧ ((∃ q ∈ s.spu.ind, q.record.urgent = true) ∨ s.spu.coal = .expired)))

/-- R181: CONFIGURE. LOADING answers BUSY, JOINING and RUNNING BAD_STATE. In WAITING a part with index 0 begins an
assembly and discards what was assembled or held; a part with the next index extends it; any other is refused and the
assembly discarded; a part with the last-part flag ends the assembly, and the assembled image is held or refused with
the index of its first bad field. -/
def Obligations.ConfigureResult : Prop :=
  ∀ (s : State) (tag index : Nat) (last : Bool) (image : List Byte) (more : List (List Byte)),
    Serving s (.configure index last image) tag more →
    (s.spu.part = .loading →
      ∃ t, exec .configure s = .next t ∧ t.spu.requests = more ∧ Answered t tag 1 .busy 0 0
        ∧ OnlyTouches [.requests, .indications] s t)
    ∧ (s.started = true →
      ∃ t, exec .configure s = .next t ∧ t.spu.requests = more ∧ Answered t tag 1 .badState 0 0
        ∧ OnlyTouches [.requests, .indications] s t)
    ∧ (s.spu.part = .waiting → index ≠ 0 → (∀ x, s.spu.assembly = some x → x.next ≠ index) →
      ∃ t, exec .configure s = .next t ∧ t.spu.requests = more ∧ Answered t tag 1 .badArgument 0 0
        ∧ t.spu.assembly = none ∧ t.spu.held = s.spu.held)
    ∧ (∀ whole, s.spu.part = .waiting →
        (index = 0 ∧ whole = image ∨ index ≠ 0 ∧ ∃ x, s.spu.assembly = some x ∧ x.next = index ∧ whole = x.bytes ++ image) →
        (last = false →
          ∃ t, exec .configure s = .next t ∧ t.spu.requests = more ∧ Answered t tag 1 .ok 0 0
            ∧ t.spu.assembly = some { bytes := whole, next := index + 1 }
            ∧ t.spu.held = if index = 0 then none else s.spu.held)
        ∧ (last = true → imageFault whole = none →
          ∃ t, exec .configure s = .next t ∧ t.spu.requests = more ∧ Answered t tag 1 .ok 0 0
            ∧ t.spu.assembly = none ∧ t.spu.held = some (configurationOf whole))
        ∧ (∀ i, last = true → imageFault whole = some i →
          ∃ t, exec .configure s = .next t ∧ t.spu.requests = more ∧ Answered t tag 1 .badArgument i 0
            ∧ t.spu.assembly = none ∧ t.spu.held = none))

/-- R112, R123, R127: PLACE_CALL answers by the first case that applies. For OK the context takes the new call or page, the
next call number is incremented modulo 256, the playback ring is emptied, and for a call the first SETUP is requested
and the setup timer starts. -/
def Obligations.PlaceCallResult : Prop :=
  admissionLimit .k250 = 2 ∧ admissionLimit .k125 = 1 ∧ admissionLimit .k62 = 0
  ∧ ∀ (s : State) (tag callee : Nat) (more : List (List Byte)), Serving s (.placeCall callee) tag more →
    (∀ code, code ≠ ResponseCode.ok →
      (if s.spu.part ≠ .running then code = .badState
        else if callee = s.cfg.station then code = .badArgument
        else if callee = 4095 ∧ s.cfg.operator = false then code = .notPermitted
        else if s.clu.ctx.state ≠ .idle then code = .badState
        else admissionLimit s.cfg.rate ≤ s.pru.heard.length ∧ code = .lineFull) →
      ∃ t, exec .placeCall s = .next t ∧ t.spu.requests = more ∧ Answered t tag 4 code 0 0
        ∧ OnlyTouches [.requests, .indications] s t)
    ∧ (s.spu.part = .running → callee ≠ s.cfg.station → s.clu.ctx.state = .idle →
      s.pru.heard.length < admissionLimit s.cfg.rate →
      (callee ≠ 4095 →
        ∃ u v : State, exec .placeCall s = .next (v.respond tag 4 .ok) ∧ u.spu.requests = more
          ∧ u.clu.ctx = { State.reset.clu.ctx with
              state := .outgoing, call := some ⟨s.cfg.station, s.clu.nextCall⟩, peer := some callee }
          ∧ OnlyTouches [.requests, .context, .nextCall, .playback] s u
          ∧ u.clu.nextCall = (s.clu.nextCall + 1) % 256 ∧ u.clu.playback = State.reset.clu.playback
          ∧ v.clu.ctx = { u.clu.ctx with setups := 1, setupDue := some (s.ms + 1000) }
          ∧ OnlyTouches [.context] (u.sendMessage .setup none) v)
      ∧ (callee = 4095 → s.cfg.operator = true →
        ∃ t, exec .placeCall s = .next t ∧ t.spu.requests = more ∧ Answered t tag 4 .ok 0 0
          ∧ t.clu.ctx = { State.reset.clu.ctx with
              state := .paging, call := some ⟨s.cfg.station, s.clu.nextCall⟩, peer := some 4095, sendSeq := some 0,
              setupDue := some (s.ms + 10000) }
          ∧ t.clu.nextCall = (s.clu.nextCall + 1) % 256 ∧ t.clu.playback = State.reset.clu.playback
          ∧ OnlyTouches [.requests, .indications, .context, .nextCall, .playback] s t))

/-- R118: RELEASE_CALL in OUTGOING, RINGBACK, INCOMING, CONNECTED or PAGING ends any capture run, requests a RELEASE
NORMAL, empties the playback ring, returns the context to IDLE with every timer stopped, and is answered OK; in IDLE and
HEARING_PAGE it is answered BAD_STATE. -/
def Obligations.ReleaseCallResult : Prop :=
  ∀ (s : State) (tag : Nat) (more : List (List Byte)), Serving s .releaseCall tag more →
    (s.clu.ctx.state ≠ .idle → s.clu.ctx.state ≠ .hearingPage →
      ∃ u v : State, exec .releaseCall s = .next (v.respond tag 5 .ok)
        ∧ u.spu.requests = more ∧ u.clu.ctx = s.clu.ctx ∧ OnlyTouches [.requests, .capture] s u
        ∧ u.clu.capture.run = none ∧ u.clu.capture.filling = none ∧ u.clu.capture.waiting = []
        ∧ u.clu.capture.packed = []
        ∧ OnlyTouches [.playback, .tones, .context, .indications] (u.sendMessage .release (some .normal)) v
        ∧ v.clu.ctx = State.reset.clu.ctx ∧ v.clu.playback = State.reset.clu.playback ∧ v.clu.tones.ring = none)
    ∧ (s.clu.ctx.state = .idle ∨ s.clu.ctx.state = .hearingPage →
      ∃ t, exec .releaseCall s = .next t ∧ t.spu.requests = more ∧ Answered t tag 5 .badState 0 0
        ∧ OnlyTouches [.requests, .indications] s t)

/-- R156, R158: a RAISE_ALARM in JOINING or RUNNING that can be held, in a table with a place or a victim, adds an
entry of this station's own origin under the first number not held from the next alarm number on, in state RAISED, first
heard now, with its ALARM_CHANGE ADDED; its deliveries are opened on each configured port and the change is handed on
(R160, R164); the next alarm number becomes the number taken plus one, and the answer is OK. One that cannot be held
changes nothing and is answered BUSY. In UNCONFIGURED the answer is BAD_STATE. -/
def Obligations.RaiseAlarmResult : Prop :=
  ∀ (s : State) (tag : Nat) (kind : AlarmKind) (scope : Scope) (more : List (List Byte)),
    Serving s (.raiseAlarm kind scope) tag more →
    (s.started = true → HasRoom s kind →
      ∃ (r u : State) (n : Nat), exec .raiseAlarm s = .next (u.respond tag 6 .ok) ∧ u.spu.requests = more
        ∧ OnlyTouches [.requests] s r ∧ r.spu.requests = more ∧ RaisesAlarm r u kind scope n
        ∧ (s.aru.alarms.length ≤ 16 → s.findAlarm ⟨s.cfg.station, n⟩ = none)
        ∧ (∃ a ∈ u.aru.alarms, a.id = ⟨s.cfg.station, n⟩ ∧ a.kind = kind ∧ a.scope = scope ∧ a.state = .raised
            ∧ a.firstHeard = s.ms ∧ a.linger = none)
        ∧ u.aru.nextNumber = (n + 1) % 256)
    ∧ (s.started = true → ¬ HasRoom s kind →
      ∃ t, exec .raiseAlarm s = .next t ∧ t.spu.requests = more ∧ Answered t tag 6 .busy 0 0
        ∧ OnlyTouches [.requests, .indications] s t)
    ∧ (s.started = false →
      ∃ t, exec .raiseAlarm s = .next t ∧ t.spu.requests = more ∧ Answered t tag 6 .badState 0 0
        ∧ OnlyTouches [.requests, .indications] s t)

/-- R161: ACKNOWLEDGE_ALARM answers by the first case that applies. A RAISED alarm becomes ACKNOWLEDGED, its ALARM_CHANGE
ADVANCED is placed, a delivery of the new state is opened on each configured port, and the change is handed on (R160); when
it is of the own origin and a channel that names it already stands at NORMAL, the clear that R94 then asks for takes it on to
CLEARED, with its linger deadline, and no channel names it any more. -/
def Obligations.AcknowledgeResult : Prop :=
  ∀ (s : State) (tag : Nat) (id : AlarmId) (more : List (List Byte)), Serving s (.acknowledgeAlarm id) tag more →
    (∀ code,
      (if s.started = false then code = ResponseCode.badState
        else if s.cfg.operator = false then code = .notPermitted
        else match s.findAlarm id with
          | none => code = .noSuch
          | some a => (a.state = .cleared ∧ code = .badState) ∨ (a.state = .acknowledged ∧ code = .ok)) →
      ∃ t, exec .acknowledgeAlarm s = .next t ∧ t.spu.requests = more ∧ Answered t tag 7 code 0 0
        ∧ OnlyTouches [.requests, .indications] s t)
    ∧ (∀ a, s.started = true → s.cfg.operator = true → s.findAlarm id = some a → a.state = .raised →
      ∃ (u v w : State) (b held : Alarm), exec .acknowledgeAlarm s = .next (u.respond tag 7 .ok) ∧ u.spu.requests = more
        ∧ held = { a with state := .acknowledged }
        ∧ OnlyTouches [.requests, .alarms] s v
        ∧ v.aru.alarms = s.aru.alarms.map (fun x => if x.id = id then held else x)
        ∧ w = (((takeIn (.alarmChange id a.kind a.scope .acknowledged .advanced) v).onPorts (State.openOwn held)).handOn
            held false).1
        ∧ (¬ AsksClear s id .acknowledged → u = w) ∧ (AsksClear s id .acknowledged → u = w.clearAsOrigin id)
        ∧ u.findAlarm id = some b ∧ b.kind = a.kind ∧ b.scope = a.scope ∧ b.firstHeard = a.firstHeard
        ∧ b.silenced = a.silenced
        ∧ (id.origin ≠ s.cfg.station ∨ (∀ c, (s.channel c).raised = some id.number → (s.channel c).published ≠ .normal) →
            b.state = .acknowledged ∧ b.linger = a.linger ∧ u.acu = s.acu)
        ∧ (id.origin = s.cfg.station →
            (∃ c, (s.channel c).raised = some id.number ∧ (s.channel c).published = .normal) →
            b.state = .cleared ∧ b.linger = some (s.ms + 60000) ∧ ∀ c, (u.channel c).raised ≠ some id.number))

/-- R162: CLEAR_ALARM answers by the first case that applies. An ACKNOWLEDGED alarm becomes CLEARED, with its linger
deadline 60 s away; its ALARM_CHANGE ADVANCED is placed, a delivery of the new state is opened on each configured port, and
the change is handed on (R160, R164). The clear that R94 asks for does the same with no RESPONSE, and leaves any other alarm
as it is. -/
def Obligations.ClearResult : Prop :=
  (∀ (s : State) (tag : Nat) (id : AlarmId) (more : List (List Byte)), Serving s (.clearAlarm id) tag more →
    (∀ code,
      (if s.started = false then code = ResponseCode.badState
        else match s.findAlarm id with
          | none => code = .noSuch
          | some a =>
            if id.origin ≠ s.cfg.station ∧ s.cfg.operator = false then code = .notPermitted
            else (a.state = .raised ∧ code = .notAcknowledged) ∨ (a.state = .cleared ∧ code = .ok)) →
      ∃ t, exec .clearAlarm s = .next t ∧ t.spu.requests = more ∧ Answered t tag 8 code 0 0
        ∧ OnlyTouches [.requests, .indications] s t)
    ∧ (∀ a, s.started = true → id.origin = s.cfg.station ∨ s.cfg.operator = true → s.findAlarm id = some a →
      a.state = .acknowledged →
      ∃ (r v u : State) (b : Alarm), exec .clearAlarm s = .next (u.respond tag 8 .ok) ∧ u.spu.requests = more
        ∧ OnlyTouches [.requests] s r ∧ r.spu.requests = more
        ∧ b = { a with state := .cleared, linger := some (s.ms + 60000) } ∧ AdvancesAlarm r v b ∧ Announces v u b
        ∧ u.findAlarm id = some b ∧ b.kind = a.kind ∧ b.scope = a.scope))
  -- R94
  ∧ (∀ (s : State) (id : AlarmId),
      (∀ a, s.findAlarm id = some a → a.state = .acknowledged →
        ∃ (v : State) (b : Alarm), b = { a with state := .cleared, linger := some (s.ms + 60000) } ∧ AdvancesAlarm s v b
          ∧ Announces v (s.clearAsOrigin id) b)
      ∧ ((∀ a, s.findAlarm id = some a → a.state ≠ .acknowledged) → s.clearAsOrigin id = s))

/-- R163: SILENCE sets the local-silenced flag of every held entry and no alarm's state, and is answered OK, after which
no sounder pattern is decided; in UNCONFIGURED it is answered BAD_STATE. -/
def Obligations.SilenceResult : Prop :=
  ∀ (s : State) (tag : Nat) (more : List (List Byte)), Serving s .silence tag more →
    (s.started = true →
      ∃ t, exec .silence s = .next t ∧ t.spu.requests = more ∧ Answered t tag 9 .ok 0 0
        ∧ t.aru.alarms = s.aru.alarms.map (fun a => { a with silenced := true }) ∧ t.iou.sounder = .off
        ∧ OnlyTouches [.requests, .indications, .alarms, .sounder] s t)
    ∧ (s.started = false →
      ∃ t, exec .silence s = .next t ∧ t.spu.requests = more ∧ Answered t tag 9 .badState 0 0
        ∧ OnlyTouches [.requests, .indications] s t)

/-- R53, R105: SEND_TEXT sets the standing text when sticky and requests a ROUTINE frame with a TEXT section on each
configured port; REQUEST_HISTORY requests a ROUTINE frame with a HISTORY_REQUEST section. Each is then answered OK. In
UNCONFIGURED both are answered BAD_STATE, and a REQUEST_HISTORY to the own station BAD_ARGUMENT. -/
def Obligations.SendFrameRequestsResult : Prop :=
  ∀ (s : State) (tag : Nat) (more : List (List Byte)),
    (∀ dest sticky report words, Serving s (.sendText dest sticky report words) tag more →
      (s.started = true →
        ∃ u : State, exec .sendText s = .next ((u.onPorts (fun p x => x.requestFrame p dest .routine .pru [.text sticky words]
              (fun e => { e with report := if report then some tag else none }))).respond tag 10 .ok)
          ∧ u.spu.requests = more ∧ OnlyTouches [.requests, .text] s u
          ∧ u.pru.text = if sticky then (if words = [0#8] then none else some (words.take 32)) else s.pru.text)
      ∧ (s.started = false →
        ∃ t, exec .sendText s = .next t ∧ t.spu.requests = more ∧ Answered t tag 10 .badState 0 0
          ∧ OnlyTouches [.requests, .indications] s t))
    ∧ (∀ dest channel, Serving s (.requestHistory dest channel) tag more →
      (s.started = true → dest ≠ s.cfg.station →
        ∃ u : State, exec .requestHistory s = .next ((u.onPorts (fun p x =>
              x.requestFrame p dest .routine .acu [.historyRequest channel] id)).respond tag 17 .ok)
          ∧ u.spu.requests = more ∧ OnlyTouches [.requests] s u)
      ∧ (∀ code, (s.started = false ∧ code = ResponseCode.badState)
            ∨ (s.started = true ∧ dest = s.cfg.station ∧ code = .badArgument) →
        ∃ t, exec .requestHistory s = .next t ∧ t.spu.requests = more ∧ Answered t tag 17 code 0 0
          ∧ OnlyTouches [.requests, .indications] s t))

/-- R101, R104: READ_HISTORY of an UNSET channel is answered NO_SUCH at once, with the list full BUSY at once; otherwise a
HOST entry joins the end of the list and the arbiter decides: with the engine busy it waits; with the engine free and no
other claim it is granted. -/
def Obligations.ReadHistoryResult : Prop :=
  ∀ (s : State) (tag : Nat) (c : Fin 7) (more : List (List Byte)), Serving s (.readHistory c) tag more →
    ((s.channel c).level = .unset →
      ∃ t, exec .readHistory s = .next t ∧ t.spu.requests = more ∧ Answered t tag 11 .noSuch 0 0
        ∧ OnlyTouches [.requests, .indications] s t)
    ∧ ((s.channel c).level ≠ .unset → 4 ≤ s.bpk.history.length →
      ∃ t, exec .readHistory s = .next t ∧ t.spu.requests = more ∧ Answered t tag 11 .busy 0 0
        ∧ OnlyTouches [.requests, .indications] s t)
    ∧ ((s.channel c).level ≠ .unset → s.bpk.history.length < 4 →
      ∃ u : State, exec .readHistory s = .next u.arbitrate ∧ u.spu.requests = more
        ∧ u.bpk.history = s.bpk.history ++ [.host c tag] ∧ OnlyTouches [.requests, .history] s u
        ∧ (s.bpk.flight ≠ none → u.arbitrate = u)
        ∧ (s.bpk.flight = none → s.clu.capture.waiting = [] → s.bpk.history = [] →
            u.arbitrate.bpk.history = [] ∧ ∃ f, u.arbitrate.bpk.flight = some f ∧ f.claim = .history (.host c tag)))

/-- R78: READ_CHANNEL of a channel above 6 is answered BAD_ARGUMENT, of an UNSET channel NO_SUCH with no data, of any
other OK with one DATA record of item CHANNEL. -/
def Obligations.ReadChannelResult : Prop :=
  (∀ (s : State) (tag : Nat) (c : Fin 7) (more : List (List Byte)), Serving s (.readChannel c) tag more →
    ((s.channel c).level = .unset →
      ∃ t, exec .readChannel s = .next t ∧ t.spu.requests = more ∧ Answered t tag 12 .noSuch 0 0
        ∧ OnlyTouches [.requests, .indications] s t)
    ∧ (∀ kind, (s.channel c).level ≠ .unset → (s.channelCfg c).kind = some kind →
      ∃ t, exec .readChannel s = .next t ∧ t.spu.requests = more ∧ Answered t tag 12 .ok 0 1
        ∧ t.spu.answer = [.data tag (.channel c.val kind (s.channel c).published (s.channel c).rising (s.channel c).value
            (s.channel c).raised)]
        ∧ OnlyTouches [.requests, .answer, .indications] s t))
  ∧ (∀ (s : State) (tag n : Nat) (more : List (List Byte)), s.spu.requests = [12#8, byteOf tag, byteOf n] :: more →
      s.urgentHeld < 32 → s.spu.answer = [] → tag ≤ 255 → 6 < n → n ≤ 255 →
      ∃ t, exec .readChannel s = .next t ∧ t.spu.requests = more ∧ Answered t tag 12 .badArgument 0 0
        ∧ OnlyTouches [.requests, .indications] s t)

/-- R39, R134, R150, R170, R183: READ_PEERS, READ_ALARMS, READ_TAGS and READ_COUNTERS are answered OK in every part state,
with one item for each peer, for each held alarm in table order, for each near and track entry, and for each port and the
vehicle link. -/
def Obligations.TableReadsResult : Prop :=
  ∀ (s : State) (tag : Nat) (more : List (List Byte)),
    (Serving s .readPeers tag more →
      ∃ t, exec .readPeers s = .next t ∧ t.spu.requests = more ∧ Answered t tag 13 .ok 0 s.pru.peers.length
        ∧ t.spu.answer = s.pru.peers.map (fun x => HostRecord.data tag
            (.peer x.station x.port x.hops x.present (min 65535 ((s.ms - x.lastHeard) / 1000)) x.status x.inCall x.refuge))
        ∧ OnlyTouches [.requests, .answer, .indications] s t)
    ∧ (Serving s .readAlarms tag more →
      ∃ t, exec .readAlarms s = .next t ∧ t.spu.requests = more ∧ Answered t tag 14 .ok 0 s.aru.alarms.length
        ∧ t.spu.answer = s.aru.alarms.map (fun a => HostRecord.data tag
            (.alarm a.id a.kind a.scope a.state (min 65535 ((s.ms - a.firstHeard) / 1000)) a.silenced))
        ∧ OnlyTouches [.requests, .answer, .indications] s t)
    ∧ (Serving s .readTags tag more →
      ∃ t, exec .readTags s = .next t ∧ t.spu.requests = more
        ∧ Answered t tag 15 .ok 0 (s.tgu.near.length + s.tgu.tracks.length)
        ∧ t.spu.answer = s.tgu.near.map (fun n => HostRecord.data tag
              (.near n.tag n.kind n.strength n.near ((s.ms - n.lastSeen) / 1000)))
            ++ s.tgu.tracks.map (fun x => HostRecord.data tag
              (.track x.tag x.reporter x.chainage x.heading x.speed x.loaded x.lane ((s.ms - x.sighted) / 1000)))
        ∧ OnlyTouches [.requests, .answer, .indications] s t)
    ∧ (Serving s .readCounters tag more →
      ∃ t, exec .readCounters s = .next t ∧ t.spu.requests = more ∧ Answered t tag 16 .ok 0 3
        ∧ t.spu.answer =
            [.data tag (.counters 0
                (((s.port .A).counters.all ++ (s.fre.parse.get .A).all).map Counter.snap)
                (((s.port .A).counters.all ++ (s.fre.parse.get .A).all).map Counter.overflow)),
              .data tag (.counters 1
                (((s.port .B).counters.all ++ (s.fre.parse.get .B).all).map Counter.snap)
                (((s.port .B).counters.all ++ (s.fre.parse.get .B).all).map Counter.overflow)),
              .data tag (.counters 2 (s.tgu.counters.all.map Counter.snap ++ List.replicate 7 0)
                (s.tgu.counters.all.map Counter.overflow ++ List.replicate 7 false))]
        ∧ OnlyTouches [.requests, .answer, .indications] s t)

/-! ### The roadway line -/

/-- R2, R3, R5, R6, R7, R12, R22: carrier, quiet, the end of a held window and the presence pulse. CARRIER_START marks
carrier in every access state, a unit that drives too; carrier already present has no start to see. A line that the unit
drives is not quiet (log 28). -/
def Obligations.LineSensingResult : Prop :=
  ∀ (s : State) (p : Port),
    (s.operating p = true → (s.port p).carrier = false →
      ∃ t, exec (.carrierStart p) s = .next t ∧ (t.port p).carrier = true ∧ (t.port p).gathering = true
        ∧ (t.port p).access = (if (s.port p).access = .idle then .receive else (s.port p).access)
        ∧ (t.port p).list = (s.port p).list ∧ (t.port p).wait = (s.port p).wait)
    ∧ (s.operating p = false → (s.port p).carrier = false →
      exec (.carrierStart p) s = .next (s.setPort p { s.port p with carrier := true }))
    ∧ ((s.port p).carrier = true → exec (.carrierStart p) s = .next s)
    ∧ ((s.port p).access = .transmit ∨ (s.port p).access = .jam → exec (.lineQuiet p) s = .next s)
    ∧ ((s.port p).access ≠ .transmit → (s.port p).access ≠ .jam → (s.port p).carrier = true →
      ∃ t, exec (.lineQuiet p) s = .next t ∧ (t.port p).carrier = false
        ∧ (t.port p).quietAt = max (s.port p).quietAt (s.clock.usec - 2 * s.bitTime)
        ∧ (t.port p).list = (s.port p).list
        ∧ (s.operating p = true → (s.port p).holdEnd = none →
            ((s.port p).access = .receive → (t.port p).access = .idle)
            ∧ ((s.port p).access = .backoff → (t.port p).access = .defer))
        ∧ ((s.port p).holdEnd ≠ none → (t.port p).access = (s.port p).access))
    ∧ (∀ h, (s.port p).holdEnd = some h → h ≤ s.clock.usec →
      ∃ t, exec (.windowHoldEnd p) s = .next t ∧ (t.port p).holdEnd = none
        ∧ (t.port p).quietAt = max (s.port p).quietAt h
        ∧ (s.operating p = true → (s.port p).carrier = false → (s.port p).access = .receive →
            (t.port p).access = .idle))
    ∧ (∀ d more, s.operating p = true → (s.port p).pulses = d :: more → d ≤ s.clock.usec →
      ∃ t, exec (.presencePulse p) s = .next t
        ∧ t.port p = { s.port p with pulses := more, pulseEnd := some (s.clock.usec + 3 * s.bitTime) })

/-- R3 to R6: a frame end. A fragment is discarded uncounted; a damaged frame is counted and holds the line for a
response window; an intact frame joins a receive list of fewer than four, counted, and is lost as an overrun otherwise;
its map-request flag holds the line, and for a frame taken in asks for a presence pulse in the own slot, beside those
still to be driven. Holds and pulses are measured from the last transition (log 9). -/
def Obligations.FrameEndResult : Prop :=
  ∀ (s : State) (p : Port) (g : Gathered), s.operating p = true → (s.port p).gathering = true →
    (s.port p).access ≠ .transmit → (s.port p).access ≠ .jam →
    ∃ t, exec (.frameEnd p g) s = .next t ∧ (t.port p).gathering = false ∧ OnlyTouches [.line p] s t
      ∧ (g.startMarker = false ∨ g.bytes.length < 10 → t.port p = { s.port p with gathering := false })
      ∧ (g.startMarker = true → 10 ≤ g.bytes.length →
          (g.violation = true ∨ g.partialByte = true ∨ 256 < g.bytes.length ∨ crcOk g.bytes = false →
            (t.port p).counters = { (s.port p).counters with crcErrors := (s.port p).counters.crcErrors.bump }
            ∧ (t.port p).received = (s.port p).received
            ∧ (t.port p).holdEnd
                = some (max ((s.port p).holdEnd.getD 0) (s.clock.usec - 2 * s.bitTime + 272 * s.bitTime)))
          ∧ (g.violation = false → g.partialByte = false → g.bytes.length ≤ 256 → crcOk g.bytes = true →
            ((s.port p).received.length < 4 →
              (t.port p).received = (s.port p).received ++ [{ bytes := g.bytes, arrival := s.ms }]
              ∧ (t.port p).counters = { (s.port p).counters with good := (s.port p).counters.good.bump }
              ∧ (t.port p).pulses = (s.port p).pulses ++ (if (headerOf g.bytes).mapRequest
                  then [s.clock.usec - 2 * s.bitTime + (16 + 4 * (s.slotOf p).getD 0) * s.bitTime] else []))
            ∧ (4 ≤ (s.port p).received.length →
              (t.port p).received = (s.port p).received ∧ (t.port p).pulses = (s.port p).pulses
              ∧ (t.port p).counters = { (s.port p).counters with overruns := (s.port p).counters.overruns.bump })
            ∧ (t.port p).holdEnd = (if (headerOf g.bytes).mapRequest
                then some (max ((s.port p).holdEnd.getD 0) (s.clock.usec - 2 * s.bitTime + 272 * s.bitTime))
                else (s.port p).holdEnd)))

/-- R7, R8, R9, R10, R17: entering DEFER draws r below W (a free value, log 4) and waits D = 48 + 24(4c + r) bit times, 48
to 1944; a request that changes the head in DEFER, with no entry in service, makes a new draw for the new head, against the
quiet already measured, and one that finds the unit with nothing to send begins deferral while the part is RUNNING; when the
measured quiet reaches D, the entry whose attempt it is goes to TRANSMIT, a live entry being composed at that moment from the
current records with the next sequence number. R51, R52, R77, R140, R152, R169: the sections of each live kind. -/
def Obligations.DeferralResult : Prop :=
  (∀ (s : State) (p : Port) (e : TxEntry), (s.port p).candidate = some e →
    ∃ r, r < 4 * 2 ^ min e.fails 4 ∧ ((s.enterDefer p).port p).access = .defer
      ∧ ((s.enterDefer p).port p).draw = r ∧ ((s.enterDefer p).port p).wait = 48 + 24 * (4 * e.cls.code + r)
      ∧ 48 ≤ ((s.enterDefer p).port p).wait ∧ ((s.enterDefer p).port p).wait ≤ 1944)
  ∧ (∀ (s : State) (p : Port) (e : TxEntry), s.running = true → (s.port p).access = .defer →
      (s.port p).carrier = false → (s.port p).holdEnd = none → (s.port p).candidate = some e →
      (s.port p).quietAt + (s.port p).wait * s.bitTime ≤ s.clock.usec →
      (∀ f, e.frame = some f →
        ∃ t, exec (.deferWaitExpiry p) s = .next t ∧ (t.port p).access = .transmit
          ∧ (t.port p).service = some e.order ∧ (t.port p).startedAt = s.clock.usec ∧ t.fre.seq = s.fre.seq
          ∧ (t.port p).list
              = (s.port p).list.map (fun x => if x.order = e.order then { x with frame := some f } else x))
      ∧ (∀ k, e.frame = none → e.live = some k →
        ∃ t, exec (.deferWaitExpiry p) s = .next t ∧ (t.port p).access = .transmit
          ∧ (t.port p).service = some e.order ∧ (t.port p).startedAt = s.clock.usec
          ∧ t.fre.seq = (s.fre.seq + 1) % 65536
          ∧ (t.port p).list = (s.port p).list.map (fun x => if x.order = e.order
              then { x with frame := some (buildFrame s.cfg.station 4095 k.cls false s.fre.seq (s.liveSections p k)) }
              else x)))
  -- R7, R9: what a request that is QUEUED does to the unit
  ∧ (∀ (s : State) (p : Port) (e : TxEntry) (u : State), s.answerRequest p e = (.queued, u) →
      (s.running = false → s.queueRequest p e = u)
      ∧ (s.running = true →
        ((u.port p).access = .idle ∨ (u.port p).access = .receive → s.queueRequest p e = u.enterDefer p)
        ∧ ((u.port p).access = .defer → (u.port p).inService = none → ∀ h, (u.port p).list.head? = some h →
          ((s.port p).list.head?.map TxEntry.order = some h.order → s.queueRequest p e = u)
          ∧ ((s.port p).list.head?.map TxEntry.order ≠ some h.order →
            ∃ (r : Nat) (w : State), r < 4 * 2 ^ min h.fails 4 ∧ OnlyTouches [.draws, .line p] u w
              ∧ w.port p = { u.port p with draw := r, wait := 48 + 24 * (4 * h.cls.code + r) }
              ∧ ((u.port p).carrier = true ∨ (u.port p).holdEnd ≠ none
                  ∨ s.clock.usec < (u.port p).quietAt + (w.port p).wait * s.bitTime → s.queueRequest p e = w)
              ∧ ((u.port p).carrier = false → (u.port p).holdEnd = none →
                  (u.port p).quietAt + (w.port p).wait * s.bitTime ≤ s.clock.usec →
                s.queueRequest p e = w.enterTransmit p
                  ∧ ((s.queueRequest p e).port p).access = .transmit
                  ∧ ((s.queueRequest p e).port p).service = some h.order
                  ∧ ((s.queueRequest p e).port p).startedAt = s.clock.usec)))
        ∧ ((u.port p).access = .transmit ∨ (u.port p).access = .jam ∨ (u.port p).access = .backoff
            ∨ (u.port p).access = .responseWait ∨ ((u.port p).access = .defer ∧ (u.port p).inService ≠ none) →
          s.queueRequest p e = u)))
  -- R51, R52: the sections of the live kinds
  ∧ (∀ (s : State) (p : Port) (slot : Nat) (status : FrameSection) (air : List AirEntry) (standing : List Alarm)
      (sorted : List NearEntry) (persons : Nat) (vehicle : FrameSection),
      s.slotOf p = some slot →
      status = .status s.cfg.chainage s.cfg.zone s.cfg.roadway slot s.cfg.airflowNeg true
        (decide (s.configured .A = true ∧ s.configured .B = true)) s.cfg.refuge s.cfg.operator
        (s.aru.alarms.filter (fun a => decide (a.state ≠ .cleared))).length →
      -- R77
      air.Pairwise (fun x y => x.channel < y.channel) →
      (∀ x, x ∈ air ↔ ∃ (c : Fin 7) (kind : GasKind), (s.channelCfg c).kind = some kind ∧ (s.channel c).level ≠ .unset
        ∧ x = { channel := c.val, kind := kind, state := (s.channel c).published, rising := (s.channel c).rising,
                value := (s.channel c).value }) →
      standing = (s.aru.alarms.filter (fun a => decide (a.state ≠ .cleared))).take 6 →
      -- R140
      persons = (s.tgu.near.filter (fun n => decide (n.kind = .person) && n.near)).length →
      sorted.Perm (s.tgu.near.filter (fun n => decide (n.kind ≠ .person) && decide (s.ms ≤ n.lastSeen + 2000))) →
      sorted.Pairwise (fun x y => y.strength < x.strength ∨ (x.strength = y.strength ∧ x.tag < y.tag)) →
      vehicle = .vehicle persons ((sorted.take 8).map (fun n => {
        tag := n.tag, kind := n.kind, heading := n.heading, loaded := n.loaded, strength := n.strength,
        speed := n.speed })) →
      s.liveSections p .airReport = status :: (if air = [] then [] else [.air air])
      ∧ s.liveSections p .vehicleReport = [status, vehicle]
      ∧ s.liveSections p .beacon
        = status :: (if air = [] then [] else [.air air])
          ++ (if standing = [] then [] else [.alarm (standing.map (fun a => {
              id := a.id, kind := a.kind, state := a.state, scope := a.scope,
              age := min 65535 ((s.ms - a.firstHeard) / 1000) }))])
          ++ [vehicle]
          ++ (if s.cfg.refuge = true then [.refuge {
              active := s.aru.musterActive, doorOpen := s.aru.doorOpen, muster := s.aru.muster.length,
              overflow := s.aru.overflow }] else [])
          ++ (match s.pru.text with
            | some words => [.text true words]
            | none => []))

/-- R1, R7, R10, R13, R17, R20, R165: at the last bit of a transmission without collision, 16 + 8n bit times after its
start, a frame that asks for a response window takes the unit to RESPONSE_WAIT with an empty hear map; any other has its
outcome SENT at once. At the end of the response window the outcome is SENT, the hear map holding the slots heard but the
own; the operand's slots join it, and it stands as it was handed on until the next window (log 29, DEDUCED). A SENT
outcome takes the entry out of the list, counts a relayed one, queues a live entry's pending repeat, gives TX_DONE for a
report request and hands an ALARM frame's outcome to the alarm unit. -/
def Obligations.TransmissionEndResult : Prop :=
  ∀ (s : State) (p : Port) (e : TxEntry) (f : List Byte), (s.port p).inService = some e → e.frame = some f →
    s.configured p = true → (s.port p).list.length ≤ 12 →
    ((s.port p).access = .transmit → (s.port p).startedAt + (16 + 8 * f.length) * s.bitTime ≤ s.clock.usec →
      ((headerOf f).mapRequest = true →
        ∃ t, exec (.transmissionComplete p) s = .next t
          ∧ t.port p = { s.port p with access := .responseWait, hearMap := [], startedAt := s.clock.usec,
                                       quietAt := s.clock.usec }
          ∧ OnlyTouches [.line p] s t)
      ∧ ((headerOf f).mapRequest = false →
        ∃ t, exec (.transmissionComplete p) s = .next t ∧ OutcomeTaken s t p e f .sent []
          ∧ (t.port p).counters = (if e.relayed = true
              then { (s.port p).counters with relayedOut := (s.port p).counters.relayedOut.bump }
              else (s.port p).counters)))
    ∧ ((s.port p).access = .responseWait → (s.port p).startedAt + 272 * s.bitTime ≤ s.clock.usec →
      ∀ slots,
        ∃ t, exec (.responseWindowEnd p slots) s = .next t ∧ OutcomeTaken s t p e f .sent (t.port p).hearMap
          ∧ (t.port p).quietAt = max (s.port p).quietAt ((s.port p).startedAt + 272 * s.bitTime)
          ∧ (t.port p).counters = (if e.relayed = true
              then { (s.port p).counters with relayedOut := (s.port p).counters.relayedOut.bump }
              else (s.port p).counters)
          ∧ (∀ n, n ∈ (t.port p).hearMap
              ↔ n < 64 ∧ s.slotOf p ≠ some n ∧ (n ∈ (s.port p).hearMap ∨ n ∈ slots)))

/-- R1, R3, R11, R12, R17, R20, R165: a collision stops the frame and enters JAM, raises the failed-attempt count of the
entry in service, and is counted as early before 32 frame bytes were sent, 272 bit times after the start, and late after;
at the end of the jam the entry goes to BACKOFF with carrier present and gathered, or with its eighth failure reaches the
outcome EXCESS, counted. The boundary instant, and carrier present from the collision on, are log 28 (DEDUCED from R1, R2,
R3 and R11); EXCESS at the end of the jam, not when the line goes quiet, is the model's choice (log 41, DESIGN CHOICE). -/
def Obligations.CollisionResult : Prop :=
  ∀ (s : State) (p : Port),
    ((s.port p).access = .transmit →
      ∃ t, exec (.collision p) s = .next t ∧ (t.port p).access = .jam ∧ (t.port p).startedAt = s.clock.usec
        ∧ (t.port p).carrier = true
        ∧ (t.port p).list = (s.port p).list.map
            (fun x => if (s.port p).service = some x.order then { x with fails := x.fails + 1 } else x)
        ∧ (s.clock.usec < (s.port p).startedAt + (16 + 8 * 32) * s.bitTime →
            (t.port p).counters = { (s.port p).counters with collisions := (s.port p).counters.collisions.bump })
        ∧ ((s.port p).startedAt + (16 + 8 * 32) * s.bitTime ≤ s.clock.usec →
            (t.port p).counters
              = { (s.port p).counters with lateCollisions := (s.port p).counters.lateCollisions.bump }))
    ∧ (∀ e, (s.port p).access = .jam → (s.port p).startedAt + 32 * s.bitTime ≤ s.clock.usec →
        (s.port p).inService = some e →
        (e.fails < 8 →
          ∃ t, exec (.jamEnd p) s = .next t
            ∧ t.port p = { s.port p with access := .backoff, carrier := true, gathering := true }
            ∧ OnlyTouches [.line p] s t)
        ∧ (∀ f, 8 ≤ e.fails → e.frame = some f → s.configured p = true → (s.port p).list.length ≤ 12 →
          ∃ t, exec (.jamEnd p) s = .next t ∧ OutcomeTaken s t p e f .excess []
            ∧ (t.port p).carrier = true ∧ (t.port p).gathering = true
            ∧ (t.port p).counters
                = { (s.port p).counters with excessDrops := (s.port p).counters.excessDrops.bump }))

/-- R14 to R19: the answers to a queue request, case by case, and the list each leaves. -/
def Obligations.QueueAnswers : Prop :=
  ∀ (s : State) (p : Port) (e : TxEntry),
    (s.configured p = false → s.answerRequest p e = (.dropped, s))
    ∧ (s.configured p = true →
      (∀ k, e.live = some k → (∃ x ∈ (s.port p).list, x.live = some k) →
        (s.answerRequest p e).1 = .absorbed ∧ ((s.answerRequest p e).2.port p).list = (s.port p).list
        -- R17: a composed one of the kind marks it as pending repeat
        ∧ ((∃ x ∈ (s.port p).list, x.live = some k ∧ x.frame ≠ none) →
            ((s.answerRequest p e).2.port p).repeatOf k = true)
        ∧ ((∀ x ∈ (s.port p).list, x.live = some k → x.frame = none) → s.answerRequest p e = (.absorbed, s)))
      ∧ (e.live = none → (∃ x ∈ (s.port p).list, x.frame.map frameKey = e.frame.map frameKey) →
        s.answerRequest p e = (.absorbed, s))
      ∧ ((s.port p).holdsLike e = false →
        -- R19: two or more waiting VOICE frames of the own call, and the earliest gives way
        (∀ call x more, e.voiceCall = some call →
            (s.port p).list.filter (fun y => decide ((s.port p).service ≠ some y.order ∧ y.voiceCall = some call))
              = x :: more → more ≠ [] → (s.port p).list.length ≤ 12 →
          (s.answerRequest p e).1 = .queued
          ∧ ((s.answerRequest p e).2.port p).list
              = insertEntry { e with order := (s.port p).nextOrder }
                  ((s.port p).list.filter (fun y => decide (y.order ≠ x.order)))
          ∧ (∀ tag, x.report = some tag → x.cls ≠ .alarm → s.urgentHeld < 32 →
              ∃ lost, (s.answerRequest p e).2.spu.ind.getLast?
                = some { record := .txDone tag p .evicted, lost := lost }))
        ∧ ((∀ call, e.voiceCall = some call →
            ((s.port p).list.filter (fun y =>
              decide ((s.port p).service ≠ some y.order ∧ y.voiceCall = some call))).length < 2) →
          ((s.port p).list.length < 12 →
            (s.answerRequest p e).1 = .queued
            ∧ ((s.answerRequest p e).2.port p).list
                = (s.port p).list.takeWhile (fun x => decide (x.cls.code ≤ e.cls.code))
                  ++ { e with order := (s.port p).nextOrder }
                  :: (s.port p).list.dropWhile (fun x => decide (x.cls.code ≤ e.cls.code)))
          ∧ (∀ v, 12 ≤ (s.port p).list.length → (s.port p).victim e.cls = some v →
            e.cls.code < v.cls.code ∧ (s.port p).service ≠ some v.order
            ∧ (∀ x ∈ (s.port p).list, (s.port p).service ≠ some x.order → x.cls.code ≤ v.cls.code)
            ∧ (s.answerRequest p e).1 = .queued
            ∧ ((s.answerRequest p e).2.port p).list
                = insertEntry { e with order := (s.port p).nextOrder }
                    ((s.port p).list.filter (fun x => decide (x.order ≠ v.order))))
          ∧ (12 ≤ (s.port p).list.length → (s.port p).victim e.cls = none →
            (∀ x ∈ (s.port p).list, (s.port p).service ≠ some x.order → x.cls.code ≤ e.cls.code)
            ∧ (s.answerRequest p e).1 = .dropped
            ∧ (s.answerRequest p e).2.port p = { s.port p with counters :=
                { (s.port p).counters with queueFullDrops := (s.port p).counters.queueFullDrops.bump } }))))

/-- R21, R35, R134: at a snapshot event every counter's live value and mark are copied into its snapshot and cleared,
and the next event comes 1000 ms on. An increment at 65 535 leaves the value and sets the mark. -/
def Obligations.CounterSnapshotResult : Prop :=
  (∀ s : State, s.clock.snapshotDue ≤ s.ms →
    ∃ t, exec .counterSnapshot s = .next t ∧ t.clock = { s.clock with snapshotDue := s.clock.snapshotDue + 1000 }
      ∧ (∀ p, (t.port p).counters.all = (s.port p).counters.all.map
            (fun c => { live := 0, mark := false, snap := c.live, overflow := c.mark })
          ∧ (t.fre.parse.get p).all = (s.fre.parse.get p).all.map
            (fun c => { live := 0, mark := false, snap := c.live, overflow := c.mark })
          ∧ t.port p = { s.port p with counters := (t.port p).counters })
      ∧ t.tgu.counters.all = s.tgu.counters.all.map
          (fun c => { live := 0, mark := false, snap := c.live, overflow := c.mark }))
  ∧ (∀ c : Counter, (c.live < 65535 → c.bump = { c with live := c.live + 1 })
      ∧ (c.live = 65535 → c.bump = { c with mark := true }))

/-! ### Frames and peers -/

/-- R31, R33, R45, R47: the frame engine takes the oldest frame of the port it is to serve. A malformed frame is counted
and goes no further; an ECHO is discarded; a DUPLICATE is counted on its port and not entered again; a NEW frame joins
the recent-frame list, from which the oldest of 32 gives way, in the order of the verdicts (log 32, DESIGN CHOICE), and
then reaches the peer table, the relay decision and its owners, in that order: R40, a new entry or the SILENT one it
displaces (its in-call flag: log 8, DEDUCED); R48, R49, R166, whether it is relayed, and how its copy is queued; R32, R34,
its first eight sections (a DUPLICATE's are counted: log 7, DEDUCED); and what each section does: R42 STATUS, R43 AIR and
REFUGE, R54 TEXT, R55 the calls heard (the first of several earliest: log 16, DESIGN CHOICE), R103 HISTORY_REQUEST, R108
HISTORY, R141 VEHICLE, R159 ALARM. A delivery taken over keeps its place (log 14, DEDUCED). -/
def Obligations.FrameParseResult : Prop :=
  (∀ (s : State) (p : Port) (r : RxFrame) (more : List RxFrame), (s.port p).received = r :: more →
    (s.port (otherPort p)).received = [] ∨ s.fre.lastPort = otherPort p →
    (headerBad r.bytes = true ∨ chainOf r.bytes = none →
      ∃ t, exec .frameParse s = .next t ∧ t.port p = { s.port p with received := more } ∧ t.fre.lastPort = p
        ∧ t.fre.parse.get p
            = { s.fre.parse.get p with malformed := (s.fre.parse.get p).malformed.bump }
        ∧ OnlyTouches [.line p, .lastPort, .parse] s t)
    ∧ (headerBad r.bytes = false → chainOf r.bytes ≠ none →
      ((headerOf r.bytes).origin = s.cfg.station →
        ∃ t, exec .frameParse s = .next t ∧ t.port p = { s.port p with received := more } ∧ t.fre.lastPort = p
          ∧ OnlyTouches [.line p, .lastPort] s t)
      ∧ ((headerOf r.bytes).origin ≠ s.cfg.station →
        ((∃ x ∈ s.pru.recent, x.origin = (headerOf r.bytes).origin ∧ x.seq = (headerOf r.bytes).seq)
            ∨ (∃ x, s.findPeer (headerOf r.bytes).origin = some x ∧ x.present = true
                ∧ x.lastSeq = (headerOf r.bytes).seq) →
          ∃ t, exec .frameParse s = .next t ∧ t.fre.lastPort = p
            ∧ t.port p = { s.port p with received := more, counters :=
                { (s.port p).counters with duplicates := (s.port p).counters.duplicates.bump } }
            ∧ OnlyTouches [.line p, .lastPort, .parse, .peers] s t)
        ∧ ((∀ x ∈ s.pru.recent, x.origin = (headerOf r.bytes).origin → x.seq ≠ (headerOf r.bytes).seq) →
          (∀ x, s.findPeer (headerOf r.bytes).origin = some x → x.present = true → x.lastSeq ≠ (headerOf r.bytes).seq) →
          ∃ t w : State, exec .frameParse s = .next t ∧ t.fre.lastPort = p
            ∧ t.pru.recent = (if 32 ≤ s.pru.recent.length then s.pru.recent.tail else s.pru.recent)
                ++ [{ origin := (headerOf r.bytes).origin, seq := (headerOf r.bytes).seq, port := p,
                      arrival := r.arrival }]
            ∧ OnlyTouches [.line p, .lastPort, .recent] s w ∧ w.port p = { s.port p with received := more }
            ∧ w.fre.lastPort = p ∧ w.pru.recent = t.pru.recent
            ∧ ∀ (chain : List (Nat × List Byte)) (a : Arrival), chainOf r.bytes = some chain →
                a = { port := p, time := r.arrival, header := headerOf r.bytes } →
                t = ((w.peerHeard a).relayFrame a r.bytes).takeSections a .new chain))))
  -- R40: an origin with no entry
  ∧ (∀ (s : State) (a : Arrival) (new : Peer), s.findPeer a.origin = none →
      new = { station := a.origin, port := a.port, hops := a.hops, lastHeard := a.time, lastSeq := a.seq, present := true,
              status := none, air := none, refuge := none, text := none,
              inCall := s.pru.heard.any (fun h => decide (h.id.caller = a.origin) || decide (h.callee = some a.origin)) } →
      (s.pru.peers.length < 48 → OnlyTouches [.peers] s (s.peerHeard a)
        ∧ ∀ x, x ∈ (s.peerHeard a).pru.peers ↔ x = new ∨ x ∈ s.pru.peers)
      ∧ (48 ≤ s.pru.peers.length → (∀ x ∈ s.pru.peers, x.present = true) → s.peerHeard a = s)
      ∧ (∀ v ∈ s.pru.peers, 48 ≤ s.pru.peers.length → v.present = false →
          (∀ x ∈ s.pru.peers, x.present = false → x.station ≠ v.station →
            v.lastHeard < x.lastHeard ∨ (v.lastHeard = x.lastHeard ∧ v.station < x.station)) →
          s.pru.peers.Pairwise (fun x y => x.station < y.station) →
          ∃ u : State, u.pru.peers = s.pru.peers.filter (fun x => decide (x.station ≠ v.station))
            ∧ OnlyTouches [.peers] s u ∧ OnlyTouches [.peers] u.recompute (s.peerHeard a)
            ∧ ∀ x, x ∈ (s.peerHeard a).pru.peers ↔ x = new ∨ (x ∈ s.pru.peers ∧ x.station ≠ v.station)))
  -- R48, R49, R166: relaying
  ∧ (∀ (s : State) (a : Arrival) (f copy : List Byte) (q : Port) (once : TxEntry), q = otherPort a.port →
      copy = relayCopy f → once = { TxEntry.fixed copy .alarm .aru with relayed := true } →
      (¬ Relayed s a → s.relayFrame a f = s)
      ∧ (Relayed s a →
        (∀ c, c ≠ FrameClass.alarm → a.header.cls = c.code →
          s.relayFrame a f = s.queueRequest q { TxEntry.fixed copy c .pru with relayed := true })
        ∧ (a.header.cls = FrameClass.alarm.code →
          (NamesNoAlarm copy → s.relayFrame a f = s.queueRequest q once)
          ∧ (∀ r, NamesAlarm copy r →
            (∀ d ∈ s.deliveriesOn q, d.id = r.id →
              r.state.rank < d.alarmState.rank ∨ (d.alarmState = r.state ∧ d.source = .own) →
              s.relayFrame a f = s.queueRequest q once)
            ∧ (∀ d : Delivery, d = {
                  id := r.id, source := .relay, frame := copy, alarmState := r.state, transmissions := 1,
                  hearMap := [], phase := .queued, repeatDue := none } →
              (∀ x ∈ s.deliveriesOn q, x.id = r.id →
                x.alarmState.rank ≤ r.state.rank ∧ (x.alarmState = r.state → x.source = .relay)) →
              ∃ u : State, s.relayFrame a f = u.queueRequest q once ∧ HoldsDelivery q d s u)))))
  -- R32, R34: the first eight sections, in order
  ∧ (∀ (s : State) (a : Arrival) (v : Verdict) (chain : List (Nat × List Byte)),
      ∃ u : State, OnlyTouches [.parse] s u ∧ s.takeSections a v chain = (chain.take 8).foldl (State.candidateSection a v) u
        ∧ u.fre.parse = (if 8 < chain.length then s.fre.parse.set a.port
            { s.fre.parse.get a.port with truncated := (s.fre.parse.get a.port).truncated.bump } else s.fre.parse))
  ∧ (∀ (s : State) (a : Arrival) (v : Verdict) (kind : Nat) (bytes : List Byte),
      (11 ≤ kind → OnlyTouches [.parse] s (s.candidateSection a v (kind, bytes))
        ∧ (s.candidateSection a v (kind, bytes)).fre.parse = s.fre.parse.set a.port
            { s.fre.parse.get a.port with unknown := (s.fre.parse.get a.port).unknown.bump })
      ∧ (kind < 11 → readSection kind bytes = none → OnlyTouches [.parse] s (s.candidateSection a v (kind, bytes))
        ∧ (s.candidateSection a v (kind, bytes)).fre.parse = s.fre.parse.set a.port
            { s.fre.parse.get a.port with bad := (s.fre.parse.get a.port).bad.bump })
      ∧ (∀ y, kind < 11 → readSection kind bytes = some y →
        (v = .new → s.candidateSection a v (kind, bytes) = s.dispatch a y)
        ∧ (v = .duplicate → s.candidateSection a v (kind, bytes) = s)))
  -- R34: a frame for another station
  ∧ (∀ (s : State) (a : Arrival), a.dest ≠ s.cfg.station → a.dest ≠ 4095 →
      (∀ id m callee reason, s.dispatch a (.call id m callee reason)
          = s.callHeard id (some callee) (decide (m = .release)) a.time)
      ∧ (∀ id seq blocks, s.dispatch a (.voice id seq blocks) = s.callHeard id none false a.time)
      ∧ (∀ y, (∀ id m callee reason, y ≠ .call id m callee reason) → (∀ id seq blocks, y ≠ .voice id seq blocks) →
          s.dispatch a y = s))
  -- R34: a frame for this station or for all
  ∧ (∀ (s : State) (a : Arrival), a.dest = s.cfg.station ∨ a.dest = 4095 →
      -- R42
      (∀ chainage zone roadway slot neg on bridge refuge operator held t,
        t = s.dispatch a (.status chainage zone roadway slot neg on bridge refuge operator held) →
        (s.findPeer a.origin = none → t = s)
        ∧ (∀ x, s.findPeer a.origin = some x →
          ∃ u : State, t = u.recompute ∧ OnlyTouches [.peers] s u
            ∧ u.pru.peers = s.pru.peers.map (fun y => if y.station = a.origin then { y with status := some {
                chainage := chainage, zone := zone, roadway := roadway, airflowNeg := neg, bridge := bridge,
                refuge := refuge, operator := operator,
                slotA := if a.hops = 0 ∧ a.port = .A then some slot else x.status.bind StatusPart.slotA,
                slotB := if a.hops = 0 ∧ a.port = .B then some slot else x.status.bind StatusPart.slotB } } else y)))
      -- R43
      ∧ (∀ es, ∃ u : State, s.dispatch a (.air es) = u.recompute ∧ OnlyTouches [.peers] s u
          ∧ u.pru.peers = s.pru.peers.map (fun y => if y.station = a.origin then { y with air := some es } else y))
      ∧ (∀ r, OnlyTouches [.peers] s (s.dispatch a (.refuge r))
          ∧ (s.dispatch a (.refuge r)).pru.peers
              = s.pru.peers.map (fun y => if y.station = a.origin then { y with refuge := some r } else y))
      -- R54
      ∧ (∀ words, s.dispatch a (.text false words) = takeIn (.textReceived a.origin false words) s)
      ∧ (∀ words, s.findPeer a.origin = none →
          s.dispatch a (.text true words) = takeIn (.textReceived a.origin true words) s)
      ∧ (∀ words x kept, s.findPeer a.origin = some x → kept = (if words = [0#8] then none else some (words.take 32)) →
          ∃ u : State, OnlyTouches [.peers] s u
            ∧ u.pru.peers = s.pru.peers.map (fun y => if y.station = a.origin then { y with text := kept } else y)
            ∧ (kept ≠ none → x.text ≠ kept →
                s.dispatch a (.text true words) = takeIn (.textReceived a.origin true words) u)
            ∧ (kept ≠ none → x.text = kept → s.dispatch a (.text true words) = s)
            ∧ (kept = none → x.text ≠ none →
                s.dispatch a (.text true words) = takeIn (.textReceived a.origin true words) u)
            ∧ (kept = none → x.text = none → s.dispatch a (.text true words) = u))
      -- R108
      ∧ (∀ channel interval base mask block, s.dispatch a (.history channel interval base mask block)
          = takeIn (.historyReceived a.origin channel interval mask (expandHistory base mask block)) s)
      -- R103
      ∧ (∀ (c : Fin 7) (t : State), t = s.dispatch a (.historyRequest c.val) →
        ((s.channel c).level = .unset → t = s)
        ∧ ((s.channel c).level ≠ .unset →
          ((∃ q, HistoryRequest.line c a.origin q ∈ s.bpk.history) → t = s)
          ∧ ((∀ q, HistoryRequest.line c a.origin q ∉ s.bpk.history) →
            (s.bpk.history.length < 4 →
              ∃ u : State, t = u.arbitrate ∧ OnlyTouches [.history] s u
                ∧ u.bpk.history = s.bpk.history ++ [.line c a.origin a.port])
            ∧ (4 ≤ s.bpk.history.length → OnlyTouches [.line a.port] s t
              ∧ t.port a.port = { s.port a.port with counters :=
                  { (s.port a.port).counters with queueFullDrops := (s.port a.port).counters.queueFullDrops.bump } }))))
      -- R34: the owners in their order
      ∧ (∀ rs, s.dispatch a (.alarm rs) = rs.foldl State.mergeAlarm s)
      ∧ (∀ id m callee reason, s.dispatch a (.call id m callee reason)
          = (s.callSection a.dest id m callee reason).callHeard id (some callee) (decide (m = .release)) a.time)
      ∧ (∀ id seq blocks, s.dispatch a (.voice id seq blocks)
          = (s.voiceSection a.dest id seq blocks).callHeard id none false a.time)
      -- R141
      ∧ (∀ persons tags t, t = s.dispatch a (.vehicle persons tags) →
        ((∀ x st, s.findPeer a.origin = some x → x.status = some st → st.roadway ≠ s.cfg.roadway) → t = s)
        ∧ (∀ x st, s.findPeer a.origin = some x → x.status = some st → st.roadway = s.cfg.roadway →
          t = (tags.filter (fun y => decide (y.kind ≠ .person))).foldl (fun u y => u.truckSighting
            { tag := y.tag, kind := y.kind, reporter := a.origin, chainage := st.chainage, strength := y.strength,
              heading := y.heading, speed := y.speed, loaded := y.loaded, time := a.time }) s)))
  -- R55: the calls heard
  ∧ (∀ (s : State) (id : CallId) (callee : Option Nat) (release : Bool) (now : Nat) (t : State),
      t = s.callHeard id callee release now →
      (s.clu.ctx.call = some id ∨ id.caller = s.cfg.station → t = s)
      ∧ (s.clu.ctx.call ≠ some id → id.caller ≠ s.cfg.station → OnlyTouches [.peers, .heard] s t
        ∧ t.pru.peers = s.pru.peers.map (fun x => { x with inCall := t.pru.heard.any (fun h =>
            decide (h.id.caller = x.station) || decide (h.callee = some x.station)) })
        ∧ (release = true → t.pru.heard = s.pru.heard.filter (fun h => decide (h.id ≠ id)))
        ∧ ∀ given, (callee = none ∨ callee = some 4095 → given = none) →
            (∀ n, callee = some n → n ≠ 4095 → given = some n) → release = false →
          ((∃ h ∈ s.pru.heard, h.id = id) → t.pru.heard = s.pru.heard.map (fun h => if h.id = id
              then { h with last := now, callee := if given = none then h.callee else given } else h))
          ∧ ((∀ h ∈ s.pru.heard, h.id ≠ id) →
            (s.pru.heard.length < 4 → t.pru.heard = s.pru.heard ++ [{ id := id, last := now, callee := given }])
            ∧ (∀ before old after, s.pru.heard = before ++ old :: after → 4 ≤ s.pru.heard.length →
                (∀ h ∈ before, old.last < h.last) → (∀ h ∈ after, old.last ≤ h.last) →
                (∀ h ∈ before ++ after, h.id ≠ old.id) →
                t.pru.heard = before ++ { id := id, last := now, callee := given } :: after))))

/-- R41: a NEW frame refreshes its origin's entry, and takes over the route when it has come with fewer hops, with as
many by the entry's port, or to an entry that was SILENT; a DUPLICATE takes over the route by the first two tests only,
changes last heard only under R47, and never the last sequence; a SILENT entry stays SILENT at it (log 31, DESIGN
CHOICE). -/
def Obligations.PeerRefresh : Prop :=
  ∀ (s : State) (a : Arrival) (x : Peer), s.findPeer a.origin = some x →
    (s.peerHeard a).findPeer a.origin = some { x with
      lastHeard := a.time, lastSeq := a.seq, present := true,
      port := if a.hops < x.hops ∨ (a.hops = x.hops ∧ a.port = x.port) ∨ x.present = false then a.port else x.port,
      hops := if a.hops < x.hops ∨ (a.hops = x.hops ∧ a.port = x.port) ∨ x.present = false then a.hops else x.hops }
    ∧ (s.duplicateHeard a).findPeer a.origin = some { x with
      port := if a.hops < x.hops ∨ (a.hops = x.hops ∧ a.port = x.port) then a.port else x.port,
      hops := if a.hops < x.hops ∨ (a.hops = x.hops ∧ a.port = x.port) then a.hops else x.hops,
      lastHeard := if a.hops = 0 ∧ (s.pru.recent.find? (fun r => r.is a)).map RecentFrame.port = some a.port
        then a.time else x.lastHeard }

/-- R44, R46, R50, R55: the deadlines of the peer and relay unit. -/
def Obligations.PeerDeadlinesResult : Prop :=
  ∀ s : State,
    (∀ n x, s.findPeer n = some x → x.present = true → x.lastHeard + s.cfg.silent * 1000 ≤ s.ms →
      ∃ t, exec (.peerSilentDeadline n) s = .next t
        ∧ t.findPeer n = some { x with present := false, air := none, refuge := none }
        ∧ OnlyTouches (.peers :: recomputeFoot) s t)
    ∧ (∀ n x, s.findPeer n = some x → x.present = false → x.lastHeard + 300000 ≤ s.ms →
      ∃ t, exec (.peerRemovalDeadline n) s = .next t ∧ t.findPeer n = none
        ∧ t.pru.peers = s.pru.peers.filter (fun y => decide (y.station ≠ n)))
    ∧ (∃ t, exec .recentFrameExpiry s = .next t
        ∧ t.pru = { s.pru with recent := s.pru.recent.filter (fun r => decide (s.ms < r.arrival + 20000)) })
    ∧ (∀ h ∈ s.pru.heard, h.last + 2000 ≤ s.ms →
      ∃ t, exec (.callsHeardExpiry h.id.caller h.id.number) s = .next t
        ∧ t.pru.heard = s.pru.heard.filter (fun y => decide (y.id ≠ h.id))
        ∧ ∀ x ∈ t.pru.peers, x.inCall
            = t.pru.heard.any (fun y => decide (y.id.caller = x.station) || decide (y.callee = some x.station)))
    ∧ (∀ d, s.running = true → s.pru.beaconDue = some d → d ≤ s.ms →
      ∃ t, exec .beaconTimerExpiry s = .next t
        ∧ (∃ r, r < 256 ∧ t.pru.beaconDue = some (d + s.cfg.beacon * 1000 + r))
        ∧ ∀ p, s.configured p = true → (s.port p).list.length < 12 → ∃ e ∈ (t.port p).list, e.live = some .beacon)

/-! ### Air -/

/-- R60 to R63, R67 to R71, R73: a loop sample, the close of a gate and a trend event, as they leave the channel's record,
with the escalation, the de-escalation and the rising flag spelled out; its raised-alarm field is left to the alarm unit's
answers. R64, R75, R76, R93, R94: what the event hands on: the recompute at a change of value or published state, the alarm
raised on entering TRIP, the clear at NORMAL with its alarm ACKNOWLEDGED, and CHANNEL_STATE with the AIR_REPORT requests. -/
def Obligations.ChannelEventsResult : Prop :=
  (∀ (s : State) (c : Fin 6) (code : BitVec 12) (d : Nat), s.started = true →
    (s.channel c.castSucc).level ≠ .unset → (s.channel c.castSucc).sampleDue = some d → d ≤ s.ms →
    (code.toNat < 480 ∨ 3440 < code.toNat →
      ∃ t r, exec (.loopSampleEvent c code) s = .next t
        ∧ t.channel c.castSucc
          = { ({ s.channel c.castSucc with sampleDue := some (d + 250) } : Channel).faultSample with raised := r }
        ∧ t = s.channelEvent c.castSucc ({ s.channel c.castSucc with sampleDue := some (d + 250) } : Channel).faultSample)
    ∧ (480 ≤ code.toNat → code.toNat ≤ 3440 →
      ∃ t r after, exec (.loopSampleEvent c code) s = .next t
        ∧ after = ({ s.channel c.castSucc with
                  sampleDue := some (d + 250),
                  belowZero := decide ((code.toNat : Int) - (s.channelCfg c.castSucc).z - 640 < -64) } :
                Channel).validSample (s.channelCfg c.castSucc)
              (min ((((code.toNat : Int) - (s.channelCfg c.castSucc).z - 640).toNat * (s.channelCfg c.castSucc).g
                    * (s.channelCfg c.castSucc).fs + 20971520) / 41943040)
                (3 * (s.channelCfg c.castSucc).fs / 2))
        ∧ t.channel c.castSucc = { after with raised := r } ∧ t = s.channelEvent c.castSucc after))
  ∧ (∀ (s : State) (d : Nat), s.started = true → (s.channel 6).level ≠ .unset → s.acu.gateDue = some d → d ≤ s.ms →
      ∀ after, (2000 < s.acu.gateCount → after = (s.channel 6).faultSample) →
        (s.acu.gateCount ≤ 2000 → after = (s.channel 6).validSample (s.channelCfg 6)
          (min ((s.acu.gateCount * (s.channelCfg 6).kq + 512) / 1024) (3 * (s.channelCfg 6).fs / 2))) →
        ∃ t r, exec .pulseGateClose s = .next t ∧ t.acu.gateCount = 0 ∧ t.acu.gateDue = some (d + 1000)
          ∧ t.channel 6 = { after with raised := r }
          ∧ t = (s.setAcu { s.acu with gateCount := 0, gateDue := some (d + 1000) }).channelEvent 6 after)
  ∧ (∀ (s : State) (c : Fin 7) (d : Nat), s.started = true → (s.channel c).level ≠ .unset →
      (s.channel c).trendDue = some d → d ≤ s.ms →
      ∃ (t : State) (r : Option Nat) (rising : Bool) (newest : Slot) (after : Channel), exec (.trendEvent c) s = .next t
        ∧ newest
            = (if (s.channel c).level = .starting then { value := 0, valid := false }
              else { value := (s.channel c).value,
                     valid := !(decide ((s.channel c).level = .fault) || (s.channel c).belowZero) })
        ∧ after = { s.channel c with
            trendDue := some (d + 1000 * (s.channelCfg c).interval),
            ring := (s.channel c).ring.set (s.channel c).writeIx newest, writeIx := (s.channel c).writeIx + 1,
            fill := min 16 ((s.channel c).fill + 1), rising := rising }
        ∧ t.channel c = { after with raised := r } ∧ t = s.channelEvent c after
        -- R73: the slot written eight trend events before
        ∧ (∀ older, older = (s.channel c).ring[(s.channel c).writeIx + 8] →
            ((s.channelCfg c).rise = 0 ∨ newest.valid = false ∨ older.valid = false → rising = false)
            ∧ ((s.channelCfg c).rise ≠ 0 → newest.valid = true → older.valid = true →
              (older.value + (s.channelCfg c).rise ≤ newest.value → rising = true)
              ∧ (2 * ((newest.value : Int) - older.value) < (s.channelCfg c).rise → rising = false)
              ∧ (newest.value < older.value + (s.channelCfg c).rise →
                  (s.channelCfg c).rise ≤ 2 * ((newest.value : Int) - older.value) →
                  rising = (s.channel c).rising))))
  -- R64, R75, R76, R93, R94: what an event that leaves the channel as `after` hands on
  ∧ (∀ (s : State) (c : Fin 7) (after : Channel),
      ∃ u v : State, OnlyTouches [.channels] s u ∧ u.channel c = after ∧ (∀ x, x ≠ c → u.channel x = s.channel x)
        ∧ ((s.channel c).published = after.published → (s.channel c).value = after.value → v = u)
        ∧ ((s.channel c).published ≠ after.published ∨ (s.channel c).value ≠ after.value →
          (∀ kind scope, AsksRaise s c after kind scope →
            (HasRoom s kind → ∃ n w, RaisesAlarm u.recompute w kind scope n
              ∧ v = w.setChannel c { w.channel c with raised := some n })
            ∧ (¬ HasRoom s kind → v = u.recompute))
          ∧ (∀ n, AsksOwnClear s c after n →
              v = (u.recompute.setChannel c { after with raised := none }).clearAsOrigin ⟨s.cfg.station, n⟩)
          ∧ ((∀ kind scope, ¬ AsksRaise s c after kind scope) → (∀ n, ¬ AsksOwnClear s c after n) → v = u.recompute))
        ∧ ((s.channel c).published ≠ after.published ∨ (s.channel c).rising ≠ after.rising →
            s.channelEvent c after
              = (takeIn (.channelState c.val after.published after.rising after.value) v).onPorts
                  (State.requestLive .airReport))
        ∧ ((s.channel c).published = after.published → (s.channel c).rising = after.rising →
            s.channelEvent c after = v))
  ∧ (∀ (g : ChannelConfig) (c : Channel) (e : Nat),
      (c.faults = 0 → c.faultSample = { c with faults := 1 })
      ∧ (c.faults = 1 → c.level ≠ .fault →
          c.faultSample = { c with faults := 2, level := .fault, up := 0, clear := 0, runMin := none })
      ∧ (c.faults = 1 → c.level = .fault → c.faultSample = { c with faults := 2 })
      ∧ (c.faults = 2 → c.faultSample = c)
      ∧ (c.level = .starting ∨ c.level = .fault →
          c.validSample g e = { c with faults := 0, acc := 16 * e, value := e, level := levelOf g e, up := 0, clear := 0,
                                       runMin := none })
      ∧ (c.level = .normal ∨ c.level = .warn ∨ c.level = .trip →
          ((c.validSample g e).acc : Int) = c.acc + (16 * (e : Int) - c.acc) / 2 ^ g.k
          ∧ (c.validSample g e).value = ((c.validSample g e).acc + 8) / 16
          ∧ (∀ top, c.acc ≤ 16 * top → e ≤ top → (c.validSample g e).acc ≤ 16 * top ∧ (c.validSample g e).value ≤ top)
          -- R68: escalation, by N samples above the level state, to the least severe of their levels
          ∧ (∀ x least, x = levelOf g (c.validSample g e).value → c.level.rank < x.rank →
              (least = x ∧ (c.runMin = none ∨ ∃ m, c.runMin = some m ∧ x.rank < m.rank)
                ∨ c.runMin = some least ∧ least.rank ≤ x.rank) →
              (c.up + 1 = g.n →
                c.validSample g e = { c with
                  faults := 0, acc := (c.validSample g e).acc, value := (c.validSample g e).value, level := least,
                  up := 0, clear := 0, runMin := none })
              ∧ (c.up + 1 ≠ g.n →
                c.validSample g e = { c with
                  faults := 0, acc := (c.validSample g e).acc, value := (c.validSample g e).value, up := c.up + 1,
                  clear := 0, runMin := some least }))
          -- R69: de-escalation, by M samples that meet the clear condition, by one level
          ∧ (¬ c.level.rank < (levelOf g (c.validSample g e).value).rank →
              (clears g c.level (c.validSample g e).value = true → c.clear + 1 = g.m →
                c.validSample g e = { c with
                  faults := 0, acc := (c.validSample g e).acc, value := (c.validSample g e).value,
                  level := if c.level = .trip then .warn else .normal, up := 0, clear := 0, runMin := none })
              ∧ (clears g c.level (c.validSample g e).value = true → c.clear + 1 ≠ g.m →
                c.validSample g e = { c with
                  faults := 0, acc := (c.validSample g e).acc, value := (c.validSample g e).value, up := 0,
                  clear := c.clear + 1, runMin := none })
              ∧ (clears g c.level (c.validSample g e).value = false →
                c.validSample g e = { c with
                  faults := 0, acc := (c.validSample g e).acc, value := (c.validSample g e).value, up := 0, clear := 0,
                  runMin := none }))))

/-- R59: the level of a value and the clear conditions, for both senses; a value that meets the clear condition of a
level has a level below it, and a clear condition whose bound lies beyond every reportable value is met by none. -/
def Obligations.LevelsAndClears : Prop :=
  ∀ (g : ChannelConfig) (v : Nat),
    (g.lowSense = false → g.l1 < g.l2 →
      (levelOf g v = .trip ↔ g.l2 ≤ v) ∧ (levelOf g v = .warn ↔ g.l1 ≤ v ∧ v < g.l2) ∧ (levelOf g v = .normal ↔ v < g.l1)
      ∧ (clears g .trip v = true ↔ (v : Int) < (g.l2 : Int) - g.h)
      ∧ (clears g .warn v = true ↔ (v : Int) < (g.l1 : Int) - g.h)
      ∧ (g.l2 ≤ g.h → clears g .trip v = false) ∧ (g.l1 ≤ g.h → clears g .warn v = false))
    ∧ (g.lowSense = true → g.l2 < g.l1 →
      (levelOf g v = .trip ↔ v ≤ g.l2) ∧ (levelOf g v = .warn ↔ g.l2 < v ∧ v ≤ g.l1) ∧ (levelOf g v = .normal ↔ g.l1 < v)
      ∧ (clears g .trip v = true ↔ g.l2 + g.h < v) ∧ (clears g .warn v = true ↔ g.l1 + g.h < v)
      ∧ (v ≤ 3 * g.fs / 2 → 3 * g.fs / 2 ≤ g.l2 + g.h → clears g .trip v = false)
      ∧ (v ≤ 3 * g.fs / 2 → 3 * g.fs / 2 ≤ g.l1 + g.h → clears g .warn v = false))
    ∧ ((g.lowSense = false ∧ g.l1 < g.l2) ∨ (g.lowSense = true ∧ g.l2 < g.l1) →
      ∀ x, clears g x v = true → (levelOf g v).rank < x.rank)

/-- R91, R149: at each second of the part's clock, in JOINING or RUNNING, lockout is evaluated afresh, and holds exactly
while an own METHANE channel shows FAULT or TRIP, an advance is held with no ETA or with at most the lockout time
remaining, or an evacuation-class alarm stands that covers the own zone. -/
def Obligations.SecondsEventResult : Prop :=
  ∀ s : State, s.clock.secondDue ≤ s.ms → s.started = true →
    ∃ t, exec .secondsEvent s = .next t ∧ t.clock = { s.clock with secondDue := s.clock.secondDue + 1000 }
      ∧ (t.zae.lockout = true ↔
          (∃ c, (s.channelCfg c).kind = some .methane
            ∧ ((s.channel c).published = .fault ∨ (s.channel c).published = .trip))
          ∨ (∃ a, s.zae.advance = some a ∧ a.eta = none)
          ∨ (∃ a eta, s.zae.advance = some a ∧ a.eta = some eta
              ∧ (eta : Int) - ((s.seconds : Int) - a.declared) ≤ s.cfg.lockout)
          ∨ (∃ a ∈ s.aru.alarms, (a.kind = .fire ∨ a.kind = .evacuate ∨ a.kind = .gas) ∧ a.state ≠ .cleared
              ∧ (a.scope = .zone s.cfg.zone ∨ a.scope = .all)))
      ∧ t.zae.records = s.zae.records ∧ t.zae.advance = s.zae.advance

/-- R82 to R89: a recompute gives each gas kind's record the most severe contributed state, the worst value by sense
over the contributions that are not FAULT, and its sense as it was; it places one ZONE_STATE for each kind whose zone
state changed, in kind order. The advance is of the nearest upwind peer, the lowest station ID on a tie, and the air
velocity for its ETA is chosen from CH6 or from the source's air summary. A peer that falls SILENT causes a recompute. -/
def Obligations.ZoneRecomputeResult : Prop :=
  (∀ (s : State) (i : Fin 5),
    s.recompute.zae.records[i].lowSense = s.zae.records[i].lowSense
    ∧ (s.recompute.zae.records[i].state = none ↔ ∀ x v, ¬ Contributes s (gasAt i) x v)
    ∧ (∀ x, s.recompute.zae.records[i].state = some x →
        (∃ v, Contributes s (gasAt i) x v) ∧ ∀ y v, Contributes s (gasAt i) y v → y.rank ≤ x.rank)
    ∧ (s.recompute.zae.records[i].worst = none ↔ ∀ x v, Contributes s (gasAt i) x v → x = .fault)
    ∧ (∀ w, s.recompute.zae.records[i].worst = some w →
        (∃ x, x ≠ .fault ∧ Contributes s (gasAt i) x w)
        ∧ ∀ x v, x ≠ .fault → Contributes s (gasAt i) x v →
            if s.zae.records[i].lowSense = true then w ≤ v else v ≤ w))
  ∧ (∀ s : State, s.recompute.spu
      = (((List.finRange 5).filter (fun i =>
            decide (s.zae.records[i].state ≠ s.recompute.zae.records[i].state))).foldl
          (fun u i => takeIn (.zoneState (gasAt i) s.recompute.zae.records[i].state
            (s.recompute.zae.records[i].worst.getD 0)) u) s).spu)
  ∧ (∀ s : State, OnlyTouches recomputeFoot s s.recompute)
  ∧ (∀ (s : State) (a : Advance), s.recompute.zae.advance = some a →
      a.declared = (match s.zae.advance with
        | some b => if b.source = a.source then b.declared else s.seconds
        | none => s.seconds))
  -- R87, R88: the source
  ∧ (∀ s : State, (s.recompute.zae.advance = none ↔ ∀ x ∈ s.pru.peers, ¬ Upwind s x)
      ∧ (∀ a, s.recompute.zae.advance = some a →
        ∃ x ∈ s.pru.peers, Upwind s x ∧ a.source = x.station ∧ a.distance = metresTo s x
          ∧ a.eta = etaOf (metresTo s x) (s.airVelocity x)
          ∧ ∀ y ∈ s.pru.peers, Upwind s y → y.station ≠ x.station →
            metresTo s x < metresTo s y ∨ (metresTo s x = metresTo s y ∧ x.station < y.station)))
  -- R89: the air velocity
  ∧ (∀ (s : State) (x : Peer) (own : Prop) (usable : AirEntry → Prop),
      (own ↔ (s.channelCfg 6).kind ≠ none ∧ ((s.channel 6).published = .normal ∨ (s.channel 6).published = .warn)) →
      (∀ e, usable e ↔ (∃ es, x.air = some es ∧ e ∈ es) ∧ e.kind = .airVelocity
        ∧ (e.state = .normal ∨ e.state = .warn ∨ e.state = .trip)) →
      (own → s.airVelocity x = some (s.channel 6).value)
      ∧ (¬ own →
        (∀ e, usable e → (∀ y, usable y → y ≠ e → e.channel < y.channel) → s.airVelocity x = some e.value)
        ∧ ((∀ e, ¬ usable e) → s.airVelocity x = none)))
  ∧ (∀ (s : State) (n : Nat) (x : Peer), s.findPeer n = some x → x.present = true →
      x.lastHeard + s.cfg.silent * 1000 ≤ s.ms →
      ∃ u : State, exec (.peerSilentDeadline n) s = .next u.recompute ∧ OnlyTouches [.peers, .indications] s u
        ∧ u.spu = (takeIn (.peerSilent n) s).spu)

/-- R90: the ETA of an advance, computed at each recompute that holds one, and its remaining time. -/
def Obligations.EtaOfAnAdvance : Prop :=
  (∀ d, etaOf d none = none)
  ∧ (∀ d v : Nat, v < 10 → etaOf d (some v) = none)
  ∧ (∀ d v : Nat, 10 ≤ v → ∃ n, d * 100 ≤ n * v ∧ (0 < n → (n - 1) * v < d * 100)
      ∧ etaOf d (some v) = some (if 65535 < n then 65535 else n))
  ∧ (∀ (s : State) (a : Advance), s.recompute.zae.advance = some a →
      ∃ x, s.advanceSource = some x ∧ a.eta = etaOf a.distance (s.airVelocity x))
  ∧ (∀ (s : State) (a : Advance) (eta : Nat),
      (s.remaining a eta : Int) = max 0 ((eta : Int) - ((s.seconds : Int) - a.declared)))

/-! ### The block packer and the codec -/

/-- R96 to R99: the packed block of sixteen values, thirteen bytes, carries the smallest exponent from 0 to 10 at which every rounded
mantissa fits, or 10 with mantissas above 31 set to 31; and every value expanded from it is exact at exponent 0, within
half of 2^x of a value that is not saturated, and within 2^x of a saturated one, a value of 32 256 or more. -/
def Obligations.PackedBlockError : Prop :=
  ∀ (vs : List Int), vs.length = 16 → (∀ v ∈ vs, -32768 ≤ v ∧ v ≤ 32767) →
    (∀ v, mantissa 0 v = v) ∧ (∀ x v, 1 ≤ x → mantissa x v = (v + 2 ^ (x - 1)) / 2 ^ x)
    ∧ (packBlock vs).length = 13 ∧ packedExponent (packBlock vs) ≤ 10
    ∧ (∀ x, x < packedExponent (packBlock vs) →
        ∃ v ∈ vs, 31 < mantissa x v ∨ mantissa x v < -32)
    ∧ (∀ v ∈ vs, -32 ≤ mantissa (packedExponent (packBlock vs)) v
        ∧ (31 < mantissa (packedExponent (packBlock vs)) v → packedExponent (packBlock vs) = 10 ∧ 32256 ≤ v))
    ∧ packedMantissas (packBlock vs) = vs.map (fun v => min 31 (mantissa (packedExponent (packBlock vs)) v))
    ∧ (expandVoice (packBlock vs)).length = 16
    ∧ (∀ i : Nat, i < 16 →
        (packedExponent (packBlock vs) = 0 → (expandVoice (packBlock vs)).getD i 0 = vs.getD i 0)
        ∧ (0 < packedExponent (packBlock vs) → mantissa (packedExponent (packBlock vs)) (vs.getD i 0) ≤ 31 →
            2 * |(expandVoice (packBlock vs)).getD i 0 - vs.getD i 0| ≤ 2 ^ packedExponent (packBlock vs))
        ∧ (31 < mantissa (packedExponent (packBlock vs)) (vs.getD i 0) →
            packedExponent (packBlock vs) = 10 ∧ |(expandVoice (packBlock vs)).getD i 0 - vs.getD i 0| < 2 ^ 10))

/-- R100 to R102, R107, R111, R125, R128, R129: a pack completion frees the engine, hands the block to its claimant and
lets the arbiter decide: a voice block of the current run joins the packed list, the eighth goes out with the other seven
as one VOICE frame with the next voice sequence, one of an ended run is discarded, and a history block goes to the host or
to the line. The completion is taken at any time after its grant (log 20, DEDUCED from R100). The arbiter grants a free
engine to the oldest waiting voice block, else to the first history entry. A codec sample gives the earpiece the sample of
the first source that applies, and the microphone's sample joins the block being filled; the deny tone stops after 1600
requests. -/
def Obligations.PackAndCodecResult : Prop :=
  (∀ (s : State) (f : Flight), s.bpk.flight = some f →
    (∀ run, f.claim = .voice run → s.clu.capture.run = some run →
      (s.clu.capture.packed.length < 7 →
        ∃ u : State, exec .packCompletion s = .next u.arbitrate ∧ u.bpk.flight = none
          ∧ u.clu.capture.packed = s.clu.capture.packed ++ [packBlock f.inputs]
          ∧ OnlyTouches [.engine, .capture] s u)
      ∧ (7 ≤ s.clu.capture.packed.length →
        ∃ v u : State, exec .packCompletion s = .next u.arbitrate ∧ u.bpk.flight = none ∧ u.clu.capture.packed = []
          ∧ v.clu.ctx = { s.clu.ctx with sendSeq := some ((s.clu.ctx.sendSeq.getD 0 + 1) % 256) }
          ∧ OnlyTouches [.engine, .capture, .context] s v
          ∧ OnlyTouches [.capture, .context]
              (v.sendCallFrame s.callPeer
                [.voice s.callId (s.clu.ctx.sendSeq.getD 0) (s.clu.capture.packed ++ [packBlock f.inputs])]
                (fun e => { e with voiceCall := some s.callId })) u
          ∧ u.clu.ctx = { v.clu.ctx with
              holdingDue := if s.clu.ctx.state = .connected then some (s.ms + 3000) else s.clu.ctx.holdingDue }))
    ∧ (∀ run, f.claim = .voice run → s.clu.capture.run ≠ some run →
      ∃ u : State, exec .packCompletion s = .next u.arbitrate ∧ u.bpk.flight = none
        ∧ u.clu.capture.packed = s.clu.capture.packed ∧ OnlyTouches [.engine, .capture] s u)
    ∧ (∀ c tag, f.claim = .history (.host c tag) →
      ∃ u : State, u.bpk.flight = none ∧ OnlyTouches [.engine] s u
        ∧ exec .packCompletion s = .next (takeInAll
            [.response tag 11 .ok 0 1,
              .data tag (.history c.val (s.channelCfg c).interval f.mask
                (expandHistory f.base f.mask (packBlock f.inputs)))] u).arbitrate)
    ∧ (∀ c n p, f.claim = .history (.line c n p) →
      ∃ u : State, u.bpk.flight = none ∧ OnlyTouches [.engine] s u
        ∧ exec .packCompletion s = .next (u.requestFrame p n .routine .acu
            [.history c.val (s.channelCfg c).interval f.base f.mask (packBlock f.inputs)] id).arbitrate))
  -- R101, R102: the arbiter
  ∧ (∀ u : State,
      (u.bpk.flight ≠ none → u.arbitrate = u)
      ∧ (∀ block more, u.bpk.flight = none → u.clu.capture.waiting = block :: more →
          (∃ f, u.arbitrate.bpk.flight = some f ∧ f.claim = .voice (u.clu.capture.run.getD 0) ∧ f.inputs = block)
          ∧ u.arbitrate.clu.capture = { u.clu.capture with waiting := more }
          ∧ OnlyTouches [.engine, .capture] u u.arbitrate)
      ∧ (∀ e more, u.bpk.flight = none → u.clu.capture.waiting = [] → u.bpk.history = e :: more →
          (∃ f, u.arbitrate.bpk.flight = some f ∧ f.claim = .history e) ∧ u.arbitrate.bpk.history = more
          ∧ OnlyTouches [.engine, .history] u u.arbitrate)
      ∧ (u.clu.capture.waiting = [] → u.bpk.history = [] → u.arbitrate = u))
  ∧ (∀ (s : State) (mic : BitVec 16),
      (s.started = false → ∃ t, exec (.codecSample mic) s = .next t ∧ t.clu = { s.clu with earpiece := 0 })
      ∧ (s.started = true →
        ∃ t, exec (.codecSample mic) s = .next t
          ∧ t.clu.earpiece
            = (if s.alarmTone = true then alarmSample (s.clu.tones.alarm.getD 0)
              else if s.clu.ctx.state = .incoming then ringSample 8192 (s.clu.tones.ring.getD 0)
              else if s.clu.ctx.state = .ringback then ringSample 2048 (s.clu.tones.ring.getD 0)
              else if 0 < 1600 - s.clu.tones.deny.getD 1600 then denySample (s.clu.tones.deny.getD 0)
              else if s.clu.playback.playing = true then
                (s.clu.playback.blocks.headD []).getD s.clu.playback.given 0
              else 0)
          ∧ (∀ b, s.clu.capture.filling = some b → b.length < 15 →
              t.clu.capture = { s.clu.capture with filling := some (b ++ [mic.toInt]) })
          ∧ (∀ b, s.clu.capture.filling = some b → b.length = 15 → s.bpk.flight ≠ none →
              t.clu.capture.waiting = s.clu.capture.waiting ++ [b ++ [mic.toInt]])))
  ∧ (∀ (s : State) (n : Nat), s.clu.tones.deny = some n → 1600 ≤ n →
      ∃ t, exec .denyToneEnd s = .next t ∧ t.clu.tones = { s.clu.tones with deny := none } ∧ OnlyTouches [.tones] s t)

/-! ### Calls -/

/-- R114, R116, R118 to R120, R122 to R125: the timers of the call context, in ticks of 1 ms (log 35). The setup timer
requests up to three SETUPs and then releases LOST; the page setup timer releases the page, the ring timer with NO_ANSWER,
the silence timer with LOST, its capture run discarded and the playback ring emptied; the holding timer requests a HOLDING;
the talk timer sends what is packed as one VOICE frame, gives the floor or ends the page, and places TALK_LIMIT; the page gap
timer ends a heard page, whose playback plays out. Each release requests its RELEASE and places CALL_EVENT RELEASED. -/
def Obligations.CallTimersResult : Prop :=
  ∀ (s : State) (d : Nat), d ≤ s.ms →
    (s.clu.ctx.state = .outgoing → s.clu.ctx.setupDue = some d →
      (s.clu.ctx.setups < 3 →
        ∃ t, exec .setupTimerExpiry s = .next t
          ∧ t.clu.ctx = { s.clu.ctx with setups := s.clu.ctx.setups + 1, setupDue := some (s.ms + 1000) }
          ∧ OnlyTouches [.context] (s.sendMessage .setup none) t)
      ∧ (3 ≤ s.clu.ctx.setups → ∃ t, exec .setupTimerExpiry s = .next t ∧ LeavesCall s t .lost))
    ∧ (s.clu.ctx.state = .paging → s.clu.ctx.setupDue = some d →
      ∃ t, exec .pageSetupTimerExpiry s = .next t ∧ LeavesCall s t .normal)
    ∧ (s.clu.ctx.state = .ringback ∨ s.clu.ctx.state = .incoming → s.clu.ctx.ringDue = some d →
      ∃ t, exec .ringTimerExpiry s = .next t ∧ LeavesCall s t .noAnswer)
    ∧ (s.clu.ctx.state = .connected → s.clu.ctx.silenceDue = some d →
      ∃ t, exec .silenceTimerExpiry s = .next t ∧ ReleasesCall s t .lost
        ∧ t.clu.capture.run = none ∧ t.clu.capture.packed = [])
    ∧ (s.clu.ctx.state = .connected → s.clu.ctx.holdingDue = some d →
      ∃ t, exec .holdingTimerExpiry s = .next t ∧ t = s.sendMessage .holding none
        ∧ t.clu.ctx = { s.clu.ctx with holdingDue := some (s.ms + 3000) })
    ∧ (s.clu.ctx.talkDue = some d →
      (s.clu.ctx.state = .connected → s.clu.ctx.floor = some .localSide →
        ∃ t u : State, exec .talkTimerExpiry s = .next t ∧ GivesFloor s u ∧ t = takeIn (.talkLimit s.callId) u
          ∧ t.clu.ctx.state = .connected ∧ t.clu.ctx.floor = some .none
          ∧ t.clu.ctx.talkDue = none ∧ t.clu.capture.run = none ∧ t.clu.capture.packed = [])
      ∧ (s.clu.ctx.state = .paging → s.clu.ctx.talkSpan = true →
        ∃ t u : State, exec .talkTimerExpiry s = .next t ∧ EndsPage s u ∧ t = takeIn (.talkLimit s.callId) u
          ∧ t.clu.ctx = State.reset.clu.ctx ∧ t.clu.capture.run = none))
    ∧ (s.clu.ctx.state = .hearingPage → s.clu.ctx.gapDue = some d →
      ∃ t, exec .pageGapTimerExpiry s = .next t ∧ EndsCall s t .pageEnded none
        ∧ OnlyTouches [.playback, .tones, .context, .indications] s t)

/-- R111, R119: a frame of the call unit, of class CALL with its map-request flag clear, goes to a PRESENT peer on the port
of its entry, and to 4095, a SILENT peer or a station with no entry on each configured port; a CALL section carries the
callee of the call, and in CONNECTED each frame starts the holding timer again. That a frame for both ports is composed
once for each, port A before port B, each with a sequence number of its own, is log 6 (DEDUCED). -/
def Obligations.CallFrameResult : Prop :=
  (∀ (s : State) (p : Port) (dest : Nat) (xs : List FrameSection) (f : TxEntry → TxEntry),
    ∃ u : State, OnlyTouches [.sequence] s u ∧ u.fre.seq = (s.fre.seq + 1) % 65536
      ∧ s.requestFrame p dest .call .clu xs f
        = u.queueRequest p (f (.fixed (buildFrame s.cfg.station dest .call false s.fre.seq xs) .call .clu)))
  ∧ (∀ (s : State) (dest : Nat) (xs : List FrameSection) (f : TxEntry → TxEntry),
    (∀ x, dest ≠ 4095 → s.findPeer dest = some x → x.present = true →
      s.sendCallFrame dest xs f = s.requestFrame x.port dest .call .clu xs f)
    ∧ (dest = 4095 ∨ s.findPeer dest = none ∨ (∃ x, s.findPeer dest = some x ∧ x.present = false) →
      ∃ u : State, u = (if s.configured .A = true then s.requestFrame .A dest .call .clu xs f else s)
        ∧ s.sendCallFrame dest xs f
          = (if s.configured .B = true then u.requestFrame .B dest .call .clu xs f else u)))
  ∧ (∀ (s : State) (m : CallMessage) (reason : Option ReleaseReason), ∃ callee u,
      callee = (if s.callPeer = 4095 then 4095 else if s.callId.caller = s.cfg.station then s.callPeer
        else s.cfg.station)
      ∧ u = s.sendCallFrame s.callPeer [.call s.callId m callee reason] id
      ∧ (s.clu.ctx.state ≠ .connected → s.sendMessage m reason = u)
      ∧ (s.clu.ctx.state = .connected →
          s.sendMessage m reason = u.setCtx { s.clu.ctx with holdingDue := some (s.ms + 3000) }))

/-- R114 to R119, R121, R124, R130: a CALL section dispatched to the call unit, by the state of the context and the
message. A SETUP of a call the station is itself placing has no effect (log 17), and a SETUP of the connected call starts
the silence timer again (log 33, DESIGN CHOICE). At glare the higher ID answers at once with the hook OFF, unless the
handset has been off the hook since the start (R130). -/
def Obligations.CallSectionResult : Prop :=
  ∀ (s : State) (dest : Nat) (id : CallId) (m : CallMessage) (callee : Nat) (reason : Option ReleaseReason) (t : State),
    t = s.callSection dest id m callee reason →
    (s.running = false → t = s)
    ∧ (s.running = true →
      -- R114: the context's call, in OUTGOING or RINGBACK
      (s.clu.ctx.call = some id → s.clu.ctx.state = .outgoing ∨ s.clu.ctx.state = .ringback →
        (m = .ringing → s.clu.ctx.state = .outgoing →
          ∃ u : State, OnlyTouches [.context, .tones] s u
            ∧ u.clu.ctx = { s.clu.ctx with state := .ringback, setupDue := none, ringDue := some (s.ms + 30000) }
            ∧ u.clu.tones = { s.clu.tones with ring := some 0, deny := none }
            ∧ t = takeIn (.callEvent .ringback s.callId s.callPeer none) u)
        ∧ (m = .ringing → s.clu.ctx.state = .ringback → t = s)
        ∧ (m = .answer → Connects s t)
        ∧ (m = .release → EndsCall s t .released reason ∧ RunEnded s t
            ∧ OnlyTouches [.context, .tones, .playback, .capture, .indications] s t)
        ∧ (m = .holding ∨ m = .floorTake ∨ m = .floorGive →
            ∃ v, Connects s v ∧ t = v.callSection dest id m callee reason)
        ∧ (m = .setup → t = s))
      -- R115, R116: the context's call, in INCOMING
      ∧ (s.clu.ctx.call = some id → s.clu.ctx.state = .incoming →
        (m = .release → EndsCall s t .released reason ∧ RunEnded s t
            ∧ OnlyTouches [.context, .tones, .playback, .capture, .indications] s t)
        ∧ (m = .setup → dest = s.cfg.station → callee = s.cfg.station → t = s.sendMessage .ringing none)
        ∧ (m ≠ .release → m ≠ .setup ∨ dest ≠ s.cfg.station ∨ callee ≠ s.cfg.station → t = s))
      -- R118, R119, R121: the context's call, in CONNECTED
      ∧ (s.clu.ctx.call = some id → s.clu.ctx.state = .connected →
        (m = .release → EndsCall s t .released reason ∧ RunEnded s t
            ∧ OnlyTouches [.context, .tones, .playback, .capture, .indications] s t)
        ∧ (m = .holding ∨ m = .answer ∨ m = .ringing ∨ m = .setup →
            t = s.setCtx { s.clu.ctx with silenceDue := some (s.ms + 10000) })
        ∧ (m = .floorTake →
          (s.clu.ctx.floor = some .none →
            t = s.setCtx { s.clu.ctx with silenceDue := some (s.ms + 10000), floor := some .remote })
          ∧ (s.clu.ctx.floor = some .remote →
            t = s.setCtx { s.clu.ctx with silenceDue := some (s.ms + 10000) })
          ∧ (s.clu.ctx.floor = some .localSide → id.caller = s.cfg.station →
            t = s.setCtx { s.clu.ctx with silenceDue := some (s.ms + 10000) })
          ∧ (s.clu.ctx.floor = some .localSide → id.caller ≠ s.cfg.station →
            ∃ u : State, OnlyTouches [.context, .capture] s u ∧ RunEnded s u
              ∧ u.clu.ctx = { s.clu.ctx with
                  silenceDue := some (s.ms + 10000), talkDue := none, floor := some .remote }
              ∧ t = takeIn (.floorDenied id) u))
        ∧ (m = .floorGive →
          (s.clu.ctx.floor = some .localSide →
            t = s.setCtx { s.clu.ctx with silenceDue := some (s.ms + 10000) })
          ∧ (s.clu.ctx.floor = some .remote ∨ s.clu.ctx.floor = some .none →
            OnlyTouches [.context, .playback] s t
              ∧ t.clu.ctx = { s.clu.ctx with silenceDue := some (s.ms + 10000), floor := some .none }
              ∧ t.clu.playback = { s.clu.playback with
                  playing := s.clu.playback.playing || !s.clu.playback.blocks.isEmpty })))
      -- R124: the page heard
      ∧ (s.clu.ctx.call = some id → s.clu.ctx.state = .hearingPage → m ≠ .setup →
        (m = .release → dest = 4095 → EndsCall s t .pageEnded none
            ∧ OnlyTouches [.context, .tones, .playback, .indications] s t)
        ∧ (m ≠ .release ∨ dest ≠ 4095 → t = s))
      -- R118, R123: another call, or a page of this station's own
      ∧ (m ≠ .setup → s.clu.ctx.call ≠ some id ∨ s.clu.ctx.state = .paging → t = s)
      -- R115, R117: a SETUP of another call
      ∧ (m = .setup → s.clu.ctx.call ≠ some id → dest ≠ s.cfg.station ∨ callee ≠ s.cfg.station → t = s)
      ∧ (m = .setup → dest = s.cfg.station → callee = s.cfg.station →
        (s.clu.ctx.state = .outgoing → s.clu.ctx.call ≠ some id → s.clu.ctx.peer = some id.caller →
          (s.cfg.station < id.caller → t = s)
          ∧ (id.caller ≤ s.cfg.station →
            ∃ v, TakesCall (s.sendMessage .release (some .normal)) v id
              ∧ (s.clu.hookOff = false ∨ s.clu.hookStale = true → t = v)
              ∧ (s.clu.hookOff = true → s.clu.hookStale = false → Connects (v.sendMessage .answer none) t)))
        ∧ (s.clu.ctx.call ≠ some id ∨ s.clu.ctx.state = .hearingPage →
          (s.clu.ctx.state ≠ .idle ∧ (s.clu.ctx.state = .outgoing → s.clu.ctx.peer ≠ some id.caller)
              ∨ s.clu.ctx.state = .idle ∧ s.clu.hookOff = true →
            t = s.sendRelease id id.caller s.cfg.station .busy))
        ∧ (s.clu.ctx.state = .idle → s.clu.hookOff = false →
          (s.cfg.rate = .k62 ∨ admissionLimit s.cfg.rate ≤ (s.pru.heard.filter (fun h => decide (h.id ≠ id))).length →
            t = s.sendRelease id id.caller s.cfg.station .lineFull)
          ∧ (s.cfg.rate ≠ .k62 → (s.pru.heard.filter (fun h => decide (h.id ≠ id))).length < admissionLimit s.cfg.rate →
            TakesCall s t id))))

/-- R114, R119, R121, R124, R126, R127: a VOICE section dispatched to the call unit, what a frame accepted for playback
does to the playback ring, and what the ring gives at a sample request. Voice to all is page voice only, and voice to this
station is ignored in HEARING_PAGE (log 17). -/
def Obligations.VoiceAndPlaybackResult : Prop :=
  (∀ (s : State) (dest : Nat) (id : CallId) (seq : Nat) (blocks : List (List Byte)) (t : State),
    t = s.voiceSection dest id seq blocks →
    (s.running = false → t = s)
    ∧ (s.running = true →
      (dest = 4095 →
        (s.clu.ctx.state = .idle → ∃ u, HearsPage s u id ∧ t = u.playVoice seq blocks)
        ∧ (s.clu.ctx.state = .hearingPage → s.clu.ctx.call = some id →
          t = (s.setCtx { s.clu.ctx with gapDue := some (s.ms + 2000) }).playVoice seq blocks)
        ∧ (s.clu.ctx.state ≠ .idle → s.clu.ctx.state ≠ .hearingPage ∨ s.clu.ctx.call ≠ some id → t = s))
      ∧ (dest ≠ 4095 →
        (s.clu.ctx.call = some id → s.clu.ctx.state = .outgoing ∨ s.clu.ctx.state = .ringback →
          ∃ v, Connects s v ∧ t = v.voiceSection dest id seq blocks)
        ∧ (s.clu.ctx.call = some id → s.clu.ctx.state = .connected →
          (s.clu.ctx.floor = some .localSide → t = s.setCtx { s.clu.ctx with silenceDue := some (s.ms + 10000) })
          ∧ (s.clu.ctx.floor = some .remote ∨ s.clu.ctx.floor = some .none →
            t = (s.setCtx { s.clu.ctx with silenceDue := some (s.ms + 10000), floor := some .remote }).playVoice
              seq blocks))
        ∧ (s.clu.ctx.call ≠ some id ∨ (s.clu.ctx.state ≠ .outgoing ∧ s.clu.ctx.state ≠ .ringback
            ∧ s.clu.ctx.state ≠ .connected) → t = s))))
  -- R126: by d, the distance of the voice sequence from the one expected
  ∧ (∀ (s : State) (seq d : Nat) (blocks : List (List Byte)), seq < 256 → d < 256 →
      (s.clu.ctx.expectSeq = none ∧ d = 0) ∨ (∃ e, s.clu.ctx.expectSeq = some e ∧ e < 256 ∧ (e + d) % 256 = seq) →
      (128 ≤ d → s.playVoice seq blocks = s)
      ∧ (d < 128 → OnlyTouches [.context, .playback] s (s.playVoice seq blocks)
        ∧ (s.playVoice seq blocks).clu.ctx = { s.clu.ctx with expectSeq := some ((seq + 1) % 256) }
        ∧ ∃ concealed : List (List Int),
            (s.playVoice seq blocks).clu.playback
              = { (concealed ++ blocks.map expandVoice).foldl Playback.append s.clu.playback with
                  lastBlock := if blocks = [] then s.clu.playback.lastBlock else (blocks.map expandVoice).getLast? }
            ∧ (d = 0 ∨ 9 ≤ d → concealed = [])
            ∧ (1 ≤ d → d ≤ 8 → concealed.length = 8 * d
              ∧ concealed.head? = some (match s.clu.playback.lastBlock with
                | some b => b.map (fun x => x / 2)
                | none => List.replicate 16 0)
              ∧ ∀ b ∈ concealed.tail, b = List.replicate 16 0)))
  -- R127: an append, to a ring with room and to a full one
  ∧ (∀ (r : Playback) (b : List Int),
      (r.blocks.length < 64 → (r.append b).blocks = r.blocks ++ [b] ∧ (r.append b).given = r.given)
      ∧ (r.blocks.length = 64 → (r.append b).blocks = r.blocks.tail ++ [b] ∧ (r.append b).given = 0)
      ∧ ((r.append b).playing = true ↔ r.playing = true ∨ 16 ≤ (r.append b).blocks.length)
      ∧ (r.append b).lastBlock = r.lastBlock)
  -- R127: a sample request
  ∧ (∀ (s : State) (mic : BitVec 16), s.started = true →
      ∃ t, exec (.codecSample mic) s = .next t
        ∧ (s.clu.playback.playing = false → t.clu.playback = s.clu.playback)
        ∧ (s.clu.playback.playing = true → s.clu.playback.blocks = [] →
            t.clu.playback = { s.clu.playback with playing := false })
        ∧ (∀ b more, s.clu.playback.playing = true → s.clu.playback.blocks = b :: more →
            (s.clu.playback.given < 15 → t.clu.playback = { s.clu.playback with given := s.clu.playback.given + 1 })
            ∧ (s.clu.playback.given = 15 → t.clu.playback = { s.clu.playback with blocks := more, given := 0 })))

/-! ### Inputs -/

/-- R172 to R175: a raw change, the expiry of a DELAYED cell's timer, the end of an IMMEDIATE cell's hold, each with what
the accepted edge does (R62, R113, R116, R118, R120, R123, R125, R130, R157, R169: EdgeTaken), and the change of phase of
the cadence generator. A cell's T ms are exact; the timers an edge starts run in ticks (log 35, DESIGN CHOICE), and a press
with the handset off since the start has no effect at all (log 34, DEDUCED). -/
def Obligations.InputsAndCadenceResult : Prop :=
  (∀ (s : State) (i : Input) (x : Level), s.rawLevel i ≠ x →
    ((s.cell i).setting = none →
      ∃ t, exec (.rawInputChange i x) s = .next t ∧ t.rawLevel i = x ∧ OnlyTouches [.raw] s t)
    ∧ (∀ g, (s.cell i).setting = some g → g.immediate = false →
      ∃ t, exec (.rawInputChange i x) s = .next t ∧ t.rawLevel i = x
        ∧ t.cell i
            = { s.cell i with due := if x = (s.cell i).level then none else some (s.clock.usec + g.t * 1000) }
        ∧ OnlyTouches [.raw, .cells] s t)
    ∧ (∀ g, (s.cell i).setting = some g → g.immediate = true → (s.cell i).due = none → x ≠ (s.cell i).level →
      ∃ u t : State, exec (.rawInputChange i x) s = .next t ∧ t.rawLevel i = x
        ∧ t.cell i = { s.cell i with level := x, due := some (s.clock.usec + g.t * 1000) }
        ∧ OnlyTouches [.raw, .cells] s u ∧ EdgeTaken i x u t)
    ∧ (∀ g, (s.cell i).setting = some g → g.immediate = true → (s.cell i).due ≠ none ∨ x = (s.cell i).level →
      ∃ t, exec (.rawInputChange i x) s = .next t ∧ t.rawLevel i = x ∧ OnlyTouches [.raw] s t))
  ∧ (∀ (s : State) (i : Input) (g : CellConfig) (d : Nat), (s.cell i).setting = some g → (s.cell i).due = some d →
      d ≤ s.clock.usec →
      (g.immediate = false →
        ∃ u t : State, exec (.debounceTimerExpiry i) s = .next t
          ∧ t.cell i = { s.cell i with level := s.rawLevel i, due := none }
          ∧ OnlyTouches [.cells] s u ∧ EdgeTaken i (s.rawLevel i) u t)
      ∧ (g.immediate = true → s.rawLevel i = (s.cell i).level →
        ∃ t, exec (.immediateHoldExpiry i) s = .next t ∧ t.cell i = { s.cell i with due := none }
          ∧ OnlyTouches [.cells] s t)
      ∧ (g.immediate = true → s.rawLevel i ≠ (s.cell i).level →
        ∃ u t : State, exec (.immediateHoldExpiry i) s = .next t
          ∧ t.cell i = { s.cell i with level := s.rawLevel i, due := some (s.clock.usec + g.t * 1000) }
          ∧ OnlyTouches [.cells] s u ∧ EdgeTaken i (s.rawLevel i) u t))
  ∧ (∀ (s : State) (g : Cadence), s.iou.cadence = some g → g.due ≤ s.ms →
      ∃ t, exec .cadencePhaseChange s = .next t
        ∧ t.iou = { s.iou with cadence := some { phase := (g.phase + 1) % 8, due := g.due + 125 } }
        ∧ (s.iou.cadenceOn .slow = true ↔ g.phase < 4) ∧ (s.iou.cadenceOn .fast = true ↔ g.phase % 2 = 0)
        ∧ s.iou.cadenceOn .steady = true)

/-! ### Tags -/

/-- R132, R133, R136: a byte of the vehicle link, by the assembler's state; and the gap timer. A whole SIGHTING is counted
and enters the near table: the entry's new strength and fields, the new entry, the entry it displaces from a full table
(R136, R138), the near judgement (R137), and what is handed on, in order (R139, with the muster rule of R168 and the own
sighting of R141). -/
def Obligations.LinkBytesResult : Prop :=
  (∀ (s : State) (b : Byte), s.started = true → s.cfg.link ≠ .notUsed →
    (∀ framing overrun, framing = true ∨ overrun = true →
      ∃ t, exec (.linkByteReceived b framing overrun) s = .next t ∧ t.tgu.assembler = .hunt
        ∧ t.tgu.counters = (if framing = true
            then { s.tgu.counters with framing := s.tgu.counters.framing.bump }
            else { s.tgu.counters with overrun := s.tgu.counters.overrun.bump })
        ∧ OnlyTouches [.assembler, .linkCounters] s t)
    ∧ (s.tgu.assembler = .hunt →
      ∃ t, exec (.linkByteReceived b false false) s = .next t
        ∧ t.tgu.assembler = (if b = 0xC3#8 then .length else .hunt) ∧ OnlyTouches [.assembler] s t)
    ∧ (s.tgu.assembler = .length →
      ∃ t, exec (.linkByteReceived b false false) s = .next t
        ∧ t.tgu.assembler = (if b = 8#8 then .body [] 8 else .hunt)
        ∧ t.tgu.counters
            = (if b = 8#8 then s.tgu.counters else { s.tgu.counters with bad := s.tgu.counters.bad.bump }))
    ∧ (∀ got sum, s.tgu.assembler = .body got sum →
      ∃ t, exec (.linkByteReceived b false false) s = .next t
        ∧ t.tgu.assembler = (if got.length < 7 then .body (got ++ [b]) (sum + b.toNat)
            else .check (got ++ [b]) (sum + b.toNat))
        ∧ OnlyTouches [.assembler] s t)
    ∧ (∀ got sum, s.tgu.assembler = .check got sum →
      ((sum + b.toNat) % 256 ≠ 0 →
        ∃ t, exec (.linkByteReceived b false false) s = .next t ∧ t.tgu.assembler = .hunt
          ∧ t.tgu.counters = { s.tgu.counters with checksum := s.tgu.counters.checksum.bump }
          ∧ OnlyTouches [.assembler, .linkCounters] s t)
      ∧ ((sum + b.toNat) % 256 = 0 → readSighting got = none →
        ∃ t, exec (.linkByteReceived b false false) s = .next t ∧ t.tgu.assembler = .hunt
          ∧ t.tgu.counters = { s.tgu.counters with bad := s.tgu.counters.bad.bump }
          ∧ OnlyTouches [.assembler, .linkCounters] s t)
      ∧ (∀ x, (sum + b.toNat) % 256 = 0 → readSighting got = some x →
        ∃ t u : State, exec (.linkByteReceived b false false) s = .next t ∧ t.tgu.assembler = .hunt
          ∧ t = u.takeSighting x ∧ OnlyTouches [.assembler, .linkCounters] s u ∧ u.tgu.assembler = .hunt
          ∧ u.tgu.counters = { s.tgu.counters with whole := s.tgu.counters.whole.bump }
          ∧ t.tgu.counters.whole = s.tgu.counters.whole.bump
          ∧ ∃ n ∈ t.tgu.near, n.tag = x.tag ∧ n.kind = x.kind ∧ n.heading = x.heading ∧ n.loaded = x.loaded
              ∧ n.speed = x.speed ∧ n.lastSeen = s.ms))
    ∧ (s.tgu.assembler ≠ .hunt → s.linkHundredBits s.tgu.lastByte = true →
      ∃ t, exec .linkGapTimerExpiry s = .next t ∧ t.tgu.assembler = .hunt
        ∧ t.tgu.counters = { s.tgu.counters with bad := s.tgu.counters.bad.bump }
        ∧ OnlyTouches [.assembler, .linkCounters] s t))
  -- R136: the near table at a whole sighting
  ∧ (∀ (s : State) (x : Sighting),
      (∀ n, s.tgu.near.find? (fun y => decide (y.tag = x.tag)) = some n →
        ∃ (after : NearEntry) (u : State), after = judgeNear s.cfg.nearThreshold { n with
            strength := (3 * n.strength + x.strength) / 4, kind := x.kind, heading := x.heading, speed := x.speed,
            loaded := x.loaded, lastSeen := s.ms }
          ∧ OnlyTouches [.near] s u
          ∧ u.tgu.near = s.tgu.near.map (fun y => if y.tag = x.tag then after else y)
          ∧ s.takeSighting x = u.handOnSighting (some n) after s.personsNear)
      ∧ (s.tgu.near.find? (fun y => decide (y.tag = x.tag)) = none →
        (s.tgu.near.length < 64 →
          ∃ (after : NearEntry) (u : State), after = judgeNear s.cfg.nearThreshold {
              tag := x.tag, kind := x.kind, strength := x.strength, firstSeen := s.ms, lastSeen := s.ms,
              heading := x.heading, speed := x.speed, loaded := x.loaded, near := false, up := 0, down := 0 }
            ∧ OnlyTouches [.near] s u ∧ (∀ y, y ∈ u.tgu.near ↔ y = after ∨ y ∈ s.tgu.near)
            ∧ s.takeSighting x = u.handOnSighting none after s.personsNear)
        -- R136, R138, R139: the displacement from a full table
        ∧ (∀ v ∈ s.tgu.near, s.tgu.near.length = 64 → s.tgu.near.Pairwise (fun a b => a.tag < b.tag) →
          (∀ y ∈ s.tgu.near, y.tag ≠ v.tag → v.lastSeen < y.lastSeen ∨ (v.lastSeen = y.lastSeen
            ∧ (v.firstSeen < y.firstSeen ∨ (v.firstSeen = y.firstSeen ∧ v.tag < y.tag)))) →
          ∃ w u : State, OnlyTouches [.near] s w
            ∧ w.tgu.near = s.tgu.near.filter (fun y => decide (y.tag ≠ v.tag))
            ∧ (v.kind = .person ∧ v.near = true → u = w.laneEvaluate.onPorts (State.requestLive .vehicleReport))
            ∧ (v.kind ≠ .person ∨ v.near = false → u = w)
            ∧ s.takeSighting x = u.takeSighting x)))
  -- R137: the near judgement
  ∧ (∀ (threshold : Int) (n : NearEntry),
      (n.near = false →
        (threshold ≤ n.strength → n.up = 0 → judgeNear threshold n = { n with up := 1 })
        ∧ (threshold ≤ n.strength → 1 ≤ n.up → judgeNear threshold n = { n with near := true, up := 0, down := 0 })
        ∧ (n.strength < threshold → judgeNear threshold n = { n with up := 0 }))
      ∧ (n.near = true →
        (threshold - 4 ≤ n.strength → judgeNear threshold n = { n with down := 0 })
        ∧ (n.strength < threshold - 4 → n.down < 2 → judgeNear threshold n = { n with down := n.down + 1 })
        ∧ (n.strength < threshold - 4 → 2 ≤ n.down →
            judgeNear threshold n = { n with near := false, up := 0, down := 0 })))
  -- R139, R168: what a sighting hands on, in order
  ∧ (∀ (s : State) (before : Option NearEntry) (after : NearEntry) (count : Nat),
      ∃ a b c : State,
        -- the muster rule
        (s.aru.musterActive = false ∨ ¬ Musters s after ∨ after.tag ∈ s.aru.muster → a = s)
        ∧ (s.aru.musterActive = true → Musters s after → after.tag ∉ s.aru.muster →
          (s.aru.muster.length < 64 → a = s.setAru { s.aru with muster := s.aru.muster ++ [after.tag] })
          ∧ (64 ≤ s.aru.muster.length → a = s.setAru { s.aru with overflow := min 65535 (s.aru.overflow + 1) }))
        -- the own sighting of a truck
        ∧ (∀ r, r = enterTrack a.tgu.tracks {
              tag := after.tag, kind := after.kind, reporter := s.cfg.station, chainage := s.cfg.chainage,
              strength := after.strength, heading := after.heading, speed := after.speed, loaded := after.loaded, time := after.lastSeen } →
          (after.kind ≠ .person ∧ r.2 = true → b = a.setTracks r.1)
          ∧ (after.kind = .person ∨ r.2 = false → b = a)
          -- the lane monitor
          ∧ ((after.kind ≠ .person ∧ r.2 = true)
                ∨ (after.kind = .person ∧ (before.map NearEntry.near).getD false ≠ after.near) →
              c = b.laneEvaluate)
          ∧ ((after.kind ≠ .person ∧ r.2 = false)
                ∨ (after.kind = .person ∧ (before.map NearEntry.near).getD false = after.near) → c = b))
        -- the reports
        ∧ ((after.kind ≠ .person ∧ (∀ n, before = some n → n.heading ≠ after.heading ∨ n.loaded ≠ after.loaded))
              ∨ count ≠ c.personsNear →
            s.handOnSighting before after count = c.onPorts (State.requestLive .vehicleReport))
        ∧ (after.kind = .person ∨ (∃ n, before = some n ∧ n.heading = after.heading ∧ n.loaded = after.loaded) →
            count = c.personsNear → s.handOnSighting before after count = c))

/-- R138, R139, R142, R145 to R147, R149: the deadlines of the tag unit's tables, with the evaluation of the lane monitor
and the VEHICLE_REPORT requests that a near person's removal asks for, and the evaluation at a track's; the repeats of
advisories, and the end of a record on the vehicle link; and the discipline of the advisory queue: replace, join, displace,
drop and count. That an IDLE transmitter takes the first advisory at the very queueing is log 40 (DESIGN CHOICE). -/
def Obligations.TagDeadlinesResult : Prop :=
  (∀ s : State,
    (∀ n ∈ s.tgu.near, s.tgu.near.Pairwise (fun a b => a.tag < b.tag) →
      n.lastSeen + s.cfg.tagExpiry * 1000 ≤ s.ms →
      ∃ t u : State, exec (.nearEntryExpiry n.tag) s = .next t
        ∧ t.tgu.near = s.tgu.near.filter (fun x => decide (x.tag ≠ n.tag))
        ∧ OnlyTouches [.near] s u ∧ u.tgu.near = t.tgu.near
        ∧ (n.kind = .person ∧ n.near = true → t = u.laneEvaluate.onPorts (State.requestLive .vehicleReport))
        ∧ (n.kind ≠ .person ∨ n.near = false → t = u))
    ∧ (∀ x ∈ s.tgu.tracks, s.tgu.tracks.Pairwise (fun a b => a.tag < b.tag) → x.sighted + 30000 ≤ s.ms →
      ∃ t u : State, exec (.trackRemovalDeadline x.tag) s = .next t ∧ (∀ y ∈ t.tgu.tracks, y.tag ≠ x.tag)
        ∧ OnlyTouches [.tracks] s u ∧ u.tgu.tracks = s.tgu.tracks.filter (fun y => decide (y.tag ≠ x.tag))
        ∧ t = u.laneEvaluate
        ∧ (t.tgu.tracks.map Track.tag)
            = (s.tgu.tracks.filter (fun y => decide (y.tag ≠ x.tag))).map Track.tag)
    ∧ (∀ x ∈ s.tgu.tracks, s.tgu.tracks.Pairwise (fun a b => a.tag < b.tag) → ∀ a d, x.advisory = some a →
      x.repeatDue = some d → d ≤ s.ms →
      ∃ u : State, exec (.advisoryRepeatDeadline x.tag) s
          = .next (u.queueAdvisory { tag := x.tag, code := a, validity := 5 })
        ∧ OnlyTouches [.tracks] s u
        ∧ u.tgu.tracks
            = s.tgu.tracks.map (fun y => if y.tag = x.tag then { y with repeatDue := some (s.ms + 2000) } else y))
    ∧ (∀ d, s.tgu.evacDue = some d → d ≤ s.ms → s.cfg.link ≠ .notUsed →
      ∃ u : State, exec .evacuationRepeatTimer s
          = .next (u.queueAdvisory { tag := 16777215, code := .evacuate, validity := 10 })
        ∧ u.tgu = { s.tgu with evacDue := some (s.ms + 2000) } ∧ OnlyTouches [.evacuation] s u)
    ∧ (∀ x, s.tgu.sending = some x → s.linkHundredBits x.startedAt = true →
      (s.running = false ∨ s.tgu.advisories = [] →
        ∃ t, exec .advisorySendComplete s = .next t ∧ t.tgu = { s.tgu with sending := none })
      ∧ (∀ a more, s.running = true → s.tgu.advisories = a :: more →
        ∃ t, exec .advisorySendComplete s = .next t
          ∧ t.tgu = { s.tgu with
              advisories := more,
              sending := some { advisory := a, bytes := advisoryBytes a, startedAt := s.clock.usec } })))
  -- R147: the queue after a newcomer, and whether one is dropped
  ∧ (AdvisoryCode.severity .proceed < AdvisoryCode.severity .slow
      ∧ AdvisoryCode.severity .slow < AdvisoryCode.severity .hold
      ∧ AdvisoryCode.severity .hold < AdvisoryCode.severity .evacuate)
  ∧ (∀ (a : Advisory) (q : List Advisory),
      ((∃ x ∈ q, x.tag = a.tag) → enqueueAdvisory a q = (q.map (fun x => if x.tag = a.tag then a else x), false))
      ∧ ((∀ x ∈ q, x.tag ≠ a.tag) →
        (q.length < 8 → enqueueAdvisory a q = (q ++ [a], false))
        ∧ (∀ older v newer, q = older ++ v :: newer → 8 ≤ q.length →
            (∀ x ∈ older, v.code.severity < x.code.severity) → (∀ x ∈ newer, v.code.severity ≤ x.code.severity) →
            (a.code.severity < v.code.severity → enqueueAdvisory a q = (q, true))
            ∧ (v.code.severity ≤ a.code.severity → enqueueAdvisory a q = (older ++ newer ++ [a], true)))))
  -- R132, R147: a queueing
  ∧ (∀ (s : State) (a : Advisory),
      (s.cfg.link = .notUsed → s.queueAdvisory a = s)
      ∧ (s.cfg.link ≠ .notUsed →
        ∃ u : State, OnlyTouches [.advisories, .linkCounters] s u ∧ u.tgu.sending = s.tgu.sending
          ∧ u.tgu.advisories = (enqueueAdvisory a s.tgu.advisories).1
          ∧ u.tgu.counters = (if (enqueueAdvisory a s.tgu.advisories).2 = true
              then { s.tgu.counters with dropped := s.tgu.counters.dropped.bump } else s.tgu.counters)
          ∧ (s.running = false ∨ s.tgu.sending ≠ none → s.queueAdvisory a = u)
          ∧ (∀ x more, s.running = true → s.tgu.sending = none → u.tgu.advisories = x :: more →
              OnlyTouches [.advisories] u (s.queueAdvisory a)
              ∧ (s.queueAdvisory a).tgu.advisories = more
              ∧ (s.queueAdvisory a).tgu.sending
                  = some { advisory := x, bytes := advisoryBytes x, startedAt := s.clock.usec })))

/-- R142 to R146, R148, R149: a truck sighting in the track table; the lane state of a track; the winner and the losers;
and one evaluation of the lane monitor: the tracks, the advisories it queues and the lamps it sets. The general EVACUATE
is queued before the trucks' advisories, and those in table order (log 13, DESIGN CHOICE). The 1 s event evaluates. -/
def Obligations.LaneMonitorResult : Prop :=
  -- R142
  (∀ (ts : List Track) (x : TruckSighting),
    (∀ t, ts.find? (fun y => decide (y.tag = x.tag)) = some t →
      (x.reporter = t.reporter ∨ t.strength + 6 < x.strength ∨ t.sighted + 3000 < x.time →
        enterTrack ts x = (ts.map (fun u => if u.tag = x.tag then { u with
            kind := x.kind, reporter := x.reporter, chainage := x.chainage, strength := x.strength,
            heading := x.heading, speed := x.speed, loaded := x.loaded, sighted := x.time } else u), true))
      ∧ (x.reporter ≠ t.reporter → x.strength ≤ t.strength + 6 → x.time ≤ t.sighted + 3000 →
        enterTrack ts x = (ts, false)))
    ∧ (ts.find? (fun y => decide (y.tag = x.tag)) = none →
      ∀ new : Track, new = {
          tag := x.tag, kind := x.kind, reporter := x.reporter, chainage := x.chainage,
          strength := x.strength, heading := x.heading, speed := x.speed, loaded := x.loaded, sighted := x.time,
          lane := .outside, dir := none, entered := none, advisory := none, repeatDue := none } →
      (ts.length < 16 → (enterTrack ts x).2 = true ∧ ∀ y, y ∈ (enterTrack ts x).1 ↔ y = new ∨ y ∈ ts)
      ∧ (16 ≤ ts.length → (∀ y ∈ ts, y.lane ≠ .outside) → enterTrack ts x = (ts, false))
      ∧ (∀ v, 16 ≤ ts.length → v ∈ ts → v.lane = .outside →
          (∀ y ∈ ts, y.lane = .outside → y.tag ≠ v.tag → v.sighted < y.sighted ∨ v.sighted = y.sighted ∧ v.tag < y.tag) →
          ts.Pairwise (fun a b => a.tag < b.tag) →
          (enterTrack ts x).2 = true
            ∧ ∀ y, y ∈ (enterTrack ts x).1 ↔ y = new ∨ (y ∈ ts ∧ y.tag ≠ v.tag))))
  ∧ (∀ (s : State) (x : TruckSighting),
      ((enterTrack s.tgu.tracks x).2 = true →
        s.truckSighting x = (s.setTracks (enterTrack s.tgu.tracks x).1).laneEvaluate)
      ∧ ((enterTrack s.tgu.tracks x).2 = false → s.truckSighting x = s))
  -- R143
  ∧ (∀ (x : LaneSection) (now : Nat) (t u : Track), u = placeTrack (some x) now t → x.pLow ≤ x.pHigh →
      (x.pLow ≤ t.chainage → t.chainage ≤ x.pHigh → u = { t with
          lane := .inSection,
          dir := (match t.heading with
            | .inbye => some .inbye
            | .outbye => some .outbye
            | .stopped => t.dir),
          entered := if t.lane = .outside then some now else t.entered })
      ∧ (x.pLow ≤ t.chainage + x.approach → t.chainage < x.pLow →
          t.heading = .inbye ∨ (t.heading = .stopped ∧ t.lane = .approaching ∧ t.dir = some .inbye) →
          u = { t with lane := .approaching, dir := some .inbye,
                       entered := if t.lane = .outside then some now else t.entered })
      ∧ (x.pHigh < t.chainage → t.chainage ≤ x.pHigh + x.approach →
          t.heading = .outbye ∨ (t.heading = .stopped ∧ t.lane = .approaching ∧ t.dir = some .outbye) →
          u = { t with lane := .approaching, dir := some .outbye,
                       entered := if t.lane = .outside then some now else t.entered })
      ∧ (t.chainage + x.approach < x.pLow ∨ x.pHigh + x.approach < t.chainage
          ∨ (t.chainage < x.pLow ∧ t.heading ≠ .inbye
              ∧ (t.heading = .outbye ∨ t.lane ≠ .approaching ∨ t.dir ≠ some .inbye))
          ∨ (x.pHigh < t.chainage ∧ t.heading ≠ .outbye
              ∧ (t.heading = .inbye ∨ t.lane ≠ .approaching ∨ t.dir ≠ some .outbye)) →
          u = { t with lane := .outside, dir := none, entered := none, advisory := none, repeatDue := none }))
  -- R144
  ∧ (∀ ts : List Track,
      (winnerOf ts = none ↔ ∀ t ∈ ts, t.lane = .outside)
      ∧ (∀ w, winnerOf ts = some w → w ∈ ts ∧ w.lane ≠ .outside
          ∧ ∀ t ∈ ts, t.lane ≠ .outside → t.tag ≠ w.tag → ClaimsBefore w t))
  ∧ (∀ w t : Track, isLoser w t = true ↔ t.tag ≠ w.tag ∧ (t.dir ≠ w.dir ∨ t.dir = none ∨ w.dir = none))
  -- R145, R146, R148, R149
  ∧ (∀ s : State, s.running = false → s.laneEvaluate = s)
  ∧ (∀ (s : State) (placed : List Track) (near : Prop), s.running = true →
      placed = s.tgu.tracks.map (placeTrack s.cfg.lane s.ms) →
      (near ↔ ∃ n ∈ s.tgu.near, n.kind = .person ∧ n.near = true) →
      ∃ (advised : List Track) (general queued : List Advisory) (u : State),
        s.laneEvaluate = (general ++ queued).foldl (fun v a => State.queueAdvisory a v) u
        ∧ general = (if s.evacuation = true ∧ s.tgu.evacHeld = false ∧ s.cfg.link ≠ .notUsed
            then [{ tag := 16777215, code := .evacuate, validity := 10 }] else [])
        ∧ OnlyTouches [.tracks, .evacuation, .lamps] s u ∧ u.tgu.tracks = advised
        ∧ u.tgu.evacHeld = s.evacuation
        ∧ u.tgu.evacDue = (if s.evacuation = false then none
            else if s.tgu.evacHeld = false ∧ s.cfg.link ≠ .notUsed then some (s.ms + 2000) else s.tgu.evacDue)
        ∧ (s.cfg.lane = none → advised = placed ∧ queued = [] ∧ u.iou = s.iou)
        ∧ (∀ x, s.cfg.lane = some x →
          (∃ choice : Track → AdvisoryCode,
            (∀ t, (s.zae.lockout = true → choice t = if t.lane = .inSection then .slow else .hold)
              ∧ (s.zae.lockout = false →
                ((∃ w, winnerOf placed = some w ∧ isLoser w t = true) → choice t = .hold)
                ∧ ((∀ w, winnerOf placed = some w → isLoser w t = false) →
                    (near → choice t = .slow) ∧ (¬ near → choice t = .proceed))))
            ∧ advised = placed.map (fun t =>
                if t.lane = .outside then t
                else if s.evacuation = true then { t with advisory := none, repeatDue := none }
                else if t.advisory = some (choice t) then t
                else { t with advisory := some (choice t), repeatDue := some (s.ms + 2000) })
            ∧ queued = (placed.filter (fun t => decide (t.lane ≠ .outside ∧ s.evacuation = false
                ∧ t.advisory ≠ some (choice t)))).map (fun t => { tag := t.tag, code := choice t, validity := 5 }))
          ∧ (s.evacuation = true → u.iou.lampOut = some ⟨.red, .fast⟩ ∧ u.iou.lampIn = some ⟨.red, .fast⟩)
          ∧ (s.evacuation = false → s.zae.lockout = true →
              u.iou.lampOut = some ⟨.red, .steady⟩ ∧ u.iou.lampIn = some ⟨.red, .steady⟩)
          ∧ (s.evacuation = false → s.zae.lockout = false →
            (winnerOf placed = none →
              u.iou.lampOut = some ⟨.green, .steady⟩ ∧ u.iou.lampIn = some ⟨.green, .steady⟩)
            ∧ (∀ w green, winnerOf placed = some w →
              (near ∧ green = LampSetting.mk .amber .slow ∨ ¬ near ∧ green = LampSetting.mk .green .steady) →
              u.iou.lampOut = some (if w.dir = some .inbye then green else ⟨.red, .steady⟩)
              ∧ u.iou.lampIn = some (if w.dir = some .outbye then green else ⟨.red, .steady⟩)))))
  ∧ (∀ s : State, s.clock.secondDue ≤ s.ms → s.started = true →
      ∃ u : State, exec .secondsEvent s = .next u.laneEvaluate ∧ OnlyTouches (.clock :: lockoutFoot) s u
        ∧ u.tgu.tracks.length = s.tgu.tracks.length)

/-! ### Alarms -/

/-- R154, R155, R165, R167: the repeat of a delivery queues the same frame again with its count raised; a CLEARED entry
leaves the table at its linger deadline, with its indication and the hand-on of R160; the end of a test window decides the
sounder afresh. R160, R167, R168: handing a change on ends with the test of muster and then the sounder; the sounder
pattern row by row; and muster's beginning, with its sweep of the near table, and its end. -/
def Obligations.AlarmTimersResult : Prop :=
  (∀ (s : State),
    (∀ p id d, (s.deliveriesOn p).find? (fun x => decide (x.id = id) && s.dueMs x.repeatDue) = some d →
      ∃ u : State, exec (.deliveryRepeatTimer p id.origin id.number) s
          = .next (u.queueRequest p { TxEntry.fixed d.frame .alarm .aru with relayed := decide (d.source = .relay) })
        ∧ OnlyTouches [.deliveries p] s u
        ∧ u.deliveriesOn p = (s.deliveriesOn p).map (fun x => if x.id = id
            then { x with transmissions := x.transmissions + 1, phase := .queued, repeatDue := none } else x))
    ∧ (∀ a id n, s.findAlarm id = some a → a.linger = some n → n ≤ s.ms →
      ∃ t, exec (.lingerDeadline id.origin id.number) s = .next t ∧ RemovesAlarm s t a
        ∧ t.aru.alarms = s.aru.alarms.filter (fun x => decide (x.id ≠ id)))
    ∧ (∀ a id n, s.findAlarm id = some a → a.testUntil = some n → n ≤ s.ms →
      ∃ t, exec (.testWindowExpiry id.origin id.number) s = .next t
        ∧ t.aru.alarms = s.aru.alarms.map (fun x => if x.id = id then { a with testUntil := none } else x)
        ∧ t.iou.sounder = t.sounderPattern ∧ OnlyTouches [.alarms, .sounder] s t))
  -- R160, steps 2 to 6
  ∧ (∀ (s : State) (a : Alarm) (removed : Bool) (t : State), t = (s.handOn a removed).1 →
      ∃ u v : State, v = u.testMuster ∧ OnlyTouches [.sounder] v t ∧ t.iou.sounder = t.sounderPattern
        ∧ OnlyTouches ([.references, .channels] ++ lockoutFoot) s u
        ∧ (a.id.origin = s.cfg.station → removed = true ∨ a.state = .cleared →
            u.aru.pullRef = (if s.aru.pullRef = some a.id.number then none else s.aru.pullRef)
            ∧ u.aru.doorRef = (if s.aru.doorRef = some a.id.number then none else s.aru.doorRef)
            ∧ ∀ c, (u.channel c).raised ≠ some a.id.number)
        ∧ (a.id.origin ≠ s.cfg.station → u.aru = s.aru ∧ u.acu = s.acu))
  -- R167: the sounder pattern
  ∧ (∀ (s : State) (evacuation warning door test : Prop),
      (evacuation ↔ ∃ a, Sounds s a ∧ (a.kind = .fire ∨ a.kind = .evacuate ∨ a.kind = .gas)) →
      (warning ↔ ∃ a, Sounds s a ∧ (a.kind = .vent ∨ a.kind = .pullcord)) →
      (door ↔ s.cfg.refuge = true ∧ ∃ a, Sounds s a ∧ a.kind = .refugeDoor) →
      (test ↔ ∃ a, Sounds s a ∧ a.kind = .test ∧ a.testUntil ≠ none) →
      (s.sounderPattern = .fast ↔ evacuation)
      ∧ (s.sounderPattern = .slow ↔ ¬ evacuation ∧ (warning ∨ door ∨ test))
      ∧ (s.sounderPattern = .off ↔ ¬ evacuation ∧ ¬ warning ∧ ¬ door ∧ ¬ test))
  -- R168: muster begins, goes on, ends
  ∧ (∀ s : State,
      (s.cfg.refuge = true → Evacuates s → s.aru.musterActive = true → s.testMuster = s)
      ∧ (s.cfg.refuge = true → Evacuates s → s.aru.musterActive = false → s.aru.muster = [] →
        s.tgu.near.length ≤ 64 → s.tgu.near.Pairwise (fun x y => x.tag < y.tag) →
        ∃ swept : List NearEntry, swept.Sublist s.tgu.near ∧ (∀ n, n ∈ swept ↔ n ∈ s.tgu.near ∧ Musters s n)
          ∧ s.testMuster = s.setAru { s.aru with musterActive := true, muster := swept.map NearEntry.tag })
      ∧ (s.cfg.refuge = false ∨ ¬ Evacuates s →
        s.testMuster = s.setAru { s.aru with musterActive := false, muster := [], overflow := 0 }))

/-- R159: one alarm record merged. An unknown alarm is added in the record's state, kind and scope with ADDED (R153, R154,
R163) while the table has room, and from a full one in the place of the entry it displaces, or not at all (R153, R155); a
later state is taken with ADVANCED; the same or an earlier one changes nothing. Each change is handed on (R160). The state
held after a merge is the record's, but for a record that brings an alarm of the own origin to ACKNOWLEDGED with its channel
at NORMAL, which R94 clears at once. The kind and scope of a held entry stand, and no held entry moves back. -/
def Obligations.MergeAlarmResult : Prop :=
  ∀ (s : State) (r : AlarmRecord),
    (s.findAlarm r.id = none → s.aru.alarms.length < 16 →
      ∃ a, (s.mergeAlarm r).findAlarm r.id = some a ∧ a.kind = r.kind ∧ a.scope = r.scope ∧ a.firstHeard = s.ms
        ∧ (a.silenced = true ↔ ∃ x ∈ s.aru.alarms, x.silenced = true ∧ r.kind.severity ≤ x.kind.severity)
        ∧ (¬ AsksClear s r.id r.state → a.state = r.state) ∧ (AsksClear s r.id r.state → a.state = .cleared)
        ∧ (a.state = .cleared → a.linger = some (s.ms + 60000)) ∧ (a.state ≠ .cleared → a.linger = none)
        ∧ (a.testUntil = if r.kind = .test then some (s.ms + 5000) else none)
        ∧ (∀ x ∈ s.aru.alarms, x ∈ (s.mergeAlarm r).aru.alarms)
        -- R154, R160: the entry as it is added, its indication and its hand-on
        ∧ ∃ (u : State) (b : Alarm), b.id = r.id ∧ b.kind = r.kind ∧ b.scope = r.scope ∧ b.state = r.state
          ∧ AddsAlarm s u b ∧ (¬ AsksClear s r.id r.state → s.mergeAlarm r = (u.handOn b false).1)
          ∧ (AsksClear s r.id r.state → s.mergeAlarm r = (u.handOn b false).1.clearAsOrigin r.id))
    -- R153: the table is full
    ∧ (∀ v, s.findAlarm r.id = none → s.aru.alarms.length = 16 → Displaces s.aru.alarms r.kind.severity r.state v →
      ∃ u : State, RemovesAlarm s u v ∧ u.aru.alarms = s.aru.alarms.filter (fun x => decide (x.id ≠ v.id))
        ∧ OnlyTouches ([.alarms, .indications] ++ handOnFoot) s u
        ∧ u.spu = (takeIn (.alarmChange v.id v.kind v.scope v.state .removed) s).spu
        ∧ s.mergeAlarm r = u.mergeAlarm r)
    ∧ (s.findAlarm r.id = none → 16 ≤ s.aru.alarms.length → (∀ v, ¬ Displaces s.aru.alarms r.kind.severity r.state v) →
      s.mergeAlarm r = s)
    ∧ (∀ a, s.findAlarm r.id = some a → r.state.rank ≤ a.state.rank → s.mergeAlarm r = s)
    ∧ (∀ a, s.findAlarm r.id = some a → a.state.rank < r.state.rank →
      ∃ b, (s.mergeAlarm r).findAlarm r.id = some b ∧ b.kind = a.kind
        ∧ b.scope = a.scope ∧ b.firstHeard = a.firstHeard ∧ b.silenced = a.silenced
        ∧ (¬ AsksClear s r.id r.state → b.state = r.state) ∧ (AsksClear s r.id r.state → b.state = .cleared)
        ∧ (b.state = .cleared → b.linger = some (s.ms + 60000)) ∧ (b.state ≠ .cleared → b.linger = a.linger)
        -- R159, R160: the entry as it is advanced, its indication and its hand-on
        ∧ ∃ (u : State) (later : Alarm), later = { a with
              state := r.state, linger := if r.state = .cleared then some (s.ms + 60000) else a.linger }
          ∧ AdvancesAlarm s u later ∧ (¬ AsksClear s r.id r.state → s.mergeAlarm r = (u.handOn later false).1)
          ∧ (AsksClear s r.id r.state → s.mergeAlarm r = (u.handOn later false).1.clearAsOrigin r.id))
    ∧ (∀ id a b, s.findAlarm id = some a → (s.mergeAlarm r).findAlarm id = some b → a.state.rank ≤ b.state.rank)

/-- R164, R165: the delivery of an own change on a port: its frame, of class ALARM to all stations with the map-request
flag set, its record, which takes over the alarm's record there in its place (log 14, DEDUCED), and the queue request. An
outcome of a delivery's pending frame joins its hear map. With every expected slot heard the record is removed; with slots
missing and fewer than six transmissions it waits 500 ms for its repeat; with slots missing after the sixth it is removed
and DELIVERY_INCOMPLETE is placed. -/
def Obligations.DeliveryOutcomeResult : Prop :=
  (∀ (s : State) (p : Port) (frame : List Byte) (map : List Nat) (d : Delivery),
    (s.deliveriesOn p).find? (fun x => decide (frameKey x.frame = frameKey frame)) = some d →
    ((∀ n ∈ s.expectedSlots p, n ∈ d.hearMap ∨ n ∈ map) →
      (s.deliveryOutcome p frame map).deliveriesOn p = (s.deliveriesOn p).filter (fun x => decide (x.id ≠ d.id))
        ∧ OnlyTouches [.deliveries p] s (s.deliveryOutcome p frame map))
    ∧ ((∃ n ∈ s.expectedSlots p, n ∉ d.hearMap ∧ n ∉ map) →
      (d.transmissions < 6 →
        ∃ heard, (∀ n, n ∈ heard ↔ n < 64 ∧ (n ∈ d.hearMap ∨ n ∈ map))
          ∧ (s.deliveryOutcome p frame map).deliveriesOn p = (s.deliveriesOn p).map (fun x => if x.id = d.id
              then { x with hearMap := heard, phase := .waiting, repeatDue := some (s.ms + 500) } else x)
          ∧ OnlyTouches [.deliveries p] s (s.deliveryOutcome p frame map))
      ∧ (6 ≤ d.transmissions →
        (s.deliveryOutcome p frame map).deliveriesOn p = (s.deliveriesOn p).filter (fun x => decide (x.id ≠ d.id))
        ∧ (s.urgentHeld < 32 → ∃ n lost, (s.deliveryOutcome p frame map).spu.ind.getLast?
            = some { record := .deliveryIncomplete d.id p n, lost := lost }
            ∧ n = ((s.expectedSlots p).filter (fun k => !(d.hearMap.contains k) && !(map.contains k))).length))))
  -- R164
  ∧ (∀ (s : State) (p : Port) (a : Alarm) (f : List Byte) (d : Delivery),
      f = buildFrame s.cfg.station 4095 .alarm true s.fre.seq [.alarm [{
        id := a.id, kind := a.kind, state := a.state, scope := a.scope,
        age := min 65535 ((s.ms - a.firstHeard) / 1000) }]] →
      d = { id := a.id, source := .own, frame := f, alarmState := a.state, transmissions := 1, hearMap := [],
            phase := .queued, repeatDue := none } →
      ∃ r u : State, OnlyTouches [.sequence] s r ∧ r.fre.seq = (s.fre.seq + 1) % 65536 ∧ HoldsDelivery p d r u
        ∧ State.openOwn a p s = u.queueRequest p (TxEntry.fixed f .alarm .aru))

end
end

