-- ==== Sys2Proof/Laws/State.lean ====
section
/-! SUPPORT. What one update does to each field, and to what is read through it. -/

namespace Sys2Proof.Machine

/-! ### setPending -/

@[simp] theorem setPending_pending (s : State) (x : List Instr) : (s.setPending x).pending = x := rfl
@[simp] theorem setPending_clock (s : State) (x : List Instr) : (s.setPending x).clock = s.clock := rfl
@[simp] theorem setPending_draws (s : State) (x : List Instr) : (s.setPending x).draws = s.draws := rfl
@[simp] theorem setPending_spu (s : State) (x : List Instr) : (s.setPending x).spu = s.spu := rfl
@[simp] theorem setPending_fre (s : State) (x : List Instr) : (s.setPending x).fre = s.fre := rfl
@[simp] theorem setPending_lau (s : State) (x : List Instr) : (s.setPending x).lau = s.lau := rfl
@[simp] theorem setPending_pru (s : State) (x : List Instr) : (s.setPending x).pru = s.pru := rfl
@[simp] theorem setPending_acu (s : State) (x : List Instr) : (s.setPending x).acu = s.acu := rfl
@[simp] theorem setPending_zae (s : State) (x : List Instr) : (s.setPending x).zae = s.zae := rfl
@[simp] theorem setPending_bpk (s : State) (x : List Instr) : (s.setPending x).bpk = s.bpk := rfl
@[simp] theorem setPending_clu (s : State) (x : List Instr) : (s.setPending x).clu = s.clu := rfl
@[simp] theorem setPending_tgu (s : State) (x : List Instr) : (s.setPending x).tgu = s.tgu := rfl
@[simp] theorem setPending_aru (s : State) (x : List Instr) : (s.setPending x).aru = s.aru := rfl
@[simp] theorem setPending_iou (s : State) (x : List Instr) : (s.setPending x).iou = s.iou := rfl
@[simp] theorem setPending_cfg (s : State) (x : List Instr) : (s.setPending x).cfg = s.cfg := rfl
@[simp] theorem setPending_started (s : State) (x : List Instr) : (s.setPending x).started = s.started := rfl
@[simp] theorem setPending_running (s : State) (x : List Instr) : (s.setPending x).running = s.running := rfl
@[simp] theorem setPending_ms (s : State) (x : List Instr) : (s.setPending x).ms = s.ms := rfl
@[simp] theorem setPending_port (s : State) (x : List Instr) (p : Port) : (s.setPending x).port p = s.port p := rfl

/-! ### setClock -/

@[simp] theorem setClock_pending (s : State) (x : Clock) : (s.setClock x).pending = s.pending := rfl
@[simp] theorem setClock_clock (s : State) (x : Clock) : (s.setClock x).clock = x := rfl
@[simp] theorem setClock_draws (s : State) (x : Clock) : (s.setClock x).draws = s.draws := rfl
@[simp] theorem setClock_spu (s : State) (x : Clock) : (s.setClock x).spu = s.spu := rfl
@[simp] theorem setClock_fre (s : State) (x : Clock) : (s.setClock x).fre = s.fre := rfl
@[simp] theorem setClock_lau (s : State) (x : Clock) : (s.setClock x).lau = s.lau := rfl
@[simp] theorem setClock_pru (s : State) (x : Clock) : (s.setClock x).pru = s.pru := rfl
@[simp] theorem setClock_acu (s : State) (x : Clock) : (s.setClock x).acu = s.acu := rfl
@[simp] theorem setClock_zae (s : State) (x : Clock) : (s.setClock x).zae = s.zae := rfl
@[simp] theorem setClock_bpk (s : State) (x : Clock) : (s.setClock x).bpk = s.bpk := rfl
@[simp] theorem setClock_clu (s : State) (x : Clock) : (s.setClock x).clu = s.clu := rfl
@[simp] theorem setClock_tgu (s : State) (x : Clock) : (s.setClock x).tgu = s.tgu := rfl
@[simp] theorem setClock_aru (s : State) (x : Clock) : (s.setClock x).aru = s.aru := rfl
@[simp] theorem setClock_iou (s : State) (x : Clock) : (s.setClock x).iou = s.iou := rfl
@[simp] theorem setClock_cfg (s : State) (x : Clock) : (s.setClock x).cfg = s.cfg := rfl
@[simp] theorem setClock_started (s : State) (x : Clock) : (s.setClock x).started = s.started := rfl
@[simp] theorem setClock_running (s : State) (x : Clock) : (s.setClock x).running = s.running := rfl
@[simp] theorem setClock_port (s : State) (x : Clock) (p : Port) : (s.setClock x).port p = s.port p := rfl

/-! ### setDraws -/

@[simp] theorem setDraws_pending (s : State) (x : Nat) : (s.setDraws x).pending = s.pending := rfl
@[simp] theorem setDraws_clock (s : State) (x : Nat) : (s.setDraws x).clock = s.clock := rfl
@[simp] theorem setDraws_draws (s : State) (x : Nat) : (s.setDraws x).draws = x := rfl
@[simp] theorem setDraws_spu (s : State) (x : Nat) : (s.setDraws x).spu = s.spu := rfl
@[simp] theorem setDraws_fre (s : State) (x : Nat) : (s.setDraws x).fre = s.fre := rfl
@[simp] theorem setDraws_lau (s : State) (x : Nat) : (s.setDraws x).lau = s.lau := rfl
@[simp] theorem setDraws_pru (s : State) (x : Nat) : (s.setDraws x).pru = s.pru := rfl
@[simp] theorem setDraws_acu (s : State) (x : Nat) : (s.setDraws x).acu = s.acu := rfl
@[simp] theorem setDraws_zae (s : State) (x : Nat) : (s.setDraws x).zae = s.zae := rfl
@[simp] theorem setDraws_bpk (s : State) (x : Nat) : (s.setDraws x).bpk = s.bpk := rfl
@[simp] theorem setDraws_clu (s : State) (x : Nat) : (s.setDraws x).clu = s.clu := rfl
@[simp] theorem setDraws_tgu (s : State) (x : Nat) : (s.setDraws x).tgu = s.tgu := rfl
@[simp] theorem setDraws_aru (s : State) (x : Nat) : (s.setDraws x).aru = s.aru := rfl
@[simp] theorem setDraws_iou (s : State) (x : Nat) : (s.setDraws x).iou = s.iou := rfl
@[simp] theorem setDraws_cfg (s : State) (x : Nat) : (s.setDraws x).cfg = s.cfg := rfl
@[simp] theorem setDraws_started (s : State) (x : Nat) : (s.setDraws x).started = s.started := rfl
@[simp] theorem setDraws_running (s : State) (x : Nat) : (s.setDraws x).running = s.running := rfl
@[simp] theorem setDraws_ms (s : State) (x : Nat) : (s.setDraws x).ms = s.ms := rfl
@[simp] theorem setDraws_port (s : State) (x : Nat) (p : Port) : (s.setDraws x).port p = s.port p := rfl

/-! ### setSpu -/

@[simp] theorem setSpu_pending (s : State) (x : Spu) : (s.setSpu x).pending = s.pending := rfl
@[simp] theorem setSpu_clock (s : State) (x : Spu) : (s.setSpu x).clock = s.clock := rfl
@[simp] theorem setSpu_draws (s : State) (x : Spu) : (s.setSpu x).draws = s.draws := rfl
@[simp] theorem setSpu_spu (s : State) (x : Spu) : (s.setSpu x).spu = x := rfl
@[simp] theorem setSpu_fre (s : State) (x : Spu) : (s.setSpu x).fre = s.fre := rfl
@[simp] theorem setSpu_lau (s : State) (x : Spu) : (s.setSpu x).lau = s.lau := rfl
@[simp] theorem setSpu_pru (s : State) (x : Spu) : (s.setSpu x).pru = s.pru := rfl
@[simp] theorem setSpu_acu (s : State) (x : Spu) : (s.setSpu x).acu = s.acu := rfl
@[simp] theorem setSpu_zae (s : State) (x : Spu) : (s.setSpu x).zae = s.zae := rfl
@[simp] theorem setSpu_bpk (s : State) (x : Spu) : (s.setSpu x).bpk = s.bpk := rfl
@[simp] theorem setSpu_clu (s : State) (x : Spu) : (s.setSpu x).clu = s.clu := rfl
@[simp] theorem setSpu_tgu (s : State) (x : Spu) : (s.setSpu x).tgu = s.tgu := rfl
@[simp] theorem setSpu_aru (s : State) (x : Spu) : (s.setSpu x).aru = s.aru := rfl
@[simp] theorem setSpu_iou (s : State) (x : Spu) : (s.setSpu x).iou = s.iou := rfl
@[simp] theorem setSpu_ms (s : State) (x : Spu) : (s.setSpu x).ms = s.ms := rfl
@[simp] theorem setSpu_port (s : State) (x : Spu) (p : Port) : (s.setSpu x).port p = s.port p := rfl

/-! ### setFre -/

@[simp] theorem setFre_pending (s : State) (x : Fre) : (s.setFre x).pending = s.pending := rfl
@[simp] theorem setFre_clock (s : State) (x : Fre) : (s.setFre x).clock = s.clock := rfl
@[simp] theorem setFre_draws (s : State) (x : Fre) : (s.setFre x).draws = s.draws := rfl
@[simp] theorem setFre_spu (s : State) (x : Fre) : (s.setFre x).spu = s.spu := rfl
@[simp] theorem setFre_fre (s : State) (x : Fre) : (s.setFre x).fre = x := rfl
@[simp] theorem setFre_lau (s : State) (x : Fre) : (s.setFre x).lau = s.lau := rfl
@[simp] theorem setFre_pru (s : State) (x : Fre) : (s.setFre x).pru = s.pru := rfl
@[simp] theorem setFre_acu (s : State) (x : Fre) : (s.setFre x).acu = s.acu := rfl
@[simp] theorem setFre_zae (s : State) (x : Fre) : (s.setFre x).zae = s.zae := rfl
@[simp] theorem setFre_bpk (s : State) (x : Fre) : (s.setFre x).bpk = s.bpk := rfl
@[simp] theorem setFre_clu (s : State) (x : Fre) : (s.setFre x).clu = s.clu := rfl
@[simp] theorem setFre_tgu (s : State) (x : Fre) : (s.setFre x).tgu = s.tgu := rfl
@[simp] theorem setFre_aru (s : State) (x : Fre) : (s.setFre x).aru = s.aru := rfl
@[simp] theorem setFre_iou (s : State) (x : Fre) : (s.setFre x).iou = s.iou := rfl
@[simp] theorem setFre_cfg (s : State) (x : Fre) : (s.setFre x).cfg = s.cfg := rfl
@[simp] theorem setFre_started (s : State) (x : Fre) : (s.setFre x).started = s.started := rfl
@[simp] theorem setFre_running (s : State) (x : Fre) : (s.setFre x).running = s.running := rfl
@[simp] theorem setFre_ms (s : State) (x : Fre) : (s.setFre x).ms = s.ms := rfl
@[simp] theorem setFre_port (s : State) (x : Fre) (p : Port) : (s.setFre x).port p = s.port p := rfl

/-! ### setLaus -/

@[simp] theorem setLaus_pending (s : State) (x : PortPair Lau) : (s.setLaus x).pending = s.pending := rfl
@[simp] theorem setLaus_clock (s : State) (x : PortPair Lau) : (s.setLaus x).clock = s.clock := rfl
@[simp] theorem setLaus_draws (s : State) (x : PortPair Lau) : (s.setLaus x).draws = s.draws := rfl
@[simp] theorem setLaus_spu (s : State) (x : PortPair Lau) : (s.setLaus x).spu = s.spu := rfl
@[simp] theorem setLaus_fre (s : State) (x : PortPair Lau) : (s.setLaus x).fre = s.fre := rfl
@[simp] theorem setLaus_lau (s : State) (x : PortPair Lau) : (s.setLaus x).lau = x := rfl
@[simp] theorem setLaus_pru (s : State) (x : PortPair Lau) : (s.setLaus x).pru = s.pru := rfl
@[simp] theorem setLaus_acu (s : State) (x : PortPair Lau) : (s.setLaus x).acu = s.acu := rfl
@[simp] theorem setLaus_zae (s : State) (x : PortPair Lau) : (s.setLaus x).zae = s.zae := rfl
@[simp] theorem setLaus_bpk (s : State) (x : PortPair Lau) : (s.setLaus x).bpk = s.bpk := rfl
@[simp] theorem setLaus_clu (s : State) (x : PortPair Lau) : (s.setLaus x).clu = s.clu := rfl
@[simp] theorem setLaus_tgu (s : State) (x : PortPair Lau) : (s.setLaus x).tgu = s.tgu := rfl
@[simp] theorem setLaus_aru (s : State) (x : PortPair Lau) : (s.setLaus x).aru = s.aru := rfl
@[simp] theorem setLaus_iou (s : State) (x : PortPair Lau) : (s.setLaus x).iou = s.iou := rfl
@[simp] theorem setLaus_cfg (s : State) (x : PortPair Lau) : (s.setLaus x).cfg = s.cfg := rfl
@[simp] theorem setLaus_started (s : State) (x : PortPair Lau) : (s.setLaus x).started = s.started := rfl
@[simp] theorem setLaus_running (s : State) (x : PortPair Lau) : (s.setLaus x).running = s.running := rfl
@[simp] theorem setLaus_ms (s : State) (x : PortPair Lau) : (s.setLaus x).ms = s.ms := rfl

/-! ### setPru -/

@[simp] theorem setPru_pending (s : State) (x : Pru) : (s.setPru x).pending = s.pending := rfl
@[simp] theorem setPru_clock (s : State) (x : Pru) : (s.setPru x).clock = s.clock := rfl
@[simp] theorem setPru_draws (s : State) (x : Pru) : (s.setPru x).draws = s.draws := rfl
@[simp] theorem setPru_spu (s : State) (x : Pru) : (s.setPru x).spu = s.spu := rfl
@[simp] theorem setPru_fre (s : State) (x : Pru) : (s.setPru x).fre = s.fre := rfl
@[simp] theorem setPru_lau (s : State) (x : Pru) : (s.setPru x).lau = s.lau := rfl
@[simp] theorem setPru_pru (s : State) (x : Pru) : (s.setPru x).pru = x := rfl
@[simp] theorem setPru_acu (s : State) (x : Pru) : (s.setPru x).acu = s.acu := rfl
@[simp] theorem setPru_zae (s : State) (x : Pru) : (s.setPru x).zae = s.zae := rfl
@[simp] theorem setPru_bpk (s : State) (x : Pru) : (s.setPru x).bpk = s.bpk := rfl
@[simp] theorem setPru_clu (s : State) (x : Pru) : (s.setPru x).clu = s.clu := rfl
@[simp] theorem setPru_tgu (s : State) (x : Pru) : (s.setPru x).tgu = s.tgu := rfl
@[simp] theorem setPru_aru (s : State) (x : Pru) : (s.setPru x).aru = s.aru := rfl
@[simp] theorem setPru_iou (s : State) (x : Pru) : (s.setPru x).iou = s.iou := rfl
@[simp] theorem setPru_cfg (s : State) (x : Pru) : (s.setPru x).cfg = s.cfg := rfl
@[simp] theorem setPru_started (s : State) (x : Pru) : (s.setPru x).started = s.started := rfl
@[simp] theorem setPru_running (s : State) (x : Pru) : (s.setPru x).running = s.running := rfl
@[simp] theorem setPru_ms (s : State) (x : Pru) : (s.setPru x).ms = s.ms := rfl
@[simp] theorem setPru_port (s : State) (x : Pru) (p : Port) : (s.setPru x).port p = s.port p := rfl

/-! ### setAcu -/

@[simp] theorem setAcu_pending (s : State) (x : Acu) : (s.setAcu x).pending = s.pending := rfl
@[simp] theorem setAcu_clock (s : State) (x : Acu) : (s.setAcu x).clock = s.clock := rfl
@[simp] theorem setAcu_draws (s : State) (x : Acu) : (s.setAcu x).draws = s.draws := rfl
@[simp] theorem setAcu_spu (s : State) (x : Acu) : (s.setAcu x).spu = s.spu := rfl
@[simp] theorem setAcu_fre (s : State) (x : Acu) : (s.setAcu x).fre = s.fre := rfl
@[simp] theorem setAcu_lau (s : State) (x : Acu) : (s.setAcu x).lau = s.lau := rfl
@[simp] theorem setAcu_pru (s : State) (x : Acu) : (s.setAcu x).pru = s.pru := rfl
@[simp] theorem setAcu_acu (s : State) (x : Acu) : (s.setAcu x).acu = x := rfl
@[simp] theorem setAcu_zae (s : State) (x : Acu) : (s.setAcu x).zae = s.zae := rfl
@[simp] theorem setAcu_bpk (s : State) (x : Acu) : (s.setAcu x).bpk = s.bpk := rfl
@[simp] theorem setAcu_clu (s : State) (x : Acu) : (s.setAcu x).clu = s.clu := rfl
@[simp] theorem setAcu_tgu (s : State) (x : Acu) : (s.setAcu x).tgu = s.tgu := rfl
@[simp] theorem setAcu_aru (s : State) (x : Acu) : (s.setAcu x).aru = s.aru := rfl
@[simp] theorem setAcu_iou (s : State) (x : Acu) : (s.setAcu x).iou = s.iou := rfl
@[simp] theorem setAcu_cfg (s : State) (x : Acu) : (s.setAcu x).cfg = s.cfg := rfl
@[simp] theorem setAcu_started (s : State) (x : Acu) : (s.setAcu x).started = s.started := rfl
@[simp] theorem setAcu_running (s : State) (x : Acu) : (s.setAcu x).running = s.running := rfl
@[simp] theorem setAcu_ms (s : State) (x : Acu) : (s.setAcu x).ms = s.ms := rfl
@[simp] theorem setAcu_port (s : State) (x : Acu) (p : Port) : (s.setAcu x).port p = s.port p := rfl

/-! ### setZae -/

@[simp] theorem setZae_pending (s : State) (x : Zae) : (s.setZae x).pending = s.pending := rfl
@[simp] theorem setZae_clock (s : State) (x : Zae) : (s.setZae x).clock = s.clock := rfl
@[simp] theorem setZae_draws (s : State) (x : Zae) : (s.setZae x).draws = s.draws := rfl
@[simp] theorem setZae_spu (s : State) (x : Zae) : (s.setZae x).spu = s.spu := rfl
@[simp] theorem setZae_fre (s : State) (x : Zae) : (s.setZae x).fre = s.fre := rfl
@[simp] theorem setZae_lau (s : State) (x : Zae) : (s.setZae x).lau = s.lau := rfl
@[simp] theorem setZae_pru (s : State) (x : Zae) : (s.setZae x).pru = s.pru := rfl
@[simp] theorem setZae_acu (s : State) (x : Zae) : (s.setZae x).acu = s.acu := rfl
@[simp] theorem setZae_zae (s : State) (x : Zae) : (s.setZae x).zae = x := rfl
@[simp] theorem setZae_bpk (s : State) (x : Zae) : (s.setZae x).bpk = s.bpk := rfl
@[simp] theorem setZae_clu (s : State) (x : Zae) : (s.setZae x).clu = s.clu := rfl
@[simp] theorem setZae_tgu (s : State) (x : Zae) : (s.setZae x).tgu = s.tgu := rfl
@[simp] theorem setZae_aru (s : State) (x : Zae) : (s.setZae x).aru = s.aru := rfl
@[simp] theorem setZae_iou (s : State) (x : Zae) : (s.setZae x).iou = s.iou := rfl
@[simp] theorem setZae_cfg (s : State) (x : Zae) : (s.setZae x).cfg = s.cfg := rfl
@[simp] theorem setZae_started (s : State) (x : Zae) : (s.setZae x).started = s.started := rfl
@[simp] theorem setZae_running (s : State) (x : Zae) : (s.setZae x).running = s.running := rfl
@[simp] theorem setZae_ms (s : State) (x : Zae) : (s.setZae x).ms = s.ms := rfl
@[simp] theorem setZae_port (s : State) (x : Zae) (p : Port) : (s.setZae x).port p = s.port p := rfl

/-! ### setBpk -/

@[simp] theorem setBpk_pending (s : State) (x : Bpk) : (s.setBpk x).pending = s.pending := rfl
@[simp] theorem setBpk_clock (s : State) (x : Bpk) : (s.setBpk x).clock = s.clock := rfl
@[simp] theorem setBpk_draws (s : State) (x : Bpk) : (s.setBpk x).draws = s.draws := rfl
@[simp] theorem setBpk_spu (s : State) (x : Bpk) : (s.setBpk x).spu = s.spu := rfl
@[simp] theorem setBpk_fre (s : State) (x : Bpk) : (s.setBpk x).fre = s.fre := rfl
@[simp] theorem setBpk_lau (s : State) (x : Bpk) : (s.setBpk x).lau = s.lau := rfl
@[simp] theorem setBpk_pru (s : State) (x : Bpk) : (s.setBpk x).pru = s.pru := rfl
@[simp] theorem setBpk_acu (s : State) (x : Bpk) : (s.setBpk x).acu = s.acu := rfl
@[simp] theorem setBpk_zae (s : State) (x : Bpk) : (s.setBpk x).zae = s.zae := rfl
@[simp] theorem setBpk_bpk (s : State) (x : Bpk) : (s.setBpk x).bpk = x := rfl
@[simp] theorem setBpk_clu (s : State) (x : Bpk) : (s.setBpk x).clu = s.clu := rfl
@[simp] theorem setBpk_tgu (s : State) (x : Bpk) : (s.setBpk x).tgu = s.tgu := rfl
@[simp] theorem setBpk_aru (s : State) (x : Bpk) : (s.setBpk x).aru = s.aru := rfl
@[simp] theorem setBpk_iou (s : State) (x : Bpk) : (s.setBpk x).iou = s.iou := rfl
@[simp] theorem setBpk_cfg (s : State) (x : Bpk) : (s.setBpk x).cfg = s.cfg := rfl
@[simp] theorem setBpk_started (s : State) (x : Bpk) : (s.setBpk x).started = s.started := rfl
@[simp] theorem setBpk_running (s : State) (x : Bpk) : (s.setBpk x).running = s.running := rfl
@[simp] theorem setBpk_ms (s : State) (x : Bpk) : (s.setBpk x).ms = s.ms := rfl
@[simp] theorem setBpk_port (s : State) (x : Bpk) (p : Port) : (s.setBpk x).port p = s.port p := rfl

/-! ### setClu -/

@[simp] theorem setClu_pending (s : State) (x : Clu) : (s.setClu x).pending = s.pending := rfl
@[simp] theorem setClu_clock (s : State) (x : Clu) : (s.setClu x).clock = s.clock := rfl
@[simp] theorem setClu_draws (s : State) (x : Clu) : (s.setClu x).draws = s.draws := rfl
@[simp] theorem setClu_spu (s : State) (x : Clu) : (s.setClu x).spu = s.spu := rfl
@[simp] theorem setClu_fre (s : State) (x : Clu) : (s.setClu x).fre = s.fre := rfl
@[simp] theorem setClu_lau (s : State) (x : Clu) : (s.setClu x).lau = s.lau := rfl
@[simp] theorem setClu_pru (s : State) (x : Clu) : (s.setClu x).pru = s.pru := rfl
@[simp] theorem setClu_acu (s : State) (x : Clu) : (s.setClu x).acu = s.acu := rfl
@[simp] theorem setClu_zae (s : State) (x : Clu) : (s.setClu x).zae = s.zae := rfl
@[simp] theorem setClu_bpk (s : State) (x : Clu) : (s.setClu x).bpk = s.bpk := rfl
@[simp] theorem setClu_clu (s : State) (x : Clu) : (s.setClu x).clu = x := rfl
@[simp] theorem setClu_tgu (s : State) (x : Clu) : (s.setClu x).tgu = s.tgu := rfl
@[simp] theorem setClu_aru (s : State) (x : Clu) : (s.setClu x).aru = s.aru := rfl
@[simp] theorem setClu_iou (s : State) (x : Clu) : (s.setClu x).iou = s.iou := rfl
@[simp] theorem setClu_cfg (s : State) (x : Clu) : (s.setClu x).cfg = s.cfg := rfl
@[simp] theorem setClu_started (s : State) (x : Clu) : (s.setClu x).started = s.started := rfl
@[simp] theorem setClu_running (s : State) (x : Clu) : (s.setClu x).running = s.running := rfl
@[simp] theorem setClu_ms (s : State) (x : Clu) : (s.setClu x).ms = s.ms := rfl
@[simp] theorem setClu_port (s : State) (x : Clu) (p : Port) : (s.setClu x).port p = s.port p := rfl

/-! ### setTgu -/

@[simp] theorem setTgu_pending (s : State) (x : Tgu) : (s.setTgu x).pending = s.pending := rfl
@[simp] theorem setTgu_clock (s : State) (x : Tgu) : (s.setTgu x).clock = s.clock := rfl
@[simp] theorem setTgu_draws (s : State) (x : Tgu) : (s.setTgu x).draws = s.draws := rfl
@[simp] theorem setTgu_spu (s : State) (x : Tgu) : (s.setTgu x).spu = s.spu := rfl
@[simp] theorem setTgu_fre (s : State) (x : Tgu) : (s.setTgu x).fre = s.fre := rfl
@[simp] theorem setTgu_lau (s : State) (x : Tgu) : (s.setTgu x).lau = s.lau := rfl
@[simp] theorem setTgu_pru (s : State) (x : Tgu) : (s.setTgu x).pru = s.pru := rfl
@[simp] theorem setTgu_acu (s : State) (x : Tgu) : (s.setTgu x).acu = s.acu := rfl
@[simp] theorem setTgu_zae (s : State) (x : Tgu) : (s.setTgu x).zae = s.zae := rfl
@[simp] theorem setTgu_bpk (s : State) (x : Tgu) : (s.setTgu x).bpk = s.bpk := rfl
@[simp] theorem setTgu_clu (s : State) (x : Tgu) : (s.setTgu x).clu = s.clu := rfl
@[simp] theorem setTgu_tgu (s : State) (x : Tgu) : (s.setTgu x).tgu = x := rfl
@[simp] theorem setTgu_aru (s : State) (x : Tgu) : (s.setTgu x).aru = s.aru := rfl
@[simp] theorem setTgu_iou (s : State) (x : Tgu) : (s.setTgu x).iou = s.iou := rfl
@[simp] theorem setTgu_cfg (s : State) (x : Tgu) : (s.setTgu x).cfg = s.cfg := rfl
@[simp] theorem setTgu_started (s : State) (x : Tgu) : (s.setTgu x).started = s.started := rfl
@[simp] theorem setTgu_running (s : State) (x : Tgu) : (s.setTgu x).running = s.running := rfl
@[simp] theorem setTgu_ms (s : State) (x : Tgu) : (s.setTgu x).ms = s.ms := rfl
@[simp] theorem setTgu_port (s : State) (x : Tgu) (p : Port) : (s.setTgu x).port p = s.port p := rfl

/-! ### setAru -/

@[simp] theorem setAru_pending (s : State) (x : Aru) : (s.setAru x).pending = s.pending := rfl
@[simp] theorem setAru_clock (s : State) (x : Aru) : (s.setAru x).clock = s.clock := rfl
@[simp] theorem setAru_draws (s : State) (x : Aru) : (s.setAru x).draws = s.draws := rfl
@[simp] theorem setAru_spu (s : State) (x : Aru) : (s.setAru x).spu = s.spu := rfl
@[simp] theorem setAru_fre (s : State) (x : Aru) : (s.setAru x).fre = s.fre := rfl
@[simp] theorem setAru_lau (s : State) (x : Aru) : (s.setAru x).lau = s.lau := rfl
@[simp] theorem setAru_pru (s : State) (x : Aru) : (s.setAru x).pru = s.pru := rfl
@[simp] theorem setAru_acu (s : State) (x : Aru) : (s.setAru x).acu = s.acu := rfl
@[simp] theorem setAru_zae (s : State) (x : Aru) : (s.setAru x).zae = s.zae := rfl
@[simp] theorem setAru_bpk (s : State) (x : Aru) : (s.setAru x).bpk = s.bpk := rfl
@[simp] theorem setAru_clu (s : State) (x : Aru) : (s.setAru x).clu = s.clu := rfl
@[simp] theorem setAru_tgu (s : State) (x : Aru) : (s.setAru x).tgu = s.tgu := rfl
@[simp] theorem setAru_aru (s : State) (x : Aru) : (s.setAru x).aru = x := rfl
@[simp] theorem setAru_iou (s : State) (x : Aru) : (s.setAru x).iou = s.iou := rfl
@[simp] theorem setAru_cfg (s : State) (x : Aru) : (s.setAru x).cfg = s.cfg := rfl
@[simp] theorem setAru_started (s : State) (x : Aru) : (s.setAru x).started = s.started := rfl
@[simp] theorem setAru_running (s : State) (x : Aru) : (s.setAru x).running = s.running := rfl
@[simp] theorem setAru_ms (s : State) (x : Aru) : (s.setAru x).ms = s.ms := rfl
@[simp] theorem setAru_port (s : State) (x : Aru) (p : Port) : (s.setAru x).port p = s.port p := rfl

/-! ### setIou -/

@[simp] theorem setIou_pending (s : State) (x : Iou) : (s.setIou x).pending = s.pending := rfl
@[simp] theorem setIou_clock (s : State) (x : Iou) : (s.setIou x).clock = s.clock := rfl
@[simp] theorem setIou_draws (s : State) (x : Iou) : (s.setIou x).draws = s.draws := rfl
@[simp] theorem setIou_spu (s : State) (x : Iou) : (s.setIou x).spu = s.spu := rfl
@[simp] theorem setIou_fre (s : State) (x : Iou) : (s.setIou x).fre = s.fre := rfl
@[simp] theorem setIou_lau (s : State) (x : Iou) : (s.setIou x).lau = s.lau := rfl
@[simp] theorem setIou_pru (s : State) (x : Iou) : (s.setIou x).pru = s.pru := rfl
@[simp] theorem setIou_acu (s : State) (x : Iou) : (s.setIou x).acu = s.acu := rfl
@[simp] theorem setIou_zae (s : State) (x : Iou) : (s.setIou x).zae = s.zae := rfl
@[simp] theorem setIou_bpk (s : State) (x : Iou) : (s.setIou x).bpk = s.bpk := rfl
@[simp] theorem setIou_clu (s : State) (x : Iou) : (s.setIou x).clu = s.clu := rfl
@[simp] theorem setIou_tgu (s : State) (x : Iou) : (s.setIou x).tgu = s.tgu := rfl
@[simp] theorem setIou_aru (s : State) (x : Iou) : (s.setIou x).aru = s.aru := rfl
@[simp] theorem setIou_iou (s : State) (x : Iou) : (s.setIou x).iou = x := rfl
@[simp] theorem setIou_cfg (s : State) (x : Iou) : (s.setIou x).cfg = s.cfg := rfl
@[simp] theorem setIou_started (s : State) (x : Iou) : (s.setIou x).started = s.started := rfl
@[simp] theorem setIou_running (s : State) (x : Iou) : (s.setIou x).running = s.running := rfl
@[simp] theorem setIou_ms (s : State) (x : Iou) : (s.setIou x).ms = s.ms := rfl
@[simp] theorem setIou_port (s : State) (x : Iou) (p : Port) : (s.setIou x).port p = s.port p := rfl

/-! ### Ports -/

@[simp] theorem PortPair.get_set_same {α : Type} (x : PortPair α) (p : Port) (v : α) : (x.set p v).get p = v := by
  cases p <;> rfl

theorem PortPair.get_set_other {α : Type} (x : PortPair α) (p q : Port) (v : α) (h : q ≠ p) :
    (x.set p v).get q = x.get q := by
  cases p <;> cases q <;> first | rfl | exact absurd rfl h

@[simp] theorem setPort_port_same (s : State) (p : Port) (l : Lau) : (s.setPort p l).port p = l :=
  PortPair.get_set_same s.lau p l

theorem setPort_port_other (s : State) (p q : Port) (l : Lau) (h : q ≠ p) : (s.setPort p l).port q = s.port q :=
  PortPair.get_set_other s.lau p q l h

@[simp] theorem setPort_cfg (s : State) (p : Port) (l : Lau) : (s.setPort p l).cfg = s.cfg := rfl
@[simp] theorem setPort_started (s : State) (p : Port) (l : Lau) : (s.setPort p l).started = s.started := rfl
@[simp] theorem setPort_running (s : State) (p : Port) (l : Lau) : (s.setPort p l).running = s.running := rfl
@[simp] theorem setPort_ms (s : State) (p : Port) (l : Lau) : (s.setPort p l).ms = s.ms := rfl
@[simp] theorem setPort_pending (s : State) (p : Port) (l : Lau) : (s.setPort p l).pending = s.pending := rfl
@[simp] theorem setPort_clock (s : State) (p : Port) (l : Lau) : (s.setPort p l).clock = s.clock := rfl
@[simp] theorem setPort_draws (s : State) (p : Port) (l : Lau) : (s.setPort p l).draws = s.draws := rfl
@[simp] theorem setPort_spu (s : State) (p : Port) (l : Lau) : (s.setPort p l).spu = s.spu := rfl
@[simp] theorem setPort_fre (s : State) (p : Port) (l : Lau) : (s.setPort p l).fre = s.fre := rfl
@[simp] theorem setPort_pru (s : State) (p : Port) (l : Lau) : (s.setPort p l).pru = s.pru := rfl
@[simp] theorem setPort_acu (s : State) (p : Port) (l : Lau) : (s.setPort p l).acu = s.acu := rfl
@[simp] theorem setPort_zae (s : State) (p : Port) (l : Lau) : (s.setPort p l).zae = s.zae := rfl
@[simp] theorem setPort_bpk (s : State) (p : Port) (l : Lau) : (s.setPort p l).bpk = s.bpk := rfl
@[simp] theorem setPort_clu (s : State) (p : Port) (l : Lau) : (s.setPort p l).clu = s.clu := rfl
@[simp] theorem setPort_tgu (s : State) (p : Port) (l : Lau) : (s.setPort p l).tgu = s.tgu := rfl
@[simp] theorem setPort_aru (s : State) (p : Port) (l : Lau) : (s.setPort p l).aru = s.aru := rfl
@[simp] theorem setPort_iou (s : State) (p : Port) (l : Lau) : (s.setPort p l).iou = s.iou := rfl

/-- Every state is its pending queue put on the rest. -/
theorem setPending_self (s : State) : s.setPending s.pending = s := rfl

end Sys2Proof.Machine
end

