-- ==== Sys2Proof/Laws/Frames.lean ====
section
/-! SUPPORT. For each shared operation, the parts of the state it may touch: one lemma an operation, composed. -/

namespace Sys2Proof.Machine

/-! ### Composing -/

theorem OnlyTouches.refl (parts : List Part) (s : State) : OnlyTouches parts s s := by
  intro x _; cases x <;> first | rfl | exact ⟨rfl, rfl⟩ | exact ⟨rfl, rfl, rfl⟩

theorem Part.same_trans {x : Part} {s t u : State} (h : x.same s t) (k : x.same t u) : x.same s u := by
  cases x <;>
    first
      | exact Eq.trans k h
      | exact ⟨k.1.trans h.1, k.2.trans h.2⟩
      | exact ⟨k.1.trans h.1, k.2.1.trans h.2.1, k.2.2.trans h.2.2⟩

theorem OnlyTouches.trans {a : List Part} {s t u : State} (h : OnlyTouches a s t) (k : OnlyTouches a t u) :
    OnlyTouches a s u := fun x hx => Part.same_trans (h x hx) (k x hx)

theorem OnlyTouches.mono {a b : List Part} {s t : State} (h : OnlyTouches a s t) (sub : ∀ x ∈ a, x ∈ b) :
    OnlyTouches b s t := fun x hx => h x (fun k => hx (sub x k))

/-- A fold of steps within a footprint stays within it. -/
theorem OnlyTouches.foldl {α : Type} {parts : List Part} (f : State → α → State)
    (h : ∀ s x, OnlyTouches parts s (f s x)) (xs : List α) (s : State) : OnlyTouches parts s (xs.foldl f s) := by
  induction xs generalizing s with
  | nil => exact .refl _ _
  | cons x xs ih => exact (h s x).trans (ih _)

theorem OnlyTouches.ite {parts : List Part} {s t u : State} {c : Prop} [Decidable c] (h : OnlyTouches parts s t)
    (k : OnlyTouches parts s u) : OnlyTouches parts s (if c then t else u) := by
  split <;> assumption

theorem onPorts_touches {parts : List Part} (f : Port → State → State)
    (h : ∀ p s, OnlyTouches parts s (f p s)) (s : State) : OnlyTouches parts s (s.onPorts f) := by
  have k : OnlyTouches parts s (if s.configured .A then f .A s else s) := .ite (h _ _) (.refl _ _)
  exact k.trans (.ite (h _ _) (.refl _ _))

/-! ### Updates -/

theorem setPort_touches (s : State) (p : Port) (l : Lau) : OnlyTouches [.line p] s (s.setPort p l) := by
  intro x hx
  cases x
  case line q => exact setPort_port_other s p q l (fun e => hx (by rw [e]; exact List.mem_singleton.2 rfl))
  all_goals first | rfl | exact ⟨rfl, rfl⟩ | exact ⟨rfl, rfl, rfl⟩

theorem setDeliveries_touches (s : State) (p : Port) (ds : List Delivery) :
    OnlyTouches [.deliveries p] s (s.setDeliveries p ds) := by
  intro x hx
  cases x
  case deliveries q =>
    exact PortPair.get_set_other s.aru.deliveries p q ds (fun e => hx (by rw [e]; exact List.mem_singleton.2 rfl))
  all_goals first | rfl | exact ⟨rfl, rfl⟩ | exact ⟨rfl, rfl, rfl⟩

theorem count_touches (s : State) (p : Port) (f : LineCounters → LineCounters) :
    OnlyTouches [.line p] s (s.count p f) := setPort_touches s p _

theorem countParse_touches (s : State) (p : Port) (f : ParseCounters → ParseCounters) :
    OnlyTouches [.parse] s (s.countParse p f) := by
  intro x hx; cases x <;> first | rfl | exact ⟨rfl, rfl⟩ | exact ⟨rfl, rfl, rfl⟩ | exact absurd (by simp) hx

theorem countLink_touches (s : State) (f : LinkCounters → LinkCounters) :
    OnlyTouches [.linkCounters] s (s.countLink f) := by
  intro x hx; cases x <;> first | rfl | exact ⟨rfl, rfl⟩ | exact ⟨rfl, rfl, rfl⟩ | exact absurd (by simp) hx

theorem drawBelow_touches (s : State) (n : Nat) : OnlyTouches [.draws] s (s.drawBelow n).2 := by
  intro x hx; cases x <;> first | rfl | exact ⟨rfl, rfl⟩ | exact ⟨rfl, rfl, rfl⟩ | exact absurd (by simp) hx

theorem compose_touches (s : State) (dest : Nat) (cls : FrameClass) (m : Bool) (xs : List FrameSection) :
    OnlyTouches [.sequence] s (s.compose dest cls m xs).2 := by
  intro x hx; cases x <;> first | rfl | exact ⟨rfl, rfl⟩ | exact ⟨rfl, rfl, rfl⟩ | exact absurd (by simp) hx

theorem setAlarms_touches (s : State) (as : List Alarm) : OnlyTouches [.alarms] s (s.setAlarms as) := by
  intro x hx; cases x <;> first | rfl | exact ⟨rfl, rfl⟩ | exact ⟨rfl, rfl, rfl⟩ | exact absurd (by simp) hx

theorem replaceAlarm_touches (s : State) (a : Alarm) : OnlyTouches [.alarms] s (s.replaceAlarm a) :=
  setAlarms_touches s _

theorem setChannel_touches (s : State) (c : Fin 7) (x : Channel) : OnlyTouches [.channels] s (s.setChannel c x) := by
  intro x hx; cases x <;> first | rfl | exact ⟨rfl, rfl⟩ | exact ⟨rfl, rfl, rfl⟩ | exact absurd (by simp) hx

theorem setPeers_touches (s : State) (ps : List Peer) : OnlyTouches [.peers] s (s.setPeers ps) := by
  intro x hx; cases x <;> first | rfl | exact ⟨rfl, rfl⟩ | exact ⟨rfl, rfl, rfl⟩ | exact absurd (by simp) hx

theorem updatePeer_touches (s : State) (n : Nat) (f : Peer → Peer) : OnlyTouches [.peers] s (s.updatePeer n f) :=
  setPeers_touches s _

theorem setHeard_touches (s : State) (h : List HeardCall) : OnlyTouches [.peers, .heard] s (s.setHeard h) := by
  intro x hx; cases x <;> first | rfl | exact ⟨rfl, rfl⟩ | exact ⟨rfl, rfl, rfl⟩ | exact absurd (by simp) hx

theorem forgetCall_touches (s : State) (i : CallId) : OnlyTouches [.peers, .heard] s (s.forgetCall i) :=
  setHeard_touches s _

theorem setCtx_touches (s : State) (x : CallContext) : OnlyTouches [.context] s (s.setCtx x) := by
  intro x hx; cases x <;> first | rfl | exact ⟨rfl, rfl⟩ | exact ⟨rfl, rfl, rfl⟩ | exact absurd (by simp) hx

theorem setCapture_touches (s : State) (x : Capture) : OnlyTouches [.capture] s (s.setCapture x) := by
  intro x hx; cases x <;> first | rfl | exact ⟨rfl, rfl⟩ | exact ⟨rfl, rfl, rfl⟩ | exact absurd (by simp) hx

theorem setPlayback_touches (s : State) (x : Playback) : OnlyTouches [.playback] s (s.setPlayback x) := by
  intro x hx; cases x <;> first | rfl | exact ⟨rfl, rfl⟩ | exact ⟨rfl, rfl, rfl⟩ | exact absurd (by simp) hx

theorem setTones_touches (s : State) (x : Tones) : OnlyTouches [.tones] s (s.setTones x) := by
  intro x hx; cases x <;> first | rfl | exact ⟨rfl, rfl⟩ | exact ⟨rfl, rfl, rfl⟩ | exact absurd (by simp) hx

theorem setNear_touches (s : State) (ns : List NearEntry) : OnlyTouches [.near] s (s.setNear ns) := by
  intro x hx; cases x <;> first | rfl | exact ⟨rfl, rfl⟩ | exact ⟨rfl, rfl, rfl⟩ | exact absurd (by simp) hx

theorem setTracks_touches (s : State) (ts : List Track) : OnlyTouches [.tracks] s (s.setTracks ts) := by
  intro x hx; cases x <;> first | rfl | exact ⟨rfl, rfl⟩ | exact ⟨rfl, rfl, rfl⟩ | exact absurd (by simp) hx

theorem setAssembler_touches (s : State) (a : Assembler) : OnlyTouches [.assembler] s (s.setAssembler a) := by
  intro x hx; cases x <;> first | rfl | exact ⟨rfl, rfl⟩ | exact ⟨rfl, rfl, rfl⟩ | exact absurd (by simp) hx

theorem setLamps_touches (s : State) (x : LampSetting × LampSetting) : OnlyTouches [.lamps] s (s.setLamps x) := by
  intro x hx; cases x <;> first | rfl | exact ⟨rfl, rfl⟩ | exact ⟨rfl, rfl, rfl⟩ | exact absurd (by simp) hx

theorem setCell_touches (s : State) (i : Input) (x : Cell) : OnlyTouches [.cells] s (s.setCell i x) := by
  intro x hx; cases x <;> first | rfl | exact ⟨rfl, rfl⟩ | exact ⟨rfl, rfl, rfl⟩ | exact absurd (by simp) hx

theorem setRaw_touches (s : State) (i : Input) (x : Level) : OnlyTouches [.raw] s (s.setRaw i x) := by
  intro x hx; cases x <;> first | rfl | exact ⟨rfl, rfl⟩ | exact ⟨rfl, rfl, rfl⟩ | exact absurd (by simp) hx

theorem decideSounder_touches (s : State) : OnlyTouches [.sounder] s s.decideSounder := by
  intro x hx; cases x <;> first | rfl | exact ⟨rfl, rfl⟩ | exact ⟨rfl, rfl, rfl⟩ | exact absurd (by simp) hx

/-- Intake changes the indication queue, its lost count and the coalescing timer, and nothing else (R184, R185). -/
theorem takeInAll_eq (rs : List HostRecord) (s : State) : ∃ ind lost coal,
    takeInAll rs s = s.setSpu { s.spu with ind := ind, lost := lost, coal := coal } := by
  unfold takeInAll
  dsimp only
  split
  · cases rs with
    | nil => exact ⟨s.spu.ind, s.spu.lost, s.spu.coal, rfl⟩
    | cons r more => exact ⟨_, _, _, rfl⟩
  · exact ⟨_, _, _, rfl⟩

theorem takeInAll_touches (rs : List HostRecord) (s : State) : OnlyTouches [.indications] s (takeInAll rs s) := by
  obtain ⟨i, l, c, h⟩ := takeInAll_eq rs s
  rw [h]
  intro x hx; cases x <;> first | rfl | exact ⟨rfl, rfl⟩ | exact ⟨rfl, rfl, rfl⟩ | exact absurd (by simp) hx

/-- R184: what an intake leaves in the station port depends on the station port and the tick alone. -/
theorem takeIn_spu (r : HostRecord) {s t : State} (h : t.spu = s.spu) (k : t.ms = s.ms) :
    (takeIn r t).spu = (takeIn r s).spu := by
  have hc : t.cfg = s.cfg := by unfold State.cfg; rw [h]
  unfold takeIn takeInAll
  dsimp only
  rw [h, k, hc]
  split <;> rfl

theorem takeIn_touches (r : HostRecord) (s : State) : OnlyTouches [.indications] s (takeIn r s) :=
  takeInAll_touches [r] s

/-! ### The line -/

theorem newDraw_touches (s : State) (p : Port) : OnlyTouches [.draws, .line p] s (s.newDraw p) := by
  unfold State.newDraw
  split
  · exact .refl _ _
  · exact ((drawBelow_touches s _).mono (by simp)).trans ((setPort_touches _ p _).mono (by simp))

theorem enterDefer_touches (s : State) (p : Port) : OnlyTouches [.draws, .line p] s (s.enterDefer p) :=
  ((setPort_touches s p _).mono (by simp)).trans (newDraw_touches _ p)

theorem composeEntry_touches (s : State) (p : Port) (e : TxEntry) :
    OnlyTouches [.sequence] s (s.composeEntry p e).2 := by
  unfold State.composeEntry
  split
  · exact .refl _ _
  · split
    · exact compose_touches _ _ _ _ _
    · exact .refl _ _

theorem enterTransmit_touches (s : State) (p : Port) : OnlyTouches [.sequence, .line p] s (s.enterTransmit p) := by
  unfold State.enterTransmit
  split
  · exact .refl _ _
  · exact ((composeEntry_touches s p _).mono (by simp)).trans ((setPort_touches _ p _).mono (by simp))

theorem wakePort_touches (s : State) (p : Port) (h : Option Nat) :
    OnlyTouches [.draws, .sequence, .line p] s (s.wakePort p h) := by
  unfold State.wakePort
  refine .ite (.refl _ _) (.ite ((enterDefer_touches s p).mono (by simp)) (.ite ?_ (.refl _ _)))
  have k : OnlyTouches [.draws, .sequence, .line p] s (s.newDraw p) := (newDraw_touches s p).mono (by simp)
  exact .ite (k.trans ((enterTransmit_touches _ p).mono (by simp))) k

theorem dropDelivery_touches (s : State) (p : Port) (i : AlarmId) :
    OnlyTouches [.deliveries p] s (s.dropDelivery p i) := setDeliveries_touches s p _

theorem deliveryOutcome_touches (s : State) (p : Port) (f : List Byte) (m : List Nat) :
    OnlyTouches [.indications, .deliveries p] s (s.deliveryOutcome p f m) := by
  unfold State.deliveryOutcome
  split
  · exact .refl _ _
  · refine .ite ((dropDelivery_touches s p _).mono (by simp)) (.ite ((setDeliveries_touches s p _).mono (by simp)) ?_)
    exact ((dropDelivery_touches s p _).mono (by simp)).trans ((takeIn_touches _ _).mono (by simp))

theorem reportOutcome_touches (s : State) (p : Port) (e : TxEntry) (o : TxOutcome) :
    OnlyTouches [.indications] s (s.reportOutcome p e o) := by
  unfold State.reportOutcome
  split
  · exact takeIn_touches _ _
  · exact .refl _ _

theorem handOutcome_touches (s : State) (p : Port) (e : TxEntry) (o : TxOutcome) (m : List Nat) :
    OnlyTouches [.line p, .indications, .deliveries p] s (s.handOutcome p e o m) := by
  unfold State.handOutcome
  have h1 : OnlyTouches [.line p, .indications, .deliveries p] s (s.reportOutcome p e o) :=
    (reportOutcome_touches s p e o).mono (by simp)
  have h2 : ∀ t, OnlyTouches [.line p, .indications, .deliveries p] t
      (if e.cls = .alarm ∧ e.requester = some .aru then t.deliveryOutcome p (e.frame.getD []) m else t) :=
    fun t => .ite ((deliveryOutcome_touches t p _ m).mono (by simp)) (.refl _ _)
  refine (h1.trans (h2 _)).trans ?_
  exact .ite ((count_touches _ p _).mono (by simp)) (.refl _ _)

/-- An outcome of an entry that is no alarm frame touches no delivery record. -/
theorem handOutcome_touches_plain (s : State) (p : Port) (e : TxEntry) (o : TxOutcome) (m : List Nat)
    (h : e.cls ≠ .alarm) : OnlyTouches [.line p, .indications] s (s.handOutcome p e o m) := by
  unfold State.handOutcome
  have h1 : OnlyTouches [.line p, .indications] s (s.reportOutcome p e o) :=
    (reportOutcome_touches s p e o).mono (by simp)
  refine h1.trans ?_
  simp only [h, false_and, if_false]
  exact .ite ((count_touches _ p _).mono (by simp)) (.refl _ _)

theorem evictEntry_touches (s : State) (p : Port) (e : TxEntry) :
    OnlyTouches [.line p, .indications, .deliveries p] s (s.evictEntry p e) :=
  ((setPort_touches s p _).mono (by simp)).trans (handOutcome_touches _ p e _ _)

theorem evictEntry_touches_plain (s : State) (p : Port) (e : TxEntry) (h : e.cls ≠ .alarm) :
    OnlyTouches [.line p, .indications] s (s.evictEntry p e) :=
  ((setPort_touches s p _).mono (by simp)).trans (handOutcome_touches_plain _ p e _ _ h)

theorem applyVoiceDepth_touches (s : State) (p : Port) (e : TxEntry) :
    OnlyTouches [.line p, .indications, .deliveries p] s (s.applyVoiceDepth p e) := by
  unfold State.applyVoiceDepth
  split
  · exact evictEntry_touches s p _
  · exact .refl _ _

theorem placeEntry_touches (s : State) (p : Port) (e : TxEntry) : OnlyTouches [.line p] s (s.placeEntry p e) :=
  setPort_touches s p _

/-- The victim's class is strictly less urgent than the newcomer's (R18), so it is no alarm frame. -/
theorem victim_less_urgent (l : Lau) (c : FrameClass) (v : TxEntry) (h : l.victim c = some v) :
    c.code < v.cls.code ∧ v ∈ l.waiting := by
  unfold Lau.victim at h
  dsimp only at h
  split at h
  · rename_i hc
    have := List.find?_some h
    simp only [decide_eq_true_eq] at this
    exact ⟨this ▸ hc, List.mem_of_find?_eq_some h⟩
  · exact absurd h (by simp)

theorem enterList_touches (s : State) (p : Port) (e : TxEntry) :
    OnlyTouches [.line p, .indications] s (s.enterList p e).2 := by
  unfold State.enterList
  dsimp only
  split
  · exact (placeEntry_touches s p e).mono (by simp)
  · split
    · rename_i v hv
      have hc : v.cls ≠ .alarm := by
        intro k
        have := (victim_less_urgent _ _ _ hv).1
        rw [k] at this
        exact Nat.not_lt_zero _ this
      exact (evictEntry_touches_plain s p v hc).trans ((placeEntry_touches _ p e).mono (by simp))
    · exact (count_touches s p _).mono (by simp)

theorem answerRequest_touches (s : State) (p : Port) (e : TxEntry) :
    OnlyTouches [.line p, .indications, .deliveries p] s (s.answerRequest p e).2 := by
  unfold State.answerRequest
  split
  · exact .refl _ _
  · split
    · split
      · exact (setPort_touches s p _).mono (by simp)
      · exact .refl _ _
    · exact (applyVoiceDepth_touches s p e).trans ((enterList_touches _ p e).mono (by simp))

theorem answerRequest_touches_plain (s : State) (p : Port) (e : TxEntry) (h : e.voiceCall = none) :
    OnlyTouches [.line p, .indications] s (s.answerRequest p e).2 := by
  unfold State.answerRequest
  split
  · exact .refl _ _
  · split
    · split
      · exact (setPort_touches s p _).mono (by simp)
      · exact .refl _ _
    · have : s.applyVoiceDepth p e = s := by simp [State.applyVoiceDepth, h]
      rw [this]
      exact enterList_touches _ p e

/-- A queue request stays within its footprint (R16 to R20). -/
theorem queueRequest_touches (s : State) (p : Port) (e : TxEntry) :
    OnlyTouches (queueFoot p) s (s.queueRequest p e) := by
  unfold State.queueRequest
  have h : OnlyTouches (queueFoot p) s (s.answerRequest p e).2 :=
    (answerRequest_touches s p e).mono (by simp [queueFoot])
  dsimp only
  split
  · refine OnlyTouches.trans ?_ ((wakePort_touches _ p _).mono (by simp [queueFoot]))
    exact h.trans ((handOutcome_touches _ p e _ _).mono (by simp [queueFoot]))
  · exact h
  · exact h.trans ((wakePort_touches _ p _).mono (by simp [queueFoot]))

/-- A request for a frame that is neither alarm nor voice touches no delivery record. -/
theorem queueRequest_touches_plain (s : State) (p : Port) (e : TxEntry) (hc : e.cls ≠ .alarm) (hv : e.voiceCall = none) :
    OnlyTouches (plainQueueFoot p) s (s.queueRequest p e) := by
  unfold State.queueRequest
  have h : OnlyTouches (plainQueueFoot p) s (s.answerRequest p e).2 :=
    (answerRequest_touches_plain s p e hv).mono (by simp [plainQueueFoot])
  dsimp only
  split
  · refine OnlyTouches.trans ?_ ((wakePort_touches _ p _).mono (by simp [plainQueueFoot]))
    exact h.trans ((handOutcome_touches_plain _ p e _ _ hc).mono (by simp [plainQueueFoot]))
  · exact h
  · exact h.trans ((wakePort_touches _ p _).mono (by simp [plainQueueFoot]))

theorem queueFoot_sub (p : Port) : ∀ x ∈ queueFoot p, x ∈ queuesFoot := by cases p <;> decide

theorem plainQueueFoot_sub (p : Port) : ∀ x ∈ plainQueueFoot p, x ∈ plainQueuesFoot := by cases p <;> decide

theorem requestLive_touches (k : LiveKind) (p : Port) (s : State) :
    OnlyTouches (plainQueueFoot p) s (s.requestLive k p) :=
  queueRequest_touches_plain s p _ (by cases k <;> exact fun h => FrameClass.noConfusion h) rfl

theorem requestLive_onPorts_touches (k : LiveKind) (s : State) :
    OnlyTouches plainQueuesFoot s (s.onPorts (State.requestLive k)) :=
  onPorts_touches _ (fun p s => (requestLive_touches k p s).mono (plainQueueFoot_sub p)) s

theorem requestFrame_touches (s : State) (p : Port) (dest : Nat) (cls : FrameClass) (r : Requester)
    (xs : List FrameSection) (f : TxEntry → TxEntry) :
    OnlyTouches (queueFoot p) s (s.requestFrame p dest cls r xs f) :=
  ((compose_touches s _ _ _ _).mono (by simp [queueFoot])).trans (queueRequest_touches _ p _)

theorem requestFrame_touches_plain (s : State) (p : Port) (dest : Nat) (cls : FrameClass) (r : Requester)
    (xs : List FrameSection) (f : TxEntry → TxEntry) (hc : ∀ e, (f e).cls = e.cls) (hv : ∀ e, (f e).voiceCall = e.voiceCall)
    (h : cls ≠ .alarm) : OnlyTouches (plainQueueFoot p) s (s.requestFrame p dest cls r xs f) := by
  refine ((compose_touches s _ _ _ _).mono (by simp [plainQueueFoot])).trans (queueRequest_touches_plain _ p _ ?_ ?_)
  · rw [hc]; exact h
  · rw [hv]; rfl

theorem queueRepeat_touches (s : State) (p : Port) (e : TxEntry) :
    OnlyTouches (plainQueueFoot p) s (s.queueRepeat p e) := by
  unfold State.queueRepeat
  split
  · exact .refl _ _
  · exact .ite (((setPort_touches s p _).mono (by simp [plainQueueFoot])).trans (requestLive_touches _ p _)) (.refl _ _)

theorem proceed_touches (s : State) (p : Port) : OnlyTouches [.draws, .line p] s (s.proceed p) :=
  .ite (enterDefer_touches s p) ((setPort_touches s p _).mono (by simp))

theorem finishService_touches (s : State) (p : Port) (o : TxOutcome) (m : List Nat) :
    OnlyTouches (queueFoot p) s (s.finishService p o m) := by
  unfold State.finishService
  split
  · exact (proceed_touches s p).mono (by simp [queueFoot])
  · refine OnlyTouches.trans ?_ ((proceed_touches _ p).mono (by simp [queueFoot]))
    refine OnlyTouches.trans ?_ ((queueRepeat_touches _ p _).mono (by simp [queueFoot, plainQueueFoot]))
    exact ((setPort_touches s p _).mono (by simp [queueFoot])).trans
      ((handOutcome_touches _ p _ _ _).mono (by simp [queueFoot]))

theorem holdWindow_touches (s : State) (p : Port) : OnlyTouches [.line p] s (s.holdWindow p) := setPort_touches s p _

theorem offerFrame_touches (s : State) (p : Port) (b : List Byte) : OnlyTouches [.line p] s (s.offerFrame p b) := by
  unfold State.offerFrame
  exact .ite ((setPort_touches s p _).trans (count_touches _ p _)) (count_touches _ p _)

theorem receiveGathered_touches (s : State) (p : Port) (g : Gathered) :
    OnlyTouches [.line p] s (s.receiveGathered p g) := by
  unfold State.receiveGathered
  split
  · exact .refl _ _
  · exact (count_touches _ p _).trans (holdWindow_touches _ p)
  · have h := offerFrame_touches s p g.bytes
    exact .ite (h.trans (holdWindow_touches _ p)) h

theorem settleQuiet_touches (s : State) (p : Port) : OnlyTouches [.draws, .line p] s (s.settleQuiet p) := by
  unfold State.settleQuiet
  exact .ite (.refl _ _) (.ite ((setPort_touches s p _).mono (by simp)) (.ite (enterDefer_touches s p) (.refl _ _)))

/-! ### Advisories and the lane monitor -/

theorem startSending_touches (s : State) : OnlyTouches [.advisories] s s.startSending := by
  unfold State.startSending
  split
  · split
    · exact .refl _ _
    · intro x hx; cases x <;> first | rfl | exact ⟨rfl, rfl⟩ | exact ⟨rfl, rfl, rfl⟩ | exact absurd (by simp) hx
  · exact .refl _ _

theorem queueAdvisory_touches (a : Advisory) (s : State) : OnlyTouches advisoryFoot s (s.queueAdvisory a) := by
  unfold State.queueAdvisory
  refine .ite (.refl _ _) ?_
  have h : OnlyTouches advisoryFoot s (s.setTgu { s.tgu with advisories := (enqueueAdvisory a s.tgu.advisories).1 }) := by
    intro x hx
    cases x <;> first | rfl | exact ⟨rfl, rfl⟩ | exact ⟨rfl, rfl, rfl⟩ | exact absurd (by simp [advisoryFoot]) hx
  have k : ∀ t : State, OnlyTouches advisoryFoot t
      (if (enqueueAdvisory a s.tgu.advisories).2 then t.countLink (fun c => { c with dropped := c.dropped.bump }) else t) :=
    fun t => .ite ((countLink_touches t _).mono (by simp [advisoryFoot])) (.refl _ _)
  exact (h.trans (k _)).trans ((startSending_touches _).mono (by simp [advisoryFoot]))

theorem queueEvacuate_touches (s : State) : OnlyTouches [.evacuation, .advisories, .linkCounters] s s.queueEvacuate := by
  unfold State.queueEvacuate
  refine .ite (.refl _ _) (OnlyTouches.trans ?_ ((queueAdvisory_touches _ _).mono (by simp [advisoryFoot])))
  intro x hx; cases x <;> first | rfl | exact ⟨rfl, rfl⟩ | exact ⟨rfl, rfl, rfl⟩ | exact absurd (by simp) hx

theorem evacuationStep_touches (s : State) :
    OnlyTouches [.evacuation, .advisories, .linkCounters] s s.evacuationStep := by
  have h : ∀ b, OnlyTouches [.evacuation, .advisories, .linkCounters] s (s.setTgu { s.tgu with evacHeld := b }) := by
    intro b x hx; cases x <;> first | rfl | exact ⟨rfl, rfl⟩ | exact ⟨rfl, rfl, rfl⟩ | exact absurd (by simp) hx
  have k : ∀ t : State, OnlyTouches [.evacuation, .advisories, .linkCounters] t (t.setTgu { t.tgu with evacDue := none }) := by
    intro t x hx; cases x <;> first | rfl | exact ⟨rfl, rfl⟩ | exact ⟨rfl, rfl, rfl⟩ | exact absurd (by simp) hx
  unfold State.evacuationStep
  exact (h _).trans (.ite (queueEvacuate_touches _) (.ite (k _) (.refl _ _)))

/-- An evaluation of the lane monitor stays within its footprint (R149). -/
theorem laneEvaluate_touches (s : State) : OnlyTouches laneFoot s s.laneEvaluate := by
  unfold State.laneEvaluate
  refine .ite (.refl _ _) ?_
  have h1 : ∀ t : State, ∀ ts, OnlyTouches laneFoot t (t.setTgu { t.tgu with tracks := ts }) := by
    intro t ts x hx
    cases x <;> first | rfl | exact ⟨rfl, rfl⟩ | exact ⟨rfl, rfl, rfl⟩ | exact absurd (by simp [laneFoot]) hx
  have h2 := (h1 s _).trans ((evacuationStep_touches
    (s.setTgu { s.tgu with tracks := s.tgu.tracks.map (placeTrack s.cfg.lane s.ms) })).mono (by simp [laneFoot]))
  dsimp only
  split
  · exact h2
  · refine OnlyTouches.trans ?_ ((setLamps_touches _ _).mono (by simp [laneFoot]))
    refine OnlyTouches.trans ?_
      (OnlyTouches.foldl _ (fun t a => (queueAdvisory_touches a t).mono (by simp [laneFoot, advisoryFoot])) _ _)
    exact h2.trans (h1 _ _)

/-! ### The zone air evaluator -/

theorem setLockout_touches (s : State) (b : Bool) : OnlyTouches [.lockout] s (s.setZae { s.zae with lockout := b }) := by
  intro x hx; cases x <;> first | rfl | exact ⟨rfl, rfl⟩ | exact ⟨rfl, rfl, rfl⟩ | exact absurd (by simp) hx

theorem evaluateLockout_touches (s : State) : OnlyTouches lockoutFoot s s.evaluateLockout := by
  unfold State.evaluateLockout
  exact .ite (.refl _ _) (((setLockout_touches s _).mono (by simp [lockoutFoot])).trans
    ((laneEvaluate_touches _).mono (by simp [lockoutFoot, laneFoot])))

theorem rebuildZone_touches (s : State) : OnlyTouches [.zone, .advance] s s.rebuildZone := by
  intro x hx; cases x <;> first | rfl | exact ⟨rfl, rfl⟩ | exact ⟨rfl, rfl, rfl⟩ | exact absurd (by simp) hx

theorem zoneIndication_touches (b : Vector ZoneRecord 5) (s : State) (i : Fin 5) :
    OnlyTouches [.indications] s (s.zoneIndication b i) := .ite (.refl _ _) (takeIn_touches _ _)

/-- A recompute stays within its footprint (R85). -/
theorem recompute_touches (s : State) : OnlyTouches recomputeFoot s s.recompute := by
  unfold State.recompute
  have h1 : OnlyTouches recomputeFoot s s.rebuildZone := (rebuildZone_touches s).mono (by simp [recomputeFoot])
  have h2 := h1.trans ((setLockout_touches s.rebuildZone s.rebuildZone.lockoutHolds).mono (by simp [recomputeFoot]))
  have h3 := h2.trans (OnlyTouches.foldl (State.zoneIndication s.zae.records)
    (fun t i => (zoneIndication_touches _ t i).mono (by simp [recomputeFoot])) (List.finRange 5) _)
  exact .ite h3 (h3.trans ((laneEvaluate_touches _).mono (by simp [recomputeFoot, laneFoot])))

theorem setSenses_touches (s : State) : OnlyTouches [.zone] s s.setSenses := by
  intro x hx; cases x <;> first | rfl | exact ⟨rfl, rfl⟩ | exact ⟨rfl, rfl, rfl⟩ | exact absurd (by simp) hx

/-! ### Alarms -/

theorem testMuster_touches (s : State) : OnlyTouches [.muster] s s.testMuster := by
  have h : ∀ (x : Aru) (ns : List NearEntry),
      (ns.foldl (fun x n => musterTag n.tag x) x).alarms = x.alarms
        ∧ (ns.foldl (fun x n => musterTag n.tag x) x).deliveries = x.deliveries
        ∧ (ns.foldl (fun x n => musterTag n.tag x) x).nextNumber = x.nextNumber
        ∧ (ns.foldl (fun x n => musterTag n.tag x) x).pullRef = x.pullRef
        ∧ (ns.foldl (fun x n => musterTag n.tag x) x).doorRef = x.doorRef
        ∧ (ns.foldl (fun x n => musterTag n.tag x) x).doorOpen = x.doorOpen := by
    intro x ns
    induction ns generalizing x with
    | nil => exact ⟨rfl, rfl, rfl, rfl, rfl, rfl⟩
    | cons n ns ih =>
      have := ih (musterTag n.tag x)
      simp only [List.foldl_cons, this]
      unfold musterTag
      split
      · exact ⟨rfl, rfl, rfl, rfl, rfl, rfl⟩
      · split <;> exact ⟨rfl, rfl, rfl, rfl, rfl, rfl⟩
  unfold State.testMuster
  dsimp only
  split
  · have k := h { s.aru with musterActive := true } (s.tgu.near.filter s.musters)
    intro x hx
    cases x
    case alarms => exact k.1
    case deliveries q => exact congrArg (·.get q) k.2.1
    case alarmNumber => exact k.2.2.1
    case references => exact ⟨k.2.2.2.1, k.2.2.2.2.1⟩
    case door => exact k.2.2.2.2.2
    all_goals first | rfl | exact ⟨rfl, rfl⟩ | exact ⟨rfl, rfl, rfl⟩ | exact absurd (by simp) hx
  · split
    · intro x hx; cases x <;> first | rfl | exact ⟨rfl, rfl⟩ | exact ⟨rfl, rfl, rfl⟩ | exact absurd (by simp) hx
    · exact .refl _ _

theorem musterHandover_touches (s : State) (n : NearEntry) : OnlyTouches [.muster] s (s.musterHandover n) := by
  unfold State.musterHandover musterTag
  refine .ite ?_ (.refl _ _)
  split
  · intro x _; cases x <;> first | rfl | exact ⟨rfl, rfl⟩ | exact ⟨rfl, rfl, rfl⟩
  · split <;>
      (intro x hx; cases x <;> first | rfl | exact ⟨rfl, rfl⟩ | exact ⟨rfl, rfl, rfl⟩ | exact absurd (by simp) hx)

theorem clearReferences_touches (s : State) (a : Alarm) (r : Bool) :
    OnlyTouches [.references] s (s.clearReferences a r) := by
  unfold State.clearReferences
  refine .ite ?_ (.refl _ _)
  intro x hx; cases x <;> first | rfl | exact ⟨rfl, rfl⟩ | exact ⟨rfl, rfl, rfl⟩ | exact absurd (by simp) hx

theorem reportToChannels_touches (s : State) (a : Alarm) (r : Bool) :
    OnlyTouches [.channels] s (s.reportToChannels a r).1 := by
  unfold State.reportToChannels
  split
  · exact .refl _ _
  · intro x hx; cases x <;> first | rfl | exact ⟨rfl, rfl⟩ | exact ⟨rfl, rfl, rfl⟩ | exact absurd (by simp) hx

/-- Handing on a change of the alarm table stays within its footprint (R160). -/
theorem handOn_touches (s : State) (a : Alarm) (r : Bool) : OnlyTouches handOnFoot s (s.handOn a r).1 := by
  unfold State.handOn
  have h1 : OnlyTouches handOnFoot s (s.clearReferences a r) :=
    (clearReferences_touches s a r).mono (by simp [handOnFoot])
  have h2 := h1.trans ((evaluateLockout_touches (s.clearReferences a r)).mono (by simp [handOnFoot, lockoutFoot]))
  have h3 := h2.trans ((reportToChannels_touches (s.clearReferences a r).evaluateLockout a r).mono (by simp [handOnFoot]))
  exact ((h3.trans ((laneEvaluate_touches _).mono (by simp [handOnFoot, laneFoot]))).trans
    ((testMuster_touches _).mono (by simp [handOnFoot]))).trans ((decideSounder_touches _).mono (by simp [handOnFoot]))

theorem handOnFoot_sub : ∀ x ∈ handOnFoot, x ∈ alarmFoot := by decide

theorem queuesFoot_sub_alarm : ∀ x ∈ queuesFoot, x ∈ alarmFoot := by decide

theorem placeAlarmChange_touches (a : Alarm) (c : AlarmChange) (s : State) :
    OnlyTouches [.indications] s (placeAlarmChange a c s) := takeIn_touches _ _

theorem removeAlarm_touches (s : State) (a : Alarm) :
    OnlyTouches (.alarms :: .indications :: handOnFoot) s (s.removeAlarm a) :=
  (((setAlarms_touches s _).mono (by simp)).trans ((placeAlarmChange_touches a _ _).mono (by simp))).trans
    ((handOn_touches _ a true).mono (by intro x hx; simp [hx]))

theorem endDelivery_touches (s : State) (p : Port) (d : Delivery) :
    OnlyTouches [.indications, .deliveries p] s (s.endDelivery p d) := by
  unfold State.endDelivery
  have h : OnlyTouches [.indications, .deliveries p] s (s.dropDelivery p d.id) :=
    (dropDelivery_touches s p _).mono (by simp)
  exact .ite h (h.trans ((takeIn_touches _ _).mono (by simp)))

theorem holdDelivery_touches (s : State) (p : Port) (d : Delivery) :
    OnlyTouches [.indications, .deliveries p] s (s.holdDelivery p d) := by
  unfold State.holdDelivery
  refine .ite ((setDeliveries_touches s p _).mono (by simp)) (OnlyTouches.trans ?_ ((setDeliveries_touches _ p _).mono (by simp)))
  refine .ite (.refl _ _) ?_
  split
  · exact .refl _ _
  · exact endDelivery_touches s p _

theorem openDelivery_touches (s : State) (p : Port) (i : AlarmId) (src : DeliverySource) (f : List Byte)
    (x : AlarmState) : OnlyTouches (queueFoot p) s (s.openDelivery p i src f x) :=
  ((holdDelivery_touches s p _).mono (by simp [queueFoot])).trans (queueRequest_touches _ p _)

theorem openOwn_touches (a : Alarm) (p : Port) (s : State) : OnlyTouches (queueFoot p) s (s.openOwn a p) :=
  ((compose_touches s _ _ _ _).mono (by simp [queueFoot])).trans (openDelivery_touches _ p _ _ _ _)

theorem openOwn_onPorts_touches (a : Alarm) (s : State) : OnlyTouches queuesFoot s (s.onPorts (State.openOwn a)) :=
  onPorts_touches _ (fun p s => (openOwn_touches a p s).mono (queueFoot_sub p)) s

theorem ownChange_touches (s : State) (a : Alarm) : OnlyTouches alarmFoot s (s.ownChange a).1 := by
  unfold State.ownChange
  refine OnlyTouches.trans ?_ ((handOn_touches _ a false).mono handOnFoot_sub)
  refine OnlyTouches.trans ?_ ((openOwn_onPorts_touches a _).mono queuesFoot_sub_alarm)
  exact ((replaceAlarm_touches s a).mono (by simp [alarmFoot])).trans
    ((placeAlarmChange_touches a _ _).mono (by simp [alarmFoot]))

theorem clearAsOrigin_touches (s : State) (i : AlarmId) : OnlyTouches alarmFoot s (s.clearAsOrigin i) := by
  unfold State.clearAsOrigin
  split
  · exact .ite (ownChange_touches s _) (.refl _ _)
  · exact .refl _ _

theorem thenClear_touches {s : State} {r : State × Bool} (i : AlarmId) (h : OnlyTouches alarmFoot s r.1) :
    OnlyTouches alarmFoot s (State.thenClear r i) := .ite (h.trans (clearAsOrigin_touches _ i)) h

theorem makeAlarmRoom_touches (s t : State) (k : AlarmKind) (x : AlarmState) (h : s.makeAlarmRoom k x = some t) :
    OnlyTouches alarmFoot s t := by
  unfold State.makeAlarmRoom at h
  split at h
  · cases h; exact .refl _ _
  · cases hv : alarmVictim s.aru.alarms k.severity x with
    | none => rw [hv] at h; cases h
    | some v =>
      rw [hv] at h
      cases h
      exact (removeAlarm_touches s v).mono (by decide)

theorem addAlarm_touches (s : State) (a : Alarm) : OnlyTouches [.alarms, .indications] s (s.addAlarm a) :=
  ((setAlarms_touches s _).mono (by simp)).trans ((placeAlarmChange_touches a _ _).mono (by simp))

/-- A raise stays within its footprint (R156). -/
theorem raise_touches (s : State) (k : AlarmKind) (sc : Scope) : OnlyTouches raiseFoot s (s.raise k sc).2 := by
  unfold State.raise
  dsimp only
  split
  · exact .refl _ _
  · rename_i t ht
    have h0 : OnlyTouches raiseFoot s t :=
      (makeAlarmRoom_touches s t _ _ ht).mono (by intro x hx; simp [raiseFoot, hx])
    have h1 := fun a => h0.trans ((addAlarm_touches t a).mono (by simp [raiseFoot, alarmFoot]))
    have h2 : ∀ (u : State) n, OnlyTouches raiseFoot u (u.setAru { u.aru with nextNumber := n }) := by
      intro u n x hx
      cases x <;> first | rfl | exact ⟨rfl, rfl⟩ | exact ⟨rfl, rfl, rfl⟩ | exact absurd (by simp [raiseFoot]) hx
    refine OnlyTouches.trans ?_
      ((handOn_touches _ _ _).mono (fun x hx => List.mem_cons_of_mem _ (handOnFoot_sub x hx)))
    refine OnlyTouches.trans ?_
      ((openOwn_onPorts_touches _ _).mono (fun x hx => List.mem_cons_of_mem _ (queuesFoot_sub_alarm x hx)))
    exact (h1 _).trans (h2 _ _)

theorem pullRef_touches (s : State) (n : Nat) :
    OnlyTouches [.references] s (s.setAru { s.aru with pullRef := some n }) := by
  intro x hx; cases x <;> first | rfl | exact ⟨rfl, rfl⟩ | exact ⟨rfl, rfl, rfl⟩ | exact absurd (by simp) hx

theorem doorRef_touches (s : State) (n : Nat) :
    OnlyTouches [.references] s (s.setAru { s.aru with doorRef := some n }) := by
  intro x hx; cases x <;> first | rfl | exact ⟨rfl, rfl⟩ | exact ⟨rfl, rfl, rfl⟩ | exact absurd (by simp) hx

theorem pullCord_touches (s : State) : OnlyTouches raiseFoot s s.pullCord := by
  unfold State.pullCord
  refine .ite (.refl _ _) ?_
  dsimp only
  split
  · exact OnlyTouches.trans (raise_touches s _ _) ((pullRef_touches _ _).mono (by decide))
  · exact raise_touches s _ _

theorem doorEdge_touches (s : State) (o : Bool) : OnlyTouches (.door :: raiseFoot) s (s.doorEdge o) := by
  unfold State.doorEdge
  refine .ite (.refl _ _) ?_
  have h0 : OnlyTouches (.door :: raiseFoot) s (s.setAru { s.aru with doorOpen := o }) := by
    intro x hx; cases x <;> first | rfl | exact ⟨rfl, rfl⟩ | exact ⟨rfl, rfl, rfl⟩ | exact absurd (by simp) hx
  have h1 : ∀ (t : State) k sc, OnlyTouches (.door :: raiseFoot) t (t.raise k sc).2 :=
    fun t k sc => (raise_touches t k sc).mono (by intro x hx; exact List.mem_cons_of_mem _ hx)
  dsimp only
  refine .ite ?_ h0
  split
  · exact OnlyTouches.trans (h0.trans (h1 _ _ _)) ((doorRef_touches _ _).mono (by decide))
  · exact h0.trans (h1 _ _ _)

theorem mergeAlarm_touches (s : State) (r : AlarmRecord) : OnlyTouches alarmFoot s (s.mergeAlarm r) := by
  unfold State.mergeAlarm
  split
  · split
    · exact .refl _ _
    · rename_i t ht
      have h := (makeAlarmRoom_touches s t _ _ ht)
      exact thenClear_touches _ ((h.trans ((addAlarm_touches t _).mono (by decide))).trans
        ((handOn_touches _ _ _).mono handOnFoot_sub))
  · refine .ite ?_ (.refl _ _)
    exact thenClear_touches _ ((((replaceAlarm_touches s _).mono (by decide)).trans
      ((placeAlarmChange_touches _ _ _).mono (by decide))).trans ((handOn_touches _ _ _).mono handOnFoot_sub))

theorem mergeAlarms_touches (s : State) (rs : List AlarmRecord) : OnlyTouches alarmFoot s (s.mergeAlarms rs) :=
  .foldl _ mergeAlarm_touches rs s

theorem relayAlarm_touches (s : State) (q : Port) (f : List Byte) : OnlyTouches (queueFoot q) s (s.relayAlarm q f) := by
  unfold State.relayAlarm
  dsimp only
  split
  · exact queueRequest_touches _ q _
  · exact .ite (queueRequest_touches _ q _) (openDelivery_touches _ q _ _ _ _)

end Sys2Proof.Machine
end

