-- ==== Sys2Proof/Laws/UnitFrames.lean ====
section
/-! SUPPORT. The parts of the state the unit operations may touch: air, packer, peers, calls, codec, tags. -/

set_option Elab.async false

namespace Sys2Proof.Machine

/-- A second operation of a smaller footprint. -/
theorem OnlyTouches.andThen {a b : List Part} {s t u : State} (h : OnlyTouches a s t) (k : OnlyTouches b t u)
    (sub : ∀ x ∈ b, x ∈ a := by decide) : OnlyTouches a s u := h.trans (k.mono sub)

/-- A smaller footprint, decided. -/
theorem OnlyTouches.wide {a b : List Part} {s t : State} (h : OnlyTouches a s t)
    (sub : ∀ x ∈ a, x ∈ b := by decide) : OnlyTouches b s t := h.mono sub

/-! ### Air -/

theorem raiseForChannel_touches (s : State) (c : Fin 7) (x : ChannelState) :
    OnlyTouches raiseFoot s (s.raiseForChannel c x) := by
  unfold State.raiseForChannel
  refine .ite ?_ (.refl _ _)
  split
  · exact .refl _ _
  · dsimp only
    split
    · exact raise_touches s _ _
    · exact (raise_touches s _ _).andThen (setChannel_touches _ _ _)

theorem clearForChannel_touches (s : State) (c : Fin 7) : OnlyTouches alarmFoot s (s.clearForChannel c) := by
  unfold State.clearForChannel
  dsimp only
  split
  · exact .refl _ _
  · exact .ite ((setChannel_touches s _ _).wide.trans (clearAsOrigin_touches _ _)) (.refl _ _)

theorem showChannel_touches (s : State) (c : Fin 7) (x : Channel) : OnlyTouches plainQueuesFoot s (s.showChannel c x) :=
  (takeIn_touches _ s).wide.trans (requestLive_onPorts_touches _ _)

/-- What follows a sample or trend event stays within its footprint (R64, R75, R76, R93, R94). -/
theorem channelEvent_touches (s : State) (c : Fin 7) (x : Channel) :
    OnlyTouches channelFoot s (s.channelEvent c x) := by
  unfold State.channelEvent
  have h1 : OnlyTouches channelFoot s (s.setChannel c x) := (setChannel_touches s c x).wide
  have h2 : ∀ y, OnlyTouches channelFoot s ((s.setChannel c x).recompute.raiseForChannel c y) :=
    fun y => (h1.andThen (recompute_touches _)).andThen (raiseForChannel_touches _ _ _)
  have h3 : ∀ b : Prop, [Decidable b] → ∀ y, OnlyTouches channelFoot s
      (if b then ((s.setChannel c x).recompute.raiseForChannel c y).clearForChannel c
        else (s.setChannel c x).recompute.raiseForChannel c y) :=
    fun b _ y => .ite ((h2 y).andThen (clearForChannel_touches _ _)) (h2 y)
  dsimp only
  refine .ite ?_ ?_
  · exact (OnlyTouches.ite (h3 _ _) h1).andThen (showChannel_touches _ _ _)
  · exact OnlyTouches.ite (h3 _ _) h1

theorem pulseEdge_touches (s : State) : OnlyTouches [.gate] s s.pulseEdge := by
  unfold State.pulseEdge
  refine .ite ?_ (.refl _ _)
  intro x hx; cases x <;> first | rfl | exact ⟨rfl, rfl⟩ | exact ⟨rfl, rfl, rfl⟩ | exact absurd (by decide) hx

theorem setGate_touches (s : State) (n : Nat) (d : Option Nat) :
    OnlyTouches [.gate] s (s.setAcu { s.acu with gateCount := n, gateDue := d }) := by
  intro x hx; cases x <;> first | rfl | exact ⟨rfl, rfl⟩ | exact ⟨rfl, rfl, rfl⟩ | exact absurd (by decide) hx

theorem setClock_touches (s : State) (x : Clock) : OnlyTouches [.clock] s (s.setClock x) := by
  intro x hx; cases x <;> first | rfl | exact ⟨rfl, rfl⟩ | exact ⟨rfl, rfl, rfl⟩ | exact absurd (by decide) hx

/-! ### The block packer -/

theorem arbitrate_touches (s : State) : OnlyTouches grantFoot s s.arbitrate := by
  unfold State.arbitrate
  refine .ite (.refl _ _) ?_
  split
  · unfold State.grantVoice
    intro x hx; cases x <;> first | rfl | exact ⟨rfl, rfl⟩ | exact ⟨rfl, rfl, rfl⟩ | exact absurd (by decide) hx
  · unfold State.grantHistory
    intro x hx; cases x <;> first | rfl | exact ⟨rfl, rfl⟩ | exact ⟨rfl, rfl, rfl⟩ | exact absurd (by decide) hx
  · exact .refl _ _

theorem setBpk_touches (s : State) (x : Bpk) : OnlyTouches [.engine, .history] s (s.setBpk x) := by
  intro x hx; cases x <;> first | rfl | exact ⟨rfl, rfl⟩ | exact ⟨rfl, rfl, rfl⟩ | exact absurd (by decide) hx

theorem addHistory_touches (s : State) (e : HistoryRequest) : OnlyTouches grantFoot s (s.addHistory e) :=
  (setBpk_touches s _).wide.trans (arbitrate_touches _)

theorem historyRequested_touches (s : State) (p : Port) (n : Nat) (c : Fin 7) :
    OnlyTouches (.line p :: grantFoot) s (s.historyRequested p n c) := by
  unfold State.historyRequested
  exact .ite (.refl _ _) (.ite (.refl _ _) (.ite ((addHistory_touches s _).mono (fun x hx => List.mem_cons_of_mem _ hx))
    ((count_touches s p _).mono (by simp))))

theorem historyPacked_touches (s : State) (e : HistoryRequest) (b m : Nat) (k : List Byte) :
    OnlyTouches plainQueuesFoot s (s.historyPacked e b m k) := by
  unfold State.historyPacked
  dsimp only
  split
  · exact (requestFrame_touches_plain s _ _ _ _ _ _ (fun _ => rfl) (fun _ => rfl) (by decide)).mono (plainQueueFoot_sub _)
  · exact (takeInAll_touches _ s).wide

/-! ### Peers -/

theorem removePeer_touches (s : State) (n : Nat) : OnlyTouches (.peers :: recomputeFoot) s (s.removePeer n) :=
  (setPeers_touches s _).wide.andThen (recompute_touches _)

theorem callHeard_touches (s : State) (i : CallId) (c : Option Nat) (r : Bool) (a : Nat) :
    OnlyTouches [.peers, .heard] s (s.callHeard i c r a) :=
  .ite (.refl _ _) (.ite (forgetCall_touches s i) (setHeard_touches s _))

theorem startBeaconPeriod_touches (s : State) (n : Nat) : OnlyTouches [.draws, .beacon] s (s.startBeaconPeriod n) := by
  unfold State.startBeaconPeriod
  intro x hx; cases x <;> first | rfl | exact ⟨rfl, rfl⟩ | exact ⟨rfl, rfl, rfl⟩ | exact absurd (by decide) hx

/-! ### Calls -/

theorem stopRing_touches (s : State) : OnlyTouches [.tones] s s.stopRing := setTones_touches s _
theorem startRing_touches (s : State) : OnlyTouches [.tones] s s.startRing := setTones_touches s _
theorem startDeny_touches (s : State) : OnlyTouches [.tones] s s.startDeny := setTones_touches s _

theorem callEvent_touches (s : State) (e : CallEvent) (r : Option ReleaseReason) :
    OnlyTouches [.indications] s (s.callEvent e r) := takeIn_touches _ s

theorem sendCallFrame_touches (s : State) (d : Nat) (xs : List FrameSection) (f : TxEntry → TxEntry) :
    OnlyTouches queuesFoot s (s.sendCallFrame d xs f) := by
  unfold State.sendCallFrame
  have h : OnlyTouches queuesFoot s (s.onPorts (fun p t => t.requestFrame p d .call .clu xs f)) :=
    onPorts_touches _ (fun p t => (requestFrame_touches t p d _ _ xs f).mono (queueFoot_sub p)) s
  dsimp only
  refine .ite h ?_
  split
  · exact .ite ((requestFrame_touches s _ _ _ _ _ _).mono (queueFoot_sub _)) h
  · exact h

theorem restartHolding_touches (s : State) : OnlyTouches [.context] s s.restartHolding :=
  .ite (setCtx_touches s _) (.refl _ _)

theorem sendMessage_touches (s : State) (m : CallMessage) (r : Option ReleaseReason) :
    OnlyTouches callFrameFoot s (s.sendMessage m r) :=
  (sendCallFrame_touches s _ _ _).wide.andThen (restartHolding_touches _)

theorem sendRelease_touches (s : State) (i : CallId) (d c : Nat) (r : ReleaseReason) :
    OnlyTouches queuesFoot s (s.sendRelease i d c r) := sendCallFrame_touches s _ _ _

theorem sendVoice_touches (s : State) (bs : List (List Byte)) : OnlyTouches callFrameFoot s (s.sendVoice bs) :=
  ((setCtx_touches s _).wide.andThen (sendCallFrame_touches _ _ _ _)).andThen (restartHolding_touches _)

theorem takePlace_touches (s : State) : OnlyTouches [.capture] s s.takePlace :=
  .ite (setCapture_touches s _) (.refl _ _)

theorem startRun_touches (s : State) : OnlyTouches [.capture] s s.startRun :=
  (setCapture_touches s _).trans (takePlace_touches _)

theorem endRun_touches (s : State) (b : Bool) : OnlyTouches captureFoot s (s.endRun b) := by
  unfold State.endRun
  have h : ∀ x, OnlyTouches captureFoot s (s.setCapture x) := fun x => (setCapture_touches s x).wide
  exact .ite ((h _).andThen (sendVoice_touches _ _)) (h _)

theorem emptyPlayback_touches (s : State) : OnlyTouches [.playback] s s.emptyPlayback := setPlayback_touches s _
theorem startPlayout_touches (s : State) : OnlyTouches [.playback] s s.startPlayout := setPlayback_touches s _

theorem playVoice_touches (s : State) (n : Nat) (bs : List (List Byte)) :
    OnlyTouches [.playback, .context] s (s.playVoice n bs) :=
  .ite (.refl _ _) ((setPlayback_touches s _).wide.andThen (setCtx_touches _ _))

theorem toIdle_touches (s : State) (e : CallEvent) (r : Option ReleaseReason) :
    OnlyTouches [.context, .tones, .indications] s (s.toIdle e r) :=
  ((callEvent_touches s e r).wide.andThen (setCtx_touches _ _)).andThen (stopRing_touches _)

theorem releaseCall_touches (s : State) (r : ReleaseReason) :
    OnlyTouches (.tones :: callFrameFoot) s (s.releaseCall r) :=
  (sendMessage_touches s _ _).wide.andThen (toIdle_touches _ _ _)

theorem dropCall_touches (s : State) (r : ReleaseReason) : OnlyTouches releaseFoot s (s.dropCall r) :=
  (((endRun_touches s _).wide.andThen (sendMessage_touches _ _ _)).andThen (emptyPlayback_touches _)).andThen
    (toIdle_touches _ _ _)

theorem releasedByPeer_touches (s : State) (r : Option ReleaseReason) :
    OnlyTouches releaseFoot s (s.releasedByPeer r) :=
  ((endRun_touches s _).wide.andThen (startPlayout_touches _)).andThen (toIdle_touches _ _ _)

theorem endHeardPage_touches (s : State) :
    OnlyTouches [.playback, .tones, .context, .indications] s s.endHeardPage :=
  (startPlayout_touches s).wide.andThen (toIdle_touches _ _ _)

theorem endPage_touches (s : State) : OnlyTouches (.tones :: captureFoot) s s.endPage :=
  (endRun_touches s _).wide.andThen (releaseCall_touches _ _)

theorem setPlaced_touches (s : State) (x : CallContext) (n : Nat) :
    OnlyTouches [.context, .nextCall] s (s.setClu { s.clu with ctx := x, nextCall := n }) := by
  intro x hx; cases x <;> first | rfl | exact ⟨rfl, rfl⟩ | exact ⟨rfl, rfl, rfl⟩ | exact absurd (by decide) hx

theorem sendSetup_touches (s : State) : OnlyTouches callFrameFoot s s.sendSetup :=
  (sendMessage_touches s _ _).andThen (setCtx_touches _ _)

theorem placeCall_touches (s : State) (n : Nat) : OnlyTouches placeFoot s (s.placeCall n) :=
  ((setPlaced_touches s _ _).wide.andThen (emptyPlayback_touches _)).andThen (sendSetup_touches _)

theorem placePage_touches (s : State) : OnlyTouches placeFoot s s.placePage :=
  (setPlaced_touches s _ _).wide.andThen (emptyPlayback_touches _)

theorem placeAdmitted_touches (s : State) (n : Nat) : OnlyTouches placeFoot s (s.placeAdmitted n) :=
  .ite (placePage_touches s) (placeCall_touches s n)

theorem buttonPressed_touches (s : State) : OnlyTouches placeFoot s s.buttonPressed :=
  .ite (.ite (placeAdmitted_touches s _) (startDeny_touches s).wide) (.refl _ _)

theorem connect_touches (s : State) : OnlyTouches [.context, .tones, .indications] s s.connect :=
  ((setCtx_touches s _).wide.andThen (stopRing_touches _)).andThen (callEvent_touches _ _ _)

theorem answerCall_touches (s : State) : OnlyTouches (.tones :: callFrameFoot) s s.answerCall :=
  (sendMessage_touches s _ _).wide.andThen (connect_touches _)

theorem setHook_touches (s : State) (b c : Bool) : OnlyTouches [.hook] s (s.setHook b c) := by
  intro x hx; cases x <;> first | rfl | exact ⟨rfl, rfl⟩ | exact ⟨rfl, rfl, rfl⟩ | exact absurd (by decide) hx

theorem hookEdge_touches (s : State) (b : Bool) : OnlyTouches (edgeFoot .hook) s (s.hookEdge b) := by
  unfold State.hookEdge
  have h : OnlyTouches (edgeFoot .hook) s (s.setHook b false) := (setHook_touches s b false).wide
  exact .ite (.ite (h.andThen (answerCall_touches _)) h) (.ite (h.andThen (dropCall_touches _ _)) h)

theorem takeCall_touches (s : State) (i : CallId) : OnlyTouches callFoot s (s.takeCall i) := by
  unfold State.takeCall
  exact (((((setCtx_touches s _).wide.andThen (emptyPlayback_touches _)).andThen (forgetCall_touches _ i)).andThen
    (sendMessage_touches _ _ _)).andThen (startRing_touches _)).andThen (callEvent_touches _ _ _)

theorem glare_touches (s : State) (i : CallId) : OnlyTouches callFoot s (s.glare i) := by
  unfold State.glare
  have h : OnlyTouches callFoot s ((s.sendMessage .release (some .normal)).takeCall i) :=
    (sendMessage_touches s _ _).wide.andThen (takeCall_touches _ i)
  exact .ite (.refl _ _) (.ite (h.andThen (answerCall_touches _)) h)

theorem setupReceived_touches (s : State) (i : CallId) : OnlyTouches callFoot s (s.setupReceived i) := by
  unfold State.setupReceived
  exact .ite (.refl _ _) (.ite (sendMessage_touches s _ _).wide (.ite (.refl _ _) (.ite (glare_touches s i)
    (.ite (sendRelease_touches s _ _ _ _).wide (.ite (sendRelease_touches s _ _ _ _).wide (takeCall_touches s i))))))

theorem giveFloor_touches (s : State) : OnlyTouches captureFoot s s.giveFloor :=
  ((endRun_touches s _).andThen (sendMessage_touches _ _ _)).andThen (setCtx_touches _ _)

theorem pttPressed_touches (s : State) : OnlyTouches (edgeFoot .pushToTalk) s s.pttPressed := by
  unfold State.pttPressed
  split
  · split
    · exact (takeIn_touches _ s).wide.andThen (startDeny_touches _)
    · exact ((sendMessage_touches s _ _).wide.andThen (setCtx_touches _ _)).andThen (startRun_touches _)
    · exact .refl _ _
  · exact .ite (.refl _ _) ((setCtx_touches s _).wide.andThen (startRun_touches _))
  · exact .refl _ _

theorem pttReleased_touches (s : State) : OnlyTouches (edgeFoot .pushToTalk) s s.pttReleased := by
  unfold State.pttReleased
  split
  · exact .ite (giveFloor_touches s).wide (.refl _ _)
  · exact .ite (endPage_touches s).wide (.refl _ _)
  · exact .refl _ _

theorem yieldFloor_touches (s : State) : OnlyTouches captureFoot s s.yieldFloor :=
  ((endRun_touches s _).andThen (setCtx_touches _ _)).andThen (takeIn_touches _ _)

theorem floorTaken_touches (s : State) : OnlyTouches callFoot s s.floorTaken := by
  unfold State.floorTaken
  split
  · exact .ite (.refl _ _) (yieldFloor_touches s).wide
  · exact .refl _ _
  · exact (setCtx_touches s _).wide

theorem floorGiven_touches (s : State) : OnlyTouches callFoot s s.floorGiven := by
  unfold State.floorGiven
  split
  · exact .refl _ _
  · exact (setCtx_touches s _).wide.andThen (startPlayout_touches _)
  · exact (startPlayout_touches s).wide

theorem restartSilence_touches (s : State) : OnlyTouches [.context] s s.restartSilence := setCtx_touches s _

theorem connectedMessage_touches (s : State) (m : CallMessage) (r : Option ReleaseReason) :
    OnlyTouches callFoot s (s.connectedMessage m r) := by
  unfold State.connectedMessage
  have h : OnlyTouches callFoot s s.restartSilence := (restartSilence_touches s).wide
  dsimp only
  split
  · exact h.trans (floorTaken_touches _)
  · exact h.trans (floorGiven_touches _)
  · exact h.andThen (releasedByPeer_touches _ _)
  · exact h

theorem connectedVoice_touches (s : State) (n : Nat) (bs : List (List Byte)) :
    OnlyTouches callFoot s (s.connectedVoice n bs) := by
  unfold State.connectedVoice
  have h : OnlyTouches callFoot s s.restartSilence := (restartSilence_touches s).wide
  dsimp only
  split
  · exact h
  · exact h.andThen (playVoice_touches _ _ _)
  · exact (h.andThen (setCtx_touches _ _)).andThen (playVoice_touches _ _ _)

theorem enterRingback_touches (s : State) : OnlyTouches callFoot s s.enterRingback :=
  ((setCtx_touches s _).wide.andThen (startRing_touches _)).andThen (callEvent_touches _ _ _)

theorem dialMessage_touches (s : State) (m : CallMessage) (r : Option ReleaseReason) :
    OnlyTouches callFoot s (s.dialMessage m r) := by
  unfold State.dialMessage
  split
  · exact .ite (enterRingback_touches s) (.refl _ _)
  · exact (connect_touches s).wide
  · exact (releasedByPeer_touches s r).wide
  · exact .refl _ _
  · exact (connect_touches s).wide.trans (connectedMessage_touches _ _ _)

theorem ownMessage_touches (s : State) (d : Nat) (m : CallMessage) (r : Option ReleaseReason) :
    OnlyTouches callFoot s (s.ownMessage d m r) := by
  unfold State.ownMessage
  split
  · exact dialMessage_touches s m r
  · exact dialMessage_touches s m r
  · exact .ite (releasedByPeer_touches s r).wide (.refl _ _)
  · exact connectedMessage_touches s m r
  · exact .ite (endHeardPage_touches s).wide (.refl _ _)
  · exact .refl _ _

/-- A CALL section stays within its footprint (R114 to R124). -/
theorem callSection_touches (s : State) (d : Nat) (i : CallId) (m : CallMessage) (c : Nat) (r : Option ReleaseReason) :
    OnlyTouches callFoot s (s.callSection d i m c r) := by
  unfold State.callSection
  have h : OnlyTouches callFoot s (if s.clu.ctx.call = some i then s.ownMessage d m r else s) :=
    .ite (ownMessage_touches s d m r) (.refl _ _)
  exact .ite (.refl _ _) (.ite (h.trans (setupReceived_touches _ i)) h)

theorem hearPage_touches (s : State) (i : CallId) : OnlyTouches callFoot s (s.hearPage i) :=
  (((setCtx_touches s _).wide.andThen (emptyPlayback_touches _)).andThen (forgetCall_touches _ i)).andThen
    (callEvent_touches _ _ _)

theorem pageVoice_touches (s : State) (i : CallId) (n : Nat) (bs : List (List Byte)) :
    OnlyTouches callFoot s (s.pageVoice i n bs) := by
  unfold State.pageVoice
  exact .ite ((hearPage_touches s i).andThen (playVoice_touches _ _ _))
    (.ite ((setCtx_touches s _).wide.andThen (playVoice_touches _ _ _)) (.refl _ _))

/-- A VOICE section stays within its footprint (R121, R124). -/
theorem voiceSection_touches (s : State) (d : Nat) (i : CallId) (n : Nat) (bs : List (List Byte)) :
    OnlyTouches callFoot s (s.voiceSection d i n bs) := by
  unfold State.voiceSection
  refine .ite (.refl _ _) (.ite (pageVoice_touches s i n bs) (.ite (.refl _ _) ?_))
  split
  · exact (connect_touches s).wide.trans (connectedVoice_touches _ _ _)
  · exact (connect_touches s).wide.trans (connectedVoice_touches _ _ _)
  · exact connectedVoice_touches s n bs
  · exact .refl _ _

/-! ### The codec -/

theorem codecOut_touches (s : State) : OnlyTouches [.earpiece, .playback, .tones] s s.codecOut := by
  unfold State.codecOut
  intro x hx; cases x <;> first | rfl | exact ⟨rfl, rfl⟩ | exact ⟨rfl, rfl, rfl⟩ | exact absurd (by decide) hx

theorem captureSample_touches (s : State) (n : Int) : OnlyTouches grantFoot s (s.captureSample n) := by
  unfold State.captureSample
  dsimp only
  split
  · exact .refl _ _
  · exact .ite (((setCapture_touches s _).wide.andThen (takePlace_touches _)).andThen (arbitrate_touches _))
      (setCapture_touches s _).wide

theorem voicePacked_touches (s : State) (n : Nat) (b : List Byte) : OnlyTouches captureFoot s (s.voicePacked n b) := by
  unfold State.voicePacked
  have h : ∀ x, OnlyTouches captureFoot s (s.setCapture x) := fun x => (setCapture_touches s x).wide
  refine OnlyTouches.andThen ?_ (takePlace_touches _)
  exact .ite (.ite ((h _).andThen (sendVoice_touches _ _)) (h _)) (.refl _ _)

/-! ### Tags -/

theorem truckSighting_touches (s : State) (x : TruckSighting) : OnlyTouches laneFoot s (s.truckSighting x) :=
  .ite ((setTracks_touches s _).wide.andThen (laneEvaluate_touches _)) (.refl _ _)

theorem vehicleReceived_touches (s : State) (n : Nat) (ts : List TagEntry) (a : Nat) :
    OnlyTouches laneFoot s (s.vehicleReceived n ts a) := by
  unfold State.vehicleReceived
  split
  · exact .refl _ _
  · exact .ite (.refl _ _) (.foldl _ (fun t _ => truckSighting_touches t _) _ _)

theorem requestVehicleReport_touches (s : State) : OnlyTouches plainQueuesFoot s s.requestVehicleReport :=
  requestLive_onPorts_touches _ s

theorem removeNear_touches (s : State) (n : NearEntry) : OnlyTouches sightingFoot s (s.removeNear n) := by
  unfold State.removeNear
  have h : ∀ ns, OnlyTouches sightingFoot s (s.setNear ns) := fun ns => (setNear_touches s ns).wide
  exact .ite (((h _).andThen (laneEvaluate_touches _)).andThen (requestVehicleReport_touches _)) (h _)

theorem handOnSighting_touches (s : State) (b : Option NearEntry) (a : NearEntry) (n : Nat) :
    OnlyTouches sightingFoot s (s.handOnSighting b a n) := by
  unfold State.handOnSighting
  dsimp only
  have h1 : OnlyTouches sightingFoot s (s.musterHandover a) := (musterHandover_touches s a).wide
  have h2 : ∀ (c : Prop) [Decidable c] ts, OnlyTouches sightingFoot s
      (if c then (s.musterHandover a).setTracks ts else s.musterHandover a) :=
    fun c _ ts => .ite (h1.andThen (setTracks_touches _ _)) h1
  have h3 : ∀ (d : Prop) [Decidable d] (t : State), OnlyTouches sightingFoot s t →
      OnlyTouches sightingFoot s (if d then t.laneEvaluate else t) :=
    fun d _ t h => .ite (h.andThen (laneEvaluate_touches _)) h
  exact .ite ((h3 _ _ (h2 _ _)).andThen (requestVehicleReport_touches _)) (h3 _ _ (h2 _ _))

theorem takeSighting_touches (s : State) (x : Sighting) : OnlyTouches sightingFoot s (s.takeSighting x) := by
  unfold State.takeSighting
  split
  · exact (setNear_touches s _).wide.trans (handOnSighting_touches _ _ _ _)
  · dsimp only
    refine OnlyTouches.trans ?_ (handOnSighting_touches _ _ _ _)
    refine OnlyTouches.andThen ?_ (setNear_touches _ _)
    refine .ite (.refl _ _) ?_
    split
    · exact removeNear_touches s _
    · exact .refl _ _

theorem countLostByte_touches (s : State) (b : Bool) : OnlyTouches [.linkCounters] s (s.countLostByte b) :=
  countLink_touches s _

theorem closeRecord_touches (s : State) (g : List Byte) (n : Nat) : OnlyTouches sightingFoot s (s.closeRecord g n) := by
  unfold State.closeRecord
  refine .ite (countLink_touches s _).wide ?_
  split
  · exact (countLink_touches s _).wide
  · exact (countLink_touches s _).wide.trans (takeSighting_touches _ _)

theorem goodByte_touches (s : State) (b : Byte) : OnlyTouches (.assembler :: sightingFoot) s (s.goodByte b) := by
  have h : ∀ a, OnlyTouches (.assembler :: sightingFoot) s (s.setAssembler a) := fun a => (setAssembler_touches s a).wide
  unfold State.goodByte
  split
  · exact .ite (h _) (h _)
  · exact .ite (h _) ((h _).andThen (countLink_touches _ _))
  · exact .ite (h _) (h _)
  · exact (h _).andThen (closeRecord_touches _ _ _)

end Sys2Proof.Machine
end

