-- ==== Sys2Proof/Laws/CommandFrames.lean ====
section
/-! SUPPORT. The parts of the state that parsing, inputs, starting and the station port may touch. -/

set_option Elab.async false

namespace Sys2Proof.Machine

/-! ### Parsing -/

theorem insertPeer_touches (s : State) (a : Arrival) : OnlyTouches [.peers] s (s.insertPeer a) := setPeers_touches s _

theorem peerHeard_touches (s : State) (a : Arrival) : OnlyTouches (.peers :: recomputeFoot) s (s.peerHeard a) := by
  unfold State.peerHeard
  split
  · exact (updatePeer_touches s _ _).wide
  · refine .ite (insertPeer_touches s a).wide ?_
    split
    · exact (removePeer_touches s _).andThen (insertPeer_touches _ a)
    · exact .refl _ _

theorem duplicateHeard_touches (s : State) (a : Arrival) :
    OnlyTouches [.line a.port, .peers] s (s.duplicateHeard a) :=
  OnlyTouches.trans ((count_touches s _ _).mono (by simp)) ((updatePeer_touches _ _ _).mono (by simp))

theorem relayAlarm_touches_both (s : State) (q : Port) (f : List Byte) : OnlyTouches queuesFoot s (s.relayAlarm q f) :=
  (relayAlarm_touches s q f).mono (queueFoot_sub q)

theorem relayFrame_touches (s : State) (a : Arrival) (f : List Byte) : OnlyTouches queuesFoot s (s.relayFrame a f) := by
  unfold State.relayFrame
  refine .ite ?_ (.refl _ _)
  dsimp only
  split
  · exact .refl _ _
  · exact relayAlarm_touches_both s _ _
  · exact (queueRequest_touches s _ _).mono (queueFoot_sub _)

theorem statusReceived_touches (s : State) (a : Arrival) (c z r t : Nat) (n b f o : Bool) :
    OnlyTouches (.peers :: recomputeFoot) s (s.statusReceived a c z r t n b f o) := by
  unfold State.statusReceived
  split
  · exact .refl _ _
  · exact (updatePeer_touches s _ _).wide.andThen (recompute_touches _)

theorem airReceived_touches (s : State) (a : Arrival) (es : List AirEntry) :
    OnlyTouches (.peers :: recomputeFoot) s (s.airReceived a es) :=
  (updatePeer_touches s _ _).wide.andThen (recompute_touches _)

theorem textReceived_touches (s : State) (a : Arrival) (b : Bool) (w : List Byte) :
    OnlyTouches [.peers, .indications] s (s.textReceived a b w) := by
  unfold State.textReceived
  have h : ∀ t : State, OnlyTouches [.peers, .indications] s t →
      OnlyTouches [.peers, .indications] s (takeIn (.textReceived a.origin b w) t) :=
    fun t k => k.andThen (takeIn_touches _ t)
  have u : ∀ f, OnlyTouches [.peers, .indications] s (s.updatePeer a.origin f) :=
    fun f => (updatePeer_touches s _ f).wide
  dsimp only
  refine .ite (h _ (.refl _ _)) ?_
  split
  · exact h _ (.refl _ _)
  · exact .ite (.ite (h _ (u _)) (u _)) (.ite (.refl _ _) (h _ (u _)))

theorem sectionFoot_line (p : Port) : ∀ x ∈ Part.line p :: grantFoot, x ∈ sectionFoot := by cases p <;> decide

/-- A dispatched section stays within its footprint (R34). -/
theorem dispatchHere_touches (s : State) (a : Arrival) (x : FrameSection) :
    OnlyTouches sectionFoot s (s.dispatchHere a x) := by
  unfold State.dispatchHere
  split
  · exact (statusReceived_touches s _ _ _ _ _ _ _ _ _).wide
  · exact (airReceived_touches s _ _).wide
  · exact (takeIn_touches _ s).wide
  · exact (OnlyTouches.foldl _ mergeAlarm_touches _ s).wide
  · exact (callSection_touches s _ _ _ _ _).wide.andThen (callHeard_touches _ _ _ _ _)
  · exact (voiceSection_touches s _ _ _ _).wide.andThen (callHeard_touches _ _ _ _ _)
  · exact (vehicleReceived_touches s _ _ _).wide
  · exact (updatePeer_touches s _ _).wide
  · split
    · exact (historyRequested_touches s _ _ _).mono (sectionFoot_line _)
    · exact .refl _ _
  · exact (textReceived_touches s _ _ _).wide

theorem dispatchElsewhere_touches (s : State) (a : Arrival) (x : FrameSection) :
    OnlyTouches [.peers, .heard] s (s.dispatchElsewhere a x) := by
  unfold State.dispatchElsewhere
  split
  · exact callHeard_touches s _ _ _ _
  · exact callHeard_touches s _ _ _ _
  · exact .refl _ _

theorem dispatch_touches (s : State) (a : Arrival) (x : FrameSection) : OnlyTouches sectionFoot s (s.dispatch a x) :=
  .ite (dispatchHere_touches s a x) (dispatchElsewhere_touches s a x).wide

theorem candidateSection_touches (a : Arrival) (v : Verdict) (s : State) (x : Nat × List Byte) :
    OnlyTouches (.parse :: sectionFoot) s (State.candidateSection a v s x) := by
  unfold State.candidateSection
  refine .ite (countParse_touches s _ _).wide ?_
  split
  · exact (countParse_touches s _ _).wide
  · exact .ite (dispatch_touches s a _).wide (.refl _ _)

theorem takeSections_touches (s : State) (a : Arrival) (v : Verdict) (c : List (Nat × List Byte)) :
    OnlyTouches (.parse :: sectionFoot) s (s.takeSections a v c) := by
  unfold State.takeSections
  refine OnlyTouches.trans ?_ (OnlyTouches.foldl _ (candidateSection_touches a v) _ _)
  exact .ite (countParse_touches s _ _).wide (.refl _ _)

theorem applyVerdict_touches (s : State) (a : Arrival) (f : List Byte) (v : Verdict) :
    OnlyTouches (footprint .frameParse) s (s.applyVerdict a f v) := by
  have h : OnlyTouches (footprint .frameParse) s (s.setPru { s.pru with recent := addRecent s.pru.recent a }) := by
    intro x hx; cases x <;> first | rfl | exact ⟨rfl, rfl⟩ | exact ⟨rfl, rfl, rfl⟩ | exact absurd (by decide) hx
  unfold State.applyVerdict
  split
  · exact .refl _ _
  · refine (duplicateHeard_touches s a).mono ?_
    cases a.port <;> decide
  · exact (h.andThen (peerHeard_touches _ a)).andThen (relayFrame_touches _ a f)

theorem parseFrame_touches (s : State) (p : Port) (r : RxFrame) :
    OnlyTouches (footprint .frameParse) s (s.parseFrame p r) := by
  unfold State.parseFrame
  have h : ∀ f, OnlyTouches (footprint .frameParse) s (s.countParse p f) := fun f => (countParse_touches s p f).wide
  dsimp only
  refine .ite (h _) ?_
  split
  · exact h _
  · exact .ite (.refl _ _) ((applyVerdict_touches s _ _ _).andThen (takeSections_touches _ _ _ _))

theorem execFrameParse_touches (s t : State) (h : execFrameParse s = .next t) :
    OnlyTouches (footprint .frameParse) s t := by
  unfold execFrameParse at h
  cases h
  split
  · exact .refl _ _
  · rename_i p _
    split
    · exact .refl _ _
    · rename_i r more _
      have h1 : OnlyTouches (footprint .frameParse) s (s.setPort p { s.port p with received := more }) :=
        (setPort_touches s p _).mono (by cases p <;> decide)
      have h2 : ∀ t : State, OnlyTouches (footprint .frameParse) t (t.setFre { t.fre with lastPort := p }) := by
        intro t x hx; cases x <;> first | rfl | exact ⟨rfl, rfl⟩ | exact ⟨rfl, rfl, rfl⟩ | exact absurd (by decide) hx
      exact (h1.trans (h2 _)).trans (parseFrame_touches _ _ _)

/-! ### Inputs -/

theorem handEdge_touches (s : State) (i : Input) (x : Level) : OnlyTouches (edgeFoot i) s (s.handEdge i x) := by
  unfold State.handEdge
  split
  · exact pullCord_touches s
  · exact .refl _ _
  · exact doorEdge_touches s true
  · exact doorEdge_touches s false
  · exact pttPressed_touches s
  · exact pttReleased_touches s
  · exact hookEdge_touches s true
  · exact hookEdge_touches s false
  · exact buttonPressed_touches s
  · exact .refl _ _
  · exact pulseEdge_touches s
  · exact .refl _ _

theorem acceptEdge_touches (s : State) (i : Input) (x : Level) (d : Option Nat) :
    OnlyTouches (.cells :: edgeFoot i) s (s.acceptEdge i x d) :=
  ((setCell_touches s i _).mono (by simp)).trans ((handEdge_touches _ i x).mono (fun _ h => List.mem_cons_of_mem _ h))

theorem cellRaw_touches (s : State) (i : Input) (x : Level) :
    OnlyTouches (.cells :: edgeFoot i) s (s.cellRaw i x) := by
  unfold State.cellRaw
  dsimp only
  split
  · exact .refl _ _
  · exact .ite (.ite (acceptEdge_touches s i x _) (.refl _ _)) ((setCell_touches s i _).mono (by simp))

/-! ### Starting -/

theorem startChannels_touches (s : State) : OnlyTouches [.channels, .gate] s s.startChannels := by
  unfold State.startChannels
  intro x hx; cases x <;> first | rfl | exact ⟨rfl, rfl⟩ | exact ⟨rfl, rfl, rfl⟩ | exact absurd (by decide) hx

theorem startCells_touches (s : State) : OnlyTouches [.cells, .cadence] s s.startCells := by
  unfold State.startCells
  intro x hx; cases x <;> first | rfl | exact ⟨rfl, rfl⟩ | exact ⟨rfl, rfl, rfl⟩ | exact absurd (by decide) hx

theorem reportLevels_touches (s : State) : OnlyTouches [.hook, .door] s s.reportLevels := by
  unfold State.reportLevels
  dsimp only
  split <;> (intro x hx; cases x <;> first | rfl | exact ⟨rfl, rfl⟩ | exact ⟨rfl, rfl, rfl⟩ | exact absurd (by decide) hx)

theorem setPart_touches (s : State) (x : PartState) (d : Option Nat) :
    OnlyTouches [.partState] s (s.setSpu { s.spu with part := x, joinDue := d }) := by
  intro x hx; cases x <;> first | rfl | exact ⟨rfl, rfl⟩ | exact ⟨rfl, rfl, rfl⟩ | exact absurd (by decide) hx

/-- Entry to JOINING stays within its footprint (R178). -/
theorem enterJoining_touches (s : State) : OnlyTouches joiningFoot s s.enterJoining := by
  unfold State.enterJoining
  exact ((((((setPart_touches s _ _).wide.andThen (startChannels_touches _)).andThen (setSenses_touches _)).andThen
    (recompute_touches _)).andThen (startCells_touches _)).andThen (reportLevels_touches _)).andThen
      (decideSounder_touches _)

/-- Entry to JOINING leaves each line access unit as it is (R22). -/
theorem enterJoining_port (s : State) (p : Port) : s.enterJoining.port p = s.port p :=
  enterJoining_touches s (.line p) (by cases p <;> decide)

/-- A restart leaves a line access unit at its reset values, on the wire's carrier as it is (R22, R23). -/
theorem restartUnits_port (s : State) (p : Port) :
    s.restartUnits.port p = { State.reset.port p with carrier := (s.port p).carrier } := by cases p <;> rfl

theorem beginDeferral_touches (p : Port) (s : State) : OnlyTouches [.draws, .line p] s (State.beginDeferral p s) :=
  .ite (.refl _ _) (enterDefer_touches s p)

/-- Entry to RUNNING stays within its footprint (R178). -/
theorem enterRunning_touches (s : State) : OnlyTouches runningFoot s s.enterRunning := by
  unfold State.enterRunning
  have h1 : ∀ t : State, OnlyTouches runningFoot t (t.onPorts State.beginDeferral) :=
    onPorts_touches _ (fun p t => (beginDeferral_touches p t).mono (by cases p <;> decide))
  have h2 : ∀ t : State, OnlyTouches runningFoot t (t.setTgu { t.tgu with evacHeld := false }) := by
    intro t x hx; cases x <;> first | rfl | exact ⟨rfl, rfl⟩ | exact ⟨rfl, rfl, rfl⟩ | exact absurd (by decide) hx
  have h3 : ∀ t : State, OnlyTouches runningFoot t
      (if t.cfg.lane.isNone then t.setLamps (darkSteady, darkSteady) else t) :=
    fun t => .ite (setLamps_touches t _).wide (.refl _ _)
  have h0 : OnlyTouches runningFoot s (s.setSpu { s.spu with part := .running, joinDue := none }) :=
    (setPart_touches s _ _).wide
  dsimp only
  exact OnlyTouches.andThen (OnlyTouches.trans (OnlyTouches.trans (OnlyTouches.andThen (OnlyTouches.andThen
    (h0.trans (h1 _)) (requestLive_onPorts_touches _ _)) (startBeaconPeriod_touches _ _)) (h2 _)) (h3 _))
      (laneEvaluate_touches _)

theorem startWith_touches (s : State) (g : Configuration) :
    OnlyTouches (.intake :: joiningFoot) s (s.startWith g) := by
  have h : OnlyTouches (.intake :: joiningFoot) s
      (s.setSpu { s.spu with config := some g, held := none, assembly := none }) := by
    intro x hx; cases x <;> first | rfl | exact ⟨rfl, rfl⟩ | exact ⟨rfl, rfl, rfl⟩ | exact absurd (by decide) hx
  exact h.andThen (enterJoining_touches _)

theorem restartUnits_touches (s : State) : OnlyTouches resetFoot s s.restartUnits := by
  unfold State.restartUnits
  intro x hx
  cases x <;> first | rfl | exact ⟨rfl, rfl⟩ | exact ⟨rfl, rfl, rfl⟩ | exact absurd (by decide) hx | skip
  all_goals (rename_i p; exact absurd (by cases p <;> decide) hx)

theorem hardReset_touches (s : State) : OnlyTouches resetFoot s s.hardReset := by
  unfold State.hardReset
  intro x hx
  cases x <;> first | rfl | exact ⟨rfl, rfl⟩ | exact ⟨rfl, rfl, rfl⟩ | exact absurd (by decide) hx | skip
  all_goals (rename_i p; exact absurd (by cases p <;> decide) hx)

/-! ### The station port -/

theorem respond_touches (s : State) (t k : Nat) (c : ResponseCode) : OnlyTouches [.indications] s (s.respond t k c) :=
  takeIn_touches _ s

theorem answerTable_touches (s : State) (t k : Nat) (xs : List DataItem) :
    OnlyTouches [.answer, .indications] s (s.answerTable t k xs) := by
  have h : OnlyTouches [.answer, .indications] s (s.setSpu { s.spu with answer := xs.map (HostRecord.data t) }) := by
    intro x hx; cases x <;> first | rfl | exact ⟨rfl, rfl⟩ | exact ⟨rfl, rfl, rfl⟩ | exact absurd (by decide) hx
  exact h.andThen (takeIn_touches _ _)

/-- A request served stays within its action's footprint. -/
theorem serveKind_touches (s : State) (k : Nat) (act : Nat → Request → State → State) (foot : List Part)
    (h : ∀ t q u, OnlyTouches foot u (act t q u)) (hr : Part.requests ∈ foot) (hi : Part.indications ∈ foot) :
    OnlyTouches foot s (s.serveKind k act) := by
  unfold State.serveKind
  split
  · exact .refl _ _
  · rename_i r more _
    refine .ite ?_ (.refl _ _)
    have h0 : OnlyTouches [.requests] s (s.setSpu { s.spu with requests := more }) := by
      intro x hx; cases x <;> first | rfl | exact ⟨rfl, rfl⟩ | exact ⟨rfl, rfl, rfl⟩ | exact absurd (by decide) hx
    have h1 : OnlyTouches foot s (s.setSpu { s.spu with requests := more }) :=
      h0.mono (fun x hx => by rw [List.mem_singleton] at hx; exact hx ▸ hr)
    unfold State.serveHead
    dsimp only
    split
    · exact h1.trans ((respond_touches _ _ _ _).mono (fun x hx => by rw [List.mem_singleton] at hx; exact hx ▸ hi))
    · exact h1.trans (h _ _ _)

theorem configurePart_touches (s : State) (t i : Nat) (l : Bool) (b : List Byte) :
    OnlyTouches [.requests, .indications, .intake] s (s.configurePart t i l b) := by
  have h : ∀ a g, OnlyTouches [.requests, .indications, .intake] s
      (s.setSpu { s.spu with assembly := a, held := g }) := by
    intro a g x hx; cases x <;> first | rfl | exact ⟨rfl, rfl⟩ | exact ⟨rfl, rfl, rfl⟩ | exact absurd (by decide) hx
  unfold State.configurePart
  dsimp only
  split
  · exact (h _ _).andThen (takeIn_touches _ _)
  · refine .ite ?_ ((h _ _).andThen (takeIn_touches _ _))
    split
    · exact (h _ _).andThen (takeIn_touches _ _)
    · exact (h _ _).andThen (takeIn_touches _ _)

theorem serveConfigure_touches (t : Nat) (q : Request) (s : State) :
    OnlyTouches [.requests, .indications, .intake] s (State.serveConfigure t q s) := by
  unfold State.serveConfigure
  split
  · exact (respond_touches s _ _ _).wide
  · exact configurePart_touches s _ _ _ _
  · exact (respond_touches s _ _ _).wide
  · exact .refl _ _

theorem serveStart_touches (t : Nat) (q : Request) (s : State) :
    OnlyTouches ([.requests, .intake] ++ joiningFoot) s (State.serveStart t q s) := by
  unfold State.serveStart
  split
  · exact (respond_touches s _ _ _).wide
  · exact (respond_touches s _ _ _).wide.andThen (startWith_touches _ _)
  · exact (respond_touches s _ _ _).wide

theorem serveRestart_touches (t : Nat) (q : Request) (s : State) : OnlyTouches resetFoot s (State.serveRestart t q s) :=
  .ite (((restartUnits_touches s).andThen (respond_touches _ _ _ _)).andThen (enterJoining_touches _))
    (respond_touches s _ _ _).wide

theorem servePlaceCall_touches (t : Nat) (q : Request) (s : State) :
    OnlyTouches (.requests :: placeFoot) s (State.servePlaceCall t q s) := by
  unfold State.servePlaceCall
  split
  · exact .ite ((placeAdmitted_touches s _).wide.andThen (respond_touches _ _ _ _)) (respond_touches s _ _ _).wide
  · exact .refl _ _

theorem serveReleaseCall_touches (t : Nat) (q : Request) (s : State) :
    OnlyTouches (.requests :: releaseFoot) s (State.serveReleaseCall t q s) :=
  .ite ((dropCall_touches s _).wide.andThen (respond_touches _ _ _ _)) (respond_touches s _ _ _).wide

theorem serveRaise_touches (t : Nat) (q : Request) (s : State) :
    OnlyTouches (.requests :: raiseFoot) s (State.serveRaise t q s) := by
  unfold State.serveRaise
  split
  · exact .ite ((raise_touches s _ _).wide.andThen (respond_touches _ _ _ _)) (respond_touches s _ _ _).wide
  · exact .refl _ _

theorem acknowledge_touches (s : State) (i : AlarmId) : OnlyTouches alarmFoot s (s.acknowledge i) := by
  unfold State.acknowledge
  split
  · exact .refl _ _
  · exact .ite (thenClear_touches i (ownChange_touches s _)) (.refl _ _)

theorem serveAcknowledge_touches (t : Nat) (q : Request) (s : State) :
    OnlyTouches (.requests :: alarmFoot) s (State.serveAcknowledge t q s) := by
  unfold State.serveAcknowledge
  split
  · exact (OnlyTouches.ite (acknowledge_touches s _).wide (.refl _ _)).andThen (respond_touches _ _ _ _)
  · exact .refl _ _

theorem serveClear_touches (t : Nat) (q : Request) (s : State) :
    OnlyTouches (.requests :: alarmFoot) s (State.serveClear t q s) := by
  unfold State.serveClear
  split
  · exact (OnlyTouches.ite (clearAsOrigin_touches s _).wide (.refl _ _)).andThen (respond_touches _ _ _ _)
  · exact .refl _ _

theorem silenceAll_touches (s : State) : OnlyTouches [.alarms, .sounder] s s.silenceAll :=
  (setAlarms_touches s _).wide.andThen (decideSounder_touches _)

theorem serveSilence_touches (t : Nat) (q : Request) (s : State) :
    OnlyTouches [.requests, .indications, .alarms, .sounder] s (State.serveSilence t q s) :=
  .ite ((silenceAll_touches s).wide.andThen (respond_touches _ _ _ _)) (respond_touches s _ _ _).wide

theorem setText_touches (s : State) (w : Option (List Byte)) :
    OnlyTouches [.text] s (s.setPru { s.pru with text := w }) := by
  intro x hx; cases x <;> first | rfl | exact ⟨rfl, rfl⟩ | exact ⟨rfl, rfl, rfl⟩ | exact absurd (by decide) hx

theorem textFrames_touches (s : State) (d : Nat) (b : Bool) (w : List Byte) (r : Option Nat) :
    OnlyTouches plainQueuesFoot s (s.onPorts (fun p u => u.requestFrame p d .routine .pru [.text b w]
      (fun e => { e with report := r }))) := by
  refine onPorts_touches _ (fun p u => ?_) s
  have k := requestFrame_touches_plain u p d .routine .pru [.text b w] (fun e => { e with report := r })
    (fun _ => rfl) (fun _ => rfl) (fun h => FrameClass.noConfusion h)
  exact k.mono (plainQueueFoot_sub p)

theorem sendText_touches (s : State) (t d : Nat) (b r : Bool) (w : List Byte) :
    OnlyTouches ([.requests, .text] ++ plainQueuesFoot) s (s.sendText t d b r w) :=
  OnlyTouches.trans (.ite (setText_touches s _).wide (.refl _ _)) (textFrames_touches _ d b w _).wide

theorem serveSendText_touches (t : Nat) (q : Request) (s : State) :
    OnlyTouches ([.requests, .text] ++ plainQueuesFoot) s (State.serveSendText t q s) := by
  unfold State.serveSendText
  split
  · exact .ite ((sendText_touches s _ _ _ _ _).andThen (respond_touches _ _ _ _)) (respond_touches s _ _ _).wide
  · exact .refl _ _

theorem serveReadHistory_touches (t : Nat) (q : Request) (s : State) :
    OnlyTouches ([.requests, .indications] ++ grantFoot) s (State.serveReadHistory t q s) := by
  unfold State.serveReadHistory
  split
  · exact .ite (respond_touches s _ _ _).wide (.ite (respond_touches s _ _ _).wide (addHistory_touches s _).wide)
  · exact .refl _ _

theorem serveRequestHistory_touches (t : Nat) (q : Request) (s : State) :
    OnlyTouches (.requests :: plainQueuesFoot) s (State.serveRequestHistory t q s) := by
  unfold State.serveRequestHistory
  split
  · refine .ite (respond_touches s _ _ _).wide (.ite (respond_touches s _ _ _).wide ?_)
    refine OnlyTouches.andThen ?_ (respond_touches _ _ _ _)
    refine onPorts_touches _ (fun p u => ?_) _
    exact (requestFrame_touches_plain u p _ _ _ _ _ (fun _ => rfl) (fun _ => rfl) (by decide)).mono
      (fun x hx => List.mem_cons_of_mem _ (plainQueueFoot_sub p x hx))
  · exact .refl _ _

theorem serveReadChannel_touches (t : Nat) (q : Request) (s : State) :
    OnlyTouches [.requests, .answer, .indications] s (State.serveReadChannel t q s) := by
  unfold State.serveReadChannel
  split
  · split
    · exact (respond_touches s _ _ _).wide
    · exact .ite (respond_touches s _ _ _).wide (answerTable_touches s _ _ _).wide
  · exact .refl _ _

theorem recordTaken_touches (s : State) : OnlyTouches [.answer, .indications] s s.recordTaken := by
  unfold State.recordTaken
  refine .ite ?_ ?_
  · intro x hx; cases x <;> first | rfl | exact ⟨rfl, rfl⟩ | exact ⟨rfl, rfl, rfl⟩ | exact absurd (by decide) hx
  · split
    · exact .refl _ _
    · intro x hx; cases x <;> first | rfl | exact ⟨rfl, rfl⟩ | exact ⟨rfl, rfl, rfl⟩ | exact absurd (by decide) hx

theorem transfer_touches (s : State) (b : List Byte) :
    OnlyTouches [.requests, .answer, .indications, .portOut] s (s.transfer b) := by
  have h1 : ∀ (t : State) o, OnlyTouches [.requests, .answer, .indications, .portOut] t
      (t.setSpu { t.spu with portOut := o }) := by
    intro t o x hx; cases x <;> first | rfl | exact ⟨rfl, rfl⟩ | exact ⟨rfl, rfl, rfl⟩ | exact absurd (by decide) hx
  have h2 : ∀ (t : State) r o, OnlyTouches [.requests, .answer, .indications, .portOut] t
      (t.setSpu { t.spu with requests := r, portOut := o }) := by
    intro t r o x hx; cases x <;> first | rfl | exact ⟨rfl, rfl⟩ | exact ⟨rfl, rfl, rfl⟩ | exact absurd (by decide) hx
  have h3 : ∀ (c : Prop) [Decidable c], OnlyTouches [.requests, .answer, .indications, .portOut] s
      (if c then s.recordTaken else s) := fun c _ => .ite (recordTaken_touches s).wide (.refl _ _)
  unfold State.transfer
  exact .ite (h1 s _) ((h3 _).trans (h2 _ _ _))

end Sys2Proof.Machine
end

