-- ==== Sys2Proof/Laws/Keeps.lean ====
section
/-! SUPPORT. For each shared operation, that it keeps the invariants of Safety.lean. -/

set_option Elab.async false

namespace Sys2Proof.Machine

/-- From s to t every invariant is kept. The order of the tables is kept in states within capacity. -/
structure Keeps (s t : State) : Prop where
  capacity : Capacity s → Capacity t
  muster : MusterOk s → MusterOk t
  tables : Capacity s → TablesOk s → TablesOk t
  lists : ListsOrdered s → ListsOrdered t
  calls : InCallOk s → InCallOk t
  numbers : NumbersOk s → NumbersOk t

theorem Keeps.refl (s : State) : Keeps s s := ⟨id, id, fun _ => id, id, id, id⟩

theorem Keeps.trans {s t u : State} (h : Keeps s t) (k : Keeps t u) : Keeps s u :=
  ⟨fun x => k.capacity (h.capacity x), fun x => k.muster (h.muster x),
    fun x y => k.tables (h.capacity x) (h.tables x y), fun x => k.lists (h.lists x), fun x => k.calls (h.calls x),
    fun x => k.numbers (h.numbers x)⟩

theorem Keeps.ite {s t u : State} {c : Prop} [Decidable c] (h : Keeps s t) (k : Keeps s u) :
    Keeps s (if c then t else u) := by split <;> assumption

theorem Keeps.foldl {α : Type} (f : State → α → State) (h : ∀ s x, Keeps s (f s x)) (xs : List α) (s : State) :
    Keeps s (xs.foldl f s) := by
  induction xs generalizing s with
  | nil => exact .refl _
  | cons x xs ih => exact (h s x).trans (ih _)

theorem onPorts_keeps (f : Port → State → State) (h : ∀ p s, Keeps s (f p s)) (s : State) : Keeps s (s.onPorts f) := by
  have k : Keeps s (if s.configured .A then f .A s else s) := .ite (h _ _) (.refl _)
  exact k.trans (.ite (h _ _) (.refl _))

/-- The parts no invariant speaks of. -/
def loose : List Part :=
  [.pending, .clock, .draws, .partState, .intake, .portOut, .lastPort, .parse, .beacon, .text, .channels, .gate, .zone,
    .advance, .lockout, .context, .hook, .tones, .earpiece, .assembler, .linkCounters, .evacuation,
    .references, .door, .raw, .cells, .cadence, .lamps, .sounder]

/-- What every invariant reads, in two states that differ in loose parts only. -/
theorem keeps_of_touches {foot : List Part} {s t : State} (h : OnlyTouches foot s t)
    (sub : ∀ x ∈ foot, x ∈ loose := by decide) : Keeps s t := by
  have k : OnlyTouches loose s t := h.mono sub
  have h1 := k .requests (by decide)
  have h2 := k .answer (by decide)
  have h3 := k .indications (by decide)
  have h4 := k (.line .A) (by decide)
  have h5 := k (.line .B) (by decide)
  have h6 := k .peers (by decide)
  have h7 := k .recent (by decide)
  have h8 := k .heard (by decide)
  have h9 := k .history (by decide)
  have h10 := k .playback (by decide)
  have h11 := k .near (by decide)
  have h12 := k .tracks (by decide)
  have h13 := k .advisories (by decide)
  have h14 := k .alarms (by decide)
  have h15 := k (.deliveries .A) (by decide)
  have h16 := k (.deliveries .B) (by decide)
  have h17 := k .muster (by decide)
  have h18 := k .sequence (by decide)
  have h19 := k .nextCall (by decide)
  have h20 := k .alarmNumber (by decide)
  have h21 := k .capture (by decide)
  have h22 := k .engine (by decide)
  simp only [Part.same] at *
  change t.lau.a = s.lau.a at h4
  change t.lau.b = s.lau.b at h5
  change t.aru.deliveries.a = s.aru.deliveries.a at h15
  change t.aru.deliveries.b = s.aru.deliveries.b at h16
  constructor
  · intro c
    unfold Capacity CaptureFits State.placesTaken State.inFlightPlaces at *
    rw [h1, h2.1, h3.1, h3.2.1, h4, h5, h6, h7, h8, h9, h10, h11, h12, h13.1, h14, h15, h16, h21, h22]
    exact c
  · intro c
    unfold MusterOk at *
    rw [h17.1, h17.2.1, h17.2.2]
    exact c
  · intro _ c
    unfold TablesOk at *
    rw [h6, h11, h12, h14]
    exact c
  · intro c
    unfold ListsOrdered at *
    rw [h4, h5]
    exact c
  · intro c
    unfold InCallOk at *
    rw [h6, h8]
    exact c
  · intro c
    unfold NumbersOk at *
    rw [h18, h19, h20]
    exact c

/-! ### One unit's update -/

theorem setSpu_keeps (s : State) (x : Spu) (h1 : s.spu.requests.length ≤ 8 → x.requests.length ≤ 8)
    (h2 : s.spu.answer.length ≤ 80 → x.answer.length ≤ 80)
    (h3 : s.spu.ind.length ≤ 32 → s.spu.lost ≤ 255 → x.ind.length ≤ 32 ∧ x.lost ≤ 255) : Keeps s (s.setSpu x) :=
  ⟨fun ⟨a, b, c, d, rest⟩ => ⟨h1 a, h2 b, (h3 c d).1, (h3 c d).2, rest⟩, id, fun _ => id, id, id, id⟩

theorem setPort_keeps (s : State) (p : Port) (l : Lau) (hf : (s.port p).fits → l.fits)
    (ho : (s.port p).ordered → l.ordered) : Keeps s (s.setPort p l) := by
  cases p
  · exact ⟨fun ⟨a, b, c, d, e, rest⟩ => ⟨a, b, c, d, hf e, rest⟩, id, fun _ => id, fun c => ⟨ho c.1, c.2⟩, id, id⟩
  · exact ⟨fun ⟨a, b, c, d, e, f, rest⟩ => ⟨a, b, c, d, e, hf f, rest⟩, id, fun _ => id, fun c => ⟨c.1, ho c.2⟩, id, id⟩

/-- An update of a port that leaves its lists alone. -/
theorem setPort_keeps_lists (s : State) (p : Port) (l : Lau) (h1 : l.list = (s.port p).list)
    (h2 : l.received = (s.port p).received) (h3 : l.nextOrder = (s.port p).nextOrder) : Keeps s (s.setPort p l) := by
  refine setPort_keeps s p l ?_ ?_
  · unfold Lau.fits; rw [h1, h2]; exact id
  · unfold Lau.ordered; rw [h1, h3]; exact id

theorem setPru_keeps (s : State) (x : Pru) (h1 : s.pru.peers.length ≤ 48 → x.peers.length ≤ 48)
    (h2 : s.pru.recent.length ≤ 32 → x.recent.length ≤ 32) (h3 : s.pru.heard.length ≤ 4 → x.heard.length ≤ 4)
    (h4 : s.pru.peers.Pairwise (fun a b => a.station < b.station) → x.peers.Pairwise (fun a b => a.station < b.station))
    (h5 : InCallOk s → ∀ y ∈ x.peers, y.inCall = partyHeard x.heard y.station) : Keeps s (s.setPru x) :=
  ⟨fun ⟨a, b, c, d, e, f, g, h, i, rest⟩ => ⟨a, b, c, d, e, f, h1 g, h2 h, h3 i, rest⟩, id,
    fun _ c => ⟨h4 c.1, c.2⟩, id, h5, id⟩

theorem setTgu_keeps (s : State) (x : Tgu) (h1 : s.tgu.near.length ≤ 64 → x.near.length ≤ 64)
    (h2 : s.tgu.tracks.length ≤ 16 → x.tracks.length ≤ 16)
    (h3 : s.tgu.advisories.length ≤ 8 → x.advisories.length ≤ 8)
    (h4 : s.tgu.near.Pairwise (fun a b => a.tag < b.tag) → x.near.Pairwise (fun a b => a.tag < b.tag))
    (h5 : s.tgu.tracks.Pairwise (fun a b => a.tag < b.tag) → x.tracks.Pairwise (fun a b => a.tag < b.tag)) :
    Keeps s (s.setTgu x) :=
  ⟨fun ⟨a, b, c, d, e, f, g, h, i, j, k, l, m, n, rest⟩ =>
      ⟨a, b, c, d, e, f, g, h, i, j, k, h1 l, h2 m, h3 n, rest⟩, id,
    fun _ c => ⟨c.1, h4 c.2.1, h5 c.2.2.1, c.2.2.2⟩, id, id, id⟩

theorem setAru_keeps (s : State) (x : Aru) (h1 : s.aru.alarms.length ≤ 16 → x.alarms.length ≤ 16)
    (h2 : s.aru.deliveries.a.length ≤ 16 → x.deliveries.a.length ≤ 16)
    (h3 : s.aru.deliveries.b.length ≤ 16 → x.deliveries.b.length ≤ 16)
    (h4 : MusterOk s → MusterOk (s.setAru x))
    (h5 : Capacity s → s.aru.alarms.Pairwise (fun a b => alarmBefore a b = true ∧ a.id ≠ b.id) →
      x.alarms.Pairwise (fun a b => alarmBefore a b = true ∧ a.id ≠ b.id))
    (h6 : s.aru.nextNumber < 256 → x.nextNumber < 256) : Keeps s (s.setAru x) :=
  ⟨fun ⟨a, b, c, d, e, f, g, h, i, j, k, l, m, n, o, p, q⟩ =>
      ⟨a, b, c, d, e, f, g, h, i, j, k, l, m, n, h1 o, h2 p, h3 q.1, q.2⟩, h4,
    fun k c => ⟨c.1, c.2.1, c.2.2.1, h5 k c.2.2.2⟩, id, id, fun c => ⟨c.1, c.2.1, h6 c.2.2⟩⟩

theorem capacity_capture {s : State} (c : Capacity s) : CaptureFits s := by
  obtain ⟨_, _, _, _, _, _, _, _, _, _, _, _, _, _, _, _, _, h⟩ := c
  exact h

theorem setBpk_keeps (s : State) (x : Bpk) (h : s.bpk.history.length ≤ 4 → x.history.length ≤ 4)
    (hc : CaptureFits s → CaptureFits (s.setBpk x)) : Keeps s (s.setBpk x) :=
  ⟨fun ⟨a, b, c, d, e, f, g, i, j, k, l, m, n, o, p, q, r, z⟩ =>
      ⟨a, b, c, d, e, f, g, i, j, h k, l, m, n, o, p, q, r, hc z⟩, id, fun _ => id, id, id, id⟩

theorem setClu_keeps (s : State) (x : Clu)
    (h1 : s.clu.playback.blocks.length ≤ 64 → x.playback.blocks.length ≤ 64)
    (h2 : s.clu.nextCall < 256 → x.nextCall < 256) (hc : CaptureFits s → CaptureFits (s.setClu x)) :
    Keeps s (s.setClu x) :=
  ⟨fun ⟨a, b, c, d, e, f, g, i, j, k, l, m, n, o, p, q, r, z⟩ =>
      ⟨a, b, c, d, e, f, g, i, j, k, h1 l, m, n, o, p, q, r, hc z⟩, id, fun _ => id, id, id,
    fun c => ⟨c.1, h2 c.2.1, c.2.2⟩⟩

/-! ### Lists in order -/

theorem insertBy_length {α : Type} (le : α → α → Bool) (x : α) (l : List α) :
    (insertBy le x l).length = l.length + 1 := by
  induction l with
  | nil => rfl
  | cons y ys ih => unfold insertBy; split <;> simp [ih]

theorem mem_insertBy {α : Type} (le : α → α → Bool) (x y : α) (l : List α) :
    y ∈ insertBy le x l ↔ y = x ∨ y ∈ l := by
  induction l with
  | nil => simp [insertBy]
  | cons z zs ih =>
    unfold insertBy
    split
    · simp
    · simp only [List.mem_cons, ih]; tauto

/-- Inserting keeps an order that the comparison decides, when the newcomer is related to every other element one way
or the other. -/
theorem insertBy_pairwise {α : Type} (le : α → α → Bool) (r : α → α → Prop) (x : α) (l : List α)
    (h1 : ∀ y ∈ l, le x y = true → r x y) (h2 : ∀ y ∈ l, le x y = false → r y x)
    (tr : ∀ y z, le x y = true → r y z → le x z = true) (h : l.Pairwise r) :
    (insertBy le x l).Pairwise r := by
  induction l with
  | nil => simp [insertBy]
  | cons y ys ih =>
    rw [List.pairwise_cons] at h
    unfold insertBy
    split
    · rename_i hy
      rw [List.pairwise_cons, List.pairwise_cons]
      refine ⟨fun z hz => ?_, h.1, h.2⟩
      rcases List.mem_cons.1 hz with e | e
      · rw [e]; exact h1 y List.mem_cons_self hy
      · exact h1 z (List.mem_cons_of_mem _ e) (tr y z hy (h.1 z e))
    · rename_i hy
      rw [List.pairwise_cons]
      refine ⟨fun z hz => ?_, ih (fun z hz => h1 z (List.mem_cons_of_mem _ hz))
        (fun z hz => h2 z (List.mem_cons_of_mem _ hz)) h.2⟩
      rcases (mem_insertBy le x z ys).1 hz with e | e
      · rw [e]; exact h2 y List.mem_cons_self (by simpa using hy)
      · exact h.1 z e

theorem firstBy_mem {α : Type} (le : α → α → Bool) (l : List α) (x : α) (h : firstBy le l = some x) : x ∈ l := by
  induction l generalizing x with
  | nil => cases h
  | cons y ys ih =>
    unfold firstBy at h
    split at h
    · cases h; exact List.mem_cons_self
    · rename_i z hz
      split at h <;> cases h
      · exact List.mem_cons_self
      · exact List.mem_cons_of_mem _ (ih _ hz)

theorem firstBy_none {α : Type} (le : α → α → Bool) (l : List α) (h : firstBy le l = none) : l = [] := by
  cases l with
  | nil => rfl
  | cons y ys => unfold firstBy at h; split at h <;> [cases h; (split at h <;> cases h)]

/-- The choice under a total preorder: everything before the chosen element stands strictly above it, and everything
after it no lower. -/
theorem firstBy_split {α : Type} {le : α → α → Bool} (tr : ∀ a b c, le a b = true → le b c = true → le a c = true)
    (tot : ∀ a b, le a b = false → le b a = true) (xs : List α) (v : α) :
    firstBy le xs = some v ↔ ∃ before after, xs = before ++ v :: after ∧ (∀ x ∈ before, le x v = false)
      ∧ ∀ x ∈ after, le v x = true := by
  induction xs generalizing v with
  | nil => simp [firstBy]
  | cons x xs ih =>
    unfold firstBy
    constructor
    · intro h
      cases k : firstBy le xs with
      | none =>
        rw [k] at h
        injection h with h
        subst h
        exact ⟨[], xs, rfl, by simp, by rw [firstBy_none _ _ k]; simp⟩
      | some y =>
        rw [k] at h
        dsimp only at h
        obtain ⟨before, after, rfl, hb, ha⟩ := (ih y).1 k
        cases c : le x y with
        | true =>
          rw [if_pos c] at h
          injection h with h
          subst h
          refine ⟨[], _, rfl, by simp, ?_⟩
          intro z hz
          rcases List.mem_append.1 hz with hz | hz
          · exact tr _ _ _ c (tot _ _ (hb z hz))
          · rcases List.mem_cons.1 hz with rfl | hz
            · exact c
            · exact tr _ _ _ c (ha z hz)
        | false =>
          rw [if_neg (by simp [c])] at h
          injection h with h
          subst h
          refine ⟨x :: before, after, rfl, ?_, ha⟩
          intro z hz
          rcases List.mem_cons.1 hz with rfl | hz
          · exact c
          · exact hb z hz
    · rintro ⟨before, after, h, hb, ha⟩
      cases before with
      | nil =>
        rw [List.nil_append, List.cons.injEq] at h
        obtain ⟨rfl, rfl⟩ := h
        cases k : firstBy le xs with
        | none => rfl
        | some y => exact if_pos (ha y (firstBy_mem _ _ _ k))
      | cons b bs =>
        rw [List.cons_append, List.cons.injEq] at h
        obtain ⟨rfl, rfl⟩ := h
        rw [(ih v).2 ⟨bs, after, rfl, fun z hz => hb z (List.mem_cons_of_mem _ hz), ha⟩]
        exact if_neg (by simp [hb x (by simp)])

/-- A map that keeps a key keeps the order of the keys. -/
theorem pairwise_map_key {α : Type} (key : α → Nat) (f : α → α) (hf : ∀ x, key (f x) = key x) (l : List α)
    (h : l.Pairwise (fun a b => key a < key b)) : (l.map f).Pairwise (fun a b => key a < key b) := by
  rw [List.pairwise_map]
  simpa only [hf] using h

theorem filter_ne_length {α : Type} (p : α → Bool) (l : List α) (x : α) (hx : x ∈ l) (hp : p x = false) :
    (l.filter p).length < l.length := by
  induction l with
  | nil => cases hx
  | cons y ys ih =>
    rcases List.mem_cons.1 hx with e | e
    · subst e
      rw [List.filter_cons_of_neg (by simp [hp])]
      exact Nat.lt_succ_of_le (List.length_filter_le _ _)
    · have := ih e
      by_cases hy : p y
      · rw [List.filter_cons_of_pos hy]; simpa using this
      · rw [List.filter_cons_of_neg hy]; exact Nat.lt_succ_of_lt this

/-! ### Intake -/

theorem makeRoom_length (need fuel : Nat) (q : List Queued) : (makeRoom need fuel q).1.length ≤ q.length := by
  induction fuel generalizing q with
  | zero => exact Nat.le_refl _
  | succ n ih =>
    unfold makeRoom
    split
    · exact Nat.le_refl _
    · split
      · exact Nat.le_trans (ih _) (List.length_eraseP_le)
      · exact Nat.le_refl _

theorem takeInAll_keeps (rs : List HostRecord) (s : State) : Keeps s (takeInAll rs s) := by
  have hm := makeRoom_length rs.length s.spu.ind.length s.spu.ind
  unfold takeInAll
  dsimp only
  split
  · rename_i hr
    cases rs with
    | nil => exact .refl _
    | cons r more =>
      refine setSpu_keeps s _ id id (fun _ _ => ⟨?_, Nat.zero_le _⟩)
      simp only [List.length_append, List.length_cons, List.length_map] at *
      omega
  · refine setSpu_keeps s _ id id (fun h _ => ⟨Nat.le_trans hm h, ?_⟩)
    unfold addLost
    exact Nat.min_le_left _ _

theorem takeIn_keeps (r : HostRecord) (s : State) : Keeps s (takeIn r s) := takeInAll_keeps [r] s

/-! ### The line -/

/-- An update of a port, after a first change. -/
theorem Keeps.thenPort {s t : State} (k : Keeps s t) (p : Port) (l : Lau)
    (hf : Capacity s → (t.port p).fits → l.fits) (ho : (t.port p).ordered → l.ordered) : Keeps s (t.setPort p l) := by
  by_cases h : Capacity s
  · exact k.trans (setPort_keeps t p l (hf h) ho)
  · have m := k.trans (setPort_keeps t p { l with list := [], received := [] }
      (fun _ => ⟨Nat.zero_le _, Nat.zero_le _⟩) (fun _ => ⟨List.Pairwise.nil, fun _ h => absurd h List.not_mem_nil⟩))
    refine ⟨fun c => absurd c h, ?_, fun c => absurd c h, ?_, ?_, ?_⟩
    · intro c; have := m.muster c; cases p <;> exact this
    · intro c
      have := k.lists c
      cases p
      · exact ⟨ho this.1, this.2⟩
      · exact ⟨this.1, ho this.2⟩
    · intro c; have := m.calls c; cases p <;> exact this
    · intro c; have := m.numbers c; cases p <;> exact this

theorem ordered_sublist {l : Lau} {list : List TxEntry} (h : l.ordered) (k : list.Sublist l.list) :
    ({ l with list := list } : Lau).ordered :=
  ⟨h.1.sublist k, fun e he => h.2 e (k.subset he)⟩

/-- A map that keeps class and order keeps the order of the list. -/
theorem ordered_map {l : Lau} (f : TxEntry → TxEntry) (hc : ∀ e, (f e).cls = e.cls) (ho : ∀ e, (f e).order = e.order)
    (h : l.ordered) : ({ l with list := l.list.map f } : Lau).ordered := by
  constructor
  · refine List.pairwise_map.2 (h.1.imp ?_)
    intro a b hab
    simpa only [TxEntry.before, hc, ho] using hab
  · intro e he
    obtain ⟨x, hx, rfl⟩ := List.mem_map.1 he
    rw [ho]; exact h.2 x hx

theorem without_sublist (l : Lau) (n : Nat) : (l.without n).Sublist l.list := List.filter_sublist

theorem count_keeps (s : State) (p : Port) (f : LineCounters → LineCounters) : Keeps s (s.count p f) :=
  setPort_keeps_lists s p _ rfl rfl rfl

theorem setDraws_keeps (s : State) (n : Nat) : Keeps s (s.setDraws n) :=
  ⟨id, id, fun _ => id, id, id, id⟩

theorem newDraw_keeps (s : State) (p : Port) : Keeps s (s.newDraw p) := by
  unfold State.newDraw
  split
  · exact .refl _
  · exact (setDraws_keeps s _).trans (setPort_keeps_lists _ p _ rfl rfl rfl)

theorem enterDefer_keeps (s : State) (p : Port) : Keeps s (s.enterDefer p) :=
  Keeps.trans (setPort_keeps_lists s p { s.port p with access := .defer } rfl rfl rfl) (newDraw_keeps _ p)

theorem compose_keeps (s : State) (d : Nat) (c : FrameClass) (m : Bool) (xs : List FrameSection) :
    Keeps s (s.compose d c m xs).2 :=
  ⟨id, id, fun _ => id, id, id, fun c => ⟨Nat.mod_lt _ (by decide), c.2⟩⟩

theorem composeEntry_keeps (s : State) (p : Port) (e : TxEntry) : Keeps s (s.composeEntry p e).2 := by
  unfold State.composeEntry
  split
  · exact .refl _
  · split
    · exact compose_keeps s _ _ _ _
    · exact .refl _

theorem mapEntry_length (l : Lau) (n : Nat) (f : TxEntry → TxEntry) : (l.mapEntry n f).length = l.list.length :=
  List.length_map _

theorem enterTransmit_keeps (s : State) (p : Port) : Keeps s (s.enterTransmit p) := by
  unfold State.enterTransmit
  split
  · exact .refl _
  · rename_i e _
    refine (composeEntry_keeps s p e).trans (setPort_keeps _ p _ ?_ ?_)
    · intro h; exact ⟨(mapEntry_length _ _ _).symm ▸ h.1, h.2⟩
    · intro h
      refine ordered_map (l := (s.composeEntry p e).2.port p) _ ?_ ?_ h <;> (intro x; dsimp only; split <;> rfl)

theorem wakePort_keeps (s : State) (p : Port) (h : Option Nat) : Keeps s (s.wakePort p h) := by
  unfold State.wakePort
  exact .ite (.refl _) (.ite (enterDefer_keeps s p) (.ite
    (.ite ((newDraw_keeps s p).trans (enterTransmit_keeps _ p)) (newDraw_keeps s p)) (.refl _)))

/-! ### Deliveries and outcomes -/

/-- An update of a port's deliveries, after a first change. -/
theorem Keeps.thenDeliveries {s t : State} (k : Keeps s t) (p : Port) (ds : List Delivery)
    (h : Capacity s → (t.deliveriesOn p).length ≤ 16 → ds.length ≤ 16) : Keeps s (t.setDeliveries p ds) := by
  refine ⟨fun c => ?_, fun c => ?_, fun c d => ?_, fun c => ?_, fun c => ?_, fun c => ?_⟩
  · obtain ⟨a, b, c', d, e, f, g, i, j, k', l, m, n, o, q, r, u, z⟩ := k.capacity c
    cases p
    · exact ⟨a, b, c', d, e, f, g, i, j, k', l, m, n, o, q, h c r, u, z⟩
    · exact ⟨a, b, c', d, e, f, g, i, j, k', l, m, n, o, q, r, h c u, z⟩
  · have := k.muster c; cases p <;> exact this
  · have := k.tables c d; cases p <;> exact this
  · have := k.lists c; cases p <;> exact this
  · have := k.calls c; cases p <;> exact this
  · have := k.numbers c; cases p <;> exact this

theorem setDeliveries_keeps (s : State) (p : Port) (ds : List Delivery)
    (h : (s.deliveriesOn p).length ≤ 16 → ds.length ≤ 16) : Keeps s (s.setDeliveries p ds) :=
  (Keeps.refl s).thenDeliveries p ds (fun _ => h)

theorem dropDelivery_keeps (s : State) (p : Port) (i : AlarmId) : Keeps s (s.dropDelivery p i) :=
  setDeliveries_keeps s p _ (Nat.le_trans (List.length_filter_le _ _))

theorem deliveryOutcome_keeps (s : State) (p : Port) (f : List Byte) (m : List Nat) :
    Keeps s (s.deliveryOutcome p f m) := by
  unfold State.deliveryOutcome
  split
  · exact .refl _
  · dsimp only
    exact .ite (dropDelivery_keeps s p _)
      (.ite (setDeliveries_keeps s p _ (fun h => by rw [List.length_map]; exact h))
        ((dropDelivery_keeps s p _).trans (takeIn_keeps _ _)))

theorem handOutcome_keeps (s : State) (p : Port) (e : TxEntry) (o : TxOutcome) (m : List Nat) :
    Keeps s (s.handOutcome p e o m) := by
  unfold State.handOutcome
  have h1 : Keeps s (s.reportOutcome p e o) := by
    unfold State.reportOutcome
    split
    · exact takeIn_keeps _ _
    · exact .refl _
  have h2 : ∀ t : State, Keeps t
      (if e.cls = .alarm ∧ e.requester = some .aru then t.deliveryOutcome p (e.frame.getD []) m else t) :=
    fun t => .ite (deliveryOutcome_keeps t p _ m) (.refl _)
  exact (h1.trans (h2 _)).trans (.ite (count_keeps _ p _) (.refl _))

/-- An outcome leaves every list of the line as it was. -/
theorem takeIn_port (r : HostRecord) (s : State) (p : Port) : (takeIn r s).port p = s.port p := by
  obtain ⟨i, l, c, h⟩ := takeInAll_eq [r] s
  unfold takeIn
  rw [h]; rfl

theorem deliveryOutcome_port (s : State) (p q : Port) (f : List Byte) (m : List Nat) :
    (s.deliveryOutcome p f m).port q = s.port q := by
  unfold State.deliveryOutcome
  split
  · rfl
  · dsimp only
    split
    · rfl
    · split
      · rfl
      · exact takeIn_port _ _ q

theorem count_port_list (s : State) (p q : Port) (f : LineCounters → LineCounters) :
    ((s.count p f).port q).list = (s.port q).list ∧ ((s.count p f).port q).nextOrder = (s.port q).nextOrder
      ∧ ((s.count p f).port q).access = (s.port q).access ∧ ((s.count p f).port q).service = (s.port q).service := by
  cases p <;> cases q <;> exact ⟨rfl, rfl, rfl, rfl⟩

theorem handOutcome_list (s : State) (p q : Port) (e : TxEntry) (o : TxOutcome) (m : List Nat) :
    ((s.handOutcome p e o m).port q).list = (s.port q).list
      ∧ ((s.handOutcome p e o m).port q).nextOrder = (s.port q).nextOrder
      ∧ ((s.handOutcome p e o m).port q).access = (s.port q).access
      ∧ ((s.handOutcome p e o m).port q).service = (s.port q).service := by
  unfold State.handOutcome
  have h1 : (s.reportOutcome p e o).port q = s.port q := by
    unfold State.reportOutcome
    split
    · exact takeIn_port _ _ q
    · rfl
  have h2 : ∀ t : State,
      (if e.cls = .alarm ∧ e.requester = some .aru then t.deliveryOutcome p (e.frame.getD []) m else t).port q
        = t.port q := by
    intro t; split
    · exact deliveryOutcome_port t p q _ m
    · rfl
  dsimp only
  split
  · have := count_port_list
      (if e.cls = .alarm ∧ e.requester = some .aru then
        (s.reportOutcome p e o).deliveryOutcome p (e.frame.getD []) m
      else s.reportOutcome p e o) p q (fun c => { c with relayedOut := c.relayedOut.bump })
    rw [h2, h1] at this
    exact this
  · rw [h2, h1]; exact ⟨rfl, rfl, rfl, rfl⟩

/-! ### Queue requests -/

theorem mem_waiting {l : Lau} {e : TxEntry} (h : e ∈ l.waiting) : e ∈ l.list := (List.mem_filter.1 h).1

theorem without_length {l : Lau} {e : TxEntry} (h : e ∈ l.list) : (l.without e.order).length < l.list.length :=
  filter_ne_length _ l.list e h (by simp)

theorem leaveList_keeps (s : State) (p : Port) (n : Nat) (v : Option Nat) :
    Keeps s (s.setPort p { s.port p with list := (s.port p).without n, service := v }) :=
  setPort_keeps s p _ (fun h => ⟨Nat.le_trans (without_sublist (s.port p) n).length_le h.1, h.2⟩)
    (fun h => ordered_sublist h (without_sublist (s.port p) n))

theorem evictEntry_keeps (s : State) (p : Port) (e : TxEntry) : Keeps s (s.evictEntry p e) :=
  Keeps.trans (leaveList_keeps s p e.order (s.port p).service) (handOutcome_keeps _ p e _ _)

theorem evictEntry_list (s : State) (p : Port) (e : TxEntry) :
    ((s.evictEntry p e).port p).list = (s.port p).without e.order
      ∧ ((s.evictEntry p e).port p).nextOrder = (s.port p).nextOrder := by
  have h := handOutcome_list (s.setPort p { s.port p with list := (s.port p).without e.order }) p p e .evicted []
  rw [setPort_port_same] at h
  exact ⟨h.1, h.2.1⟩

theorem applyVoiceDepth_keeps (s : State) (p : Port) (e : TxEntry) : Keeps s (s.applyVoiceDepth p e) := by
  unfold State.applyVoiceDepth
  split
  · exact evictEntry_keeps s p _
  · exact .refl _

theorem insertEntry_length (e : TxEntry) (l : List TxEntry) : (insertEntry e l).length = l.length + 1 := by
  have := congrArg List.length (List.takeWhile_append_dropWhile (p := fun x => decide (x.cls.code ≤ e.cls.code)) (l := l))
  rw [List.length_append] at this
  unfold insertEntry
  rw [List.length_append, List.length_cons]
  omega

theorem mem_insertEntry (e x : TxEntry) (l : List TxEntry) : x ∈ insertEntry e l ↔ x = e ∨ x ∈ l := by
  unfold insertEntry
  conv_rhs => rw [← List.takeWhile_append_dropWhile (p := fun x => decide (x.cls.code ≤ e.cls.code)) (l := l)]
  simp only [List.mem_append, List.mem_cons]
  tauto

/-- The newcomer's place keeps the order of R15. -/
theorem placed_ordered (l : Lau) (e : TxEntry) (h : l.ordered) :
    ({ l with list := insertEntry { e with order := l.nextOrder } l.list, nextOrder := l.nextOrder + 1 } : Lau).ordered := by
  constructor
  · unfold insertEntry
    dsimp only
    have hs := List.takeWhile_append_dropWhile (p := fun x : TxEntry => decide (x.cls.code ≤ e.cls.code)) (l := l.list)
    have hp := h.1
    rw [← hs, List.pairwise_append] at hp
    have hd : ∀ b ∈ l.list.dropWhile (fun x => decide (x.cls.code ≤ e.cls.code)), e.cls.code < b.cls.code := by
      intro b hb
      have hq := hp.2.1
      cases hc : l.list.dropWhile (fun x => decide (x.cls.code ≤ e.cls.code)) with
      | nil => rw [hc] at hb; cases hb
      | cons c cs =>
        have hn : ¬ c.cls.code ≤ e.cls.code := by
          have := List.head_dropWhile_not (fun x : TxEntry => decide (x.cls.code ≤ e.cls.code)) (l := l.list)
            (by rw [hc]; exact List.cons_ne_nil _ _)
          simpa [hc] using this
        rw [hc] at hb hq
        rcases List.mem_cons.1 hb with k | k
        · rw [k]; omega
        · have := (List.pairwise_cons.1 hq).1 b k
          unfold TxEntry.before at this
          omega
    rw [List.pairwise_append, List.pairwise_cons]
    refine ⟨hp.1, ⟨fun b hb => Or.inl (hd b hb), hp.2.1⟩, fun a ha b hb => ?_⟩
    rcases List.mem_cons.1 hb with k | k
    · rw [k]
      have h1 : a.cls.code ≤ e.cls.code := by
        have := List.mem_takeWhile_imp ha
        simpa using this
      have h2 : a.order < l.nextOrder := h.2 a ((List.takeWhile_sublist _).subset ha)
      show a.cls.code < e.cls.code ∨ (a.cls.code = e.cls.code ∧ a.order < l.nextOrder)
      omega
    · exact hp.2.2 a ha b k
  · intro x hx
    rcases (mem_insertEntry _ _ _).1 hx with k | k
    · rw [k]; exact Nat.lt_succ_self _
    · exact Nat.lt_succ_of_lt (h.2 x k)

/-- The newcomer placed, after a change that left room for it. -/
theorem Keeps.thenPlace {s t : State} (k : Keeps s t) (p : Port) (e : TxEntry)
    (h : Capacity s → (t.port p).list.length < 12) : Keeps s (t.placeEntry p e) :=
  k.thenPort p _ (fun c f => ⟨by rw [insertEntry_length]; exact h c, f.2⟩) (placed_ordered _ e)

theorem capacity_port {s : State} (c : Capacity s) (p : Port) : (s.port p).fits := by
  cases p
  · exact c.2.2.2.2.1
  · exact c.2.2.2.2.2.1

theorem capacity_deliveries {s : State} (c : Capacity s) (p : Port) : (s.deliveriesOn p).length ≤ 16 := by
  obtain ⟨_, _, _, _, _, _, _, _, _, _, _, _, _, _, _, r, u, _⟩ := c
  cases p
  · exact r
  · exact u

theorem enterList_keeps (s : State) (p : Port) (e : TxEntry) : Keeps s (s.enterList p e).2 := by
  unfold State.enterList
  dsimp only
  split
  · rename_i h; exact (Keeps.refl s).thenPlace p e (fun _ => h)
  · split
    · rename_i v hv
      refine (evictEntry_keeps s p v).thenPlace p e (fun c => ?_)
      have h1 := without_length (mem_waiting (victim_less_urgent _ _ _ hv).2)
      have h2 := (capacity_port c p).1
      rw [(evictEntry_list s p v).1]
      omega
    · exact count_keeps s p (fun c => { c with queueFullDrops := c.queueFullDrops.bump })

theorem markRepeat_lists (l : Lau) (k : LiveKind) :
    (l.markRepeat k).list = l.list ∧ (l.markRepeat k).received = l.received
      ∧ (l.markRepeat k).nextOrder = l.nextOrder := by
  unfold Lau.markRepeat
  split
  · cases k <;> exact ⟨rfl, rfl, rfl⟩
  · exact ⟨rfl, rfl, rfl⟩

theorem answerRequest_keeps (s : State) (p : Port) (e : TxEntry) : Keeps s (s.answerRequest p e).2 := by
  unfold State.answerRequest
  split
  · exact .refl _
  · split
    · split
      · have h := markRepeat_lists (s.port p) (by assumption)
        exact setPort_keeps_lists s p _ h.1 h.2.1 h.2.2
      · exact .refl _
    · exact (applyVoiceDepth_keeps s p e).trans (enterList_keeps _ p e)

/-- A queue request keeps the invariants (R15 to R20). -/
theorem queueRequest_keeps (s : State) (p : Port) (e : TxEntry) : Keeps s (s.queueRequest p e) := by
  unfold State.queueRequest
  have h := answerRequest_keeps s p e
  dsimp only
  split
  · exact Keeps.trans (Keeps.trans h (handOutcome_keeps _ p e _ _)) (wakePort_keeps _ p _)
  · exact h
  · exact h.trans (wakePort_keeps _ p _)

theorem requestLive_keeps (k : LiveKind) (p : Port) (s : State) : Keeps s (s.requestLive k p) :=
  queueRequest_keeps s p _

theorem requestFrame_keeps (s : State) (p : Port) (d : Nat) (c : FrameClass) (r : Requester) (xs : List FrameSection)
    (f : TxEntry → TxEntry) : Keeps s (s.requestFrame p d c r xs f) :=
  (compose_keeps s _ _ _ _).trans (queueRequest_keeps _ p _)

theorem clearRepeat_lists (l : Lau) (k : LiveKind) :
    (l.clearRepeat k).list = l.list ∧ (l.clearRepeat k).received = l.received
      ∧ (l.clearRepeat k).nextOrder = l.nextOrder := by cases k <;> exact ⟨rfl, rfl, rfl⟩

theorem queueRepeat_keeps (s : State) (p : Port) (e : TxEntry) : Keeps s (s.queueRepeat p e) := by
  unfold State.queueRepeat
  split
  · exact .refl _
  · rename_i k _
    have h := clearRepeat_lists (s.port p) k
    exact .ite ((setPort_keeps_lists s p _ h.1 h.2.1 h.2.2).trans (requestLive_keeps _ p _)) (.refl _)

theorem proceed_keeps (s : State) (p : Port) : Keeps s (s.proceed p) :=
  .ite (enterDefer_keeps s p) (setPort_keeps_lists s p _ rfl rfl rfl)

theorem finishService_keeps (s : State) (p : Port) (o : TxOutcome) (m : List Nat) : Keeps s (s.finishService p o m) := by
  unfold State.finishService
  split
  · exact proceed_keeps s p
  · rename_i e _
    exact Keeps.trans (Keeps.trans (Keeps.trans (leaveList_keeps s p e.order none) (handOutcome_keeps _ p _ _ _))
      (queueRepeat_keeps _ p _)) (proceed_keeps _ p)

theorem holdWindow_keeps (s : State) (p : Port) : Keeps s (s.holdWindow p) := setPort_keeps_lists s p _ rfl rfl rfl

theorem offerFrame_keeps (s : State) (p : Port) (b : List Byte) : Keeps s (s.offerFrame p b) := by
  unfold State.offerFrame
  dsimp only
  split
  · rename_i h
    refine Keeps.trans ?_ (count_keeps _ p _)
    refine setPort_keeps s p _ (fun f => ⟨f.1, ?_⟩) id
    rw [List.length_append]; exact h
  · exact count_keeps s p _

theorem receiveGathered_keeps (s : State) (p : Port) (g : Gathered) : Keeps s (s.receiveGathered p g) := by
  unfold State.receiveGathered
  split
  · exact .refl _
  · exact (count_keeps _ p _).trans (holdWindow_keeps _ p)
  · have h := offerFrame_keeps s p g.bytes
    exact .ite (h.trans (holdWindow_keeps _ p)) h

theorem settleQuiet_keeps (s : State) (p : Port) : Keeps s (s.settleQuiet p) := by
  unfold State.settleQuiet
  exact .ite (.refl _) (.ite (setPort_keeps_lists s p _ rfl rfl rfl) (.ite (enterDefer_keeps s p) (.refl _)))

/-! ### Advisories and the lane monitor -/

/-- An update of the tag unit that leaves its two tables alone. -/
theorem setTgu_keeps_tables (s : State) (x : Tgu) (h1 : x.near = s.tgu.near) (h2 : x.tracks = s.tgu.tracks)
    (h3 : s.tgu.advisories.length ≤ 8 → x.advisories.length ≤ 8) : Keeps s (s.setTgu x) := by
  refine setTgu_keeps s x ?_ ?_ h3 ?_ ?_
  · rw [h1]; exact id
  · rw [h2]; exact id
  · rw [h1]; exact id
  · rw [h2]; exact id

theorem enqueueAdvisory_length (a : Advisory) (q : List Advisory) (h : q.length ≤ 8) :
    (enqueueAdvisory a q).1.length ≤ 8 := by
  unfold enqueueAdvisory
  split
  · rw [List.length_map]; exact h
  · split
    · rw [List.length_append]; simpa using (by assumption : q.length < 8)
    · split
      · rename_i v hv
        split
        · exact h
        · have hm := firstBy_mem _ _ _ hv
          have := List.length_eraseP_of_mem (p := fun x => decide (x = v)) hm (by simp)
          have := List.length_pos_of_mem hm
          simp only [List.length_append, List.length_cons, List.length_nil]
          omega
      · rename_i hv
        rw [firstBy_none _ _ hv]; exact Nat.succ_le_succ (Nat.zero_le _)

theorem startSending_keeps (s : State) : Keeps s s.startSending := by
  unfold State.startSending
  split
  · split
    · exact .refl _
    · rename_i a more hq
      refine setTgu_keeps_tables s _ rfl rfl ?_
      rw [hq]
      intro h
      exact Nat.le_trans (Nat.le_succ _) h
  · exact .refl _

theorem queueAdvisory_keeps (a : Advisory) (s : State) : Keeps s (s.queueAdvisory a) := by
  unfold State.queueAdvisory
  refine .ite (.refl _) ?_
  dsimp only
  have h : Keeps s (s.setTgu { s.tgu with advisories := (enqueueAdvisory a s.tgu.advisories).1 }) :=
    setTgu_keeps_tables s _ rfl rfl (enqueueAdvisory_length a _)
  have k : ∀ t : State, Keeps t
      (if (enqueueAdvisory a s.tgu.advisories).2 then t.countLink (fun c => { c with dropped := c.dropped.bump }) else t) :=
    fun t => .ite (keeps_of_touches (countLink_touches t _)) (.refl _)
  exact (h.trans (k _)).trans (startSending_keeps _)

theorem queueEvacuate_keeps (s : State) : Keeps s s.queueEvacuate := by
  unfold State.queueEvacuate
  refine .ite (.refl _) (Keeps.trans ?_ (queueAdvisory_keeps _ _))
  exact setTgu_keeps_tables s _ rfl rfl id

theorem evacuationStep_keeps (s : State) : Keeps s s.evacuationStep := by
  unfold State.evacuationStep
  have h : Keeps s (s.setTgu { s.tgu with evacHeld := s.evacuation }) := setTgu_keeps_tables s _ rfl rfl id
  dsimp only
  exact .ite (h.trans (queueEvacuate_keeps _)) (.ite (h.trans (setTgu_keeps_tables _ _ rfl rfl id)) h)

theorem placeTrack_tag (l : Option LaneSection) (n : Nat) (t : Track) : (placeTrack l n t).tag = t.tag := by
  unfold placeTrack; dsimp only; split <;> rfl

theorem adviseTrack_tag (e l p : Bool) (w : Option Track) (n : Nat) (t : Track) :
    (adviseTrack e l p w n t).2.tag = t.tag := by
  unfold adviseTrack
  split
  · rfl
  · split
    · rfl
    · dsimp only; split <;> rfl

/-- Tracks replaced by as many, of the same tags. -/
theorem sameTags_keeps (s : State) (ts : List Track) (h : ts.map Track.tag = s.tgu.tracks.map Track.tag) :
    Keeps s (s.setTgu { s.tgu with tracks := ts }) := by
  have hl : ts.length = s.tgu.tracks.length := by
    have := congrArg List.length h
    rwa [List.length_map, List.length_map] at this
  refine setTgu_keeps s _ id ?_ id id ?_
  · intro k; rw [hl]; exact k
  · intro k
    have k' : (s.tgu.tracks.map Track.tag).Pairwise (· < ·) := List.pairwise_map.2 k
    rw [← h] at k'
    exact List.pairwise_map.1 k'

/-- An evaluation of the lane monitor keeps the invariants (R149). -/
theorem laneEvaluate_keeps (s : State) : Keeps s s.laneEvaluate := by
  unfold State.laneEvaluate
  refine .ite (.refl _) ?_
  have h1 : Keeps s (s.setTgu { s.tgu with tracks := s.tgu.tracks.map (placeTrack s.cfg.lane s.ms) }) :=
    sameTags_keeps s _ (by rw [List.map_map]; exact List.map_congr_left (fun t _ => placeTrack_tag _ _ t))
  have h2 := h1.trans (evacuationStep_keeps _)
  dsimp only
  split
  · exact h2
  · refine Keeps.trans ?_ (keeps_of_touches (setLamps_touches _ _))
    refine Keeps.trans ?_ (Keeps.foldl _ (fun t a => queueAdvisory_keeps a t) _ _)
    refine h2.trans (sameTags_keeps _ _ ?_)
    rw [List.map_map, List.map_map]
    exact List.map_congr_left (fun t _ => adviseTrack_tag _ _ _ _ _ t)

/-! ### The zone air evaluator -/

theorem evaluateLockout_keeps (s : State) : Keeps s s.evaluateLockout := by
  unfold State.evaluateLockout
  exact .ite (.refl _) (Keeps.trans (keeps_of_touches (setLockout_touches s _)) (laneEvaluate_keeps _))

theorem zoneIndication_keeps (b : Vector ZoneRecord 5) (s : State) (i : Fin 5) : Keeps s (s.zoneIndication b i) :=
  .ite (.refl _) (takeIn_keeps _ _)

/-- A recompute keeps the invariants (R85). -/
theorem recompute_keeps (s : State) : Keeps s s.recompute := by
  unfold State.recompute
  have h1 : Keeps s s.rebuildZone := keeps_of_touches (rebuildZone_touches s)
  have h2 : Keeps s (s.rebuildZone.setZae { s.rebuildZone.zae with lockout := s.rebuildZone.lockoutHolds }) :=
    h1.trans (keeps_of_touches (setLockout_touches _ _))
  have h3 := h2.trans (Keeps.foldl (State.zoneIndication s.zae.records)
    (fun t i => zoneIndication_keeps _ t i) (List.finRange 5) _)
  exact .ite h3 (h3.trans (laneEvaluate_keeps _))

/-! ### Muster -/

/-- What R168 asks of the list itself. -/
def musterFits (x : Aru) : Prop := x.muster.Nodup ∧ x.muster.length ≤ 64 ∧ x.overflow ≤ 65535

theorem musterTag_fits (n : Nat) (x : Aru) (h : musterFits x) : musterFits (musterTag n x) := by
  unfold musterTag
  split
  · exact h
  · rename_i hn
    split
    · rename_i hl
      refine ⟨?_, ?_, h.2.2⟩
      · rw [List.nodup_append]
        refine ⟨h.1, List.nodup_singleton _, fun a ha b hb e => hn ?_⟩
        rw [List.mem_singleton] at hb
        subst hb; subst e
        exact List.contains_iff_mem.2 ha
      · rw [List.length_append]; exact hl
    · exact ⟨h.1, h.2.1, Nat.min_le_left _ _⟩

theorem musterTag_same (n : Nat) (x : Aru) : (musterTag n x).alarms = x.alarms
    ∧ (musterTag n x).deliveries = x.deliveries ∧ (musterTag n x).nextNumber = x.nextNumber
    ∧ (musterTag n x).musterActive = x.musterActive := by
  unfold musterTag
  split
  · exact ⟨rfl, rfl, rfl, rfl⟩
  · split <;> exact ⟨rfl, rfl, rfl, rfl⟩

theorem musterAll_fits (ns : List NearEntry) (x : Aru) (h : musterFits x) :
    musterFits (ns.foldl (fun x n => musterTag n.tag x) x) := by
  induction ns generalizing x with
  | nil => exact h
  | cons n ns ih => exact ih _ (musterTag_fits _ _ h)

theorem musterAll_same (ns : List NearEntry) (x : Aru) :
    (ns.foldl (fun x n => musterTag n.tag x) x).alarms = x.alarms
      ∧ (ns.foldl (fun x n => musterTag n.tag x) x).deliveries = x.deliveries
      ∧ (ns.foldl (fun x n => musterTag n.tag x) x).nextNumber = x.nextNumber
      ∧ (ns.foldl (fun x n => musterTag n.tag x) x).musterActive = x.musterActive := by
  induction ns generalizing x with
  | nil => exact ⟨rfl, rfl, rfl, rfl⟩
  | cons n ns ih =>
    have h := ih (musterTag n.tag x)
    have k := musterTag_same n.tag x
    exact ⟨h.1.trans k.1, h.2.1.trans k.2.1, h.2.2.1.trans k.2.2.1, h.2.2.2.trans k.2.2.2⟩

/-- An update of the alarm unit that leaves its tables and its next number alone. -/
theorem setAru_keeps_muster (s : State) (x : Aru) (h1 : x.alarms = s.aru.alarms) (h2 : x.deliveries = s.aru.deliveries)
    (h3 : x.nextNumber = s.aru.nextNumber) (h4 : MusterOk s → MusterOk (s.setAru x)) : Keeps s (s.setAru x) := by
  refine setAru_keeps s x ?_ ?_ ?_ h4 ?_ ?_
  · rw [h1]; exact id
  · rw [h2]; exact id
  · rw [h2]; exact id
  · intro _; rw [h1]; exact id
  · rw [h3]; exact id

theorem testMuster_keeps (s : State) : Keeps s s.testMuster := by
  unfold State.testMuster
  dsimp only
  split
  · have k := musterAll_same (s.tgu.near.filter s.musters) { s.aru with musterActive := true }
    refine setAru_keeps_muster s _ k.1 k.2.1 k.2.2.1 (fun c => ?_)
    have f := musterAll_fits (s.tgu.near.filter s.musters) { s.aru with musterActive := true } ⟨c.1, c.2.1, c.2.2.1⟩
    refine ⟨f.1, f.2.1, f.2.2, fun h => ?_⟩
    have := k.2.2.2
    rw [setAru_aru] at h
    rw [h] at this
    cases this
  · split
    · exact setAru_keeps_muster s _ rfl rfl rfl
        (fun _ => ⟨List.nodup_nil, Nat.zero_le _, Nat.zero_le _, fun _ => ⟨rfl, rfl⟩⟩)
    · exact .refl _

theorem musterHandover_keeps (s : State) (n : NearEntry) : Keeps s (s.musterHandover n) := by
  unfold State.musterHandover
  split
  · rename_i hc
    have k := musterTag_same n.tag s.aru
    refine setAru_keeps_muster s _ k.1 k.2.1 k.2.2.1 (fun c => ?_)
    have f := musterTag_fits n.tag s.aru ⟨c.1, c.2.1, c.2.2.1⟩
    refine ⟨f.1, f.2.1, f.2.2, fun h => ?_⟩
    have := k.2.2.2
    rw [setAru_aru] at h
    rw [Bool.and_eq_true] at hc
    rw [h, hc.1] at this
    cases this
  · exact .refl _

/-! ### Alarms -/

theorem alarmBefore_iff (a b : Alarm) : alarmBefore a b = true ↔
    b.kind.severity < a.kind.severity ∨ (a.kind.severity = b.kind.severity ∧ (a.firstHeard < b.firstHeard
      ∨ (a.firstHeard = b.firstHeard ∧ (a.id.origin < b.id.origin
        ∨ (a.id.origin = b.id.origin ∧ a.id.number ≤ b.id.number))))) := by
  unfold alarmBefore
  split
  · rw [decide_eq_true_eq]; omega
  · split
    · rw [decide_eq_true_eq]; omega
    · split
      · rw [decide_eq_true_eq]; omega
      · rw [decide_eq_true_eq]; omega

theorem alarmBefore_total (a b : Alarm) (h : alarmBefore a b = false) : alarmBefore b a = true := by
  have h' : ¬ alarmBefore a b = true := by rw [h]; exact Bool.false_ne_true
  rw [alarmBefore_iff] at *
  omega

theorem alarmBefore_trans (a b c : Alarm) (h : alarmBefore a b = true) (k : alarmBefore b c = true) :
    alarmBefore a c = true := by
  rw [alarmBefore_iff] at *
  omega

/-- The order of the alarm table, one entry an ID. -/
def alarmsOk (as : List Alarm) : Prop := as.Pairwise (fun a b => alarmBefore a b = true ∧ a.id ≠ b.id)

theorem alarmsOk_insert (a : Alarm) (as : List Alarm) (h : alarmsOk as) (k : ∀ x ∈ as, x.id ≠ a.id) :
    alarmsOk (insertBy alarmBefore a as) :=
  insertBy_pairwise alarmBefore _ a as (fun y hy e => ⟨e, fun q => k y hy q.symm⟩)
    (fun y hy e => ⟨alarmBefore_total a y e, k y hy⟩) (fun y z e f => alarmBefore_trans a y z e f.1) h

theorem alarmsOk_unique {as : List Alarm} (h : alarmsOk as) {x y : Alarm} (hx : x ∈ as) (hy : y ∈ as)
    (e : x.id = y.id) : x = y := by
  induction as with
  | nil => cases hx
  | cons z zs ih =>
    have h' := List.pairwise_cons.1 h
    rcases List.mem_cons.1 hx with p | p <;> rcases List.mem_cons.1 hy with q | q
    · rw [p, q]
    · rw [p] at e; exact absurd e (h'.1 y q).2
    · rw [q] at e; exact absurd e.symm (h'.1 x p).2
    · exact ih h'.2 p q

/-- A map that keeps an entry's kind, first-heard time and ID keeps the order of the table. -/
theorem alarmsOk_map {as : List Alarm} (f : Alarm → Alarm)
    (hf : ∀ x ∈ as, (f x).kind = x.kind ∧ (f x).firstHeard = x.firstHeard ∧ (f x).id = x.id) (h : alarmsOk as) :
    alarmsOk (as.map f) := by
  unfold alarmsOk
  rw [List.pairwise_map]
  refine List.Pairwise.imp_of_mem ?_ h
  intro x y hx hy hxy
  have p := hf x hx
  have q := hf y hy
  refine ⟨?_, ?_⟩
  · rw [alarmBefore_iff, p.1, p.2.1, p.2.2, q.1, q.2.1, q.2.2, ← alarmBefore_iff]; exact hxy.1
  · rw [p.2.2, q.2.2]; exact hxy.2

/-- An update of the alarm table, after a first change. -/
theorem Keeps.thenAlarms {s t : State} (k : Keeps s t) (as : List Alarm) (hl : Capacity s → as.length ≤ 16)
    (ho : Capacity s → TablesOk s → alarmsOk as) : Keeps s (t.setAlarms as) := by
  refine ⟨fun c => ?_, k.muster, fun c d => ?_, k.lists, k.calls, k.numbers⟩
  · obtain ⟨a, b, c', d, e, f, g, i, j, k', l, m, n, o, q, r, u⟩ := k.capacity c
    exact ⟨a, b, c', d, e, f, g, i, j, k', l, m, n, o, hl c, r, u⟩
  · have := k.tables c d
    exact ⟨this.1, this.2.1, this.2.2.1, ho c d⟩

theorem capacity_alarms {s : State} (c : Capacity s) : s.aru.alarms.length ≤ 16 := by
  obtain ⟨_, _, _, _, _, _, _, _, _, _, _, _, _, _, q, _, _⟩ := c; exact q

theorem replaceAlarm_keeps (s : State) (held a : Alarm) (hm : held ∈ s.aru.alarms) (hi : a.id = held.id)
    (hk : a.kind = held.kind) (hf : a.firstHeard = held.firstHeard) : Keeps s (s.replaceAlarm a) := by
  refine (Keeps.refl s).thenAlarms _ (fun c => ?_) (fun _ d => ?_)
  · rw [List.length_map]; exact capacity_alarms c
  · refine alarmsOk_map _ (fun x hx => ?_) d.2.2.2
    split
    · rename_i e
      have : x = held := alarmsOk_unique d.2.2.2 hx hm (e.trans hi)
      rw [this]
      exact ⟨hk, hf, hi⟩
    · exact ⟨rfl, rfl, rfl⟩

theorem findAlarm_mem {s : State} {i : AlarmId} {a : Alarm} (h : s.findAlarm i = some a) :
    a ∈ s.aru.alarms ∧ a.id = i := by
  refine ⟨List.mem_of_find?_eq_some h, ?_⟩
  have := List.find?_some h
  simpa using this

theorem findAlarm_none {s : State} {i : AlarmId} (h : s.findAlarm i = none) : ∀ x ∈ s.aru.alarms, x.id ≠ i := by
  intro x hx e
  have := List.find?_eq_none.1 h x hx
  simp [e] at this

theorem placeAlarmChange_keeps (a : Alarm) (c : AlarmChange) (s : State) : Keeps s (placeAlarmChange a c s) :=
  takeIn_keeps _ _

/-- Handing on a change keeps the invariants (R160). -/
theorem handOn_keeps (s : State) (a : Alarm) (b : Bool) : Keeps s (s.handOn a b).1 := by
  unfold State.handOn
  have h1 : Keeps s (s.clearReferences a b) := keeps_of_touches (clearReferences_touches s a b)
  have h2 := h1.trans (evaluateLockout_keeps _)
  have h3 := h2.trans (keeps_of_touches (reportToChannels_touches (s.clearReferences a b).evaluateLockout a b))
  exact ((h3.trans (laneEvaluate_keeps _)).trans (testMuster_keeps _)).trans
    (keeps_of_touches (decideSounder_touches _))

theorem removeAlarm_keeps (s : State) (a : Alarm) : Keeps s (s.removeAlarm a) := by
  unfold State.removeAlarm
  have h : Keeps s (s.setAlarms (s.aru.alarms.filter (fun x => decide (x.id ≠ a.id)))) :=
    (Keeps.refl s).thenAlarms _ (fun c => Nat.le_trans (List.length_filter_le _ _) (capacity_alarms c))
      (fun _ d => d.2.2.2.sublist List.filter_sublist)
  exact (h.trans (placeAlarmChange_keeps a _ _)).trans (handOn_keeps _ a true)

/-- The table after a removal. -/
theorem removeAlarm_alarms (s : State) (a : Alarm) :
    (s.removeAlarm a).aru.alarms = s.aru.alarms.filter (fun x => decide (x.id ≠ a.id)) := by
  unfold State.removeAlarm
  have h1 := handOn_touches (placeAlarmChange a .removed (s.setAlarms (s.aru.alarms.filter (fun x => decide (x.id ≠ a.id)))))
    a true .alarms (by decide)
  have h2 := placeAlarmChange_touches a .removed (s.setAlarms (s.aru.alarms.filter (fun x => decide (x.id ≠ a.id))))
    .alarms (by decide)
  exact Eq.trans h1 h2

theorem alarmVictim_mem (as : List Alarm) (n : Nat) (x : AlarmState) (v : Alarm) (h : alarmVictim as n x = some v) :
    v ∈ as := by
  unfold alarmVictim at h
  split at h
  · rename_i a ha
    cases h
    exact (List.mem_filter.1 (firstBy_mem _ _ _ ha)).1
  · split at h
    · rename_i w hw
      split at h
      · cases h; exact firstBy_mem _ _ _ hw
      · cases h
    · cases h

/-- Room made: invariants kept, room for one, and nothing new in the table (R153). -/
theorem makeAlarmRoom_keeps (s t : State) (k : AlarmKind) (x : AlarmState) (h : s.makeAlarmRoom k x = some t) :
    Keeps s t ∧ (Capacity s → t.aru.alarms.length < 16) ∧ ∀ y ∈ t.aru.alarms, y ∈ s.aru.alarms := by
  unfold State.makeAlarmRoom at h
  split at h
  · rename_i hl
    cases h
    exact ⟨.refl _, fun _ => hl, fun _ hy => hy⟩
  · cases hv : alarmVictim s.aru.alarms k.severity x with
    | none => rw [hv] at h; cases h
    | some v =>
      rw [hv] at h
      cases h
      refine ⟨removeAlarm_keeps s v, fun c => ?_, fun y hy => ?_⟩
      · have := filter_ne_length (fun x => decide (x.id ≠ v.id)) s.aru.alarms v (alarmVictim_mem _ _ _ _ hv) (by simp)
        have := capacity_alarms c
        rw [removeAlarm_alarms]
        omega
      · rw [removeAlarm_alarms] at hy
        exact (List.mem_filter.1 hy).1

/-- A newcomer added, after a change that left room for it and no entry of its ID. -/
theorem Keeps.thenAdd {s t : State} (k : Keeps s t) (a : Alarm) (hl : Capacity s → t.aru.alarms.length < 16)
    (hi : Capacity s → ∀ x ∈ t.aru.alarms, x.id ≠ a.id) : Keeps s (t.addAlarm a) := by
  refine Keeps.trans (k.thenAlarms _ (fun c => ?_) (fun c d => ?_)) (placeAlarmChange_keeps a _ _)
  · rw [insertBy_length]; exact hl c
  · exact alarmsOk_insert a _ (k.tables c d).2.2.2 (hi c)

theorem endDelivery_keeps (s : State) (p : Port) (d : Delivery) : Keeps s (s.endDelivery p d) := by
  unfold State.endDelivery
  have h := dropDelivery_keeps s p d.id
  exact .ite h (h.trans (takeIn_keeps _ _))

theorem endDelivery_list (s : State) (p : Port) (d : Delivery) :
    (s.endDelivery p d).deliveriesOn p = (s.deliveriesOn p).filter (fun x => decide (x.id ≠ d.id)) := by
  have h : (s.dropDelivery p d.id).deliveriesOn p = (s.deliveriesOn p).filter (fun x => decide (x.id ≠ d.id)) := by
    cases p <;> rfl
  unfold State.endDelivery
  dsimp only
  split
  · exact h
  · refine Eq.trans ?_ h
    exact takeIn_touches _ (s.dropDelivery p d.id) (.deliveries p) (by cases p <;> decide)

theorem holdDelivery_keeps (s : State) (p : Port) (d : Delivery) : Keeps s (s.holdDelivery p d) := by
  unfold State.holdDelivery
  split
  · exact setDeliveries_keeps s p _ (fun h => by rw [List.length_map]; exact h)
  · dsimp only
    split
    · rename_i hl
      refine setDeliveries_keeps s p _ (fun _ => ?_)
      rw [List.length_append]; exact hl
    · split
      · rename_i he
        refine setDeliveries_keeps s p _ (fun _ => ?_)
        rw [he]; exact Nat.succ_le_succ (Nat.zero_le _)
      · rename_i first more he
        refine (endDelivery_keeps s p first).thenDeliveries p _ (fun c _ => ?_)
        have h1 := filter_ne_length (fun x => decide (x.id ≠ first.id)) (s.deliveriesOn p) first
          (by rw [he]; exact List.mem_cons_self) (by simp)
        have h2 := capacity_deliveries c p
        rw [endDelivery_list, List.length_append]
        simp only [List.length_cons, List.length_nil]
        omega

theorem openDelivery_keeps (s : State) (p : Port) (i : AlarmId) (src : DeliverySource) (f : List Byte)
    (x : AlarmState) : Keeps s (s.openDelivery p i src f x) :=
  (holdDelivery_keeps s p _).trans (queueRequest_keeps _ p _)

theorem openOwn_keeps (a : Alarm) (p : Port) (s : State) : Keeps s (s.openOwn a p) :=
  (compose_keeps s _ _ _ _).trans (openDelivery_keeps _ p _ _ _ _)

theorem ownChange_keeps (s : State) (held a : Alarm) (hm : held ∈ s.aru.alarms) (hi : a.id = held.id)
    (hk : a.kind = held.kind) (hf : a.firstHeard = held.firstHeard) : Keeps s (s.ownChange a).1 := by
  unfold State.ownChange
  refine Keeps.trans ?_ (handOn_keeps _ a false)
  refine Keeps.trans ?_ (onPorts_keeps _ (openOwn_keeps a) _)
  exact (replaceAlarm_keeps s held a hm hi hk hf).trans (placeAlarmChange_keeps a _ _)

theorem clearAsOrigin_keeps (s : State) (i : AlarmId) : Keeps s (s.clearAsOrigin i) := by
  unfold State.clearAsOrigin
  split
  · rename_i a ha
    exact .ite (ownChange_keeps s a _ (findAlarm_mem ha).1 rfl rfl rfl) (.refl _)
  · exact .refl _

theorem thenClear_keeps {s : State} {r : State × Bool} (i : AlarmId) (h : Keeps s r.1) :
    Keeps s (State.thenClear r i) := .ite (h.trans (clearAsOrigin_keeps _ i)) h

/-- Of 256 numbers one is free, since at most 16 alarms are held (R156). -/
theorem freeNumber_free (s : State) (c : Capacity s) : ∀ x ∈ s.aru.alarms, x.id ≠ ⟨s.cfg.station, s.freeNumber⟩ := by
  apply findAlarm_none
  unfold State.freeNumber
  cases h : ((List.range 256).map (fun i => (s.aru.nextNumber + i) % 256)).find?
      (fun n => (s.findAlarm ⟨s.cfg.station, n⟩).isNone) with
  | some n =>
    have := List.find?_some h
    rw [Option.isNone_iff_eq_none] at this
    exact this
  | none =>
    exfalso
    rw [List.find?_eq_none] at h
    have hs : ∀ y ∈ (List.range 256).map (fun i => (⟨s.cfg.station, (s.aru.nextNumber + i) % 256⟩ : AlarmId)),
        y ∈ s.aru.alarms.map Alarm.id := by
      intro y hy
      obtain ⟨i, hi, rfl⟩ := List.mem_map.1 hy
      have := h ((s.aru.nextNumber + i) % 256) (List.mem_map.2 ⟨i, hi, rfl⟩)
      cases hf : s.findAlarm ⟨s.cfg.station, (s.aru.nextNumber + i) % 256⟩ with
      | none => rw [hf] at this; simp at this
      | some a => exact List.mem_map.2 ⟨a, (findAlarm_mem hf).1, (findAlarm_mem hf).2⟩
    have hn : ((List.range 256).map (fun i => (⟨s.cfg.station, (s.aru.nextNumber + i) % 256⟩ : AlarmId))).Nodup := by
      refine List.Nodup.map_on ?_ List.nodup_range
      intro i hi j hj e
      rw [List.mem_range] at hi hj
      have := congrArg AlarmId.number e
      dsimp only at this
      omega
    have := (List.subperm_of_subset hn hs).length_le
    rw [List.length_map, List.length_map, List.length_range] at this
    have := capacity_alarms c
    omega

theorem setNumber_keeps (s : State) (n : Nat) (h : n < 256) : Keeps s (s.setAru { s.aru with nextNumber := n }) :=
  setAru_keeps s _ id id id id (fun _ => id) (fun _ => h)

/-- A raise keeps the invariants (R156). -/
theorem raise_keeps (s : State) (k : AlarmKind) (sc : Scope) : Keeps s (s.raise k sc).2 := by
  unfold State.raise
  dsimp only
  split
  · exact .refl _
  · rename_i t ht
    obtain ⟨h1, h2, h3⟩ := makeAlarmRoom_keeps s t _ _ ht
    refine Keeps.trans ?_ (handOn_keeps _ _ _)
    refine Keeps.trans ?_ (onPorts_keeps _ (openOwn_keeps _) _)
    refine Keeps.trans ?_ (setNumber_keeps _ _ (Nat.mod_lt _ (by decide)))
    have hst : t.cfg.station = s.cfg.station := by
      have := makeAlarmRoom_touches s t _ _ ht .partState (by decide)
      unfold State.cfg
      rw [this.2.2]
    refine h1.thenAdd _ h2 (fun c x hx e => ?_)
    refine freeNumber_free s c x (h3 x hx) (e.trans ?_)
    show (⟨_, _⟩ : AlarmId) = ⟨_, _⟩
    rw [hst]

end Sys2Proof.Machine
end

