-- ==== Sys2Proof/Laws/CommandKeeps.lean ====
section
/-! SUPPORT. That the unit operations and the commands keep the invariants of Safety.lean. -/

set_option Elab.async false

namespace Sys2Proof.Machine

/-! ### Alarms -/

theorem pullCord_keeps (s : State) : Keeps s s.pullCord := by
  unfold State.pullCord
  refine .ite (.refl _) ?_
  dsimp only
  split
  · exact Keeps.trans (raise_keeps s _ _) (keeps_of_touches (pullRef_touches _ _))
  · exact raise_keeps s _ _

theorem setDoor_keeps (s : State) (b : Bool) : Keeps s (s.setAru { s.aru with doorOpen := b }) :=
  setAru_keeps s _ id id id id (fun _ => id) id

theorem doorEdge_keeps (s : State) (b : Bool) : Keeps s (s.doorEdge b) := by
  unfold State.doorEdge
  refine .ite (.refl _) ?_
  dsimp only
  refine .ite ?_ (setDoor_keeps s b)
  split
  · exact Keeps.trans ((setDoor_keeps s b).trans (raise_keeps _ _ _)) (keeps_of_touches (doorRef_touches _ _))
  · exact (setDoor_keeps s b).trans (raise_keeps _ _ _)

/-- A merge keeps the invariants (R159). -/
theorem mergeAlarm_keeps (s : State) (r : AlarmRecord) : Keeps s (s.mergeAlarm r) := by
  unfold State.mergeAlarm
  split
  · rename_i hn
    split
    · exact .refl _
    · rename_i t ht
      obtain ⟨h1, h2, h3⟩ := makeAlarmRoom_keeps s t _ _ ht
      refine thenClear_keeps _ (Keeps.trans ?_ (handOn_keeps _ _ _))
      exact h1.thenAdd _ h2 (fun _ x hx e => findAlarm_none hn x (h3 x hx) e)
  · rename_i held hh
    refine .ite ?_ (.refl _)
    refine thenClear_keeps _ (Keeps.trans (Keeps.trans ?_ (placeAlarmChange_keeps _ _ _)) (handOn_keeps _ _ _))
    exact replaceAlarm_keeps s held _ (findAlarm_mem hh).1 rfl rfl rfl

theorem relayAlarm_keeps (s : State) (q : Port) (f : List Byte) : Keeps s (s.relayAlarm q f) := by
  unfold State.relayAlarm
  dsimp only
  split
  · exact queueRequest_keeps _ q _
  · exact .ite (queueRequest_keeps _ q _) (openDelivery_keeps _ q _ _ _ _)

theorem acknowledge_keeps (s : State) (i : AlarmId) : Keeps s (s.acknowledge i) := by
  unfold State.acknowledge
  split
  · exact .refl _
  · rename_i a ha
    exact .ite (thenClear_keeps i (ownChange_keeps s a _ (findAlarm_mem ha).1 rfl rfl rfl)) (.refl _)

theorem silenceAll_keeps (s : State) : Keeps s s.silenceAll := by
  unfold State.silenceAll
  refine Keeps.trans ?_ (keeps_of_touches (decideSounder_touches _))
  refine (Keeps.refl s).thenAlarms _ (fun c => ?_) (fun _ d => alarmsOk_map _ (fun _ _ => ⟨rfl, rfl, rfl⟩) d.2.2.2)
  rw [List.length_map]; exact capacity_alarms c

/-! ### Air -/

theorem raiseForChannel_keeps (s : State) (c : Fin 7) (x : ChannelState) : Keeps s (s.raiseForChannel c x) := by
  unfold State.raiseForChannel
  refine .ite ?_ (.refl _)
  split
  · exact .refl _
  · dsimp only
    split
    · exact raise_keeps s _ _
    · exact (raise_keeps s _ _).trans (keeps_of_touches (setChannel_touches _ _ _))

theorem clearForChannel_keeps (s : State) (c : Fin 7) : Keeps s (s.clearForChannel c) := by
  unfold State.clearForChannel
  dsimp only
  split
  · exact .refl _
  · exact .ite (Keeps.trans (keeps_of_touches (setChannel_touches s _ _)) (clearAsOrigin_keeps _ _)) (.refl _)

theorem showChannel_keeps (s : State) (c : Fin 7) (x : Channel) : Keeps s (s.showChannel c x) :=
  (takeIn_keeps _ s).trans (onPorts_keeps _ (requestLive_keeps _) _)

/-- What follows a sample or trend event keeps the invariants. -/
theorem channelEvent_keeps (s : State) (c : Fin 7) (x : Channel) : Keeps s (s.channelEvent c x) := by
  unfold State.channelEvent
  have h1 : Keeps s (s.setChannel c x) := keeps_of_touches (setChannel_touches s c x)
  have h2 : ∀ y, Keeps s ((s.setChannel c x).recompute.raiseForChannel c y) :=
    fun y => (h1.trans (recompute_keeps _)).trans (raiseForChannel_keeps _ _ _)
  have h3 : ∀ b : Prop, [Decidable b] → ∀ y, Keeps s
      (if b then ((s.setChannel c x).recompute.raiseForChannel c y).clearForChannel c
        else (s.setChannel c x).recompute.raiseForChannel c y) :=
    fun b _ y => .ite ((h2 y).trans (clearForChannel_keeps _ _)) (h2 y)
  dsimp only
  exact .ite (Keeps.trans (Keeps.ite (h3 _ _) h1) (showChannel_keeps _ _ _)) (Keeps.ite (h3 _ _) h1)

/-! ### The block packer -/

/-- A state whose capture path takes no more places, and holds no more packed blocks, than fit (R125). -/
theorem captureFits_of_le {s t : State} (h1 : t.placesTaken ≤ s.placesTaken)
    (h2 : t.clu.capture.packed.length ≤ s.clu.capture.packed.length) (c : CaptureFits s) : CaptureFits t :=
  ⟨Nat.le_trans h1 c.1, Nat.le_trans h2 c.2⟩

/-- The grant of a voice block moves it from the blocks waiting to the engine: as many places are taken (R102, R125). -/
theorem grantVoice_capture (s : State) (run : Nat) (block : List Int) (more : List (List Int))
    (hf : s.bpk.flight = none) (hw : s.clu.capture.waiting = block :: more) :
    CaptureFits s → CaptureFits (s.grantVoice run block more) := by
  refine captureFits_of_le (Nat.le_of_eq ?_) (Nat.le_refl _)
  unfold State.placesTaken State.inFlightPlaces State.grantVoice
  simp only [setBpk_clu, setBpk_bpk, setClu_clu, hf, hw, List.length_cons]
  omega

theorem grantVoice_keeps (s : State) (run : Nat) (block : List Int) (more : List (List Int))
    (hf : s.bpk.flight = none) (hw : s.clu.capture.waiting = block :: more) : Keeps s (s.grantVoice run block more) :=
  ⟨fun c => by
      have hc := grantVoice_capture s run block more hf hw (capacity_capture c)
      obtain ⟨a1, a2, a3, a4, a5, a6, a7, a8, a9, b1, b2, b3, b4, b5, b6, b7, b8, _⟩ := c
      exact ⟨a1, a2, a3, a4, a5, a6, a7, a8, a9, b1, b2, b3, b4, b5, b6, b7, b8, hc⟩,
    id, fun _ => id, id, id, id⟩

theorem arbitrate_keeps (s : State) : Keeps s s.arbitrate := by
  unfold State.arbitrate
  split
  · exact .refl _
  · rename_i hn
    have hf : s.bpk.flight = none := Option.not_isSome_iff_eq_none.1 hn
    split
    · rename_i hw
      exact grantVoice_keeps s _ _ _ hf hw
    · rename_i e more _ he
      unfold State.grantHistory
      refine setBpk_keeps s _ (fun h => ?_) (captureFits_of_le ?_ (Nat.le_refl _))
      · rw [he] at h
        exact Nat.le_trans (Nat.le_succ _) h
      · exact Nat.add_le_add_left (Nat.zero_le _) _
    · exact .refl _

theorem addHistory_keeps (s : State) (e : HistoryRequest) (h : s.bpk.history.length < 4) : Keeps s (s.addHistory e) :=
  Keeps.trans (setBpk_keeps s { s.bpk with history := s.bpk.history ++ [e] }
    (fun _ => by rw [List.length_append]; exact h) id) (arbitrate_keeps _)

theorem historyRequested_keeps (s : State) (p : Port) (n : Nat) (c : Fin 7) : Keeps s (s.historyRequested p n c) := by
  unfold State.historyRequested
  refine .ite (.refl _) (.ite (.refl _) ?_)
  split
  · exact addHistory_keeps s _ (by assumption)
  · exact count_keeps s p _

theorem historyPacked_keeps (s : State) (e : HistoryRequest) (b m : Nat) (k : List Byte) :
    Keeps s (s.historyPacked e b m k) := by
  unfold State.historyPacked
  dsimp only
  split
  · exact requestFrame_keeps s _ _ _ _ _ _
  · exact takeInAll_keeps _ s

/-! ### Peers -/

theorem filterPeers_keeps (s : State) (p : Peer → Bool) : Keeps s (s.setPeers (s.pru.peers.filter p)) :=
  setPru_keeps s _ (Nat.le_trans (List.length_filter_le _ _)) id id (fun h => h.sublist List.filter_sublist)
    (fun h x hx => h x (List.mem_filter.1 hx).1)

theorem removePeer_keeps (s : State) (n : Nat) : Keeps s (s.removePeer n) :=
  (filterPeers_keeps s _).trans (recompute_keeps _)

/-- A change of one entry that leaves its station and its in-call flag. -/
theorem updatePeer_keeps (s : State) (n : Nat) (f : Peer → Peer) (h1 : ∀ x, (f x).station = x.station)
    (h2 : ∀ x, (f x).inCall = x.inCall) : Keeps s (s.updatePeer n f) := by
  have g1 : ∀ x : Peer, (if x.station = n then f x else x).station = x.station := by
    intro x; split
    · exact h1 x
    · rfl
  have g2 : ∀ x : Peer, (if x.station = n then f x else x).inCall = x.inCall := by
    intro x; split
    · exact h2 x
    · rfl
  refine setPru_keeps s _ (fun h => ?_) id id (pairwise_map_key Peer.station _ g1 _) (fun h y hy => ?_)
  · rw [List.length_map]; exact h
  · obtain ⟨x, hx, rfl⟩ := List.mem_map.1 hy
    dsimp only
    rw [g1, g2]
    exact h x hx

theorem setHeard_keeps (s : State) (heard : List HeardCall) (hl : s.pru.heard.length ≤ 4 → heard.length ≤ 4) :
    Keeps s (s.setHeard heard) := by
  refine setPru_keeps s _ (fun h => ?_) id hl
    (pairwise_map_key Peer.station (fun x => { x with inCall := partyHeard heard x.station }) (fun _ => rfl) _)
    (fun _ y hy => ?_)
  · rw [List.length_map]; exact h
  · obtain ⟨x, _, rfl⟩ := List.mem_map.1 hy
    rfl

theorem forgetCall_keeps (s : State) (i : CallId) : Keeps s (s.forgetCall i) :=
  setHeard_keeps s _ (Nat.le_trans (List.length_filter_le _ _))

theorem hearCall_length (heard : List HeardCall) (i : CallId) (c : Option Nat) (a : Nat) (h : heard.length ≤ 4) :
    (hearCall heard i c a).length ≤ 4 := by
  unfold hearCall
  dsimp only
  split
  · rw [List.length_map]; exact h
  · split
    · rw [List.length_append]; assumption
    · split
      · rw [List.length_map]; exact h
      · rename_i hn
        rw [firstBy_none _ _ hn]; exact Nat.succ_le_succ (Nat.zero_le _)

theorem callHeard_keeps (s : State) (i : CallId) (c : Option Nat) (r : Bool) (a : Nat) :
    Keeps s (s.callHeard i c r a) :=
  .ite (.refl _) (.ite (forgetCall_keeps s i) (setHeard_keeps s _ (hearCall_length _ i c a)))

theorem startBeaconPeriod_keeps (s : State) (n : Nat) : Keeps s (s.startBeaconPeriod n) :=
  keeps_of_touches (startBeaconPeriod_touches s n)

/-! ### Calls -/

theorem setCtx_keeps (s : State) (x : CallContext) : Keeps s (s.setCtx x) := keeps_of_touches (setCtx_touches s x)

/-- A change of the capture path that takes no more than sixteen places and eight packed blocks (R125). -/
theorem setCapture_keeps (s : State) (x : Capture) (h : CaptureFits s → CaptureFits (s.setCapture x)) :
    Keeps s (s.setCapture x) := setClu_keeps s _ id id h

theorem setTones_keeps (s : State) (x : Tones) : Keeps s (s.setTones x) := keeps_of_touches (setTones_touches s x)

theorem setPlayback_keeps (s : State) (x : Playback)
    (h : s.clu.playback.blocks.length ≤ 64 → x.blocks.length ≤ 64) : Keeps s (s.setPlayback x) :=
  setClu_keeps s _ h id id

theorem emptyPlayback_keeps (s : State) : Keeps s s.emptyPlayback := setPlayback_keeps s _ (fun _ => Nat.zero_le _)
theorem startPlayout_keeps (s : State) : Keeps s s.startPlayout := setPlayback_keeps s _ id

theorem append_blocks_length (r : Playback) (b : List Int) (h : r.blocks.length ≤ 64) :
    (r.append b).blocks.length ≤ 64 := by
  unfold Playback.append
  dsimp only
  split
  · rename_i hf
    rw [decide_eq_true_eq] at hf
    rw [List.length_append, List.length_tail, List.length_singleton]
    omega
  · rename_i hf
    rw [decide_eq_true_eq] at hf
    rw [List.length_append, List.length_singleton]
    omega

theorem appendAll_blocks_length (bs : List (List Int)) (r : Playback) (h : r.blocks.length ≤ 64) :
    (r.appendAll bs).blocks.length ≤ 64 := by
  unfold Playback.appendAll
  induction bs generalizing r with
  | nil => exact h
  | cons b bs ih => exact ih _ (append_blocks_length r b h)

theorem takeFrame_blocks_length (r : Playback) (d : Nat) (bs : List (List Byte)) (h : r.blocks.length ≤ 64) :
    (r.takeFrame d bs).blocks.length ≤ 64 := by
  unfold Playback.takeFrame
  dsimp only
  refine appendAll_blocks_length _ _ ?_
  split
  · exact appendAll_blocks_length _ _ h
  · exact h

theorem playVoice_keeps (s : State) (n : Nat) (bs : List (List Byte)) : Keeps s (s.playVoice n bs) := by
  unfold State.playVoice
  exact .ite (.refl _) (Keeps.trans (setPlayback_keeps s _ (takeFrame_blocks_length _ _ _)) (setCtx_keeps _ _))

theorem callEvent_keeps (s : State) (e : CallEvent) (r : Option ReleaseReason) : Keeps s (s.callEvent e r) :=
  takeIn_keeps _ s

theorem sendCallFrame_keeps (s : State) (d : Nat) (xs : List FrameSection) (f : TxEntry → TxEntry) :
    Keeps s (s.sendCallFrame d xs f) := by
  unfold State.sendCallFrame
  have h : Keeps s (s.onPorts (fun p t => t.requestFrame p d .call .clu xs f)) :=
    onPorts_keeps _ (fun p t => requestFrame_keeps t p d _ _ xs f) s
  dsimp only
  refine .ite h ?_
  split
  · exact .ite (requestFrame_keeps s _ _ _ _ _ _) h
  · exact h

theorem restartHolding_keeps (s : State) : Keeps s s.restartHolding := keeps_of_touches (restartHolding_touches s)

theorem sendMessage_keeps (s : State) (m : CallMessage) (r : Option ReleaseReason) : Keeps s (s.sendMessage m r) :=
  (sendCallFrame_keeps s _ _ _).trans (restartHolding_keeps _)

theorem sendRelease_keeps (s : State) (i : CallId) (d c : Nat) (r : ReleaseReason) : Keeps s (s.sendRelease i d c r) :=
  sendCallFrame_keeps s _ _ _

theorem sendVoice_keeps (s : State) (bs : List (List Byte)) : Keeps s (s.sendVoice bs) :=
  ((setCtx_keeps s _).trans (sendCallFrame_keeps _ _ _ _)).trans (restartHolding_keeps _)

/-- A block to be filled takes a place that is free (R125). -/
theorem takePlace_keeps (s : State) : Keeps s s.takePlace := by
  unfold State.takePlace
  dsimp only
  split
  · rename_i h
    refine setCapture_keeps s _ (fun c => ⟨?_, c.2⟩)
    have hp := h.2.2
    show 1 + s.clu.capture.waiting.length + s.inFlightPlaces ≤ 16
    omega
  · exact .refl _

/-- The block in flight takes one place at most. -/
theorem inFlightPlaces_le (s : State) : s.inFlightPlaces ≤ 1 := by
  unfold State.inFlightPlaces
  split
  · split
    · exact Nat.le_refl _
    · exact Nat.zero_le _
  · exact Nat.zero_le _

/-- A capture path with nothing filled, waiting or packed fits (R125). -/
theorem setCapture_empty_keeps (s : State) (run : Option Nat) (n : Nat) :
    Keeps s (s.setCapture { run := run, nextRun := n, filling := none, waiting := [], packed := [] }) := by
  refine setCapture_keeps s _ (fun _ => ⟨?_, Nat.zero_le _⟩)
  have h := inFlightPlaces_le s
  show 0 + 0 + s.inFlightPlaces ≤ 16
  omega

theorem startRun_keeps (s : State) : Keeps s s.startRun := (setCapture_empty_keeps s _ _).trans (takePlace_keeps _)

theorem endRun_keeps (s : State) (b : Bool) : Keeps s (s.endRun b) := by
  unfold State.endRun
  have h := setCapture_empty_keeps s none s.clu.capture.nextRun
  exact .ite (h.trans (sendVoice_keeps _ _)) h

theorem toIdle_keeps (s : State) (e : CallEvent) (r : Option ReleaseReason) : Keeps s (s.toIdle e r) :=
  ((callEvent_keeps s e r).trans (setCtx_keeps _ _)).trans (setTones_keeps _ _)

theorem releaseCall_keeps (s : State) (r : ReleaseReason) : Keeps s (s.releaseCall r) :=
  (sendMessage_keeps s _ _).trans (toIdle_keeps _ _ _)

theorem dropCall_keeps (s : State) (r : ReleaseReason) : Keeps s (s.dropCall r) :=
  (((endRun_keeps s _).trans (sendMessage_keeps _ _ _)).trans (emptyPlayback_keeps _)).trans (toIdle_keeps _ _ _)

theorem releasedByPeer_keeps (s : State) (r : Option ReleaseReason) : Keeps s (s.releasedByPeer r) :=
  ((endRun_keeps s _).trans (startPlayout_keeps _)).trans (toIdle_keeps _ _ _)

theorem endHeardPage_keeps (s : State) : Keeps s s.endHeardPage :=
  (startPlayout_keeps s).trans (toIdle_keeps _ _ _)

theorem endPage_keeps (s : State) : Keeps s s.endPage := (endRun_keeps s _).trans (releaseCall_keeps _ _)

theorem setPlaced_keeps (s : State) (x : CallContext) (n : Nat) (h : n < 256) :
    Keeps s (s.setClu { s.clu with ctx := x, nextCall := n }) := 
  setClu_keeps s _ id (fun _ => h) id

theorem sendSetup_keeps (s : State) : Keeps s s.sendSetup := (sendMessage_keeps s _ _).trans (setCtx_keeps _ _)

theorem placeAdmitted_keeps (s : State) (n : Nat) : Keeps s (s.placeAdmitted n) := by
  unfold State.placeAdmitted
  refine .ite ?_ ?_
  · exact (setPlaced_keeps s _ _ (Nat.mod_lt _ (by decide))).trans (emptyPlayback_keeps _)
  · exact ((setPlaced_keeps s _ _ (Nat.mod_lt _ (by decide))).trans (emptyPlayback_keeps _)).trans (sendSetup_keeps _)

theorem buttonPressed_keeps (s : State) : Keeps s s.buttonPressed :=
  .ite (.ite (placeAdmitted_keeps s _) (setTones_keeps s _)) (.refl _)

theorem connect_keeps (s : State) : Keeps s s.connect :=
  ((setCtx_keeps s _).trans (setTones_keeps _ _)).trans (callEvent_keeps _ _ _)

theorem answerCall_keeps (s : State) : Keeps s s.answerCall := (sendMessage_keeps s _ _).trans (connect_keeps _)

theorem hookEdge_keeps (s : State) (b : Bool) : Keeps s (s.hookEdge b) := by
  unfold State.hookEdge
  have h : Keeps s (s.setHook b false) := setClu_keeps s _ id id id
  exact .ite (.ite (h.trans (answerCall_keeps _)) h) (.ite (h.trans (dropCall_keeps _ _)) h)

theorem takeCall_keeps (s : State) (i : CallId) : Keeps s (s.takeCall i) := by
  unfold State.takeCall
  exact (((((setCtx_keeps s _).trans (emptyPlayback_keeps _)).trans (forgetCall_keeps _ i)).trans
    (sendMessage_keeps _ _ _)).trans (setTones_keeps _ _)).trans (callEvent_keeps _ _ _)

theorem glare_keeps (s : State) (i : CallId) : Keeps s (s.glare i) := by
  unfold State.glare
  have h : Keeps s ((s.sendMessage .release (some .normal)).takeCall i) :=
    (sendMessage_keeps s _ _).trans (takeCall_keeps _ i)
  exact .ite (.refl _) (.ite (h.trans (answerCall_keeps _)) h)

theorem setupReceived_keeps (s : State) (i : CallId) : Keeps s (s.setupReceived i) := by
  unfold State.setupReceived
  exact .ite (.refl _) (.ite (sendMessage_keeps s _ _) (.ite (.refl _) (.ite (glare_keeps s i)
    (.ite (sendRelease_keeps s _ _ _ _) (.ite (sendRelease_keeps s _ _ _ _) (takeCall_keeps s i))))))

theorem giveFloor_keeps (s : State) : Keeps s s.giveFloor :=
  ((endRun_keeps s _).trans (sendMessage_keeps _ _ _)).trans (setCtx_keeps _ _)

theorem pttPressed_keeps (s : State) : Keeps s s.pttPressed := by
  unfold State.pttPressed
  split
  · split
    · exact (takeIn_keeps _ s).trans (setTones_keeps _ _)
    · exact ((sendMessage_keeps s _ _).trans (setCtx_keeps _ _)).trans (startRun_keeps _)
    · exact .refl _
  · exact .ite (.refl _) ((setCtx_keeps s _).trans (startRun_keeps _))
  · exact .refl _

theorem pttReleased_keeps (s : State) : Keeps s s.pttReleased := by
  unfold State.pttReleased
  split
  · exact .ite (giveFloor_keeps s) (.refl _)
  · exact .ite (endPage_keeps s) (.refl _)
  · exact .refl _

theorem floorTaken_keeps (s : State) : Keeps s s.floorTaken := by
  unfold State.floorTaken
  split
  · exact .ite (.refl _) (((endRun_keeps s _).trans (setCtx_keeps _ _)).trans (takeIn_keeps _ _))
  · exact .refl _
  · exact setCtx_keeps s _

theorem floorGiven_keeps (s : State) : Keeps s s.floorGiven := by
  unfold State.floorGiven
  split
  · exact .refl _
  · exact (setCtx_keeps s _).trans (startPlayout_keeps _)
  · exact startPlayout_keeps s

theorem connectedMessage_keeps (s : State) (m : CallMessage) (r : Option ReleaseReason) :
    Keeps s (s.connectedMessage m r) := by
  unfold State.connectedMessage
  have h : Keeps s s.restartSilence := setCtx_keeps s _
  dsimp only
  split
  · exact h.trans (floorTaken_keeps _)
  · exact h.trans (floorGiven_keeps _)
  · exact h.trans (releasedByPeer_keeps _ _)
  · exact h

theorem connectedVoice_keeps (s : State) (n : Nat) (bs : List (List Byte)) : Keeps s (s.connectedVoice n bs) := by
  unfold State.connectedVoice
  have h : Keeps s s.restartSilence := setCtx_keeps s _
  dsimp only
  split
  · exact h
  · exact h.trans (playVoice_keeps _ _ _)
  · exact (h.trans (setCtx_keeps _ _)).trans (playVoice_keeps _ _ _)

theorem dialMessage_keeps (s : State) (m : CallMessage) (r : Option ReleaseReason) : Keeps s (s.dialMessage m r) := by
  unfold State.dialMessage
  split
  · exact .ite (((setCtx_keeps s _).trans (setTones_keeps _ _)).trans (callEvent_keeps _ _ _)) (.refl _)
  · exact connect_keeps s
  · exact releasedByPeer_keeps s r
  · exact .refl _
  · exact (connect_keeps s).trans (connectedMessage_keeps _ _ _)

theorem ownMessage_keeps (s : State) (d : Nat) (m : CallMessage) (r : Option ReleaseReason) :
    Keeps s (s.ownMessage d m r) := by
  unfold State.ownMessage
  split
  · exact dialMessage_keeps s m r
  · exact dialMessage_keeps s m r
  · exact .ite (releasedByPeer_keeps s r) (.refl _)
  · exact connectedMessage_keeps s m r
  · exact .ite (endHeardPage_keeps s) (.refl _)
  · exact .refl _

/-- A CALL section keeps the invariants. -/
theorem callSection_keeps (s : State) (d : Nat) (i : CallId) (m : CallMessage) (c : Nat) (r : Option ReleaseReason) :
    Keeps s (s.callSection d i m c r) := by
  unfold State.callSection
  have h : Keeps s (if s.clu.ctx.call = some i then s.ownMessage d m r else s) :=
    .ite (ownMessage_keeps s d m r) (.refl _)
  exact .ite (.refl _) (.ite (h.trans (setupReceived_keeps _ i)) h)

theorem pageVoice_keeps (s : State) (i : CallId) (n : Nat) (bs : List (List Byte)) : Keeps s (s.pageVoice i n bs) := by
  unfold State.pageVoice
  have h : Keeps s (s.hearPage i) :=
    (((setCtx_keeps s _).trans (emptyPlayback_keeps _)).trans (forgetCall_keeps _ i)).trans (callEvent_keeps _ _ _)
  exact .ite (h.trans (playVoice_keeps _ _ _))
    (.ite ((setCtx_keeps s _).trans (playVoice_keeps _ _ _)) (.refl _))

/-- A VOICE section keeps the invariants. -/
theorem voiceSection_keeps (s : State) (d : Nat) (i : CallId) (n : Nat) (bs : List (List Byte)) :
    Keeps s (s.voiceSection d i n bs) := by
  unfold State.voiceSection
  refine .ite (.refl _) (.ite (pageVoice_keeps s i n bs) (.ite (.refl _) ?_))
  split
  · exact (connect_keeps s).trans (connectedVoice_keeps _ _ _)
  · exact (connect_keeps s).trans (connectedVoice_keeps _ _ _)
  · exact connectedVoice_keeps s n bs
  · exact .refl _

/-! ### The codec -/

theorem giveSample_length (r : Playback) : (r.giveSample).2.blocks.length ≤ r.blocks.length := by
  unfold Playback.giveSample
  split
  · exact Nat.le_refl _
  · split
    · exact Nat.le_refl _
    · rename_i b more hb
      rw [hb]
      split
      · exact Nat.le_succ _
      · exact Nat.le_refl _

theorem codecOut_keeps (s : State) : Keeps s s.codecOut :=
  setClu_keeps s _ (Nat.le_trans (giveSample_length _)) id id

/-- A sample stored takes no place: the block it completes goes on to wait in its own (R125). -/
theorem captureSample_keeps (s : State) (n : Int) : Keeps s (s.captureSample n) := by
  unfold State.captureSample
  dsimp only
  split
  · exact .refl _
  · rename_i b hb
    have full : Keeps s (s.setCapture { s.clu.capture with
        filling := none, waiting := s.clu.capture.waiting ++ [b ++ [n]] }) := by
      refine setCapture_keeps s _ (captureFits_of_le (Nat.le_of_eq ?_) (Nat.le_refl _))
      unfold State.placesTaken
      rw [hb]
      show 0 + (s.clu.capture.waiting ++ [b ++ [n]]).length + s.inFlightPlaces
        = 1 + s.clu.capture.waiting.length + s.inFlightPlaces
      rw [List.length_append, List.length_singleton]
      omega
    have part : Keeps s (s.setCapture { s.clu.capture with filling := some (b ++ [n]) }) := by
      refine setCapture_keeps s _ (captureFits_of_le (Nat.le_of_eq ?_) (Nat.le_refl _))
      unfold State.placesTaken
      rw [hb]
      rfl
    exact .ite ((full.trans (takePlace_keeps _)).trans (arbitrate_keeps _)) part

/-- A packed list of at most eight blocks (R125). -/
theorem setPacked_keeps (s : State) (ps : List (List Byte)) (h : ps.length ≤ 8) :
    Keeps s (s.setCapture { s.clu.capture with packed := ps }) :=
  setCapture_keeps s _ (fun c => ⟨c.1, h⟩)

/-- The packed list is emptied when it reaches eight blocks (R125). -/
theorem voicePacked_keeps (s : State) (n : Nat) (b : List Byte) : Keeps s (s.voicePacked n b) := by
  unfold State.voicePacked
  refine Keeps.trans (.ite ?_ (.refl _)) (takePlace_keeps _)
  dsimp only
  split
  · exact (setPacked_keeps s [] (Nat.zero_le _)).trans (sendVoice_keeps _ _)
  · rename_i h
    exact setPacked_keeps s _ (Nat.le_of_lt (Nat.lt_of_not_le h))

/-! ### Tags -/

/-- A table in ascending order of a key takes a newcomer of a new key in its place. -/
theorem insertKey_pairwise {α : Type} (key : α → Nat) (x : α) (l : List α)
    (h : l.Pairwise (fun a b => key a < key b)) (n : ∀ y ∈ l, key y ≠ key x) :
    (insertBy (fun a b => decide (key a ≤ key b)) x l).Pairwise (fun a b => key a < key b) := by
  refine insertBy_pairwise _ _ x l (fun y hy e => ?_) (fun y hy e => ?_) (fun y z e f => ?_) h
  · have := n y hy; rw [decide_eq_true_eq] at e; omega
  · have := n y hy; rw [decide_eq_false_iff_not] at e; omega
  · rw [decide_eq_true_eq] at *; omega

theorem enterTrack_length (ts : List Track) (x : TruckSighting) (h : ts.length ≤ 16) :
    (enterTrack ts x).1.length ≤ 16 := by
  unfold enterTrack
  split
  · split
    · dsimp only; rw [List.length_map]; exact h
    · exact h
  · split
    · dsimp only; rw [insertBy_length]; assumption
    · split
      · rename_i v hv
        have hm := (List.mem_filter.1 (firstBy_mem _ _ _ hv)).1
        have := filter_ne_length (fun t => decide (t.tag ≠ v.tag)) ts v hm (by simp)
        dsimp only
        rw [insertBy_length]
        omega
      · exact h

theorem enterTrack_order (ts : List Track) (x : TruckSighting) (h : ts.Pairwise (fun a b => a.tag < b.tag)) :
    (enterTrack ts x).1.Pairwise (fun a b => a.tag < b.tag) := by
  unfold enterTrack
  split
  · split
    · refine pairwise_map_key Track.tag _ (fun u => ?_) _ h
      split <;> rfl
    · exact h
  · rename_i hn
    have hn' : ∀ y ∈ ts, y.tag ≠ x.tag := by
      intro y hy
      have := List.find?_eq_none.1 hn y hy
      simpa using this
    split
    · exact insertKey_pairwise Track.tag _ _ h hn'
    · split
      · exact insertKey_pairwise Track.tag _ _ (h.sublist List.filter_sublist)
          (fun y hy => hn' y (List.mem_filter.1 hy).1)
      · exact h

theorem enterTrack_keeps (s : State) (x : TruckSighting) : Keeps s (s.setTracks (enterTrack s.tgu.tracks x).1) :=
  setTgu_keeps s _ id (enterTrack_length _ x) id id (enterTrack_order _ x)

theorem truckSighting_keeps (s : State) (x : TruckSighting) : Keeps s (s.truckSighting x) :=
  .ite ((enterTrack_keeps s x).trans (laneEvaluate_keeps _)) (.refl _)

theorem vehicleReceived_keeps (s : State) (n : Nat) (ts : List TagEntry) (a : Nat) :
    Keeps s (s.vehicleReceived n ts a) := by
  unfold State.vehicleReceived
  split
  · exact .refl _
  · exact .ite (.refl _) (.foldl _ (fun t _ => truckSighting_keeps t _) _ _)

theorem requestVehicleReport_keeps (s : State) : Keeps s s.requestVehicleReport :=
  onPorts_keeps _ (requestLive_keeps _) s

theorem filterNear_keeps (s : State) (p : NearEntry → Bool) : Keeps s (s.setNear (s.tgu.near.filter p)) :=
  setTgu_keeps s _ (Nat.le_trans (List.length_filter_le _ _)) id id (fun h => h.sublist List.filter_sublist) id

theorem removeNear_keeps (s : State) (n : NearEntry) : Keeps s (s.removeNear n) := by
  unfold State.removeNear
  have h := filterNear_keeps s (fun x => decide (x.tag ≠ n.tag))
  exact .ite (Keeps.trans (h.trans (laneEvaluate_keeps _)) (requestVehicleReport_keeps _)) h

theorem removeNear_near (s : State) (n : NearEntry) :
    (s.removeNear n).tgu.near = s.tgu.near.filter (fun x => decide (x.tag ≠ n.tag)) := by
  unfold State.removeNear
  dsimp only
  split
  · exact (requestVehicleReport_touches _ .near (by decide)).trans (laneEvaluate_touches _ .near (by decide))
  · rfl

theorem handOnSighting_keeps (s : State) (b : Option NearEntry) (a : NearEntry) (n : Nat) :
    Keeps s (s.handOnSighting b a n) := by
  unfold State.handOnSighting
  dsimp only
  have h1 : Keeps s (s.musterHandover a) := musterHandover_keeps s a
  have ht : (s.musterHandover a).tgu.tracks = s.tgu.tracks := musterHandover_touches s a .tracks (by decide)
  have h2 : ∀ (c : Prop) [Decidable c], Keeps s
      (if c then (s.musterHandover a).setTracks
        (enterTrack (s.musterHandover a).tgu.tracks ((s.musterHandover a).ownSighting a)).1 else s.musterHandover a) :=
    fun c _ => .ite (h1.trans (enterTrack_keeps _ _)) h1
  have h3 : ∀ (d : Prop) [Decidable d] (t : State), Keeps s t → Keeps s (if d then t.laneEvaluate else t) :=
    fun d _ t h => .ite (h.trans (laneEvaluate_keeps _)) h
  exact .ite ((h3 _ _ (h2 _)).trans (requestVehicleReport_keeps _)) (h3 _ _ (h2 _))

theorem judgeNear_tag (t : Int) (n : NearEntry) : (judgeNear t n).tag = n.tag := by
  unfold judgeNear; split <;> split <;> (try split) <;> rfl

theorem capacity_near {s : State} (c : Capacity s) : s.tgu.near.length ≤ 64 := by
  obtain ⟨_, _, _, _, _, _, _, _, _, _, _, n, _⟩ := c; exact n

/-- A near table entry added, after a change that left room and no entry of its tag. -/
theorem Keeps.thenNear {s t : State} (k : Keeps s t) (n : NearEntry) (hl : Capacity s → t.tgu.near.length < 64)
    (hi : ∀ x ∈ t.tgu.near, x.tag ≠ n.tag) : Keeps s (t.setNear (insertBy nearBefore n t.tgu.near)) := by
  refine ⟨fun c => ?_, k.muster, fun c d => ?_, k.lists, k.calls, k.numbers⟩
  · obtain ⟨a, b, c', d, e, f, g, i, j, k', l, _, rest⟩ := k.capacity c
    exact ⟨a, b, c', d, e, f, g, i, j, k', l, by show (insertBy _ _ _).length ≤ 64; rw [insertBy_length]; exact hl c, rest⟩
  · have := k.tables c d
    exact ⟨this.1, insertKey_pairwise NearEntry.tag n _ this.2.1 hi, this.2.2⟩

/-- A sighting keeps the invariants (R136 to R139). -/
theorem takeSighting_keeps (s : State) (x : Sighting) : Keeps s (s.takeSighting x) := by
  unfold State.takeSighting
  split
  · rename_i n hn
    refine Keeps.trans ?_ (handOnSighting_keeps _ _ _ _)
    have hid : n.tag = x.tag := by simpa using List.find?_some hn
    refine setTgu_keeps s _ (fun h => ?_) id id (pairwise_map_key NearEntry.tag _ (fun m => ?_) _) id
    · rw [List.length_map]; exact h
    · split
      · rename_i e; rw [judgeNear_tag]; exact hid.trans e.symm
      · rfl
  · rename_i hn
    have hn' : ∀ y ∈ s.tgu.near, y.tag ≠ x.tag := by
      intro y hy
      have := List.find?_eq_none.1 hn y hy
      simpa using this
    dsimp only
    refine Keeps.trans ?_ (handOnSighting_keeps _ _ _ _)
    split
    · rename_i hl
      refine (Keeps.refl s).thenNear _ (fun _ => hl) (fun y hy => ?_)
      rw [judgeNear_tag]; exact hn' y hy
    · split
      · rename_i v hv
        refine (removeNear_keeps s v).thenNear _ (fun c => ?_) (fun y hy => ?_)
        · have := filter_ne_length (fun n => decide (n.tag ≠ v.tag)) s.tgu.near v (firstBy_mem _ _ _ hv) (by simp)
          have := capacity_near c
          rw [removeNear_near]
          omega
        · rw [removeNear_near] at hy
          rw [judgeNear_tag]; exact hn' y (List.mem_filter.1 hy).1
      · rename_i hl hv
        refine (Keeps.refl s).thenNear _ (fun _ => ?_) (fun y hy => ?_)
        · rw [firstBy_none _ _ hv]; exact Nat.succ_pos _
        · rw [judgeNear_tag]; exact hn' y hy

theorem closeRecord_keeps (s : State) (g : List Byte) (n : Nat) : Keeps s (s.closeRecord g n) := by
  unfold State.closeRecord
  have h : ∀ f, Keeps s (s.countLink f) := fun f => keeps_of_touches (countLink_touches s f)
  refine .ite (h _) ?_
  split
  · exact h _
  · exact (h _).trans (takeSighting_keeps _ _)

theorem goodByte_keeps (s : State) (b : Byte) : Keeps s (s.goodByte b) := by
  have h : ∀ a, Keeps s (s.setAssembler a) := fun a => keeps_of_touches (setAssembler_touches s a)
  unfold State.goodByte
  split
  · exact .ite (h _) (h _)
  · exact .ite (h _) ((h _).trans (keeps_of_touches (countLink_touches _ _)))
  · exact .ite (h _) (h _)
  · exact (h _).trans (closeRecord_keeps _ _ _)

/-! ### Parsing -/

theorem findPeer_none {s : State} {n : Nat} (h : s.findPeer n = none) : ∀ x ∈ s.pru.peers, x.station ≠ n := by
  intro x hx
  have := List.find?_eq_none.1 h x hx
  simpa using this

theorem capacity_peers {s : State} (c : Capacity s) : s.pru.peers.length ≤ 48 := by
  obtain ⟨_, _, _, _, _, _, g, _⟩ := c; exact g

/-- A peer entry added, after a change that left room and no entry of its station. -/
theorem Keeps.thenPeer {s t : State} (k : Keeps s t) (a : Arrival) (hl : Capacity s → t.pru.peers.length < 48)
    (hi : ∀ x ∈ t.pru.peers, x.station ≠ a.origin) : Keeps s (t.insertPeer a) := by
  refine ⟨fun c => ?_, k.muster, fun c d => ?_, k.lists, fun c => ?_, k.numbers⟩
  · obtain ⟨a', b, c', d, e, f, g, rest⟩ := k.capacity c
    refine ⟨a', b, c', d, e, f, ?_, rest⟩
    show (insertBy _ _ _).length ≤ 48
    rw [insertBy_length]; exact hl c
  · have := k.tables c d
    exact ⟨insertKey_pairwise Peer.station _ _ this.1 hi, this.2⟩
  · intro x hx
    rcases (mem_insertBy _ _ _ _).1 hx with e | e
    · rw [e]; rfl
    · exact k.calls c x e

theorem removePeer_peers (s : State) (n : Nat) :
    (s.removePeer n).pru.peers = s.pru.peers.filter (fun x => decide (x.station ≠ n)) :=
  recompute_touches _ .peers (by decide)

theorem peerHeard_keeps (s : State) (a : Arrival) : Keeps s (s.peerHeard a) := by
  unfold State.peerHeard
  split
  · refine updatePeer_keeps s _ _ (fun x => ?_) (fun x => ?_) <;>
      (unfold Peer.refresh; dsimp only; split <;> rfl)
  · rename_i hn
    split
    · rename_i hl
      exact (Keeps.refl s).thenPeer a (fun _ => hl) (findPeer_none hn)
    · split
      · rename_i v hv
        refine (removePeer_keeps s v.station).thenPeer a (fun c => ?_) (fun x hx => ?_)
        · have hm := (List.mem_filter.1 (firstBy_mem _ _ _ hv)).1
          have := filter_ne_length (fun x => decide (x.station ≠ v.station)) s.pru.peers v hm (by simp)
          have := capacity_peers c
          rw [removePeer_peers]
          omega
        · rw [removePeer_peers] at hx
          exact findPeer_none hn x (List.mem_filter.1 hx).1
      · exact .refl _

theorem duplicateHeard_keeps (s : State) (a : Arrival) : Keeps s (s.duplicateHeard a) := by
  unfold State.duplicateHeard
  dsimp only
  refine (count_keeps s a.port _).trans (updatePeer_keeps _ _ _ (fun x => ?_) (fun x => ?_)) <;>
    (unfold Peer.refreshDuplicate; dsimp only; split <;> split <;> rfl)

theorem addRecent_length (rs : List RecentFrame) (a : Arrival) (h : rs.length ≤ 32) :
    (addRecent rs a).length ≤ 32 := by
  unfold addRecent
  rw [List.length_append, List.length_singleton]
  split
  · rw [List.length_tail]; omega
  · omega

theorem relayFrame_keeps (s : State) (a : Arrival) (f : List Byte) : Keeps s (s.relayFrame a f) := by
  unfold State.relayFrame
  refine .ite ?_ (.refl _)
  dsimp only
  split
  · exact .refl _
  · exact relayAlarm_keeps s _ _
  · exact queueRequest_keeps s _ _

theorem textReceived_keeps (s : State) (a : Arrival) (b : Bool) (w : List Byte) : Keeps s (s.textReceived a b w) := by
  unfold State.textReceived
  have u : ∀ t : Option (List Byte), Keeps s (s.updatePeer a.origin (fun y => { y with text := t })) :=
    fun t => updatePeer_keeps s _ _ (fun _ => rfl) (fun _ => rfl)
  dsimp only
  split
  · exact takeIn_keeps _ s
  · split
    · exact takeIn_keeps _ s
    · split
      · split
        · exact (u none).trans (takeIn_keeps _ _)
        · exact u none
      · split
        · exact .refl _
        · exact (u (some (w.take 32))).trans (takeIn_keeps _ _)

theorem statusReceived_keeps (s : State) (a : Arrival) (c z r t : Nat) (n b f o : Bool) :
    Keeps s (s.statusReceived a c z r t n b f o) := by
  unfold State.statusReceived
  split
  · exact .refl _
  · refine Keeps.trans ?_ (recompute_keeps _)
    exact updatePeer_keeps s _ _ (fun _ => rfl) (fun _ => rfl)

theorem airReceived_keeps (s : State) (a : Arrival) (es : List AirEntry) : Keeps s (s.airReceived a es) := by
  unfold State.airReceived
  refine Keeps.trans ?_ (recompute_keeps _)
  exact updatePeer_keeps s _ _ (fun _ => rfl) (fun _ => rfl)

theorem refugeReceived_keeps (s : State) (a : Arrival) (r : RefugeSummary) : Keeps s (s.refugeReceived a r) := by
  unfold State.refugeReceived
  exact updatePeer_keeps s _ _ (fun _ => rfl) (fun _ => rfl)

theorem mergeAlarms_keeps (s : State) (rs : List AlarmRecord) : Keeps s (s.mergeAlarms rs) :=
  Keeps.foldl _ mergeAlarm_keeps rs s

/-- A dispatched section keeps the invariants. -/
theorem dispatchHere_keeps (s : State) (a : Arrival) (x : FrameSection) : Keeps s (s.dispatchHere a x) := by
  unfold State.dispatchHere
  split
  · exact statusReceived_keeps s _ _ _ _ _ _ _ _ _
  · exact airReceived_keeps s _ _
  · exact takeIn_keeps _ s
  · exact mergeAlarms_keeps s _
  · exact (callSection_keeps s _ _ _ _ _).trans (callHeard_keeps _ _ _ _ _)
  · exact (voiceSection_keeps s _ _ _ _).trans (callHeard_keeps _ _ _ _ _)
  · exact vehicleReceived_keeps s _ _ _
  · exact refugeReceived_keeps s _ _
  · split
    · exact historyRequested_keeps s _ _ _
    · exact .refl _
  · exact textReceived_keeps s _ _ _

theorem dispatch_keeps (s : State) (a : Arrival) (x : FrameSection) : Keeps s (s.dispatch a x) := by
  unfold State.dispatch
  refine .ite (dispatchHere_keeps s a x) ?_
  unfold State.dispatchElsewhere
  split
  · exact callHeard_keeps s _ _ _ _
  · exact callHeard_keeps s _ _ _ _
  · exact .refl _

theorem candidateSection_keeps (a : Arrival) (v : Verdict) (s : State) (x : Nat × List Byte) :
    Keeps s (State.candidateSection a v s x) := by
  unfold State.candidateSection
  refine .ite (keeps_of_touches (countParse_touches s _ _)) ?_
  split
  · exact keeps_of_touches (countParse_touches s _ _)
  · exact .ite (dispatch_keeps s a _) (.refl _)

theorem applyVerdict_keeps (s : State) (a : Arrival) (f : List Byte) (v : Verdict) : Keeps s (s.applyVerdict a f v) := by
  unfold State.applyVerdict
  split
  · exact .refl _
  · exact duplicateHeard_keeps s _
  · refine Keeps.trans (Keeps.trans ?_ (peerHeard_keeps _ _)) (relayFrame_keeps _ _ _)
    exact setPru_keeps s _ id (addRecent_length _ _) id id (fun h => h)

theorem takeSections_keeps (s : State) (a : Arrival) (v : Verdict) (c : List (Nat × List Byte)) :
    Keeps s (s.takeSections a v c) := by
  unfold State.takeSections
  refine Keeps.trans ?_ (Keeps.foldl _ (candidateSection_keeps _ _) _ _)
  exact .ite (keeps_of_touches (countParse_touches _ _ _)) (.refl _)

theorem parseFrame_keeps (s : State) (p : Port) (r : RxFrame) : Keeps s (s.parseFrame p r) := by
  unfold State.parseFrame
  have h : ∀ f, Keeps s (s.countParse p f) := fun f => keeps_of_touches (countParse_touches s p f)
  dsimp only
  refine .ite (h _) ?_
  split
  · exact h _
  · unfold State.takeFrame
    exact .ite (.refl _) ((applyVerdict_keeps s _ _ _).trans (takeSections_keeps _ _ _ _))

/-! ### Inputs -/

theorem handEdge_keeps (s : State) (i : Input) (x : Level) : Keeps s (s.handEdge i x) := by
  unfold State.handEdge
  split
  · exact pullCord_keeps s
  · exact .refl _
  · exact doorEdge_keeps s true
  · exact doorEdge_keeps s false
  · exact pttPressed_keeps s
  · exact pttReleased_keeps s
  · exact hookEdge_keeps s true
  · exact hookEdge_keeps s false
  · exact buttonPressed_keeps s
  · exact .refl _
  · exact keeps_of_touches (pulseEdge_touches s)
  · exact .refl _

theorem acceptEdge_keeps (s : State) (i : Input) (x : Level) (d : Option Nat) : Keeps s (s.acceptEdge i x d) :=
  (keeps_of_touches (setCell_touches s i _)).trans (handEdge_keeps _ i x)

theorem cellRaw_keeps (s : State) (i : Input) (x : Level) : Keeps s (s.cellRaw i x) := by
  unfold State.cellRaw
  dsimp only
  split
  · exact .refl _
  · exact .ite (.ite (acceptEdge_keeps s i x _) (.refl _)) (keeps_of_touches (setCell_touches s i _))

/-! ### Starting and resets -/

theorem enterJoining_keeps (s : State) : Keeps s s.enterJoining := by
  unfold State.enterJoining
  have h0 : Keeps s (s.setSpu { s.spu with part := .joining, joinDue := some (s.ms + 2000 * s.cfg.beacon) }) :=
    keeps_of_touches (setPart_touches s _ _)
  exact ((((((h0.trans (keeps_of_touches (startChannels_touches _))).trans
    (keeps_of_touches (setSenses_touches _))).trans (recompute_keeps _)).trans
      (keeps_of_touches (startCells_touches _))).trans (keeps_of_touches (reportLevels_touches _))).trans
        (keeps_of_touches (decideSounder_touches _)))

theorem enterRunning_keeps (s : State) : Keeps s s.enterRunning := by
  unfold State.enterRunning
  have h1 : ∀ t : State, Keeps t (t.onPorts State.beginDeferral) :=
    onPorts_keeps _ (fun p t => .ite (.refl _) (enterDefer_keeps t p))
  have h2 : ∀ t : State, Keeps t (t.setTgu { t.tgu with evacHeld := false }) :=
    fun t => setTgu_keeps_tables t _ rfl rfl id
  have h3 : ∀ t : State, Keeps t (if t.cfg.lane.isNone then t.setLamps (darkSteady, darkSteady) else t) :=
    fun t => .ite (keeps_of_touches (setLamps_touches t _)) (.refl _)
  have h0 : Keeps s (s.setSpu { s.spu with part := .running, joinDue := none }) :=
    keeps_of_touches (setPart_touches s _ _)
  dsimp only
  exact Keeps.trans (Keeps.trans (Keeps.trans (Keeps.trans (Keeps.trans (h0.trans (h1 _))
    (onPorts_keeps _ (requestLive_keeps _) _)) (startBeaconPeriod_keeps _ _)) (h2 _)) (h3 _)) (laneEvaluate_keeps _)

theorem startWith_keeps (s : State) (g : Configuration) : Keeps s (s.startWith g) := by
  unfold State.startWith
  refine Keeps.trans ?_ (enterJoining_keeps _)
  exact setSpu_keeps s _ id id (fun h k => ⟨h, k⟩)

theorem lau_reset_fits (l : Lau) : l.afterReset.fits ∧ l.afterReset.ordered :=
  ⟨⟨Nat.zero_le _, Nat.zero_le _⟩, List.Pairwise.nil, fun _ h => absurd h List.not_mem_nil⟩

/-- Both resets leave the invariants holding, but for the numbers a RESTART keeps. -/
theorem restartUnits_keeps (s : State) : Keeps s s.restartUnits := by
  refine ⟨fun _ => ?_, fun _ => ?_, fun _ _ => ?_, fun _ => ?_, fun _ => ?_, id⟩
  · exact ⟨Nat.zero_le _, Nat.zero_le _, Nat.zero_le _, Nat.zero_le _, (lau_reset_fits s.lau.a).1,
      (lau_reset_fits s.lau.b).1, Nat.zero_le _, Nat.zero_le _, Nat.zero_le _, Nat.zero_le _, Nat.zero_le _,
      Nat.zero_le _, Nat.zero_le _, Nat.zero_le _, Nat.zero_le _, Nat.zero_le _, Nat.zero_le _, Nat.zero_le _,
      Nat.zero_le _⟩
  · exact ⟨List.nodup_nil, Nat.zero_le _, Nat.zero_le _, fun _ => ⟨rfl, rfl⟩⟩
  · exact ⟨.nil, .nil, .nil, .nil⟩
  · exact ⟨(lau_reset_fits s.lau.a).2, (lau_reset_fits s.lau.b).2⟩
  · exact fun x hx => absurd hx List.not_mem_nil

theorem hardReset_keeps (s : State) : Keeps s s.hardReset := by
  refine ⟨fun _ => ?_, fun _ => ?_, fun _ _ => ?_, fun _ => ?_, fun _ => ?_, fun _ => ?_⟩
  · exact ⟨Nat.zero_le _, Nat.zero_le _, Nat.zero_le _, Nat.zero_le _, (lau_reset_fits s.lau.a).1,
      (lau_reset_fits s.lau.b).1, Nat.zero_le _, Nat.zero_le _, Nat.zero_le _, Nat.zero_le _, Nat.zero_le _,
      Nat.zero_le _, Nat.zero_le _, Nat.zero_le _, Nat.zero_le _, Nat.zero_le _, Nat.zero_le _, Nat.zero_le _,
      Nat.zero_le _⟩
  · exact ⟨List.nodup_nil, Nat.zero_le _, Nat.zero_le _, fun _ => ⟨rfl, rfl⟩⟩
  · exact ⟨.nil, .nil, .nil, .nil⟩
  · exact ⟨(lau_reset_fits s.lau.a).2, (lau_reset_fits s.lau.b).2⟩
  · exact fun x hx => absurd hx List.not_mem_nil
  · exact ⟨Nat.succ_pos _, Nat.succ_pos _, Nat.succ_pos _⟩

/-! ### The station port -/

theorem respond_keeps (s : State) (t k : Nat) (c : ResponseCode) : Keeps s (s.respond t k c) := takeIn_keeps _ s

/-- A table answer of at most eighty records keeps the invariants (R183). -/
theorem answerTable_keeps (s : State) (t k : Nat) (xs : List DataItem) (h : Capacity s → xs.length ≤ 80) :
    Keeps s (s.answerTable t k xs) := by
  unfold State.answerTable
  refine Keeps.trans ?_ (takeIn_keeps _ _)
  refine ⟨fun c => ?_, id, fun _ => id, id, id, id⟩
  obtain ⟨a, _, rest⟩ := id c
  exact ⟨a, by show (xs.map _).length ≤ 80; rw [List.length_map]; exact h c, rest⟩

/-- A request served keeps what its action keeps. -/
theorem serveKind_keeps (s : State) (k : Nat) (act : Nat → Request → State → State)
    (h : ∀ t q u, Keeps u (act t q u)) : Keeps s (s.serveKind k act) := by
  unfold State.serveKind
  split
  · exact .refl _
  · rename_i r more hr
    refine .ite ?_ (.refl _)
    have h1 : Keeps s (s.setSpu { s.spu with requests := more }) := by
      refine setSpu_keeps s _ (fun k => ?_) id (fun k l => ⟨k, l⟩)
      rw [hr] at k
      exact Nat.le_trans (Nat.le_succ _) k
    unfold State.serveHead
    dsimp only
    split
    · exact h1.trans (respond_keeps _ _ _ _)
    · exact h1.trans (h _ _ _)

theorem setIntake_keeps (s : State) (a : Option Assembly) (g : Option Configuration) :
    Keeps s (s.setSpu { s.spu with assembly := a, held := g }) := setSpu_keeps s _ id id (fun h k => ⟨h, k⟩)

theorem serveConfigure_keeps (t : Nat) (q : Request) (s : State) : Keeps s (State.serveConfigure t q s) := by
  unfold State.serveConfigure
  split
  · exact respond_keeps s _ _ _
  · unfold State.configurePart
    dsimp only
    split
    · exact (setIntake_keeps s _ _).trans (takeIn_keeps _ _)
    · refine .ite ?_ ((setIntake_keeps s _ _).trans (takeIn_keeps _ _))
      split
      · exact (setIntake_keeps s _ _).trans (takeIn_keeps _ _)
      · exact (setIntake_keeps s _ _).trans (takeIn_keeps _ _)
  · exact respond_keeps s _ _ _
  · exact .refl _

theorem serveStart_keeps (t : Nat) (q : Request) (s : State) : Keeps s (State.serveStart t q s) := by
  unfold State.serveStart
  split
  · exact respond_keeps s _ _ _
  · exact (respond_keeps s _ _ _).trans (startWith_keeps _ _)
  · exact respond_keeps s _ _ _

theorem serveRestart_keeps (t : Nat) (q : Request) (s : State) : Keeps s (State.serveRestart t q s) :=
  .ite (((restartUnits_keeps s).trans (respond_keeps _ _ _ _)).trans (enterJoining_keeps _)) (respond_keeps s _ _ _)

theorem servePlaceCall_keeps (t : Nat) (q : Request) (s : State) : Keeps s (State.servePlaceCall t q s) := by
  unfold State.servePlaceCall
  split
  · exact .ite ((placeAdmitted_keeps s _).trans (respond_keeps _ _ _ _)) (respond_keeps s _ _ _)
  · exact .refl _

theorem serveReleaseCall_keeps (t : Nat) (q : Request) (s : State) : Keeps s (State.serveReleaseCall t q s) :=
  .ite ((dropCall_keeps s _).trans (respond_keeps _ _ _ _)) (respond_keeps s _ _ _)

theorem serveRaise_keeps (t : Nat) (q : Request) (s : State) : Keeps s (State.serveRaise t q s) := by
  unfold State.serveRaise
  split
  · exact .ite ((raise_keeps s _ _).trans (respond_keeps _ _ _ _)) (respond_keeps s _ _ _)
  · exact .refl _

theorem serveAcknowledge_keeps (t : Nat) (q : Request) (s : State) : Keeps s (State.serveAcknowledge t q s) := by
  unfold State.serveAcknowledge
  split
  · exact (Keeps.ite (acknowledge_keeps s _) (.refl _)).trans (respond_keeps _ _ _ _)
  · exact .refl _

theorem serveClear_keeps (t : Nat) (q : Request) (s : State) : Keeps s (State.serveClear t q s) := by
  unfold State.serveClear
  split
  · exact (Keeps.ite (clearAsOrigin_keeps s _) (.refl _)).trans (respond_keeps _ _ _ _)
  · exact .refl _

theorem serveSilence_keeps (t : Nat) (q : Request) (s : State) : Keeps s (State.serveSilence t q s) :=
  .ite ((silenceAll_keeps s).trans (respond_keeps _ _ _ _)) (respond_keeps s _ _ _)

theorem sendText_keeps (s : State) (t d : Nat) (b r : Bool) (w : List Byte) : Keeps s (s.sendText t d b r w) := by
  unfold State.sendText
  refine Keeps.trans ?_ (onPorts_keeps _ (fun p u => requestFrame_keeps u p d _ _ _ _) _)
  exact .ite (keeps_of_touches (setText_touches s _)) (.refl _)

theorem serveSendText_keeps (t : Nat) (q : Request) (s : State) : Keeps s (State.serveSendText t q s) := by
  unfold State.serveSendText
  split
  · exact .ite ((sendText_keeps s _ _ _ _ _).trans (respond_keeps _ _ _ _)) (respond_keeps s _ _ _)
  · exact .refl _

theorem serveReadHistory_keeps (t : Nat) (q : Request) (s : State) : Keeps s (State.serveReadHistory t q s) := by
  unfold State.serveReadHistory
  split
  · refine .ite (respond_keeps s _ _ _) ?_
    split
    · exact respond_keeps s _ _ _
    · exact addHistory_keeps s _ (by omega)
  · exact .refl _

theorem serveRequestHistory_keeps (t : Nat) (q : Request) (s : State) : Keeps s (State.serveRequestHistory t q s) := by
  unfold State.serveRequestHistory
  split
  · exact .ite (respond_keeps s _ _ _) (.ite (respond_keeps s _ _ _)
      ((onPorts_keeps _ (fun p u => requestFrame_keeps u p _ _ _ _ _) _).trans (respond_keeps _ _ _ _)))
  · exact .refl _

theorem serveReadChannel_keeps (t : Nat) (q : Request) (s : State) : Keeps s (State.serveReadChannel t q s) := by
  unfold State.serveReadChannel
  split
  · split
    · exact respond_keeps s _ _ _
    · exact .ite (respond_keeps s _ _ _) (answerTable_keeps s _ _ _ (fun _ => Nat.succ_le_succ (Nat.zero_le _)))
  · exact .refl _

theorem serveReadPeers_keeps (t : Nat) (q : Request) (s : State) : Keeps s (State.serveReadPeers t q s) :=
  answerTable_keeps s _ _ _ (fun c => by rw [List.length_map]; exact Nat.le_trans (capacity_peers c) (by decide))

theorem serveReadAlarms_keeps (t : Nat) (q : Request) (s : State) : Keeps s (State.serveReadAlarms t q s) :=
  answerTable_keeps s _ _ _ (fun c => by rw [List.length_map]; exact Nat.le_trans (capacity_alarms c) (by decide))

theorem serveReadTags_keeps (t : Nat) (q : Request) (s : State) : Keeps s (State.serveReadTags t q s) := by
  refine answerTable_keeps s _ _ _ (fun c => ?_)
  obtain ⟨_, _, _, _, _, _, _, _, _, _, _, n, m, _⟩ := c
  rw [List.length_append, List.length_map, List.length_map]
  exact Nat.add_le_add n m

theorem serveReadCounters_keeps (t : Nat) (q : Request) (s : State) : Keeps s (State.serveReadCounters t q s) :=
  answerTable_keeps s _ _ _ (fun _ => Nat.le_of_ble_eq_true rfl)

theorem recordTaken_keeps (s : State) : Keeps s s.recordTaken := by
  unfold State.recordTaken
  split
  · refine setSpu_keeps s _ id (fun h => ?_) (fun h k => ⟨h, k⟩)
    dsimp only
    rw [List.length_tail]
    omega
  · split
    · exact .refl _
    · rename_i q more hq
      refine setSpu_keeps s _ id id (fun h k => ⟨?_, k⟩)
      rw [hq] at h
      exact Nat.le_trans (Nat.le_succ _) h

theorem recordTaken_requests (s : State) : s.recordTaken.spu.requests = s.spu.requests :=
  recordTaken_touches s .requests (by decide)

theorem transfer_keeps (s : State) (b : List Byte) : Keeps s (s.transfer b) := by
  unfold State.transfer
  dsimp only
  split
  · exact setSpu_keeps s _ id id (fun h k => ⟨h, k⟩)
  · rename_i hn
    have h : ∀ c : Prop, [Decidable c] → Keeps s (if c then s.recordTaken else s)
        ∧ (if c then s.recordTaken else s).spu.requests = s.spu.requests := by
      intro c _
      split
      · exact ⟨recordTaken_keeps s, recordTaken_requests s⟩
      · exact ⟨.refl _, rfl⟩
    refine Keeps.trans (h _).1 (setSpu_keeps _ _ (fun k => ?_) id (fun k l => ⟨k, l⟩))
    dsimp only
    split
    · rename_i hc
      rw [(h _).2, List.length_append, List.length_singleton]
      omega
    · exact k

end Sys2Proof.Machine
end

