-- ==== Sys2Proof/Laws/Requests.lean ====
section
/-! SUPPORT. Serving a request, once for all seventeen kinds; and where a RESPONSE stands. -/

namespace Sys2Proof.Machine

/-- The kind byte of a request. -/
def Request.kindOf : Request → Nat
  | .configure _ _ _ => 1
  | .start => 2
  | .restart => 3
  | .placeCall _ => 4
  | .releaseCall => 5
  | .raiseAlarm _ _ => 6
  | .acknowledgeAlarm _ => 7
  | .clearAlarm _ => 8
  | .silence => 9
  | .sendText _ _ _ _ => 10
  | .readHistory _ => 11
  | .readChannel _ => 12
  | .readPeers => 13
  | .readAlarms => 14
  | .readTags => 15
  | .readCounters => 16
  | .requestHistory _ _ => 17

/-- A record that passes R37 has the kind of the request it spells. -/
theorem readRequest_kind {r : List Byte} {q : Request} (h : readRequest r = some q) : requestKind r = q.kindOf := by
  unfold readRequest at h
  generalize requestKind r = k at h
  dsimp only at h
  split at h <;> first
    | (split at h <;> first | (cases h; rfl) | cases h | skip)
    | cases h
  · rename_i hn
    cases h1 : alarmKindOf (at8 r 2) with
    | none => simp [h1] at h
    | some a =>
      cases h2 : scopeOf (at8 r 3) with
      | none => simp [h1, h2] at h
      | some b => simp [h1, h2] at h; subst h; rfl
  · cases h1 : channelOf (at8 r 2) with
    | none => simp [h1] at h
    | some a => simp [h1] at h; subst h; rfl
  · cases h1 : channelOf (at8 r 2) with
    | none => simp [h1] at h
    | some a => simp [h1] at h; subst h; rfl

/-! ### The state once the head request has left the queue -/

/-- The state with the requests that wait behind the head. -/
def State.served (s : State) (more : List (List Byte)) : State := s.setSpu { s.spu with requests := more }

@[simp] theorem served_requests (s : State) (m : List (List Byte)) : (s.served m).spu.requests = m := rfl
@[simp] theorem served_part (s : State) (m : List (List Byte)) : (s.served m).spu.part = s.spu.part := rfl
@[simp] theorem served_held (s : State) (m : List (List Byte)) : (s.served m).spu.held = s.spu.held := rfl
@[simp] theorem served_assembly (s : State) (m : List (List Byte)) : (s.served m).spu.assembly = s.spu.assembly := rfl
@[simp] theorem served_config (s : State) (m : List (List Byte)) : (s.served m).spu.config = s.spu.config := rfl
@[simp] theorem served_ind (s : State) (m : List (List Byte)) : (s.served m).spu.ind = s.spu.ind := rfl
@[simp] theorem served_answer (s : State) (m : List (List Byte)) : (s.served m).spu.answer = s.spu.answer := rfl
@[simp] theorem served_cfg (s : State) (m : List (List Byte)) : (s.served m).cfg = s.cfg := rfl
@[simp] theorem served_started (s : State) (m : List (List Byte)) : (s.served m).started = s.started := rfl
@[simp] theorem served_running (s : State) (m : List (List Byte)) : (s.served m).running = s.running := rfl
@[simp] theorem served_ms (s : State) (m : List (List Byte)) : (s.served m).ms = s.ms := rfl
@[simp] theorem served_clu (s : State) (m : List (List Byte)) : (s.served m).clu = s.clu := rfl
@[simp] theorem served_pru (s : State) (m : List (List Byte)) : (s.served m).pru = s.pru := rfl
@[simp] theorem served_aru (s : State) (m : List (List Byte)) : (s.served m).aru = s.aru := rfl
@[simp] theorem served_tgu (s : State) (m : List (List Byte)) : (s.served m).tgu = s.tgu := rfl
@[simp] theorem served_bpk (s : State) (m : List (List Byte)) : (s.served m).bpk = s.bpk := rfl
@[simp] theorem served_iou (s : State) (m : List (List Byte)) : (s.served m).iou = s.iou := rfl
@[simp] theorem served_channel (s : State) (m : List (List Byte)) (c : Fin 7) : (s.served m).channel c = s.channel c := rfl
@[simp] theorem served_channelCfg (s : State) (m : List (List Byte)) (c : Fin 7) :
    (s.served m).channelCfg c = s.channelCfg c := rfl
@[simp] theorem served_findAlarm (s : State) (m : List (List Byte)) (i : AlarmId) :
    (s.served m).findAlarm i = s.findAlarm i := rfl
@[simp] theorem served_urgentHeld (s : State) (m : List (List Byte)) : (s.served m).urgentHeld = s.urgentHeld := rfl

/-- R183: a request that can be served leaves the queue and goes to its owner's action with its tag. -/
theorem serveKind_serving {s : State} {q : Request} {tag : Nat} {more : List (List Byte)} (h : Serving s q tag more)
    (act : Nat → Request → State → State) :
    s.serveKind q.kindOf act = act tag q (s.served more) := by
  obtain ⟨r, h1, h2, h3, h4, h5⟩ := h
  have hk := readRequest_kind h2
  have hm : s.mayServe (requestKind r) = true := by
    unfold State.mayServe
    cases ha : answeredFromTable (requestKind r) with
    | false => simp [h4]
    | true => simp [h4, h5 ha]
  unfold State.serveKind
  rw [h1]
  simp only [hk] at hm ⊢
  simp only [hm, and_self, if_true]
  unfold State.serveHead
  rw [h2, h3]
  rfl

/-- Room for one record is always found while fewer than 32 urgent records are held. -/
theorem makeRoom_fits (q : List Queued) : ∀ fuel, q.length ≤ fuel → q.countP (fun x => x.record.urgent) < 32 →
    (makeRoom 1 fuel q).1.length + 1 ≤ 32 := by
  intro fuel
  induction fuel generalizing q with
  | zero => intro h _; have : q = [] := List.length_eq_zero_iff.1 (by omega); subst this; decide
  | succ n ih =>
    intro h hu
    unfold makeRoom
    split
    · assumption
    · split
      · rename_i hr
        dsimp only
        obtain ⟨a, ha, hr⟩ := List.any_eq_true.1 hr
        have hl : (q.eraseP Queued.routine).length = q.length - 1 := List.length_eraseP_of_mem ha hr
        refine ih _ (by omega) (Nat.lt_of_le_of_lt ?_ hu)
        exact List.Sublist.countP_le List.eraseP_sublist
      · rename_i h1 h2
        exfalso
        have : q.countP (fun x => x.record.urgent) = q.length := by
          rw [List.countP_eq_length]
          intro a ha
          have := mt (fun hx => List.any_eq_true.2 ⟨a, ha, hx⟩) h2
          unfold Queued.routine at this
          simpa using this
        omega

/-- R184: a record is the last of the queue after it is taken in, and is taken in while fewer than 32 urgent records
are held. -/
theorem takeIn_last (r : HostRecord) (s : State) (h : s.urgentHeld < 32) :
    ∃ lost, (takeIn r s).spu.ind.getLast? = some { record := r, lost := lost } := by
  have hf := makeRoom_fits s.spu.ind s.spu.ind.length (Nat.le_refl _) h
  unfold takeIn takeInAll
  dsimp only [List.length_cons, List.length_nil, Nat.zero_add]
  rw [if_pos hf]
  exact ⟨_, by simp [State.setSpu]; rfl⟩

theorem respond_last (s : State) (tag kind : Nat) (code : ResponseCode) (h : s.urgentHeld < 32) :
    Answered (s.respond tag kind code) tag kind code 0 0 := takeIn_last _ s h

theorem takeIn_requests (r : HostRecord) (s : State) : (takeIn r s).spu.requests = s.spu.requests :=
  takeIn_touches r s .requests (by decide)

theorem takeIn_answer (r : HostRecord) (s : State) : (takeIn r s).spu.answer = s.spu.answer :=
  (takeIn_touches r s .answer (by decide)).1

theorem served_touches (s : State) (m : List (List Byte)) : OnlyTouches [.requests] s (s.served m) := by
  intro x hx
  cases x <;> first | rfl | exact ⟨rfl, rfl⟩ | exact ⟨rfl, rfl, rfl⟩ | exact absurd (by decide) hx

theorem Serving.room {s : State} {q : Request} {tag : Nat} {more : List (List Byte)} (h : Serving s q tag more) :
    s.urgentHeld < 32 := by
  obtain ⟨r, _, _, _, h4, _⟩ := h
  exact h4

/-- A request answered with no effect: it leaves the queue, its RESPONSE is the last record, and nothing else changes. -/
theorem respond_only {s : State} (m : List (List Byte)) (tag kind : Nat) (code : ResponseCode) (h : s.urgentHeld < 32) :
    ((s.served m).respond tag kind code).spu.requests = m
      ∧ Answered ((s.served m).respond tag kind code) tag kind code 0 0
      ∧ OnlyTouches [.requests, .indications] s ((s.served m).respond tag kind code) :=
  ⟨takeIn_requests _ _, respond_last _ _ _ _ h, (served_touches s m).wide.andThen (respond_touches _ _ _ _)⟩

/-- A table answer: its items are in the answer buffer, its RESPONSE is the last record, and nothing else changes. -/
theorem answerTable_only {s : State} (m : List (List Byte)) (tag kind : Nat) (xs : List DataItem) (h : s.urgentHeld < 32) :
    ((s.served m).answerTable tag kind xs).spu.requests = m
      ∧ Answered ((s.served m).answerTable tag kind xs) tag kind .ok 0 xs.length
      ∧ ((s.served m).answerTable tag kind xs).spu.answer = xs.map (HostRecord.data tag)
      ∧ OnlyTouches [.requests, .answer, .indications] s ((s.served m).answerTable tag kind xs) :=
  ⟨takeIn_requests _ _, takeIn_last _ _ h, takeIn_answer _ _,
    (served_touches s m).wide.andThen (answerTable_touches _ _ _ _)⟩

end Sys2Proof.Machine
end

