-- ==== Sys2Proof/Laws/AlarmTable.lean ====
section
/-! SUPPORT. What changes of the alarm table do to the entry of one alarm, and to the channels. -/

set_option Elab.async false

namespace Sys2Proof.Machine

/-! ### Channels: only the raised-alarm field is touched -/

/-- From s to t every channel keeps its record but for its raised-alarm field. -/
def RaisedOnly (s t : State) : Prop := ∀ c, ∃ r, t.channel c = { s.channel c with raised := r }

theorem RaisedOnly.refl (s : State) : RaisedOnly s s := fun c => ⟨(s.channel c).raised, rfl⟩

theorem RaisedOnly.trans {s t u : State} (h : RaisedOnly s t) (k : RaisedOnly t u) : RaisedOnly s u := by
  intro c
  obtain ⟨a, ha⟩ := h c
  obtain ⟨b, hb⟩ := k c
  exact ⟨b, by rw [hb, ha]⟩

theorem RaisedOnly.ite {s t u : State} {c : Prop} [Decidable c] (h : RaisedOnly s t) (k : RaisedOnly s u) :
    RaisedOnly s (if c then t else u) := by split <;> assumption

theorem raisedOnly_of_channels {s t : State} (h : t.acu.channels = s.acu.channels) : RaisedOnly s t := by
  intro c
  refine ⟨(s.channel c).raised, ?_⟩
  unfold State.channel
  rw [h]

theorem raisedOnly_of_touches {foot : List Part} {s t : State} (h : OnlyTouches foot s t)
    (k : Part.channels ∉ foot := by decide) : RaisedOnly s t := raisedOnly_of_channels (h .channels k)

theorem reportToChannels_raised (s : State) (a : Alarm) (r : Bool) : RaisedOnly s (s.reportToChannels a r).1 := by
  unfold State.reportToChannels
  split
  · exact .refl s
  · intro c
    dsimp only
    by_cases h : emptiesField a (s.ownEnded a r) (s.channel c) = true
    · refine ⟨none, ?_⟩
      unfold State.channel at h ⊢
      simp only [Fin.getElem_fin] at h ⊢
      simp [State.setAcu, h]
    · refine ⟨(s.channel c).raised, ?_⟩
      unfold State.channel at h ⊢
      simp only [Fin.getElem_fin] at h ⊢
      simp [State.setAcu, h]

theorem setAru_raised (s : State) (x : Aru) : RaisedOnly s (s.setAru x) := raisedOnly_of_channels rfl

theorem clearReferences_raised (s : State) (a : Alarm) (r : Bool) : RaisedOnly s (s.clearReferences a r) := by
  unfold State.clearReferences
  exact .ite (setAru_raised s _) (.refl s)

theorem handOn_raised (s : State) (a : Alarm) (r : Bool) : RaisedOnly s (s.handOn a r).1 := by
  unfold State.handOn
  have h1 := clearReferences_raised s a r
  have h2 := raisedOnly_of_touches (evaluateLockout_touches (s.clearReferences a r))
  have h3 := reportToChannels_raised (s.clearReferences a r).evaluateLockout a r
  have h4 := raisedOnly_of_touches (laneEvaluate_touches ((s.clearReferences a r).evaluateLockout.reportToChannels a r).1)
  have h5 := raisedOnly_of_touches
    (testMuster_touches ((s.clearReferences a r).evaluateLockout.reportToChannels a r).1.laneEvaluate)
  exact ((((h1.trans h2).trans h3).trans h4).trans h5).trans (raisedOnly_of_touches (decideSounder_touches _))

theorem placeAlarmChange_raised (a : Alarm) (x : AlarmChange) (s : State) : RaisedOnly s (placeAlarmChange a x s) :=
  raisedOnly_of_touches (takeIn_touches _ s)

theorem removeAlarm_raised (s : State) (a : Alarm) : RaisedOnly s (s.removeAlarm a) := by
  unfold State.removeAlarm
  refine RaisedOnly.trans ?_ (handOn_raised _ _ _)
  exact RaisedOnly.trans (setAru_raised s _) (placeAlarmChange_raised _ _ _)

theorem ownChange_raised (s : State) (a : Alarm) : RaisedOnly s (s.ownChange a).1 := by
  unfold State.ownChange
  refine RaisedOnly.trans ?_ (handOn_raised _ _ _)
  refine RaisedOnly.trans ?_ (raisedOnly_of_touches (openOwn_onPorts_touches a _))
  exact RaisedOnly.trans (setAru_raised s _) (placeAlarmChange_raised _ _ _)

theorem clearAsOrigin_raised (s : State) (i : AlarmId) : RaisedOnly s (s.clearAsOrigin i) := by
  unfold State.clearAsOrigin
  split
  · exact .ite (ownChange_raised s _) (.refl s)
  · exact .refl s

theorem makeAlarmRoom_raised {s t : State} {k : AlarmKind} {x : AlarmState} (h : s.makeAlarmRoom k x = some t) :
    RaisedOnly s t := by
  unfold State.makeAlarmRoom at h
  split at h
  · cases h; exact .refl s
  · obtain ⟨v, _, rfl⟩ := Option.map_eq_some_iff.1 h
    exact removeAlarm_raised s v

theorem raise_raised (s : State) (k : AlarmKind) (x : Scope) : RaisedOnly s (s.raise k x).2 := by
  unfold State.raise
  dsimp only
  split
  · exact .refl s
  · rename_i t ht
    refine RaisedOnly.trans (makeAlarmRoom_raised ht) ?_
    refine RaisedOnly.trans ?_ (handOn_raised _ _ _)
    refine RaisedOnly.trans ?_ (raisedOnly_of_touches (openOwn_onPorts_touches _ _))
    refine RaisedOnly.trans ?_ (setAru_raised _ _)
    exact RaisedOnly.trans (setAru_raised t _) (placeAlarmChange_raised _ _ _)

theorem setChannel_raised (s : State) (c : Fin 7) (r : Option Nat) :
    RaisedOnly s (s.setChannel c { s.channel c with raised := r }) := by
  intro d
  by_cases h : c = d
  · subst h
    exact ⟨r, by unfold State.channel State.setChannel; simp [State.setAcu]⟩
  · refine ⟨(s.channel d).raised, ?_⟩
    unfold State.channel State.setChannel
    have : c.val ≠ d.val := fun e => h (Fin.ext e)
    simp [State.setAcu, this]

theorem raiseForChannel_raised (s : State) (c : Fin 7) (x : ChannelState) : RaisedOnly s (s.raiseForChannel c x) := by
  unfold State.raiseForChannel
  dsimp only
  split
  · split
    · exact .refl s
    · split
      · exact raise_raised s _ _
      · exact RaisedOnly.trans (raise_raised s _ _) (setChannel_raised _ c _)
  · exact .refl s

theorem clearForChannel_raised (s : State) (c : Fin 7) : RaisedOnly s (s.clearForChannel c) := by
  unfold State.clearForChannel
  dsimp only
  split
  · exact .refl s
  · exact .ite (RaisedOnly.trans (setChannel_raised s c none) (clearAsOrigin_raised _ _)) (.refl s)

theorem showChannel_raised (s : State) (c : Fin 7) (x : Channel) : RaisedOnly s (s.showChannel c x) := by
  unfold State.showChannel
  exact RaisedOnly.trans (raisedOnly_of_touches (takeIn_touches _ s))
    (raisedOnly_of_touches (requestLive_onPorts_touches _ _))

/-- R64, R75, R76, R93, R94: what a sample or trend event hands on leaves the channel's record but for its raised-alarm
field. -/
theorem channelEvent_channel (s : State) (c : Fin 7) (after : Channel) :
    ∃ r, (s.channelEvent c after).channel c = { after with raised := r } := by
  have h : RaisedOnly (s.setChannel c after) (s.channelEvent c after) := by
    unfold State.channelEvent
    dsimp only
    have key : RaisedOnly (s.setChannel c after)
        (if (decide ((s.channel c).published ≠ after.published) || decide ((s.channel c).value ≠ after.value)) = true then
          (if decide ((s.channel c).published ≠ after.published) = true then
            ((s.setChannel c after).recompute.raiseForChannel c (s.channel c).level).clearForChannel c
          else (s.setChannel c after).recompute.raiseForChannel c (s.channel c).level)
        else s.setChannel c after) := by
      have h1 : RaisedOnly (s.setChannel c after) (s.setChannel c after).recompute :=
        raisedOnly_of_touches (recompute_touches _)
      have h2 := h1.trans (raiseForChannel_raised (s.setChannel c after).recompute c (s.channel c).level)
      exact .ite (.ite (h2.trans (clearForChannel_raised _ c)) h2) (.refl _)
    exact .ite (key.trans (showChannel_raised _ c after)) key
  obtain ⟨r, hr⟩ := h c
  refine ⟨r, hr.trans ?_⟩
  unfold State.channel State.setChannel
  simp [State.setAcu]

/-! ### The entry of one alarm -/

theorem handOn_alarms (s : State) (a : Alarm) (r : Bool) : (s.handOn a r).1.aru.alarms = s.aru.alarms :=
  handOn_touches s a r .alarms (by decide)

theorem ownChange_alarms (s : State) (a : Alarm) :
    (s.ownChange a).1.aru.alarms = s.aru.alarms.map (fun x => if x.id = a.id then a else x) := by
  unfold State.ownChange
  rw [handOn_alarms]
  refine (openOwn_onPorts_touches a _ .alarms (by decide)).trans ?_
  exact takeIn_touches _ _ .alarms (by decide)

theorem find_map_replace (as : List Alarm) (a : Alarm) (i : AlarmId) :
    (as.map (fun x => if x.id = a.id then a else x)).find? (fun x => decide (x.id = i))
      = if i = a.id then (as.find? (fun x => decide (x.id = i))).map (fun _ => a)
        else as.find? (fun x => decide (x.id = i)) := by
  induction as with
  | nil => simp
  | cons x xs ih =>
    rw [List.map_cons, List.find?_cons, List.find?_cons]
    by_cases h : x.id = a.id
    · rw [if_pos h]
      by_cases k : i = a.id
      · subst k; simp [h]
      · rw [if_neg k] at ih ⊢
        rw [decide_eq_false (fun e => k e.symm), decide_eq_false (fun e => k (e.symm.trans h))]
        exact ih
    · rw [if_neg h]
      by_cases k : x.id = i
      · have : i ≠ a.id := fun e => h (k.trans e)
        simp [k, this]
      · rw [decide_eq_false k]
        exact ih

theorem ownChange_find (s : State) (a b : Alarm) (i : AlarmId) (h : s.findAlarm i = some b) (k : a.id = i) :
    (s.ownChange a).1.findAlarm i = some a := by
  unfold State.findAlarm at h ⊢
  rw [ownChange_alarms, find_map_replace, if_pos k.symm, h]
  rfl

theorem find_id {s : State} {i : AlarmId} {a : Alarm} (h : s.findAlarm i = some a) : a.id = i := by
  unfold State.findAlarm at h
  have k := List.find?_some h
  simpa using k

theorem find_congr {s t : State} (h : t.aru.alarms = s.aru.alarms) (i : AlarmId) : t.findAlarm i = s.findAlarm i := by
  unfold State.findAlarm
  rw [h]

/-- R94, R162: a clear asked for by the zone air evaluator leaves an ACKNOWLEDGED alarm CLEARED, any other as it was. -/
theorem clearAsOrigin_find (s : State) (i : AlarmId) (a : Alarm) (h : s.findAlarm i = some a) :
    (s.clearAsOrigin i).findAlarm i
      = some (if a.state = .acknowledged then a.become .cleared s.ms else a) := by
  unfold State.clearAsOrigin
  rw [h]
  dsimp only
  split
  · exact ownChange_find s (a.become .cleared s.ms) a i h (find_id (a := a) h)
  · exact h

/-- The other alarms stand. -/
theorem clearAsOrigin_find_other (s : State) (i j : AlarmId) (h : i ≠ j) :
    (s.clearAsOrigin i).findAlarm j = s.findAlarm j := by
  unfold State.clearAsOrigin
  split
  · rename_i a ha
    split
    · unfold State.findAlarm
      rw [ownChange_alarms, find_map_replace, if_neg]
      intro e
      exact h ((find_id ha).symm.trans e.symm)
    · rfl
  · rfl

theorem thenClear_find_other (r : State × Bool) (i j : AlarmId) (h : i ≠ j) :
    (State.thenClear r i).findAlarm j = r.1.findAlarm j := by
  unfold State.thenClear
  split
  · exact clearAsOrigin_find_other _ _ _ h
  · rfl

/-- A change handed on, and the clear it may ask for: the entry is as the change left it, or ACKNOWLEDGED and then
CLEARED. -/
theorem thenClear_find (r : State × Bool) (i : AlarmId) (a : Alarm) (h : r.1.findAlarm i = some a) :
    (State.thenClear r i).findAlarm i = some a
      ∨ (r.2 = true ∧ a.state = .acknowledged
        ∧ (State.thenClear r i).findAlarm i = some (a.become .cleared r.1.ms)) := by
  unfold State.thenClear
  split
  · rename_i hr
    rw [clearAsOrigin_find _ _ _ h]
    split
    · exact .inr ⟨hr, by assumption, rfl⟩
    · exact .inl rfl
  · exact .inl h

/-- A newcomer to a table that does not hold its alarm is found under it, and every other alarm as before. -/
theorem find_insert (as : List Alarm) (a : Alarm) (i : AlarmId) (h : as.find? (fun x => decide (x.id = a.id)) = none) :
    (insertBy alarmBefore a as).find? (fun x => decide (x.id = i))
      = if i = a.id then some a else as.find? (fun x => decide (x.id = i)) := by
  induction as with
  | nil =>
    unfold insertBy
    by_cases k : i = a.id
    · subst k; simp
    · simp [k, Ne.symm k]
  | cons x xs ih =>
    have hx : x.id ≠ a.id ∧ xs.find? (fun y => decide (y.id = a.id)) = none := by
      rw [List.find?_cons] at h
      split at h
      · cases h
      · rename_i hx
        exact ⟨of_decide_eq_false hx, h⟩
    unfold insertBy
    split
    · rw [List.find?_cons]
      by_cases k : i = a.id
      · subst k; simp
      · rw [decide_eq_false (fun e => k e.symm), if_neg k]
    · rw [List.find?_cons, List.find?_cons, ih hx.2]
      by_cases k : i = a.id
      · subst k; rw [decide_eq_false hx.1]
      · rw [if_neg k, if_neg k]

end Sys2Proof.Machine
end

