-- ==== Sys2Proof/Laws/Effects.lean ====
section
/-! SUPPORT. What the shared operations of the alarm unit, the call unit, the station port and the line do, each said once
in the words of Safety.lean. -/

set_option Elab.async false

namespace Sys2Proof.Machine

/-! ### What a footprint leaves readable -/

theorem touched_cfg {foot : List Part} {s t : State} (h : OnlyTouches foot s t)
    (k : Part.partState ∉ foot := by decide) : t.cfg = s.cfg := by
  unfold State.cfg
  rw [(h .partState k).2.2]

theorem touched_ms {foot : List Part} {s t : State} (h : OnlyTouches foot s t)
    (k : Part.clock ∉ foot := by decide) : t.ms = s.ms := by
  unfold State.ms
  rw [h .clock k]

theorem touched_channel {foot : List Part} {s t : State} (h : OnlyTouches foot s t)
    (k : Part.channels ∉ foot := by decide) (c : Fin 7) : t.channel c = s.channel c := by
  unfold State.channel
  rw [h .channels k]

/-! ### The indication queue (R184) -/

theorem any_routine_iff (q : List Queued) : q.any Queued.routine = true ↔ ∃ x ∈ q, x.record.urgent = false := by
  simp [List.any_eq_true, Queued.routine]

theorem eraseP_routine : ∀ q : List Queued, q.any Queued.routine = true →
    ∃ before x after, q = before ++ x :: after ∧ (∀ y ∈ before, y.record.urgent = true) ∧ x.record.urgent = false
      ∧ q.eraseP Queued.routine = before ++ after
  | [], h => by simp at h
  | y :: ys, h => by
    cases hy : y.record.urgent with
    | false => exact ⟨[], y, ys, rfl, by simp, hy, by simp [Queued.routine, hy]⟩
    | true =>
      have hr : ys.any Queued.routine = true := by simpa [List.any_cons, Queued.routine, hy] using h
      obtain ⟨b, x, a, h1, h2, h3, h4⟩ := eraseP_routine ys hr
      refine ⟨y :: b, x, a, by rw [h1]; rfl, ?_, h3, ?_⟩
      · intro z hz
        rcases List.mem_cons.1 hz with rfl | hz
        · exact hy
        · exact h2 z hz
      · rw [List.eraseP_cons]
        simp [Queued.routine, hy]
        exact h4

/-- Step 1 of R184: the oldest routine records leave, no more than are needed, and none is left when they are not
enough. -/
theorem makeRoom_discards (need : Nat) : ∀ (fuel : Nat) (q : List Queued), q.length ≤ fuel →
    Discards (makeRoom need fuel q).2 q (makeRoom need fuel q).1
      ∧ (0 < (makeRoom need fuel q).2 → 32 < (makeRoom need fuel q).1.length + 1 + need)
      ∧ (32 < (makeRoom need fuel q).1.length + need → ∀ x ∈ (makeRoom need fuel q).1, x.record.urgent = true)
  | 0, q, h => by
    obtain rfl : q = [] := List.length_eq_zero_iff.1 (by omega)
    exact ⟨rfl, by simp [makeRoom], by simp [makeRoom]⟩
  | fuel + 1, q, h => by
    unfold makeRoom
    split
    · exact ⟨rfl, fun e => absurd e (Nat.lt_irrefl 0), fun e => absurd e (by dsimp only; omega)⟩
    · rename_i hlen
      split
      · rename_i hany
        obtain ⟨b, x, a, h1, h2, h3, h4⟩ := eraseP_routine q hany
        have hl : (q.eraseP Queued.routine).length + 1 = q.length := by rw [h4, h1]; simp; omega
        obtain ⟨i1, i2, i3⟩ := makeRoom_discards need fuel (q.eraseP Queued.routine) (by omega)
        refine ⟨⟨b, x, a, h1, h2, h3, by rw [← h4]; exact i1⟩, fun _ => ?_, i3⟩
        dsimp only
        by_cases hz : 0 < (makeRoom need fuel (q.eraseP Queued.routine)).2
        · exact i2 hz
        · have h0 : (makeRoom need fuel (q.eraseP Queued.routine)).2 = 0 := by omega
          rw [h0] at i1
          have e : (makeRoom need fuel (q.eraseP Queued.routine)).1 = q.eraseP Queued.routine := i1
          rw [e]
          omega
      · rename_i hany
        refine ⟨rfl, fun e => absurd e (Nat.lt_irrefl 0), fun _ x hx => ?_⟩
        cases hu : x.record.urgent with
        | true => rfl
        | false => exact absurd ((any_routine_iff q).2 ⟨x, hx, hu⟩) hany

/-! ### Deferral (R8) -/

/-- R8: a new draw for the entry whose attempt is next. -/
theorem newDraw_draws (s : State) (p : Port) (e : TxEntry) (h : (s.port p).candidate = some e) :
    ∃ r, r < 4 * 2 ^ min e.fails 4 ∧ OnlyTouches [.draws, .line p] s (s.newDraw p)
      ∧ (s.newDraw p).port p = { s.port p with draw := r, wait := 48 + 24 * (4 * e.cls.code + r) } := by
  unfold State.newDraw
  rw [h]
  dsimp only
  refine ⟨(s.drawBelow (drawWindow e.fails)).1, ?_, ?_, ?_⟩
  · have : 0 < 2 ^ min e.fails 4 := Nat.two_pow_pos _
    exact Nat.mod_lt _ (by unfold drawWindow; omega)
  · intro x hx
    cases p <;> cases x <;> first
      | rfl
      | exact ⟨rfl, rfl⟩
      | exact ⟨rfl, rfl, rfl⟩
      | (rename_i q; cases q <;> first | rfl | exact absurd (by decide) hx)
      | exact absurd (by decide) hx
  · cases p <;> rfl

/-! ### The alarm table (R153 to R156, R159, R160) -/

theorem handOn_told (s : State) (a : Alarm) (r : Bool) :
    OnlyTouches ([.references] ++ lockoutFoot) s (s.clearReferences a r).evaluateLockout :=
  ((clearReferences_touches s a r).wide).andThen (evaluateLockout_touches _)

/-- R94, R160: the clear asked for when a change is handed on. -/
theorem handOn_asks (s : State) (a : Alarm) : (s.handOn a false).2 = true ↔ AsksClear s a.id a.state := by
  have any_channels : ∀ (t : State) (f : Channel → Bool),
      t.acu.channels.toList.any f = true ↔ ∃ c, f (t.channel c) = true := by
    intro t f
    rw [List.any_eq_true]
    constructor
    · rintro ⟨x, hx, hf⟩
      rw [Vector.mem_toList_iff] at hx
      obtain ⟨i, hi, rfl⟩ := Vector.getElem_of_mem hx
      exact ⟨⟨i, hi⟩, hf⟩
    · rintro ⟨c, hc⟩
      exact ⟨t.channel c, Vector.mem_toList_iff.2 (Vector.getElem_mem _), hc⟩
  unfold State.handOn
  dsimp only
  have hp := handOn_told s a false
  generalize (s.clearReferences a false).evaluateLockout = t at *
  have hc := touched_cfg hp
  unfold State.reportToChannels AsksClear
  split
  · rename_i h
    rw [hc] at h
    simp [h]
  · rename_i h
    rw [hc] at h
    have h : a.id.origin = s.cfg.station := by simpa using h
    dsimp only
    unfold State.ownEnded
    rw [hc, Bool.and_eq_true, any_channels]
    simp only [emptiesField, h, touched_channel hp]
    cases hs : a.state <;> simp

theorem thenClear_not_asked (s : State) (a : Alarm) (i : AlarmId) (h : ¬ AsksClear s a.id a.state) :
    State.thenClear (s.handOn a false) i = (s.handOn a false).1 := by
  unfold State.thenClear
  rw [if_neg (fun e => h ((handOn_asks s a).1 e))]

theorem thenClear_asked (s : State) (a : Alarm) (i : AlarmId) (h : AsksClear s a.id a.state) :
    State.thenClear (s.handOn a false) i = (s.handOn a false).1.clearAsOrigin i := by
  unfold State.thenClear
  rw [if_pos ((handOn_asks s a).2 h)]

theorem filter_split {α : Type} (f : α → Bool) : ∀ (xs before after : List α) (v : α), xs.filter f = before ++ v :: after →
    ∃ b a, xs = b ++ v :: a ∧ b.filter f = before ∧ a.filter f = after ∧ f v = true
  | [], before, after, v, h => by simp at h
  | x :: xs, before, after, v, h => by
    by_cases hx : f x = true
    · rw [List.filter_cons_of_pos hx] at h
      cases before with
      | nil =>
        simp at h
        obtain ⟨rfl, rfl⟩ := h
        exact ⟨[], xs, rfl, rfl, rfl, hx⟩
      | cons y ys =>
        simp at h
        obtain ⟨rfl, h⟩ := h
        obtain ⟨b, a, rfl, h1, h2, h3⟩ := filter_split f xs ys after v h
        exact ⟨x :: b, a, rfl, by rw [List.filter_cons_of_pos hx, h1], h2, h3⟩
    · rw [List.filter_cons_of_neg hx] at h
      obtain ⟨b, a, rfl, h1, h2, h3⟩ := filter_split f xs before after v h
      exact ⟨x :: b, a, rfl, by rw [List.filter_cons_of_neg hx, h1], h2, h3⟩

/-- R153: the victim of a newcomer to a full table. -/
theorem alarmVictim_iff (as : List Alarm) (severity : Nat) (x : AlarmState) (v : Alarm) :
    alarmVictim as severity x = some v ↔ Displaces as severity x v := by
  have tr1 : ∀ a b c : Alarm, decide (a.linger.getD 0 ≤ b.linger.getD 0) = true →
      decide (b.linger.getD 0 ≤ c.linger.getD 0) = true → decide (a.linger.getD 0 ≤ c.linger.getD 0) = true := by
    intro a b c
    simp only [decide_eq_true_eq]
    omega
  have tot1 : ∀ a b : Alarm, decide (a.linger.getD 0 ≤ b.linger.getD 0) = false →
      decide (b.linger.getD 0 ≤ a.linger.getD 0) = true := by
    intro a b
    simp only [decide_eq_true_eq, decide_eq_false_iff_not]
    omega
  have tr2 : ∀ a b c : Alarm,
      decide (a.kind.severity < b.kind.severity ∨ (a.kind.severity = b.kind.severity ∧ a.firstHeard ≤ b.firstHeard)) = true →
      decide (b.kind.severity < c.kind.severity ∨ (b.kind.severity = c.kind.severity ∧ b.firstHeard ≤ c.firstHeard)) = true →
      decide (a.kind.severity < c.kind.severity ∨ (a.kind.severity = c.kind.severity ∧ a.firstHeard ≤ c.firstHeard)) = true := by
    intro a b c
    simp only [decide_eq_true_eq]
    omega
  have tot2 : ∀ a b : Alarm,
      decide (a.kind.severity < b.kind.severity ∨ (a.kind.severity = b.kind.severity ∧ a.firstHeard ≤ b.firstHeard)) = false →
      decide (b.kind.severity < a.kind.severity ∨ (b.kind.severity = a.kind.severity ∧ b.firstHeard ≤ a.firstHeard)) = true := by
    intro a b
    simp only [decide_eq_true_eq, decide_eq_false_iff_not]
    omega
  unfold alarmVictim Displaces
  cases k : firstBy (fun a b : Alarm => decide (a.linger.getD 0 ≤ b.linger.getD 0))
      (as.filter (fun a => decide (a.state = .cleared))) with
  | some w =>
    dsimp only
    have hk := (firstBy_split tr1 tot1 _ _).1 k
    have hw : w ∈ as ∧ w.state = .cleared := by simpa using List.mem_filter.1 (firstBy_mem _ _ _ k)
    constructor
    · intro h
      injection h with h
      subst h
      obtain ⟨b, a, he, hb, ha⟩ := hk
      obtain ⟨b', a', e, h1, h2, -⟩ := filter_split _ _ _ _ _ he
      refine ⟨b', a', e, .inl ⟨hw.2, fun y hy hc => ?_, fun y hy hc => ?_⟩⟩
      · have := hb y (by rw [← h1, List.mem_filter]; exact ⟨hy, by simpa using hc⟩)
        simpa using this
      · have := ha y (by rw [← h2, List.mem_filter]; exact ⟨hy, by simpa using hc⟩)
        simpa using this
    · rintro ⟨b, a, e, ⟨hv, hb, ha⟩ | h⟩
      · rw [← k, firstBy_split tr1 tot1]
        refine ⟨b.filter (fun a => decide (a.state = .cleared)), a.filter (fun a => decide (a.state = .cleared)),
          by rw [e]; simp [hv], fun y hy => ?_, fun y hy => ?_⟩
        · have := hb y (List.mem_filter.1 hy).1 (by simpa using (List.mem_filter.1 hy).2)
          simpa using this
        · have := ha y (List.mem_filter.1 hy).1 (by simpa using (List.mem_filter.1 hy).2)
          simpa using this
      · exact absurd hw.2 (h.1 w hw.1)
  | none =>
    have hn : ∀ y ∈ as, y.state ≠ .cleared := by
      intro y hy hc
      have h0 := firstBy_none _ _ k
      rw [List.filter_eq_nil_iff] at h0
      exact h0 y hy (by simpa using hc)
    dsimp only
    cases k2 : firstBy (fun a b : Alarm => decide (a.kind.severity < b.kind.severity
        ∨ (a.kind.severity = b.kind.severity ∧ a.firstHeard ≤ b.firstHeard))) as with
    | none =>
      obtain rfl := firstBy_none _ _ k2
      simp
    | some w =>
      dsimp only
      constructor
      · intro h
        split at h <;> cases h
        rename_i hc
        obtain ⟨b, a, e, hb, ha⟩ := (firstBy_split tr2 tot2 _ _).1 k2
        refine ⟨b, a, e, .inr ⟨hn, hc.1, hc.2, fun y hy => ?_, fun y hy => ?_⟩⟩
        · have := hb y hy
          simp only [decide_eq_false_iff_not] at this
          omega
        · have := ha y hy
          simp only [decide_eq_true_eq] at this
          omega
      · rintro ⟨b, a, e, h | ⟨-, h1, h2, hb, ha⟩⟩
        · exact absurd h.1 (hn v (by rw [e]; simp))
        · have hv : firstBy (fun a b : Alarm => decide (a.kind.severity < b.kind.severity
              ∨ (a.kind.severity = b.kind.severity ∧ a.firstHeard ≤ b.firstHeard))) as = some v := by
            rw [firstBy_split tr2 tot2]
            refine ⟨b, a, e, fun y hy => ?_, fun y hy => ?_⟩
            · have := hb y hy
              simp only [decide_eq_false_iff_not]
              omega
            · have := ha y hy
              simp only [decide_eq_true_eq]
              omega
          rw [k2] at hv
          injection hv with hv
          subst hv
          rw [if_pos ⟨h1, h2⟩]

theorem removeAlarm_removes (s : State) (a : Alarm) : RemovesAlarm s (s.removeAlarm a) a :=
  ⟨placeAlarmChange a .removed (s.setAlarms (s.aru.alarms.filter (fun x => decide (x.id ≠ a.id)))),
    ((setAlarms_touches s _).wide).andThen (placeAlarmChange_touches _ _ _),
    placeAlarmChange_touches _ _ _ .alarms (by decide), takeIn_spu _ rfl rfl, rfl⟩

theorem makeAlarmRoom_makes {s t : State} {k : AlarmKind} {x : AlarmState} (h : s.makeAlarmRoom k x = some t) :
    MakesRoom s t k.severity x := by
  unfold State.makeAlarmRoom at h
  split at h
  · cases h
    exact ⟨fun _ => rfl, fun e => by omega⟩
  · obtain ⟨v, hv, rfl⟩ := Option.map_eq_some_iff.1 h
    exact ⟨fun e => by omega, fun _ => ⟨v, (alarmVictim_iff _ _ _ _).1 hv, removeAlarm_removes s v⟩⟩

theorem hasRoom_iff (s : State) (k : AlarmKind) : HasRoom s k ↔ ∃ t, s.makeAlarmRoom k .raised = some t := by
  unfold HasRoom State.makeAlarmRoom
  split
  · simp [*]
  · rename_i h
    constructor
    · rintro (h1 | ⟨v, hv⟩)
      · exact absurd h1 h
      · rw [(alarmVictim_iff _ _ _ _).2 hv]
        exact ⟨_, rfl⟩
    · rintro ⟨t, ht⟩
      obtain ⟨v, hv, -⟩ := Option.map_eq_some_iff.1 ht
      exact .inr ⟨v, (alarmVictim_iff _ _ _ _).1 hv⟩

theorem addAlarm_adds (s : State) (i : AlarmId) (k : AlarmKind) (x : Scope) (st : AlarmState) :
    AddsAlarm s (s.addAlarm (s.newAlarm i k x st)) (s.newAlarm i k x st) := by
  have hal : (s.addAlarm (s.newAlarm i k x st)).aru.alarms = insertBy alarmBefore (s.newAlarm i k x st) s.aru.alarms :=
    placeAlarmChange_touches _ _ _ .alarms (by decide)
  refine ⟨addAlarm_touches _ _, fun y => ?_, takeIn_spu _ rfl rfl, rfl, ?_, rfl, rfl⟩
  · rw [hal]
    exact mem_insertBy _ _ _ _
  · show silencedAtEntry _ _ = true ↔ _
    unfold silencedAtEntry
    simp [State.newAlarm]

theorem replaceAlarm_advances (s : State) (a : Alarm) :
    AdvancesAlarm s (placeAlarmChange a .advanced (s.replaceAlarm a)) a :=
  ⟨((replaceAlarm_touches s a).wide).andThen (placeAlarmChange_touches _ _ _),
    placeAlarmChange_touches _ _ _ .alarms (by decide), takeIn_spu _ rfl rfl⟩

theorem find_first {α : Type} (f : α → Bool) : ∀ (xs : List α) (a : α), xs.find? f = some a →
    ∃ k, k < xs.length ∧ xs[k]? = some a ∧ f a = true ∧ ∀ j, j < k → ∀ b, xs[j]? = some b → f b = false
  | [], a, h => by simp at h
  | x :: xs, a, h => by
    rw [List.find?_cons] at h
    cases hx : f x with
    | true =>
      rw [hx] at h
      simp at h
      subst h
      exact ⟨0, by simp, by simp, hx, fun j hj => by omega⟩
    | false =>
      rw [hx] at h
      obtain ⟨k, h1, h2, h3, h4⟩ := find_first f xs a h
      refine ⟨k + 1, by simp; omega, by simpa using h2, h3, fun j hj b hb => ?_⟩
      cases j with
      | zero =>
        simp at hb
        subst hb
        exact hx
      | succ j => exact h4 j (by omega) b (by simpa using hb)

/-- R156: sixteen entries cannot hold every one of seventeen numbers. -/
theorem exists_free (s : State) (hl : s.aru.alarms.length ≤ 16) :
    ∃ i, i < 256 ∧ s.findAlarm ⟨s.cfg.station, (s.aru.nextNumber + i) % 256⟩ = none := by
  by_contra hc
  have hc : ∀ i, i < 256 → s.findAlarm ⟨s.cfg.station, (s.aru.nextNumber + i) % 256⟩ ≠ none :=
    fun i hi hn => hc ⟨i, hi, hn⟩
  have hsub : ∀ i ∈ List.range 17,
      (⟨s.cfg.station, (s.aru.nextNumber + i) % 256⟩ : AlarmId) ∈ s.aru.alarms.map Alarm.id := by
    intro i hi
    rw [List.mem_range] at hi
    cases h : s.findAlarm ⟨s.cfg.station, (s.aru.nextNumber + i) % 256⟩ with
    | none => exact absurd h (hc i (by omega))
    | some a => exact List.mem_map.2 ⟨a, List.mem_of_find?_eq_some h, find_id h⟩
  have hnd : ((List.range 17).map
      (fun i => (⟨s.cfg.station, (s.aru.nextNumber + i) % 256⟩ : AlarmId))).Nodup := by
    refine List.Nodup.map_on ?_ List.nodup_range
    intro i hi j hj h
    rw [List.mem_range] at hi hj
    injection h with _ h
    omega
  have hle := (hnd.subperm (l₂ := s.aru.alarms.map Alarm.id) (by
    intro x hx
    obtain ⟨i, hi, rfl⟩ := List.mem_map.1 hx
    exact hsub i hi)).length_le
  simp at hle
  omega

/-- R156: the number taken is the first not held, from the next alarm number on. -/
theorem freeNumber_first (s : State) (hl : s.aru.alarms.length ≤ 16) :
    ∃ k, k < 256 ∧ s.freeNumber = (s.aru.nextNumber + k) % 256
      ∧ s.findAlarm ⟨s.cfg.station, s.freeNumber⟩ = none
      ∧ ∀ j, j < k → s.findAlarm ⟨s.cfg.station, (s.aru.nextNumber + j) % 256⟩ ≠ none := by
  obtain ⟨i, hi, hn⟩ := exists_free s hl
  cases h : ((List.range 256).map (fun i => (s.aru.nextNumber + i) % 256)).find?
      (fun n => (s.findAlarm ⟨s.cfg.station, n⟩).isNone) with
  | none =>
    rw [List.find?_eq_none] at h
    have := h _ (List.mem_map.2 ⟨i, List.mem_range.2 hi, rfl⟩)
    rw [hn] at this
    simp at this
  | some n =>
    have e : s.freeNumber = n := by
      unfold State.freeNumber
      rw [h]
      rfl
    obtain ⟨k, h1, h2, h3, h4⟩ := find_first _ _ _ h
    have hk : k < 256 := by simpa using h1
    refine ⟨k, hk, ?_, ?_, fun j hj hz => ?_⟩
    · rw [e]
      simp [hk] at h2
      exact h2.symm
    · rw [e]
      simpa using h3
    · have hj2 : j < 256 := by omega
      have := h4 j hj ((s.aru.nextNumber + j) % 256) (by simp [hj2])
      rw [hz] at this
      simp at this

/-- R153, R156: a raise that cannot be held. -/
theorem raise_not_held {s : State} {k : AlarmKind} {x : Scope} (h : ¬ HasRoom s k) : s.raise k x = (none, s) := by
  unfold State.raise
  dsimp only
  cases e : s.makeAlarmRoom k .raised with
  | none => rfl
  | some t => exact absurd ((hasRoom_iff s k).2 ⟨t, e⟩) h

/-- R156: a raise that is held. -/
theorem raise_held {s : State} {k : AlarmKind} {x : Scope} (h : HasRoom s k) :
    ∃ n t, s.raise k x = (some n, t) ∧ RaisesAlarm s t k x n := by
  obtain ⟨u, hu⟩ := (hasRoom_iff s k).1 h
  unfold State.raise
  dsimp only
  rw [hu]
  dsimp only
  rw [touched_cfg (makeAlarmRoom_touches _ _ _ _ hu)]
  exact ⟨_, _, rfl, freeNumber_first s, u, _, _, u.newAlarm ⟨s.cfg.station, s.freeNumber⟩ k x .raised, rfl, rfl, rfl,
    rfl, makeAlarmRoom_makes hu, addAlarm_adds _ _ _ _ _, rfl, rfl⟩

/-! ### Deliveries (R164, R165) -/

theorem setDeliveries_deliveriesOn (s : State) (p : Port) (ds : List Delivery) :
    (s.setDeliveries p ds).deliveriesOn p = ds := by
  unfold State.deliveriesOn State.setDeliveries State.setAru
  cases p <;> rfl

theorem holdDelivery_holds (s : State) (p : Port) (d : Delivery) : HoldsDelivery p d s (s.holdDelivery p d) := by
  refine ⟨?_, fun hne => ?_⟩
  · rintro ⟨x, hx, hxi⟩
    unfold State.holdDelivery
    rw [if_pos (by rw [List.any_eq_true]; exact ⟨x, hx, by simp [hxi]⟩)]
    exact ⟨setDeliveries_touches _ _ _, setDeliveries_deliveriesOn _ _ _⟩
  · unfold State.holdDelivery
    rw [if_neg (by rw [List.any_eq_true]; rintro ⟨x, hx, hxi⟩; exact hne x hx (by simpa using hxi))]
    refine ⟨fun hl => ?_, fun first later hfl hl => ?_⟩
    · dsimp only
      rw [if_pos hl]
      exact ⟨setDeliveries_touches _ _ _, setDeliveries_deliveriesOn _ _ _⟩
    · dsimp only
      rw [if_neg (by omega), hfl]
      dsimp only
      have hdrop : (s.dropDelivery p first.id).deliveriesOn p = later.filter (fun x => decide (x.id ≠ first.id)) := by
        unfold State.dropDelivery
        rw [setDeliveries_deliveriesOn, hfl]
        simp
      have hmis : s.missingSlots p first.hearMap = (s.expectedSlots p).filter (fun n => !first.hearMap.contains n) := rfl
      refine ⟨((endDelivery_touches s p first).mono (by cases p <;> decide)).trans
        ((setDeliveries_touches _ _ _).mono (by cases p <;> decide)), ?_, fun h => ?_, ?_⟩
      · rw [setDeliveries_deliveriesOn]
        congr 1
        unfold State.endDelivery
        dsimp only
        split
        · exact hdrop
        · exact (takeIn_touches _ _ (.deliveries p) (by cases p <;> decide)).trans hdrop
      · have hnil : s.missingSlots p first.hearMap = [] := by
          rw [hmis, List.filter_eq_nil_iff]
          intro n hn
          simp [h n hn]
        unfold State.endDelivery
        rw [hnil]
        rfl
      · rintro ⟨n, hn, hm⟩
        have hsome : (s.missingSlots p first.hearMap).isEmpty = false := by
          have hmem : n ∈ s.missingSlots p first.hearMap := by
            rw [hmis, List.mem_filter]
            exact ⟨hn, by simpa using hm⟩
          cases h : s.missingSlots p first.hearMap with
          | nil =>
            rw [h] at hmem
            simp at hmem
          | cons a b => rfl
        unfold State.endDelivery
        dsimp only
        rw [hsome]
        show (takeIn _ (s.dropDelivery p first.id)).spu = _
        rw [hmis]
        exact takeIn_spu _ rfl rfl

/-! ### The call unit (R118 to R125) -/

theorem queues_clu {s t : State} (h : OnlyTouches queuesFoot s t) : t.clu = s.clu := by
  have k1 := h .context (by decide)
  have k2 := h .hook (by decide)
  have k3 := h .nextCall (by decide)
  have k4 := h .capture (by decide)
  have k5 := h .playback (by decide)
  have k6 := h .tones (by decide)
  have k7 := h .earpiece (by decide)
  simp only [Part.same] at k1 k2 k3 k4 k5 k6 k7
  rcases ht : t.clu
  rcases hs : s.clu
  simp_all

/-- R119: what a message of the call leaves in the call unit. -/
theorem sendMessage_clu (s : State) (m : CallMessage) (r : Option ReleaseReason) :
    (s.sendMessage m r).clu = (if s.clu.ctx.state = .connected
      then { s.clu with ctx := { s.clu.ctx with holdingDue := some (s.ms + 3000) } } else s.clu) := by
  unfold State.sendMessage
  have h := sendCallFrame_touches s s.callPeer [.call s.callId m s.calleeField r] id
  have e1 := queues_clu h
  unfold State.restartHolding
  rw [e1, touched_ms h]
  split
  · unfold State.setCtx
    simp [e1]
  · exact e1

theorem sendMessage_same (s : State) (m : CallMessage) (r : Option ReleaseReason) :
    (s.sendMessage m r).callId = s.callId ∧ (s.sendMessage m r).callPeer = s.callPeer
      ∧ (s.sendMessage m r).clu.tones = s.clu.tones ∧ (s.sendMessage m r).clu.playback = s.clu.playback
      ∧ (s.sendMessage m r).clu.capture = s.clu.capture := by
  unfold State.callId State.callPeer
  rw [sendMessage_clu]
  split <;> exact ⟨rfl, rfl, rfl, rfl, rfl⟩

theorem toIdle_tones (s : State) (e : CallEvent) (r : Option ReleaseReason) :
    (s.toIdle e r).clu.tones = { s.clu.tones with ring := none } := by
  have h : ∀ x (t : State), (takeIn x t).clu.tones = t.clu.tones := fun x t => takeIn_touches x t .tones (by decide)
  unfold State.toIdle State.stopRing State.setTones State.setCtx State.callEvent
  show ({ (takeIn _ _).clu.tones with ring := none } : Tones) = _
  rw [h]

theorem toIdle_spu (s : State) (e : CallEvent) (r : Option ReleaseReason) :
    (s.toIdle e r).spu = (takeIn (.callEvent e s.callId s.callPeer r) s).spu := rfl

theorem connect_connects (s : State) : Connects s s.connect :=
  ⟨_, by intro x hx; cases x <;> first | rfl | exact ⟨rfl, rfl⟩ | exact ⟨rfl, rfl, rfl⟩ | exact absurd (by decide) hx,
    rfl, rfl, rfl⟩

theorem releaseCall_leaves (s : State) (r : ReleaseReason) : LeavesCall s (s.releaseCall r) r := by
  obtain ⟨h1, h2, h3, -⟩ := sendMessage_same s .release (some r)
  refine ⟨toIdle_touches _ _ _, rfl, ?_, ?_⟩
  · show ((s.sendMessage .release (some r)).toIdle _ _).clu.tones = _
    rw [toIdle_tones, h3]
  · show ((s.sendMessage .release (some r)).toIdle _ _).spu = _
    rw [toIdle_spu, h1, h2]

theorem endRun_ended (s : State) : OnlyTouches [.capture] s (s.endRun false) ∧ RunEnded s (s.endRun false) := by
  unfold State.endRun
  simp
  exact ⟨setCapture_touches _ _, rfl⟩

theorem dropCall_releases (s : State) (r : ReleaseReason) : ReleasesCall s (s.dropCall r) r := by
  obtain ⟨h1, h2⟩ := endRun_ended s
  obtain ⟨i1, i2, i3, -⟩ := sendMessage_same (s.endRun false) .release (some r)
  have hctx : (s.endRun false).clu.ctx = s.clu.ctx := h1 .context (by decide)
  refine ⟨_, h1, h2, ((emptyPlayback_touches _).wide).andThen (toIdle_touches _ _ _), rfl,
    toIdle_touches ((s.endRun false).sendMessage .release (some r)).emptyPlayback .released (some r) .playback (by decide),
    ?_, ?_⟩
  · show ((State.emptyPlayback _).toIdle _ _).clu.tones = _
    rw [toIdle_tones]
    show ({ ((s.endRun false).sendMessage .release (some r)).clu.tones with ring := none } : Tones) = _
    rw [i3, h1 .tones (by decide)]
  · show ((State.emptyPlayback _).toIdle _ _).spu = _
    rw [toIdle_spu]
    have e1 : ((s.endRun false).sendMessage .release (some r)).emptyPlayback.callId = s.callId := by
      refine i1.trans ?_
      unfold State.callId
      rw [hctx]
    have e2 : ((s.endRun false).sendMessage .release (some r)).emptyPlayback.callPeer = s.callPeer := by
      refine i2.trans ?_
      unfold State.callPeer
      rw [hctx]
    rw [e1, e2]
    exact takeIn_spu _ rfl rfl

/-- R125: a run starts, the sixteen places free but for a block in flight. -/
theorem startRun_started (s : State) : OnlyTouches [.capture] s s.startRun ∧ RunStarted s s.startRun := by
  refine ⟨startRun_touches s, ?_⟩
  unfold State.startRun State.takePlace RunStarted
  have hfree : (s.setCapture
      { run := some s.clu.capture.nextRun, nextRun := s.clu.capture.nextRun + 1, filling := none, waiting := [],
        packed := [] }).inFlightPlaces < 16 := by
    unfold State.inFlightPlaces
    split
    · split <;> decide
    · decide
  dsimp only
  rw [if_pos ⟨rfl, rfl, by simpa [State.setCapture] using hfree⟩]
  rfl

theorem restartHolding_ctx (s : State) : s.restartHolding.clu.ctx = { s.clu.ctx with
    holdingDue := if s.clu.ctx.state = .connected then some (s.ms + 3000) else s.clu.ctx.holdingDue } := by
  unfold State.restartHolding
  split <;> rfl

/-- R125: a run ends, and its packed blocks leave as one VOICE frame. -/
theorem endRun_sent (s : State) : RunSent s (s.endRun true) := by
  refine ⟨?_, fun h => ?_, fun h1 h2 => ?_⟩
  · unfold RunEnded State.endRun
    dsimp only
    split
    · exact sendVoice_touches _ _ .capture (by decide)
    · rfl
  · unfold State.endRun
    dsimp only
    rw [if_neg (by rcases h with h | h <;> simp [h])]
    exact setCapture_touches _ _
  · unfold State.endRun
    dsimp only
    rw [if_pos (by cases hr : s.clu.capture.run <;> simp_all)]
    unfold State.sendVoice
    refine ⟨(s.setCapture { s.clu.capture with run := none, filling := none, waiting := [], packed := [] }).setCtx
        { s.clu.ctx with sendSeq := some ((s.clu.ctx.sendSeq.getD 0 + 1) % 256) },
      ((setCapture_touches s _).wide).andThen (setCtx_touches _ _), rfl, restartHolding_touches _, ?_⟩
    rw [restartHolding_ctx, sendCallFrame_touches _ _ _ _ .context (by decide), touched_ms (sendCallFrame_touches _ _ _ _)]
    rfl

/-- The end of a run leaves the context but for the next voice sequence and the holding timer. -/
theorem endRun_ctx (s : State) : (s.endRun true).clu.ctx.state = s.clu.ctx.state
    ∧ (s.endRun true).callId = s.callId ∧ (s.endRun true).callPeer = s.callPeer := by
  obtain ⟨-, h1, h2⟩ := endRun_sent s
  unfold State.callId State.callPeer
  by_cases hc : s.clu.capture.run = none ∨ s.clu.capture.packed = []
  · rw [h1 hc .context (by decide)]
    exact ⟨rfl, rfl, rfl⟩
  · push Not at hc
    obtain ⟨u, -, h3, -, h4⟩ := h2 hc.1 hc.2
    rw [h4, h3]
    exact ⟨rfl, rfl, rfl⟩

theorem giveFloor_gives (s : State) (h : s.clu.ctx.state = .connected) : GivesFloor s s.giveFloor := by
  refine ⟨_, endRun_sent s, setCtx_touches _ _, ?_⟩
  show ({ ((s.endRun true).sendMessage .floorGive none).clu.ctx with talkDue := none, floor := some .none } : CallContext) = _
  rw [sendMessage_clu, if_pos ((endRun_ctx s).1.trans h), touched_ms (endRun_touches s true)]

theorem endPage_ends (s : State) : EndsPage s s.endPage := by
  obtain ⟨h1, h2, -, h4⟩ := releaseCall_leaves (s.endRun true) .normal
  refine ⟨_, endRun_sent s, h1, h2, ?_⟩
  rw [show s.endPage = (s.endRun true).releaseCall .normal from rfl, h4, (endRun_ctx s).2.1, (endRun_ctx s).2.2]

end Sys2Proof.Machine
end

