-- ==== Sys2Proof/Tests/Slice0.lean ====
section
/-! SUPPORT. Small tests: the checks of WellFormed, the manual's worked figures, and for every statement with hypotheses
a state and operands that meet them. -/

set_option Elab.async false

namespace Sys2Proof.Tests

open Sys2Proof Sys2Proof.Machine

/-! ### Well-formed commands -/

theorem test_wf_image_length : Instr.wellFormed (.configReadCompletion (some [0#8])) = false := by decide
theorem test_wf_transfer : Instr.wellFormed (.hostTransfer []) = false := by decide
theorem test_wf_gathered : Instr.wellFormed (.frameEnd .A ⟨false, [0#8], false, false⟩) = false := by decide
theorem test_wf_slots : Instr.wellFormed (.responseWindowEnd .A [63, 64]) = false := by decide
theorem test_wf_silent : Instr.wellFormed (.peerSilentDeadline 0) = false := by decide
theorem test_wf_removal : Instr.wellFormed (.peerRemovalDeadline 4095) = false := by decide
theorem test_wf_heard : Instr.wellFormed (.callsHeardExpiry 1 256) = false := by decide
theorem test_wf_near : Instr.wellFormed (.nearEntryExpiry 0) = false := by decide
theorem test_wf_track : Instr.wellFormed (.trackRemovalDeadline 16777215) = false := by decide
theorem test_wf_advisory : Instr.wellFormed (.advisoryRepeatDeadline 16777215) = false := by decide
theorem test_wf_delivery : Instr.wellFormed (.deliveryRepeatTimer .B 4095 0) = false := by decide
theorem test_wf_linger : Instr.wellFormed (.lingerDeadline 0 0) = false := by decide
theorem test_wf_window : Instr.wellFormed (.testWindowExpiry 7 256) = false := by decide
theorem test_wf_good : Instr.wellFormed (.responseWindowEnd .A [0, 63]) = true
    ∧ Instr.wellFormed (.peerSilentDeadline 4094) = true ∧ Instr.wellFormed (.nearEntryExpiry 16777214) = true
    ∧ Instr.wellFormed (.callsHeardExpiry 1 255) = true := by decide

theorem test_no_word_spells_a_command : decodeTableWord 16 0 = none ∧ decodeTableWord 8 255 = none := by decide

/-! ### The manual's worked figures -/

/-- 2.3: the CRC of the text "123456789". -/
theorem test_crc_check_value :
    crc16 [0x31#8, 0x32#8, 0x33#8, 0x34#8, 0x35#8, 0x36#8, 0x37#8, 0x38#8, 0x39#8] = 0x29B1 := by decide +kernel

/-- 6.1: rounding halves toward plus infinity. -/
theorem test_mantissa_halves : mantissa 6 (-96) = -1 ∧ mantissa 6 (-32) = 0 := by decide +kernel

/-- 6.5: the voice block of the worked case. -/
theorem test_voice_block :
    (packBlock [100, -250, 1200, -3000, 45, 0, 512, -511, 2047, -2048, 30, -30, 700, -700, 1500, -1600]).take 4
      = [0x70#8, 0x7E#8, 0x26#8, 0x90#8] := by decide +kernel

/-- 6.5: the saturated block of the worked case. -/
theorem test_saturated_block :
    expandVoice (packBlock ([32767, 32256, 32255, -32768] ++ List.replicate 12 0))
      = [31744, 31744, 31744, -32768] ++ List.replicate 12 0 := by decide +kernel

/-- 6.5: the history pack of the worked case, mask and base with it. -/
theorem test_history_pack :
    let slots : List Slot := [⟨410, true⟩, ⟨415, true⟩, ⟨430, true⟩, ⟨460, true⟩, ⟨500, true⟩, ⟨560, true⟩, ⟨560, false⟩,
      ⟨640, true⟩, ⟨700, true⟩, ⟨735, true⟩, ⟨760, true⟩, ⟨790, true⟩, ⟨812, true⟩, ⟨850, true⟩, ⟨880, true⟩, ⟨905, true⟩]
    validityMask slots = 65023 ∧ historyBase slots = 410
      ∧ expandHistory 410 65023 (packBlock (historyInputs slots))
        = [410, 410, 426, 458, 506, 554, 0, 634, 698, 730, 762, 794, 810, 858, 874, 906] := by decide +kernel

/-- A METHANE channel: FS 500, Z +12, unity trim, k 2 (the sample of 4.3). -/
def methane : ChannelConfig :=
  { kind := some .methane, lowSense := false, fs := 500, z := 12, g := 16384, kq := 1024, k := 2, l1 := 100, l2 := 150,
    h := 5, n := 2, m := 4, rise := 20, interval := 10, autoAlarm := true }

/-- An AIR_VELOCITY channel with FS 1000 and Kq 12 900 (4.4). -/
def velocity : ChannelConfig := { methane with kind := some .airVelocity, fs := 1000, z := 0, kq := 12900 }

/-- 4.3: the worked sample, and the edges of the loop range. -/
theorem test_loop_values :
    loopValue methane 1000 = 68 ∧ smooth 2 960 68 = 992 ∧ loopValue { methane with z := 0 } 600 = 0
      ∧ loopValue { methane with z := 0 } 3200 = 500 ∧ loopValue { methane with z := 0 } 3440 = 547 := by decide +kernel

/-- 4.4 and 4.5: the worked gates, and smoothing on a falling reading. -/
theorem test_gate_and_smoothing :
    pulseValue velocity 37 = 466 ∧ pulseValue velocity 130 = 1500 ∧ smooth 3 1003 60 = 997 ∧ smooth 3 997 60 = 992 := by
  decide +kernel

/-! ### Small states -/

/-- A station on segment slot 5 of port A at 250 kbit/s, with a METHANE and an AIR_VELOCITY channel, a vehicle link and
the OPERATOR role. -/
def station : Configuration :=
  { Configuration.blank with
    station := 100, slotA := some 5, rate := .k250, zone := 7, operator := true, beacon := 5, silent := 30, relay := 8,
    lockout := 120, channels := ((Vector.replicate 7 ChannelConfig.absent).set 0 methane).set 6 velocity,
    nearThreshold := -60, musterThreshold := -60, tagExpiry := 10, coalesce := 20,
    cells := Vector.replicate 6 { immediate := false, t := 20 }, link := .r9600 }

/-- The station in a part state at a tick. -/
def stationAt (x : PartState) (ms : Nat) : State :=
  { State.reset with
    clock := { usec := 1000 * ms, secondDue := 1000, snapshotDue := 1000 },
    spu := { Spu.reset with part := x, config := some station } }

def onDuty : State := stationAt .running 1000

/-- With one request waiting. -/
def asked (s : State) (r : List Byte) : State := s.setSpu { s.spu with requests := [r] }

/-- With another configuration. -/
def under (s : State) (g : Configuration) : State := s.setSpu { s.spu with config := some g }

theorem asked_serving (s : State) (r : List Byte) (q : Request) (h : readRequest r = some q) (hu : s.urgentHeld < 32)
    (ha : answeredFromTable (requestKind r) = true → s.spu.answer = []) :
    Serving (asked s r) q (requestTag r) [] := ⟨r, rfl, h, rfl, hu, ha⟩

/-- With port A's unit changed. -/
def lineA (s : State) (f : Lau → Lau) : State := s.setPort .A (f (s.port .A))

/-- With the call context in a state. -/
def inCall (s : State) (x : CallState) : State :=
  s.setClu { s.clu with ctx := { CallContext.idle with state := x, call := some ⟨100, 1⟩, peer := some 200 } }

/-- With one channel changed. -/
def withChannel (s : State) (c : Fin 7) (f : Channel → Channel) : State := s.setChannel c (f (s.channel c))

def alarm (origin number : Nat) (kind : AlarmKind) (state : AlarmState) : Alarm :=
  { id := ⟨origin, number⟩, kind := kind, scope := .zone 7, state := state, firstHeard := 0, silenced := false,
    linger := if state = .cleared then some 1000 else none, testUntil := if kind = .test then some 1000 else none }

/-- A class-ROUTINE frame of station 200 to all, with no section. -/
def plainFrame (seq : Nat) : List Byte := buildFrame 200 4095 .routine false seq []

/-- The same with the map-request flag set. -/
def mappedFrame (seq : Nat) : List Byte := buildFrame 200 4095 .alarm true seq []

/-- The pieces of an image that passes R180: station 100, port A on slot 5, no channel, no lane section. -/
def imageHead : List Byte := [0, 100, 1, 5, 0, 0, 2, 7, 1, 0, 0, 0, 0, 0, 5, 30, 8, 0, 120]
def noChannel : List Byte := 255 :: List.replicate 21 0
def imageTail : List Byte := [0, 0, 0, 0, 0, 0, 0, 196, 196, 10, 0, 0, 20, 0, 20, 0, 20, 0, 20, 0, 20, 0, 20, 1, 5, 1]
def imageBody : List Byte :=
  imageHead ++ (noChannel ++ (noChannel ++ (noChannel ++ (noChannel ++ (noChannel ++ (noChannel ++ (noChannel ++ imageTail)))))))

/-- The image, with its CRC of 15 843. -/
def goodImage : List Byte := imageBody ++ be16 15843

/-- One channel record after another, as the CRC register takes them. -/
theorem channel_crc :
    noChannel.foldl crcByte 58306#16 = 54003#16 ∧ noChannel.foldl crcByte 54003#16 = 15936#16
      ∧ noChannel.foldl crcByte 15936#16 = 6497#16 ∧ noChannel.foldl crcByte 6497#16 = 47784#16
      ∧ noChannel.foldl crcByte 47784#16 = 60386#16 ∧ noChannel.foldl crcByte 60386#16 = 33259#16
      ∧ noChannel.foldl crcByte 33259#16 = 41359#16 := by decide +kernel

theorem image_crc : crc16 imageBody = 15843 := by
  have h1 : imageHead.foldl crcByte 0xFFFF#16 = 58306#16 := by decide +kernel
  have h2 : imageTail.foldl crcByte 41359#16 = 15843#16 := by decide +kernel
  obtain ⟨c1, c2, c3, c4, c5, c6, c7⟩ := channel_crc
  unfold crc16 imageBody
  simp only [List.foldl_append]
  rw [h1, c1, c2, c3, c4, c5, c6, c7, h2]
  rfl

theorem good_image_crc : crcOk goodImage = true := by
  have h1 : goodImage.take (goodImage.length - 2) = imageBody := by decide +kernel
  have h2 : at16 goodImage (goodImage.length - 2) = 15843 := by decide +kernel
  have h3 : 2 ≤ goodImage.length := by decide +kernel
  unfold crcOk
  rw [h1, h2, image_crc]
  simp [h3]

theorem test_good_image : imageFault goodImage = none := by
  have h1 : goodImage.length = imageLength := by decide +kernel
  have h2 : ((List.range 143).map (· + 1)).find? (fun i => !fieldOk (readFields fieldForms goodImage 0) i) = none := by
    decide +kernel
  unfold imageFault
  rw [if_neg (by simp [h1]), if_neg (by simp [good_image_crc]), h2]

theorem test_bad_image : imageFault [] = some 144 := by decide +kernel

/-! ### Witnesses: the machine -/

theorem test_witness_StepRunsTheFrontCommand :
    (onDuty.setPending [.silence, .secondsEvent]).pending = .silence :: [.secondsEvent] := rfl

theorem test_witness_EmptyQueueRunsTheClock : onDuty.pending = [] := rfl

/-- A peer that is a party to a call heard, a waiting tag, a queued frame and a held alarm. -/
def peerOf (n : Nat) (present : Bool) (hops : Nat) : Peer :=
  { station := n, port := .A, hops := hops, lastHeard := 0, lastSeq := 7, present := present, status := none, air := none,
    refuge := none, text := none, inCall := false }

def nearOf (t : Nat) : NearEntry :=
  { tag := t, kind := .person, strength := -50, firstSeen := 0, lastSeen := 0, heading := .inbye, speed := 0,
    loaded := false, near := true, up := 0, down := 0 }

def trackOf (t : Nat) (a : Option AdvisoryCode) (d : Option Nat) : Track :=
  { tag := t, kind := .truck, reporter := 200, chainage := 0, strength := -50, heading := .inbye, speed := 0,
    loaded := false, sighted := 0, lane := .outside, dir := none, entered := none, advisory := a, repeatDue := d }

def entryOf (n : Nat) (fails : Nat) (f : List Byte) : TxEntry :=
  { TxEntry.fixed f .routine .pru with order := n, fails := fails, report := some 9 }

/-- A station with something in each table, and one command waiting. -/
def busyStation : State :=
  { onDuty with
    pending := [.recentFrameExpiry],
    pru := { Pru.reset with
      peers := [{ peerOf 200 true 0 with inCall := true }, peerOf 300 false 1], heard := [⟨⟨200, 3⟩, 0, some 400⟩] },
    tgu := { Tgu.reset with near := [nearOf 5, nearOf 6], tracks := [trackOf 9 none none] },
    aru := { Aru.reset with
      alarms := [alarm 100 0 .fire .raised, alarm 200 4 .vent .acknowledged], musterActive := true, muster := [5, 6] },
    lau := ⟨{ Lau.reset with list := [entryOf 0 0 (plainFrame 1), entryOf 1 0 (plainFrame 2)], nextOrder := 2 },
      Lau.reset⟩ }

theorem test_witness_steps : ∃ t, step busyStation = .next t := ⟨_, rfl⟩

theorem test_witness_StepKeepsCapacity : Capacity busyStation := by
  unfold Capacity Lau.fits CaptureFits
  decide +kernel

/-- R125: the sixteen places of the capture ring all taken: one block being filled, fourteen waiting, one in flight. -/
def ringTaken : State :=
  (onDuty.setClu { onDuty.clu with capture :=
      { run := some 3, nextRun := 4, filling := some [], waiting := List.replicate 14 (List.replicate 16 0),
        packed := [] } }).setBpk { flight := some ⟨.voice 3, List.replicate 16 0, 0, 0, 0⟩, history := [] }

theorem test_witness_CaptureFits : CaptureFits ringTaken ∧ ringTaken.placesTaken = 16 := by
  unfold CaptureFits
  decide +kernel

theorem test_witness_StepKeepsMuster : MusterOk busyStation := by
  unfold MusterOk
  decide +kernel

theorem test_witness_StepKeepsTables : TablesOk busyStation := by
  unfold TablesOk
  decide +kernel

theorem test_witness_StepKeepsTransmitOrder : ListsOrdered busyStation := by
  unfold ListsOrdered Lau.ordered TxEntry.before
  decide +kernel

theorem test_witness_StepKeepsFlagsAndNumbers : InCallOk busyStation ∧ NumbersOk busyStation := by
  unfold InCallOk NumbersOk
  decide +kernel

/-- A command of each family completes (the frames). -/
theorem test_witness_frames :
    (familyOf .hardReset = .start ∧ ∃ t, exec .hardReset onDuty = .next t)
      ∧ (familyOf .silence = .request ∧ ∃ t, exec .silence onDuty = .next t)
      ∧ (familyOf (.carrierStart .A) = .line ∧ ∃ t, exec (.carrierStart .A) onDuty = .next t)
      ∧ (familyOf .recentFrameExpiry = .frames ∧ ∃ t, exec .recentFrameExpiry onDuty = .next t)
      ∧ (familyOf .secondsEvent = .air ∧ ∃ t, exec .secondsEvent onDuty = .next t)
      ∧ (familyOf .denyToneEnd = .call ∧ ∃ t, exec .denyToneEnd onDuty = .next t)
      ∧ (familyOf .cadencePhaseChange = .input ∧ ∃ t, exec .cadencePhaseChange onDuty = .next t)
      ∧ (familyOf (.nearEntryExpiry 5) = .tag ∧ ∃ t, exec (.nearEntryExpiry 5) onDuty = .next t)
      ∧ (familyOf (.lingerDeadline 100 0) = .alarm ∧ ∃ t, exec (.lingerDeadline 100 0) onDuty = .next t) :=
  ⟨⟨rfl, _, rfl⟩, ⟨rfl, _, rfl⟩, ⟨rfl, _, rfl⟩, ⟨rfl, _, rfl⟩, ⟨rfl, _, rfl⟩, ⟨rfl, _, rfl⟩, ⟨rfl, _, rfl⟩, ⟨rfl, _, rfl⟩,
    ⟨rfl, _, rfl⟩⟩

/-! ### Witnesses: starting -/

theorem test_witness_ConfigReadResult :
    State.reset.spu.part = .loading ∧ imageFault goodImage = none ∧ imageFault [] ≠ none :=
  ⟨rfl, test_good_image, by rw [test_bad_image]; decide⟩

theorem test_witness_RunningBegins :
    let s := (stationAt .joining 10000).setSpu { (stationAt .joining 10000).spu with joinDue := some 10000 }
    s.spu.part = .joining ∧ s.spu.joinDue = some 10000 ∧ 10000 ≤ s.ms ∧ s.configured .A = true
      ∧ (s.port .A).list.length < 12 ∧ s.cfg.lane = none := by decide +kernel

def waitingHost : State := State.reset.setSpu { Spu.reset with part := .waiting }

def withImage : State := waitingHost.setSpu { waitingHost.spu with held := some station }

theorem test_witness_StartResult :
    (Serving (asked withImage [2, 9]) .start 9 [] ∧ (asked withImage [2, 9]).spu.part = .waiting
        ∧ (asked withImage [2, 9]).spu.held = some station)
      ∧ (Serving (asked State.reset [2, 9]) .start 9 [] ∧ (asked State.reset [2, 9]).spu.part = .loading)
      ∧ (Serving (asked waitingHost [2, 9]) .start 9 [] ∧ (asked waitingHost [2, 9]).spu.held = none)
      ∧ (Serving (asked onDuty [2, 9]) .start 9 [] ∧ (asked onDuty [2, 9]).spu.part = .running) :=
  ⟨⟨asked_serving _ _ _ (by decide +kernel) (by decide) (by decide), rfl, rfl⟩,
    ⟨asked_serving _ _ _ (by decide +kernel) (by decide) (by decide), rfl⟩,
    ⟨asked_serving _ _ _ (by decide +kernel) (by decide) (by decide), rfl⟩,
    ⟨asked_serving _ _ _ (by decide +kernel) (by decide) (by decide), rfl⟩⟩

theorem test_witness_RestartResult :
    (Serving (asked onDuty [3, 9]) .restart 9 [] ∧ (asked onDuty [3, 9]).started = true
        ∧ (asked onDuty [3, 9]).spu.config = some station)
      ∧ (Serving (asked waitingHost [3, 9]) .restart 9 [] ∧ (asked waitingHost [3, 9]).started = false) :=
  ⟨⟨asked_serving _ _ _ (by decide +kernel) (by decide) (by decide), rfl, rfl⟩,
    ⟨asked_serving _ _ _ (by decide +kernel) (by decide) (by decide), rfl⟩⟩

/-! ### Witnesses: the station port -/

/-- Records of the two ranks of R184. -/
def routineRecord : Queued := { record := .peerSilent 200, lost := 0 }
def urgentRecord : Queued := { record := .response 1 9 .ok 0 0, lost := 0 }

/-- With an indication queue. -/
def holding (s : State) (q : List Queued) : State := s.setSpu { s.spu with ind := q }

/-- With DATA records owed. -/
def owing (s : State) : State :=
  s.setSpu { s.spu with owed := true, answer := [.data 1 (.near 5 .person (-50) true 0)] }

/-- R182: the length bytes at the edges of the valid range, and the four states of what the part has to send. -/
theorem test_witness_HostTransferResult :
    (2 ≤ (2#8).toNat ∧ (250#8).toNat ≤ 250
        ∧ 8 ≤ (onDuty.setSpu { onDuty.spu with requests := List.replicate 8 [5, 1] }).spu.requests.length)
      ∧ onDuty.spu.requests.length < 8 ∧ (1#8).toNat < 2 ∧ 250 < (251#8).toNat
      ∧ (onDuty.spu.owed = false ∧ onDuty.spu.ind = [])
      ∧ ((holding onDuty [urgentRecord]).spu.owed = false ∧ (holding onDuty [urgentRecord]).spu.ind = urgentRecord :: [])
      ∧ ((owing onDuty).spu.owed = true
        ∧ (owing onDuty).spu.answer = .data 1 (.near 5 .person (-50) true 0) :: []) := by decide +kernel

/-- A RESPONSE of a kind with a DATA count. -/
def answerRecord (kind count : Nat) : Queued := { record := .response 1 kind .ok 0 count, lost := 0 }

/-- R183: a RESPONSE taken whole, of the kinds at the edges of the table's answers, with DATA records and with none; the
first of two owed records taken, and the last. -/
theorem test_data_owed :
    (let taken (q : Queued) := ((holding onDuty [q, routineRecord]).transfer (List.replicate 40 0)).spu;
      (taken (answerRecord 12 1)).owed = true ∧ (taken (answerRecord 16 1)).owed = true
        ∧ (taken (answerRecord 11 1)).owed = false ∧ (taken (answerRecord 17 1)).owed = false
        ∧ (taken (answerRecord 13 0)).owed = false)
      ∧ (let two := (owing onDuty).setSpu { (owing onDuty).spu with answer := List.replicate 2 (.data 1 (.near 5 .person (-50) true 0)) };
        (two.transfer (List.replicate 40 0)).spu.owed = true ∧ ((owing onDuty).transfer (List.replicate 40 0)).spu.owed = false) := by
  decide +kernel

/-- R182, R185: a head record sent whole and one cut short; behind it a routine record, and none. -/
theorem test_witness_record_taken :
    (recordBytes urgentRecord.record urgentRecord.lost).length ≤ 39 + 1
      ∧ 1 + 1 < (recordBytes urgentRecord.record urgentRecord.lost).length
      ∧ (∃ x ∈ [urgentRecord, routineRecord], x.record.urgent = false)
      ∧ (∀ x ∈ [urgentRecord], x.record.urgent = true) := by decide +kernel

/-- R37: for every kind a record of six bytes that fails the check, the kinds answered from a table among them. -/
theorem test_witness_MalformedRequestAnswered :
    ∀ k ∈ List.range 20,
      (asked onDuty [byteOf k, 9, 255, 255, 255, 255]).spu.requests = [byteOf k, 9, 255, 255, 255, 255] :: []
        ∧ onDuty.urgentHeld < 32 ∧ onDuty.spu.answer = [] ∧ readRequest [byteOf k, 9, 255, 255, 255, 255] = none := by
  decide +kernel

theorem test_witness_RecordIntake :
    onDuty.spu.lost ≤ 255
      ∧ (holding onDuty (List.replicate 31 routineRecord)).spu.ind.length < 32
      ∧ ((holding onDuty ([urgentRecord] ++ routineRecord :: List.replicate 30 routineRecord)).spu.ind.length = 32
        ∧ (∀ x ∈ [urgentRecord], x.record.urgent = true) ∧ routineRecord.record.urgent = false)
      ∧ ((holding onDuty (List.replicate 32 urgentRecord)).spu.ind.length = 32
        ∧ ∀ x ∈ (holding onDuty (List.replicate 32 urgentRecord)).spu.ind, x.record.urgent = true) := by decide +kernel

/-- R184: a pair taken into a queue of thirty, discarded whole by one of thirty-one urgent records, and taken into a full one
by the discard of its only two routine records, which stops the timer. -/
theorem test_pair_intake :
    let pair := [HostRecord.response 1 11 .ok 0 1, .data 1 (.near 5 .person (-50) true 0)]
    let after (q : List Queued) := (takeInAll pair
      ((holding onDuty q).setSpu { (holding onDuty q).spu with coal := .running 1010 990 })).spu
    (after (List.replicate 30 urgentRecord)).ind.length = 32 ∧ (after (List.replicate 30 urgentRecord)).coal = .stopped
      ∧ (after (List.replicate 31 urgentRecord)).ind = List.replicate 31 urgentRecord
      ∧ (after (List.replicate 31 urgentRecord)).lost = 2
      ∧ ((after (routineRecord :: List.replicate 30 urgentRecord ++ [routineRecord])).ind.take 30 = List.replicate 30 urgentRecord
        ∧ (after (routineRecord :: List.replicate 30 urgentRecord ++ [routineRecord])).coal = .stopped)
      ∧ (after (routineRecord :: List.replicate 30 routineRecord)).coal = .running 1010 990 := by decide +kernel

/-- R185, with D of 20 ms: the timer started; reloaded before the bound and at it; expired; and, with D of 0, at once. -/
theorem test_coalescing_start :
    let after (s : State) (c : Coalescing) := (takeIn (.peerSilent 300)
      ((holding s [routineRecord]).setSpu { (holding s [routineRecord]).spu with coal := c })).spu.coal
    after onDuty .stopped = .running 1020 1000 ∧ after onDuty (.running 1010 990) = .running 1020 990
      ∧ after onDuty (.running 1010 760) = .running 1015 760 ∧ after onDuty (.running 1000 745) = .expired
      ∧ after onDuty .expired = .expired ∧ after (under onDuty { station with coalesce := 0 }) .stopped = .expired := by
  decide +kernel

theorem test_witness_CoalescingExpiryResult :
    let s := (holding onDuty [routineRecord]).setSpu { (holding onDuty [routineRecord]).spu with coal := .running 1000 980 }
    s.spu.coal = .running 1000 980 ∧ 1000 ≤ s.ms ∧ s.spu.ind ≠ [] := by decide +kernel

/-- A CONFIGURE record. -/
def configureRecord (index last : Nat) (image : List Byte) : List Byte :=
  [1, 9, byteOf index, byteOf last] ++ image

/-- With one part assembled. -/
def assembling : State := waitingHost.setSpu { waitingHost.spu with assembly := some { bytes := imageHead, next := 1 } }

theorem test_witness_ConfigureResult :
    Serving (asked State.reset (configureRecord 0 0 [0])) (.configure 0 false [0]) 9 []
      ∧ Serving (asked onDuty (configureRecord 0 0 [0])) (.configure 0 false [0]) 9 [] ∧ onDuty.started = true
      ∧ Serving (asked assembling (configureRecord 2 0 [0])) (.configure 2 false [0]) 9 []
      ∧ (∀ x, (asked assembling (configureRecord 2 0 [0])).spu.assembly = some x → x.next ≠ 2)
      ∧ Serving (asked assembling (configureRecord 1 0 [0])) (.configure 1 false [0]) 9 []
      ∧ (∃ x, assembling.spu.assembly = some x ∧ x.next = 1)
      ∧ Serving (asked waitingHost (configureRecord 0 1 goodImage)) (.configure 0 true goodImage) 9 []
      ∧ imageFault goodImage = none
      ∧ Serving (asked waitingHost (configureRecord 0 1 [0])) (.configure 0 true [0]) 9 [] ∧ imageFault [0] = some 144 :=
  ⟨asked_serving _ _ _ (by decide +kernel) (by decide) (by decide),
    asked_serving _ _ _ (by decide +kernel) (by decide) (by decide), rfl,
    asked_serving _ _ _ (by decide +kernel) (by decide) (by decide), fun x h => by cases h; decide,
    asked_serving _ _ _ (by decide +kernel) (by decide) (by decide), ⟨_, rfl, rfl⟩,
    asked_serving _ _ _ (by decide +kernel) (by decide) (by decide), test_good_image,
    asked_serving _ _ _ (by decide +kernel) (by decide) (by decide), by decide +kernel⟩

/-! ### Witnesses: requests to the call unit and the alarm unit -/

/-- With a call of others heard. -/
def hearing (s : State) (n : Nat) : State :=
  s.setPru { s.pru with heard := (List.range n).map (fun k => ⟨⟨300, k⟩, 1000, none⟩) }

theorem test_witness_PlaceCallResult :
    Serving (asked (stationAt .joining 0) [4, 9, 0, 200]) (.placeCall 200) 9 []
      ∧ (asked (stationAt .joining 0) [4, 9, 0, 200]).spu.part ≠ .running
      ∧ Serving (asked onDuty [4, 9, 0, 100]) (.placeCall 100) 9 [] ∧ onDuty.cfg.station = 100
      ∧ Serving (asked (under onDuty { station with operator := false }) [4, 9, 15, 255]) (.placeCall 4095) 9 []
      ∧ (under onDuty { station with operator := false }).cfg.operator = false
      ∧ Serving (asked (inCall onDuty .ringback) [4, 9, 0, 200]) (.placeCall 200) 9 []
      ∧ (inCall onDuty .ringback).clu.ctx.state ≠ .idle
      ∧ Serving (asked (hearing onDuty 2) [4, 9, 0, 200]) (.placeCall 200) 9 []
      ∧ admissionLimit (hearing onDuty 2).cfg.rate ≤ (hearing onDuty 2).pru.heard.length
      ∧ Serving (asked (hearing onDuty 1) [4, 9, 0, 200]) (.placeCall 200) 9 []
      ∧ (hearing onDuty 1).pru.heard.length < admissionLimit (hearing onDuty 1).cfg.rate
      ∧ (hearing onDuty 1).clu.ctx.state = .idle
      ∧ Serving (asked onDuty [4, 9, 15, 255]) (.placeCall 4095) 9 [] ∧ onDuty.cfg.operator = true :=
  ⟨asked_serving _ _ _ (by decide +kernel) (by decide) (by decide), by decide,
    asked_serving _ _ _ (by decide +kernel) (by decide) (by decide), rfl,
    asked_serving _ _ _ (by decide +kernel) (by decide) (by decide), rfl,
    asked_serving _ _ _ (by decide +kernel) (by decide) (by decide), by decide,
    asked_serving _ _ _ (by decide +kernel) (by decide) (by decide), by decide,
    asked_serving _ _ _ (by decide +kernel) (by decide) (by decide), by decide, rfl,
    asked_serving _ _ _ (by decide +kernel) (by decide) (by decide), rfl⟩

theorem test_witness_ReleaseCallResult :
    (Serving (asked (inCall onDuty .connected) [5, 9]) .releaseCall 9 []
        ∧ (inCall onDuty .connected).clu.ctx.state ≠ .idle ∧ (inCall onDuty .connected).clu.ctx.state ≠ .hearingPage)
      ∧ (Serving (asked onDuty [5, 9]) .releaseCall 9 [] ∧ onDuty.clu.ctx.state = .idle)
      ∧ (Serving (asked (inCall onDuty .hearingPage) [5, 9]) .releaseCall 9 []
        ∧ (inCall onDuty .hearingPage).clu.ctx.state = .hearingPage) :=
  ⟨⟨asked_serving _ _ _ (by decide +kernel) (by decide) (by decide), by decide, by decide⟩, ⟨asked_serving _ _ _ (by decide +kernel) (by decide) (by decide), rfl⟩,
    ⟨asked_serving _ _ _ (by decide +kernel) (by decide) (by decide), rfl⟩⟩

/-- With an alarm table. -/
def alarmed (s : State) (as : List Alarm) : State := s.setAru { s.aru with alarms := as }

/-- Sixteen standing FIRE alarms, and the same with a CLEARED one in place of the last. -/
def sixteenFires : List Alarm := (List.range 16).map (fun k => alarm 200 k .fire .raised)
def oneCleared : List Alarm := (List.range 15).map (fun k => alarm 200 k .fire .raised) ++ [alarm 200 15 .fire .cleared]

/-- R153: no entry is displaced from a table with nothing CLEARED, by a newcomer CLEARED itself or of no higher severity. -/
theorem no_victim (as : List Alarm) (severity : Nat) (x : AlarmState) (hs : ∀ a ∈ as, a.state ≠ .cleared)
    (hn : x = .cleared ∨ ∀ a ∈ as, severity ≤ a.kind.severity) (v : Alarm) : ¬ Displaces as severity x v := by
  rintro ⟨before, after, rfl, hv⟩
  have hm : v ∈ before ++ v :: after := by simp
  rcases hv with ⟨hv, -⟩ | ⟨-, hx, hv, -⟩
  · exact hs v hm hv
  · rcases hn with h | h
    · exact hx h
    · exact absurd hv (Nat.not_lt.2 (h v hm))

/-- R153, R156: a table with room, with a CLEARED entry to displace, and with none; the first number held, and the last. -/
theorem test_witness_RaiseAlarmResult :
    (Serving (asked onDuty [6, 9, 2, 7]) (.raiseAlarm .gas (.zone 7)) 9 [] ∧ onDuty.started = true ∧ HasRoom onDuty .gas
        ∧ onDuty.aru.alarms.length < 16)
      ∧ (HasRoom (alarmed onDuty oneCleared) .gas ∧ 16 ≤ (alarmed onDuty oneCleared).aru.alarms.length)
      ∧ (Serving (asked (alarmed onDuty sixteenFires) [6, 9, 2, 7]) (.raiseAlarm .gas (.zone 7)) 9 []
        ∧ ¬ HasRoom (alarmed onDuty sixteenFires) .gas)
      ∧ (Serving (asked waitingHost [6, 9, 2, 7]) (.raiseAlarm .gas (.zone 7)) 9 [] ∧ waitingHost.started = false)
      ∧ (busyStation.findAlarm ⟨100, 0⟩ ≠ none ∧ busyStation.findAlarm ⟨100, 1⟩ = none ∧ busyStation.freeNumber = 1)
      ∧ (let s := alarmed (onDuty.setAru { onDuty.aru with nextNumber := 255 }) [alarm 100 255 .gas .raised];
        s.freeNumber = 0 ∧ s.findAlarm ⟨100, 0⟩ = none) := by
  refine ⟨⟨asked_serving _ _ _ (by decide +kernel) (by decide) (by decide), rfl, .inl (by decide), by decide⟩,
    ⟨.inr ⟨alarm 200 15 .fire .cleared, oneCleared.take 15, [], by decide +kernel, .inl (by decide +kernel)⟩,
      by decide +kernel⟩,
    ⟨asked_serving _ _ _ (by decide +kernel) (by decide) (by decide), ?_⟩,
    ⟨asked_serving _ _ _ (by decide +kernel) (by decide) (by decide), rfl⟩, by decide +kernel, by decide +kernel⟩
  rintro (h | ⟨v, h⟩)
  · exact absurd h (by decide +kernel)
  · exact no_victim _ _ _ (by decide +kernel) (.inr (by decide +kernel)) v h

/-- A table with an alarm in each state: 0 RAISED, 1 ACKNOWLEDGED, 2 CLEARED, all of this station. -/
def threeAlarms : State :=
  alarmed onDuty [alarm 100 0 .gas .raised, alarm 100 1 .gas .acknowledged, alarm 100 2 .gas .cleared]

theorem test_witness_AcknowledgeResult :
    (Serving (asked waitingHost [7, 9, 0, 100, 0]) (.acknowledgeAlarm ⟨100, 0⟩) 9 [] ∧ waitingHost.started = false)
      ∧ (Serving (asked (under onDuty { station with operator := false }) [7, 9, 0, 100, 0]) (.acknowledgeAlarm ⟨100, 0⟩) 9 []
        ∧ (under onDuty { station with operator := false }).cfg.operator = false)
      ∧ (Serving (asked onDuty [7, 9, 0, 100, 0]) (.acknowledgeAlarm ⟨100, 0⟩) 9 [] ∧ onDuty.findAlarm ⟨100, 0⟩ = none)
      ∧ (Serving (asked threeAlarms [7, 9, 0, 100, 2]) (.acknowledgeAlarm ⟨100, 2⟩) 9 []
        ∧ threeAlarms.findAlarm ⟨100, 2⟩ = some (alarm 100 2 .gas .cleared))
      ∧ (Serving (asked threeAlarms [7, 9, 0, 100, 1]) (.acknowledgeAlarm ⟨100, 1⟩) 9 []
        ∧ threeAlarms.findAlarm ⟨100, 1⟩ = some (alarm 100 1 .gas .acknowledged))
      ∧ (Serving (asked threeAlarms [7, 9, 0, 100, 0]) (.acknowledgeAlarm ⟨100, 0⟩) 9 [] ∧ threeAlarms.started = true
        ∧ threeAlarms.cfg.operator = true ∧ threeAlarms.findAlarm ⟨100, 0⟩ = some (alarm 100 0 .gas .raised)
        ∧ ∀ c, (threeAlarms.channel c).raised = some 0 → (threeAlarms.channel c).published ≠ .normal) :=
  ⟨⟨asked_serving _ _ _ (by decide +kernel) (by decide) (by decide), rfl⟩, ⟨asked_serving _ _ _ (by decide +kernel) (by decide) (by decide), rfl⟩,
    ⟨asked_serving _ _ _ (by decide +kernel) (by decide) (by decide), by decide +kernel⟩,
    ⟨asked_serving _ _ _ (by decide +kernel) (by decide) (by decide), by decide +kernel⟩,
    ⟨asked_serving _ _ _ (by decide +kernel) (by decide) (by decide), by decide +kernel⟩,
    ⟨asked_serving _ _ _ (by decide +kernel) (by decide) (by decide), rfl, rfl, by decide +kernel, by decide +kernel⟩⟩

/-- R94: channel 0 names the own RAISED alarm 0, beside another station's of that number, and stands at NORMAL. -/
def atNormal : State :=
  withChannel (alarmed onDuty [alarm 100 0 .gas .raised, alarm 200 0 .gas .raised]) 0
    (fun c => { c with level := .normal, raised := some 0 })

theorem test_witness_acknowledge_clears :
    (Serving (asked atNormal [7, 9, 0, 100, 0]) (.acknowledgeAlarm ⟨100, 0⟩) 9 [] ∧ atNormal.started = true
        ∧ atNormal.cfg.operator = true ∧ atNormal.findAlarm ⟨100, 0⟩ = some (alarm 100 0 .gas .raised)
        ∧ (⟨100, 0⟩ : AlarmId).origin = atNormal.cfg.station
        ∧ ∃ c, (atNormal.channel c).raised = some 0 ∧ (atNormal.channel c).published = .normal)
      ∧ (Serving (asked atNormal [7, 9, 0, 200, 0]) (.acknowledgeAlarm ⟨200, 0⟩) 9 []
        ∧ atNormal.findAlarm ⟨200, 0⟩ = some (alarm 200 0 .gas .raised)
        ∧ (⟨200, 0⟩ : AlarmId).origin ≠ atNormal.cfg.station) :=
  ⟨⟨asked_serving _ _ _ (by decide +kernel) (by decide) (by decide), rfl, rfl, by decide +kernel, rfl, 0, by decide +kernel,
      by decide +kernel⟩,
    ⟨asked_serving _ _ _ (by decide +kernel) (by decide) (by decide), by decide +kernel, by decide +kernel⟩⟩

theorem test_witness_ClearResult :
    (Serving (asked waitingHost [8, 9, 0, 100, 0]) (.clearAlarm ⟨100, 0⟩) 9 [] ∧ waitingHost.started = false)
      ∧ (Serving (asked onDuty [8, 9, 0, 100, 0]) (.clearAlarm ⟨100, 0⟩) 9 [] ∧ onDuty.findAlarm ⟨100, 0⟩ = none)
      ∧ (Serving (asked (under busyStation { station with operator := false }) [8, 9, 0, 200, 4]) (.clearAlarm ⟨200, 4⟩) 9 []
        ∧ (under busyStation { station with operator := false }).cfg.operator = false
        ∧ busyStation.findAlarm ⟨200, 4⟩ = some (alarm 200 4 .vent .acknowledged))
      ∧ (Serving (asked threeAlarms [8, 9, 0, 100, 0]) (.clearAlarm ⟨100, 0⟩) 9 []
        ∧ threeAlarms.findAlarm ⟨100, 0⟩ = some (alarm 100 0 .gas .raised))
      ∧ (Serving (asked threeAlarms [8, 9, 0, 100, 2]) (.clearAlarm ⟨100, 2⟩) 9 []
        ∧ threeAlarms.findAlarm ⟨100, 2⟩ = some (alarm 100 2 .gas .cleared))
      ∧ (Serving (asked threeAlarms [8, 9, 0, 100, 1]) (.clearAlarm ⟨100, 1⟩) 9 [] ∧ threeAlarms.started = true
        ∧ threeAlarms.findAlarm ⟨100, 1⟩ = some (alarm 100 1 .gas .acknowledged)) :=
  ⟨⟨asked_serving _ _ _ (by decide +kernel) (by decide) (by decide), rfl⟩,
    ⟨asked_serving _ _ _ (by decide +kernel) (by decide) (by decide), by decide +kernel⟩,
    ⟨asked_serving _ _ _ (by decide +kernel) (by decide) (by decide), rfl, by decide +kernel⟩,
    ⟨asked_serving _ _ _ (by decide +kernel) (by decide) (by decide), by decide +kernel⟩,
    ⟨asked_serving _ _ _ (by decide +kernel) (by decide) (by decide), by decide +kernel⟩,
    ⟨asked_serving _ _ _ (by decide +kernel) (by decide) (by decide), rfl, by decide +kernel⟩⟩

/-- R94: a clear asked for of an alarm ACKNOWLEDGED, of one RAISED, and of one not held. -/
theorem test_witness_clear_as_origin :
    (threeAlarms.findAlarm ⟨100, 1⟩ = some (alarm 100 1 .gas .acknowledged)
        ∧ (alarm 100 1 .gas .acknowledged).state = .acknowledged)
      ∧ (∀ a, threeAlarms.findAlarm ⟨100, 0⟩ = some a → a.state ≠ .acknowledged)
      ∧ (∀ a, threeAlarms.findAlarm ⟨100, 9⟩ = some a → a.state ≠ .acknowledged) := by
  refine ⟨by decide +kernel, fun a h => ?_, fun a h => ?_⟩
  · obtain rfl : alarm 100 0 .gas .raised = a := Option.some.inj ((by decide +kernel : _ = _).symm.trans h)
    decide
  · exact absurd (h.symm.trans (by decide +kernel : threeAlarms.findAlarm ⟨100, 9⟩ = none)) (by simp)

theorem test_witness_SilenceResult :
    (Serving (asked threeAlarms [9, 9]) .silence 9 [] ∧ threeAlarms.started = true)
      ∧ (Serving (asked waitingHost [9, 9]) .silence 9 [] ∧ waitingHost.started = false) :=
  ⟨⟨asked_serving _ _ _ (by decide +kernel) (by decide) (by decide), rfl⟩, ⟨asked_serving _ _ _ (by decide +kernel) (by decide) (by decide), rfl⟩⟩

/-! ### Witnesses: the other requests -/

theorem test_witness_SendFrameRequestsResult :
    (Serving (asked onDuty [10, 9, 0, 200, 3, 65]) (.sendText 200 true true [65]) 9 [] ∧ onDuty.started = true)
      ∧ (Serving (asked waitingHost [10, 9, 0, 200, 0, 65]) (.sendText 200 false false [65]) 9 []
        ∧ waitingHost.started = false)
      ∧ (Serving (asked onDuty [17, 9, 0, 200, 6]) (.requestHistory 200 6) 9 [] ∧ 200 ≠ onDuty.cfg.station)
      ∧ Serving (asked waitingHost [17, 9, 0, 200, 6]) (.requestHistory 200 6) 9 []
      ∧ (Serving (asked onDuty [17, 9, 0, 100, 0]) (.requestHistory 100 0) 9 [] ∧ 100 = onDuty.cfg.station) :=
  ⟨⟨asked_serving _ _ _ (by decide +kernel) (by decide) (by decide), rfl⟩, ⟨asked_serving _ _ _ (by decide +kernel) (by decide) (by decide), rfl⟩,
    ⟨asked_serving _ _ _ (by decide +kernel) (by decide) (by decide), by decide⟩, asked_serving _ _ _ (by decide +kernel) (by decide) (by decide),
    ⟨asked_serving _ _ _ (by decide +kernel) (by decide) (by decide), rfl⟩⟩

/-- Channel 0 in NORMAL, and with it a pack in flight, or a full history list. -/
def sampled : State := withChannel onDuty 0 (fun c => { c with level := .normal, value := 60 })
def packing : State :=
  sampled.setBpk { sampled.bpk with flight := some ⟨.history (.host 0 1), List.replicate 16 0, 0, 0, 0⟩ }
def fullHistory : State := sampled.setBpk { packing.bpk with history := List.replicate 4 (.host 0 1) }

theorem test_witness_ReadHistoryResult :
    (Serving (asked onDuty [11, 9, 0]) (.readHistory 0) 9 [] ∧ (onDuty.channel 0).level = .unset)
      ∧ (Serving (asked fullHistory [11, 9, 0]) (.readHistory 0) 9 [] ∧ (fullHistory.channel 0).level ≠ .unset
        ∧ 4 ≤ fullHistory.bpk.history.length)
      ∧ (Serving (asked packing [11, 9, 0]) (.readHistory 0) 9 [] ∧ packing.bpk.history.length < 4
        ∧ packing.bpk.flight ≠ none)
      ∧ (Serving (asked sampled [11, 9, 0]) (.readHistory 0) 9 [] ∧ sampled.bpk.flight = none
        ∧ sampled.clu.capture.waiting = [] ∧ sampled.bpk.history = []) :=
  ⟨⟨asked_serving _ _ _ (by decide +kernel) (by decide) (by decide), by decide +kernel⟩,
    ⟨asked_serving _ _ _ (by decide +kernel) (by decide) (by decide), by decide +kernel, by decide +kernel⟩,
    ⟨asked_serving _ _ _ (by decide +kernel) (by decide) (by decide), by decide +kernel, by decide +kernel⟩,
    ⟨asked_serving _ _ _ (by decide +kernel) (by decide) (by decide), rfl, rfl, rfl⟩⟩

theorem test_witness_ReadChannelResult :
    (Serving (asked onDuty [12, 9, 6]) (.readChannel 6) 9 [] ∧ (onDuty.channel 6).level = .unset)
      ∧ (Serving (asked sampled [12, 9, 0]) (.readChannel 0) 9 [] ∧ (sampled.channel 0).level ≠ .unset
        ∧ (sampled.channelCfg 0).kind = some .methane)
      ∧ ((asked onDuty [12, 255, 7]).spu.requests = [12#8, byteOf 255, byteOf 7] :: []
        ∧ (asked onDuty [12, 255, 255]).spu.requests = [12#8, byteOf 255, byteOf 255] :: []
        ∧ onDuty.urgentHeld < 32 ∧ onDuty.spu.answer = []) :=
  ⟨⟨asked_serving _ _ _ (by decide +kernel) (by decide) (by decide), by decide +kernel⟩,
    ⟨asked_serving _ _ _ (by decide +kernel) (by decide) (by decide), by decide +kernel, by decide +kernel⟩,
    by decide +kernel⟩

theorem test_witness_table_reads :
    Serving (asked busyStation [14, 9]) .readAlarms 9 [] ∧ Serving (asked busyStation [13, 9]) .readPeers 9 []
      ∧ Serving (asked busyStation [15, 9]) .readTags 9 [] ∧ Serving (asked busyStation [16, 9]) .readCounters 9 [] :=
  ⟨asked_serving _ _ _ (by decide +kernel) (by decide) (by decide), asked_serving _ _ _ (by decide +kernel) (by decide) (by decide),
    asked_serving _ _ _ (by decide +kernel) (by decide) (by decide), asked_serving _ _ _ (by decide +kernel) (by decide) (by decide)⟩

/-! ### Witnesses: the roadway line -/

theorem test_witness_LineSensingResult :
    (onDuty.operating .A = true ∧ (onDuty.port .A).access ≠ .transmit ∧ (onDuty.port .A).access ≠ .jam
        ∧ (onDuty.port .A).carrier = false)
      ∧ (onDuty.operating .B = false ∧ (onDuty.port .B).carrier = false)
      ∧ ((lineA onDuty (fun l => { l with access := .transmit })).port .A).access = .transmit
      ∧ ((lineA onDuty (fun l => { l with carrier := true, access := .backoff })).port .A).carrier = true
      ∧ ((lineA onDuty (fun l => { l with holdEnd := some 1000000 })).port .A).holdEnd = some 1000000
      ∧ 1000000 ≤ onDuty.clock.usec
      ∧ ((lineA onDuty (fun l => { l with pulses := [1000000, 1000300] })).port .A).pulses = 1000000 :: [1000300] := by
  decide +kernel

/-- R6: two frames that ask for a pulse, the second ending before the own slot of the first: both pulses stand. -/
theorem test_two_pulses :
    (((onDuty.offerFrame .A (mappedFrame 1)).offerFrame .A (mappedFrame 2)).port .A).pulses.length = 2 := by
  decide +kernel

/-- A unit gathering a frame, its receive list empty or full. -/
def gatheringA (s : State) (n : Nat) : State :=
  lineA s (fun l => { l with access := .receive, carrier := true, gathering := true,
                             received := List.replicate n { bytes := plainFrame 1, arrival := 0 } })

/-- R3: a fragment of nine bytes, a damaged frame of ten, intact ones; R4: a list of three and of four. -/
theorem test_witness_FrameEndResult :
    ((gatheringA onDuty 3).operating .A = true ∧ ((gatheringA onDuty 3).port .A).gathering = true
        ∧ ((gatheringA onDuty 3).port .A).access ≠ .transmit ∧ ((gatheringA onDuty 3).port .A).access ≠ .jam
        ∧ ((gatheringA onDuty 3).port .A).received.length < 4)
      ∧ 4 ≤ ((gatheringA onDuty 4).port .A).received.length
      ∧ (plainFrame 1).length = 10 ∧ crcOk (plainFrame 1) = true ∧ (headerOf (plainFrame 1)).mapRequest = false
      ∧ crcOk (mappedFrame 1) = true ∧ (headerOf (mappedFrame 1)).mapRequest = true
      ∧ ((plainFrame 1).take 9).length < 10 ∧ crcOk ((plainFrame 1).set 0 0) = false := by decide +kernel

/-- A unit deferring for a fixed entry after f failures, its wait of 48 bit times over. -/
def deferring (e : TxEntry) : State :=
  lineA onDuty (fun l => { l with access := .defer, list := [e], nextOrder := 1, wait := 48 })

theorem test_witness_DeferralResult :
    ((deferring (entryOf 0 4 (plainFrame 1))).port .A).candidate = some (entryOf 0 4 (plainFrame 1))
      ∧ ((deferring (entryOf 0 0 (plainFrame 1))).running = true
        ∧ ((deferring (entryOf 0 0 (plainFrame 1))).port .A).access = .defer
        ∧ ((deferring (entryOf 0 0 (plainFrame 1))).port .A).carrier = false
        ∧ ((deferring (entryOf 0 0 (plainFrame 1))).port .A).holdEnd = none
        ∧ ((deferring (entryOf 0 0 (plainFrame 1))).port .A).candidate = some (entryOf 0 0 (plainFrame 1))
        ∧ ((deferring (entryOf 0 0 (plainFrame 1))).port .A).quietAt
            + ((deferring (entryOf 0 0 (plainFrame 1))).port .A).wait * onDuty.bitTime ≤ onDuty.clock.usec
        ∧ (entryOf 0 0 (plainFrame 1)).frame = some (plainFrame 1))
      ∧ (((deferring (TxEntry.ofLive .beacon)).port .A).candidate = some (TxEntry.ofLive .beacon)
        ∧ (TxEntry.ofLive .beacon).frame = none ∧ (TxEntry.ofLive .beacon).live = some .beacon) := by decide +kernel

def alarmEntry : TxEntry := TxEntry.fixed (mappedFrame 99) .alarm .aru

/-- R7, R9: a ROUTINE and an ALARM request to a unit that defers for a ROUTINE entry, one in JOINING, one in IDLE, and one
with an entry in service; a new wait reached, and one not. -/
theorem test_witness_queued_request :
    (let s := deferring (entryOf 0 0 (plainFrame 1));
      ((s.answerRequest .A (entryOf 0 0 (plainFrame 2))).1 = .queued
          ∧ ((s.answerRequest .A (entryOf 0 0 (plainFrame 2))).2.port .A).list.head?.map TxEntry.order = some 0)
        ∧ ((s.answerRequest .A alarmEntry).1 = .queued ∧ (s.port .A).list.head?.map TxEntry.order = some 0
          ∧ ((s.answerRequest .A alarmEntry).2.port .A).list.head?.map TxEntry.order = some 1
          ∧ ((s.answerRequest .A alarmEntry).2.port .A).access = .defer
          ∧ ((s.answerRequest .A alarmEntry).2.port .A).inService = none
          ∧ ((s.answerRequest .A alarmEntry).2.port .A).carrier = false
          ∧ ((s.answerRequest .A alarmEntry).2.port .A).holdEnd = none
          ∧ (s.port .A).quietAt + (48 + 24 * (4 * 0 + 3)) * s.bitTime ≤ s.clock.usec
          ∧ s.clock.usec < 999900 + 48 * s.bitTime)
        ∧ ((lineA s (fun l => { l with service := some 0 })).port .A).inService ≠ none)
      ∧ (((stationAt .joining 1000).answerRequest .A alarmEntry).1 = .queued ∧ (stationAt .joining 1000).running = false)
      ∧ ((onDuty.answerRequest .A alarmEntry).1 = .queued ∧ (onDuty.port .A).access = .idle) := by decide +kernel

/-- R51, R77, R140: a station with two channels, a standing alarm among three, a person near and not, trucks of two
strengths and of one, one of them unseen for more than 2000 ms, and a standing text. -/
def reporting : State :=
  let truck (tag : Nat) (v : Int) (seen : Nat) : NearEntry :=
    { nearOf tag with kind := .truck, strength := v, lastSeen := seen }
  let s := withChannel (withChannel (alarmed (stationAt .running 5000) [alarm 100 0 .fire .raised, alarm 100 1 .gas .cleared]) 0
    (fun c => { c with level := .normal, value := 60 })) 6 (fun c => { c with level := .starting })
  (s.setPru { s.pru with text := some [65#8] }).setTgu { s.tgu with
    near := [nearOf 3, { nearOf 4 with near := false }, truck 5 (-70) 5000, truck 6 (-50) 3000, truck 7 (-50) 4000,
      truck 8 (-40) 2999] }

/-- The hypotheses of the live kinds' sections, and the tags in the order they are supplied. -/
theorem test_witness_live_sections :
    let truck (tag : Nat) (v : Int) (seen : Nat) : NearEntry :=
      { nearOf tag with kind := .truck, strength := v, lastSeen := seen }
    let sorted := [truck 6 (-50) 3000, truck 7 (-50) 4000, truck 5 (-70) 5000]
    let air : List AirEntry := [⟨0, .methane, .normal, false, 60⟩, ⟨6, .airVelocity, .starting, false, 0⟩]
    reporting.slotOf .A = some 5 ∧ air.Pairwise (fun x y => x.channel < y.channel) ∧ reporting.airEntries = air
      ∧ (reporting.aru.alarms.filter (fun a => decide (a.state ≠ .cleared))).take 6 = [alarm 100 0 .fire .raised]
      ∧ (reporting.tgu.near.filter (fun n => decide (n.kind = .person) && n.near)).length = 1
      ∧ sorted.Perm (reporting.tgu.near.filter
          (fun n => decide (n.kind ≠ .person) && decide (reporting.ms ≤ n.lastSeen + 2000)))
      ∧ sorted.Pairwise (fun x y => y.strength < x.strength ∨ (x.strength = y.strength ∧ x.tag < y.tag))
      ∧ reporting.tagEntries.map TagEntry.tag = [6, 7, 5] ∧ reporting.pru.text = some [65#8]
      ∧ reporting.cfg.refuge = false ∧ onDuty.airEntries = [] ∧ onDuty.pru.text = none := by decide +kernel

/-- A unit with its only entry in service. -/
def serving (x : Access) (started : Nat) (e : TxEntry) : State :=
  lineA onDuty (fun l => { l with access := x, list := [e], nextOrder := 1, service := some 0, startedAt := started })

/-- R22: a RESTART taken in the jam after a collision finds the other party's carrier present: the unit is idle on a busy
line and does not gather what it did not see begin, and the line is quiet again from LINE_QUIET on. -/
theorem test_restart_in_jam :
    ∃ t u v w, exec (.collision .A) (serving .transmit 998913 (entryOf 0 0 (plainFrame 1))) = .next t
      ∧ exec .restart (asked t [3, 9]) = .next u ∧ exec (.carrierStart .A) u = .next v ∧ v.port .A = u.port .A
      ∧ (u.port .A).access = .idle ∧ (u.port .A).lineQuiet = false ∧ (u.port .A).gathering = false
      ∧ exec (.lineQuiet .A) u = .next w ∧ (w.port .A).lineQuiet = true :=
  ⟨_, _, _, _, rfl, rfl, rfl, by decide +kernel, by decide +kernel, by decide +kernel, by decide +kernel, rfl, by decide +kernel⟩

/-- R3: carrier that outlasts the own jam is gathered. -/
theorem test_jam_gathers :
    ∃ t, exec (.jamEnd .A) (serving .jam 999872 (entryOf 0 0 (plainFrame 1))) = .next t
      ∧ (t.port .A).access = .backoff ∧ (t.port .A).carrier = true ∧ (t.port .A).gathering = true :=
  ⟨_, rfl, by decide +kernel, by decide +kernel, by decide +kernel⟩

/-- A composed beacon, and a delivery frame of the alarm unit, with f failures. -/
def liveEntry (f : Nat) : TxEntry := { TxEntry.ofLive .beacon with frame := some (plainFrame 1), fails := f }
def deliveryEntry (f : Nat) : TxEntry := { TxEntry.fixed (mappedFrame 1) .alarm .aru with fails := f }

/-- The clauses of an outcome: a report request; a live entry with its repeat pending and without; an ALARM frame of the
alarm unit; the list empty after it, and not. -/
theorem test_witness_OutcomeTaken :
    ((entryOf 0 0 (plainFrame 1)).report = some 9 ∧ (entryOf 0 0 (plainFrame 1)).cls ≠ .alarm ∧ onDuty.urgentHeld < 32)
      ∧ ((liveEntry 0).live = some .beacon ∧ (liveEntry 0).report = none ∧ (liveEntry 0).cls ≠ .alarm
        ∧ ((serving .transmit 999616 (liveEntry 0)).port .A).repeatOf .beacon = false
        ∧ ((lineA (serving .transmit 999616 (liveEntry 0)) (fun l => { l with repBeacon := true })).port .A).repeatOf .beacon
            = true)
      ∧ ((deliveryEntry 0).cls = .alarm ∧ (deliveryEntry 0).requester = some .aru ∧ (deliveryEntry 0).report = none)
      ∧ onDuty.running = true := by decide +kernel

theorem test_witness_TransmissionEndResult :
    (((serving .transmit 999616 (entryOf 0 0 (plainFrame 1))).port .A).inService = some (entryOf 0 0 (plainFrame 1))
        ∧ (entryOf 0 0 (plainFrame 1)).frame = some (plainFrame 1)
        ∧ 999616 + (16 + 8 * (plainFrame 1).length) * onDuty.bitTime = onDuty.clock.usec
        ∧ (entryOf 0 0 (plainFrame 1)).live = none ∧ (entryOf 0 0 (plainFrame 1)).cls ≠ .alarm
        ∧ (entryOf 0 0 (plainFrame 1)).report = some 9 ∧ onDuty.urgentHeld < 32)
      ∧ (headerOf (mappedFrame 1)).mapRequest = true
      ∧ (((serving .responseWait 998912 (entryOf 0 0 (mappedFrame 1))).port .A).access = .responseWait
        ∧ 998912 + 272 * onDuty.bitTime = onDuty.clock.usec)
      ∧ onDuty.configured .A = true ∧ ((serving .transmit 0 (liveEntry 0)).port .A).list.length ≤ 12
      ∧ ((serving .transmit 0 (liveEntry 0)).port .A).inService = some (liveEntry 0)
      ∧ ((serving .transmit 0 (deliveryEntry 0)).port .A).inService = some (deliveryEntry 0)
      ∧ ((serving .responseWait 0 (deliveryEntry 0)).port .A).inService = some (deliveryEntry 0) := by decide +kernel

/-- R11: the last instant counted early, and the first counted late. -/
theorem test_witness_CollisionResult :
    (onDuty.clock.usec < 998913 + (16 + 8 * 32) * onDuty.bitTime ∧ 998912 + (16 + 8 * 32) * onDuty.bitTime ≤ onDuty.clock.usec)
      ∧ ((serving .transmit 998913 (entryOf 0 0 (plainFrame 1))).port .A).access = .transmit
      ∧ (((serving .jam 999872 (entryOf 0 7 (plainFrame 1))).port .A).access = .jam
        ∧ 999872 + 32 * onDuty.bitTime ≤ onDuty.clock.usec
        ∧ ((serving .jam 999872 (entryOf 0 7 (plainFrame 1))).port .A).inService = some (entryOf 0 7 (plainFrame 1)))
      ∧ (((serving .jam 999872 (entryOf 0 8 (plainFrame 1))).port .A).inService = some (entryOf 0 8 (plainFrame 1))
        ∧ (entryOf 0 8 (plainFrame 1)).frame = some (plainFrame 1) ∧ onDuty.configured .A = true
        ∧ ((serving .jam 999872 (entryOf 0 8 (plainFrame 1))).port .A).list.length ≤ 12)
      ∧ ((serving .jam 999872 (liveEntry 8)).port .A).inService = some (liveEntry 8)
      ∧ ((serving .jam 999872 (deliveryEntry 8)).port .A).inService = some (deliveryEntry 8) := by decide +kernel

/-- A list of n ROUTINE entries. -/
def queueOf (n : Nat) : State :=
  lineA onDuty (fun l => { l with list := (List.range n).map (fun k => entryOf k 0 (plainFrame k)), nextOrder := n })

/-- A VOICE frame of the own call, with a report request so that its eviction shows; and a list of n of them. -/
def voiceEntry (n : Nat) : TxEntry :=
  { TxEntry.fixed (plainFrame n) .call .clu with order := n, voiceCall := some ⟨100, 1⟩, report := some 9 }

def voices (n : Nat) : State :=
  lineA onDuty (fun l => { l with list := (List.range n).map voiceEntry, nextOrder := n })

/-- R19: two waiting VOICE frames of the call, and one. -/
theorem test_witness_voice_depth :
    (((voices 2).port .A).holdsLike (voiceEntry 7) = false ∧ (voiceEntry 7).voiceCall = some ⟨100, 1⟩
        ∧ ((voices 2).port .A).list.filter (fun y => decide (((voices 2).port .A).service ≠ some y.order
            ∧ y.voiceCall = some ⟨100, 1⟩)) = voiceEntry 0 :: [voiceEntry 1]
        ∧ ((voices 2).port .A).list.length ≤ 12 ∧ (voiceEntry 0).report = some 9 ∧ (voiceEntry 0).cls ≠ .alarm
        ∧ onDuty.urgentHeld < 32)
      ∧ (((voices 1).port .A).holdsLike (voiceEntry 7) = false
        ∧ (((voices 1).port .A).list.filter (fun y => decide (((voices 1).port .A).service ≠ some y.order
            ∧ y.voiceCall = some ⟨100, 1⟩))).length < 2) := by decide +kernel

theorem test_witness_QueueAnswers :
    onDuty.configured .B = false ∧ onDuty.configured .A = true
      ∧ (TxEntry.ofLive .beacon ∈ ((deferring (TxEntry.ofLive .beacon)).port .A).list ∧ (TxEntry.ofLive .beacon).live = some .beacon)
      ∧ (∃ x ∈ ((serving .transmit 0 (liveEntry 0)).port .A).list, x.live = some .beacon ∧ x.frame ≠ none)
      ∧ ((queueOf 1).port .A).holdsLike (entryOf 5 0 (plainFrame 0)) = true
      ∧ (alarmEntry.voiceCall = none ∧ ((queueOf 11).port .A).holdsLike alarmEntry = false
        ∧ ((queueOf 11).port .A).list.length < 12)
      ∧ (((queueOf 12).port .A).holdsLike alarmEntry = false ∧ 12 ≤ ((queueOf 12).port .A).list.length
        ∧ ((queueOf 12).port .A).victim alarmEntry.cls = some (entryOf 0 0 (plainFrame 0)))
      ∧ (((queueOf 12).port .A).holdsLike (entryOf 0 0 (plainFrame 99)) = false
        ∧ ((queueOf 12).port .A).victim .routine = none) := by decide +kernel

theorem test_witness_CounterSnapshotResult :
    onDuty.clock.snapshotDue ≤ onDuty.ms ∧ Counter.zero.live < 65535
      ∧ ({ Counter.zero with live := 65535 } : Counter).live = 65535 := by decide +kernel

/-! ### Witnesses: frames and peers -/

/-- A frame waiting on port A. -/
def received (s : State) (f : List Byte) : State :=
  lineA s (fun l => { l with received := [{ bytes := f, arrival := 0 }] })

/-- With one recent frame of station 200. -/
def remembering (s : State) (n : Nat) : State :=
  s.setPru { s.pru with recent := [⟨200, n, .A, 0⟩] }

theorem test_witness_FrameParseResult :
    ((received onDuty ((plainFrame 1).set 7 4)).port .B).received = []
      ∧ headerBad ((plainFrame 1).set 7 4) = true
      ∧ (headerBad (buildFrame 100 4095 .routine false 1 []) = false
        ∧ chainOf (buildFrame 100 4095 .routine false 1 []) ≠ none
        ∧ (headerOf (buildFrame 100 4095 .routine false 1 [])).origin = onDuty.cfg.station)
      ∧ (headerBad (plainFrame 1) = false ∧ chainOf (plainFrame 1) ≠ none
        ∧ (headerOf (plainFrame 1)).origin ≠ onDuty.cfg.station)
      ∧ (∃ x ∈ (remembering onDuty 1).pru.recent, x.origin = (headerOf (plainFrame 1)).origin
          ∧ x.seq = (headerOf (plainFrame 1)).seq)
      ∧ (∀ x ∈ (remembering onDuty 2).pru.recent, x.origin = (headerOf (plainFrame 1)).origin →
          x.seq ≠ (headerOf (plainFrame 1)).seq)
      ∧ (remembering onDuty 2).findPeer (headerOf (plainFrame 1)).origin = none
      ∧ (busyStation.findPeer 200).map (fun x => (x.present, x.lastSeq)) = some (true, 7)
      ∧ (headerOf (plainFrame 7)).seq = 7 := by decide +kernel

/-- A header, and its arrival on port A at tick 1000. -/
def headerTo (dest hops : Nat) (c : FrameClass) : FrameHeader :=
  { origin := 400, hops := hops, dest := dest, cls := c.code, mapRequest := false, seq := 1, firstKind := 0, sectionBytes := 0 }

def arrivalOf (dest hops : Nat) (c : FrameClass) : Arrival := { port := .A, time := 1000, header := headerTo dest hops c }

/-- n peers, PRESENT or SILENT, last heard at the tick of their station. -/
def peersOf (n : Nat) (present : Bool) : List Peer :=
  (List.range n).map (fun k => { peerOf (k + 1) present 0 with lastHeard := k + 1 })

/-- R40: a table of 47, one of 48 all PRESENT, and one of 48 with two SILENT entries, 47 the longest unheard. -/
theorem test_witness_new_peer :
    (∀ n ∈ [47, 48], (onDuty.setPeers (peersOf n true)).findPeer (arrivalOf 4095 0 .routine).origin = none)
      ∧ (onDuty.setPeers (peersOf 47 true)).pru.peers.length < 48
      ∧ (48 ≤ (onDuty.setPeers (peersOf 48 true)).pru.peers.length
        ∧ ∀ x ∈ (onDuty.setPeers (peersOf 48 true)).pru.peers, x.present = true)
      ∧ (let s := onDuty.setPeers (peersOf 46 true ++ [peerOf 47 false 0, peerOf 48 false 0]);
        s.findPeer 400 = none ∧ 48 ≤ s.pru.peers.length ∧ peerOf 47 false 0 ∈ s.pru.peers
          ∧ (∀ x ∈ s.pru.peers, x.present = false → x.station ≠ 47 → 0 < x.lastHeard ∨ (0 = x.lastHeard ∧ 47 < x.station))
          ∧ s.pru.peers.Pairwise (fun x y => x.station < y.station)) := by decide +kernel

/-- A RUNNING bridge, with a delivery held on port B. -/
def bridge (ds : List Delivery) : State :=
  (under onDuty { station with slotB := some 9 }).setDeliveries .B ds

def heldOf (n : Nat) (x : AlarmState) (source : DeliverySource) : Delivery :=
  { id := ⟨400, n⟩, source := source, frame := plainFrame n, alarmState := x, transmissions := 3, hearMap := [3],
    phase := .waiting, repeatDue := some 1500 }

/-- R48: at 7 hops of 8, at 8, to this station, to a peer of the port of arrival and to one of the other, and no bridge. -/
theorem test_witness_relay :
    Relayed (bridge []) (arrivalOf 4095 7 .routine) ∧ ¬ Relayed (bridge []) (arrivalOf 4095 8 .routine)
      ∧ ¬ Relayed (bridge []) (arrivalOf 100 0 .routine) ∧ ¬ Relayed onDuty (arrivalOf 4095 0 .routine)
      ∧ ¬ Relayed ((bridge []).setPeers [peerOf 200 true 0]) (arrivalOf 200 0 .routine)
      ∧ Relayed ((bridge []).setPeers [{ peerOf 200 true 0 with port := .B }]) (arrivalOf 200 0 .alarm)
      ∧ (arrivalOf 4095 7 .routine).header.cls = FrameClass.routine.code ∧ FrameClass.routine ≠ FrameClass.alarm := by
  unfold Relayed
  decide +kernel

/-- An ALARM frame of the record, relayed once. -/
def alarmCopy (r : AlarmRecord) : List Byte := relayCopy (buildFrame 400 4095 .alarm false 1 [.alarm [r]])

def recordOf (x : AlarmState) : AlarmRecord := { id := ⟨400, 2⟩, kind := .gas, state := x, scope := .zone 7, age := 0 }

/-- R166: a copy that names an alarm, and one that names none; on the other port a delivery in a later state, of this
station's own in the same state, a relayed one in the same state, fifteen and sixteen others. -/
theorem test_witness_relayed_alarm :
    NamesAlarm (alarmCopy (recordOf .raised)) (recordOf .raised) ∧ NamesNoAlarm (relayCopy (plainFrame 1))
      ∧ (recordOf .raised).state.rank < (heldOf 2 .cleared .relay).alarmState.rank
      ∧ ((heldOf 2 .raised .own).alarmState = (recordOf .raised).state ∧ (heldOf 2 .raised .own).source = .own)
      ∧ (heldOf 2 .raised .relay ∈ (bridge [heldOf 2 .raised .relay]).deliveriesOn .B
        ∧ ∀ x ∈ (bridge [heldOf 2 .raised .relay]).deliveriesOn .B, x.id = (recordOf .raised).id →
            x.alarmState.rank ≤ (recordOf .raised).state.rank ∧ (x.alarmState = (recordOf .raised).state → x.source = .relay))
      ∧ (let others (n : Nat) := (bridge ((List.range n).map (fun k => heldOf (k + 10) .raised .own))).deliveriesOn .B;
        (others 15).length < 16 ∧ 16 ≤ (others 16).length
          ∧ others 16 = heldOf 10 .raised .own :: (List.range 15).map (fun k => heldOf (k + 11) .raised .own)
          ∧ ∀ x ∈ others 16, x.id ≠ (recordOf .raised).id) := by
  refine ⟨⟨_, [], _, [], [], rfl, rfl, ?_, by decide⟩, ?_, ?_⟩
  · decide +kernel
  · rintro chain h
    obtain rfl : chain = [] := Option.some.inj (h.symm.trans (by decide +kernel))
    simp
  · decide +kernel

/-- R26, R34: a section in range and two that are not; a frame for another station, for this one and for all. -/
theorem test_witness_sections :
    readSection 9 [0, 1, 7, 0] = none ∧ readSection 9 [0, 1, 6, 0] = some (.historyRequest 6) ∧ readSection 10 [] = none
      ∧ ((arrivalOf 300 0 .routine).dest ≠ onDuty.cfg.station ∧ (arrivalOf 300 0 .routine).dest ≠ 4095)
      ∧ (arrivalOf 100 0 .routine).dest = onDuty.cfg.station ∧ (arrivalOf 4095 0 .routine).dest = 4095 := by decide +kernel

/-- R54, R103, R141: a standing text that is new, the same, emptied, and empty already; a history list with the request,
with three others and with four; a reporter on another roadway and on this one. -/
theorem test_witness_section_effects :
    (let x := { peerOf 400 true 0 with text := some [65#8] };
      ((onDuty.setPeers [x]).findPeer 400 = some x ∧ x.text ≠ some ([66#8].take 32) ∧ x.text = some ([65#8].take 32)
        ∧ [66#8] ≠ [0#8] ∧ x.text ≠ none ∧ (peerOf 400 true 0).text = none))
      ∧ ((sampled.channel 0).level ≠ .unset ∧ (onDuty.channel 0).level = .unset)
      ∧ (let asks (n : Nat) (o : Nat) := (sampled.setBpk { sampled.bpk with
            history := (List.range n).map (fun k => .line 0 (o + k) .B) }).bpk.history;
        HistoryRequest.line 0 400 .B ∈ asks 1 400 ∧ (asks 3 401).length < 4 ∧ 4 ≤ (asks 4 401).length
          ∧ ∀ q, HistoryRequest.line 0 400 q ∉ asks 4 401)
      ∧ (let from' (r : Nat) := (onDuty.setPeers [{ peerOf 400 true 0 with status := some {
            chainage := 5, zone := 7, roadway := r, airflowNeg := false, bridge := false, refuge := false,
            operator := false, slotA := none, slotB := none } }]).findPeer 400;
        (from' 3).bind Peer.status ≠ none ∧ onDuty.cfg.roadway = 0 ∧ (from' 0).isSome = true) := by
  refine ⟨by decide +kernel, by decide +kernel, ⟨by decide +kernel, by decide +kernel, by decide +kernel, ?_⟩,
    by decide +kernel⟩
  rintro (_ | _) <;> decide +kernel

/-- R55: a call of the context, one of this station's, one known, one new to a list of three, and to one of four. -/
theorem test_witness_calls_heard :
    (inCall onDuty .connected).clu.ctx.call = some ⟨100, 1⟩ ∧ onDuty.clu.ctx.call ≠ some ⟨300, 2⟩
      ∧ (⟨300, 2⟩ : CallId).caller ≠ onDuty.cfg.station
      ∧ (∃ h ∈ (hearing onDuty 3).pru.heard, h.id = ⟨300, 2⟩) ∧ (∀ h ∈ (hearing onDuty 4).pru.heard, h.id ≠ ⟨300, 4⟩)
      ∧ (hearing onDuty 3).pru.heard.length < 4 ∧ 4 ≤ (hearing onDuty 4).pru.heard.length
      ∧ (hearing onDuty 4).pru.heard
          = [] ++ ⟨⟨300, 0⟩, 1000, none⟩ :: [⟨⟨300, 1⟩, 1000, none⟩, ⟨⟨300, 2⟩, 1000, none⟩, ⟨⟨300, 3⟩, 1000, none⟩]
      ∧ (∀ h ∈ [(⟨⟨300, 1⟩, 1000, none⟩ : HeardCall), ⟨⟨300, 2⟩, 1000, none⟩, ⟨⟨300, 3⟩, 1000, none⟩],
          1000 ≤ h.last ∧ h.id ≠ ⟨300, 0⟩) := by decide +kernel

/-- R41: an arrival with fewer hops, by the same route, and to a SILENT entry. -/
theorem test_witness_PeerRefresh :
    (busyStation.findPeer 200).isSome = true ∧ (busyStation.findPeer 300).map Peer.present = some false
      ∧ (busyStation.findPeer 300).map Peer.hops = some 1 := by decide +kernel

theorem test_witness_PeerDeadlinesResult :
    let s := (stationAt .running 300000).setPru
      { busyStation.pru with recent := [⟨200, 1, .A, 280000⟩], beaconDue := some 300000 }
    ((s.findPeer 200).map Peer.present = some true ∧ 0 + s.cfg.silent * 1000 ≤ s.ms)
      ∧ ((s.findPeer 300).map (fun x => (x.present, x.lastHeard)) = some (false, 0) ∧ 0 + 300000 ≤ s.ms)
      ∧ (∃ h ∈ s.pru.heard, h.last + 2000 ≤ s.ms)
      ∧ (s.running = true ∧ s.pru.beaconDue = some 300000 ∧ s.configured .A = true ∧ (s.port .A).list.length < 12) := by
  decide +kernel

/-! ### Witnesses: air -/

/-- A channel with its timers due. -/
def sampling (c : Fin 7) (x : ChannelState) : State :=
  withChannel (onDuty.setAcu { onDuty.acu with gateCount := 37, gateDue := some 1000 }) c
    (fun k => { k with level := x, sampleDue := some 1000, trendDue := some 1000, acc := 960, value := 60 })

/-- R60: the codes at the edges of the working range; R62: counts of 2000 and 2001; R67, R68: each state. -/
theorem test_witness_ChannelEventsResult :
    ((sampling 0 .normal).started = true ∧ ((sampling 0 .normal).channel (0 : Fin 6).castSucc).level ≠ .unset
        ∧ ((sampling 0 .normal).channel (0 : Fin 6).castSucc).sampleDue = some 1000 ∧ 1000 ≤ (sampling 0 .normal).ms)
      ∧ (479#12).toNat < 480 ∧ 3440 < (3441#12).toNat ∧ 480 ≤ (480#12).toNat ∧ (3440#12).toNat ≤ 3440
      ∧ (((sampling 6 .starting).channel 6).level ≠ .unset ∧ (sampling 6 .starting).acu.gateDue = some 1000
        ∧ (sampling 6 .starting).acu.gateCount ≤ 2000)
      ∧ ((sampling 6 .trip).channel 6).trendDue = some 1000
      ∧ ((sampling 0 .starting).channel 0).level = .starting ∧ ((sampling 0 .fault).channel 0).level = .fault
      ∧ ((sampling 0 .normal).channel 0).faults = 0
      ∧ (((sampling 0 .normal).channel 0).acc ≤ 16 * 750 ∧ 68 ≤ 750) := by decide +kernel

/-- R93, R94: channel 0 entering TRIP from NORMAL, with room for its GAS alarm and without, and with an alarm named already;
CARBON_MONOXIDE and AIR_VELOCITY; a return to NORMAL with the alarm named ACKNOWLEDGED, and RAISED; a change of value alone,
of the rising flag alone, and none. -/
theorem test_witness_channel_event :
    (let s := sampling 0 .normal;
      let trip : Channel := { s.channel 0 with level := .trip };
      AsksRaise s 0 trip .gas (.zone 7) ∧ HasRoom s .gas
        ∧ AsksRaise (alarmed s sixteenFires) 0 trip .gas (.zone 7) ∧ ¬ HasRoom (alarmed s sixteenFires) .gas
        ∧ (∀ kind scope, ¬ AsksRaise s 0 { trip with raised := some 3 } kind scope)
        ∧ (s.channel 0).published ≠ trip.published
        ∧ (let more : Channel := { s.channel 0 with value := 61 };
          (s.channel 0).published = more.published ∧ (s.channel 0).value ≠ more.value ∧ (s.channel 0).rising = more.rising)
        ∧ (let up : Channel := { trip with rising := true };
          trip.published = up.published ∧ trip.value = up.value ∧ trip.rising ≠ up.rising))
      ∧ (let g (k : GasKind) := under (sampling 0 .fault) { station with channels := station.channels.set 0 { methane with kind := some k } };
        let trip (k : GasKind) : Channel := { (g k).channel 0 with level := .trip };
        AsksRaise (g .carbonMonoxide) 0 (trip .carbonMonoxide) .fire .all
          ∧ AsksRaise (g .airVelocity) 0 (trip .airVelocity) .vent (.zone 7)
          ∧ ∀ kind scope, ¬ AsksRaise (g .oxygen) 0 (trip .oxygen) kind scope)
      ∧ (let s (x : AlarmState) := withChannel (alarmed (sampling 0 .trip) [alarm 100 0 .gas x]) 0
          (fun c => { c with raised := some 0 });
        let back : Channel := { (s .raised).channel 0 with level := .normal };
        AsksOwnClear (s .acknowledged) 0 back 0 ∧ ∀ n, ¬ AsksOwnClear (s .raised) 0 back n) := by
  refine ⟨⟨⟨by decide +kernel, rfl, by decide +kernel, by decide +kernel, .inl ⟨by decide +kernel, rfl, rfl⟩⟩,
    .inl (by decide +kernel), ⟨by decide +kernel, rfl, by decide +kernel, by decide +kernel, .inl ⟨by decide +kernel, rfl, rfl⟩⟩,
    ?_, ?_, by decide +kernel, by decide +kernel, by decide +kernel⟩,
    ⟨⟨by decide +kernel, rfl, by decide +kernel, by decide +kernel, .inr (.inl ⟨by decide +kernel, rfl, rfl⟩)⟩,
      ⟨by decide +kernel, rfl, by decide +kernel, by decide +kernel, .inr (.inr ⟨by decide +kernel, rfl, rfl⟩)⟩, ?_⟩,
    ⟨by decide +kernel, by decide +kernel, by decide +kernel, alarm 100 0 .gas .acknowledged, by decide +kernel, rfl⟩, ?_⟩
  · rintro (h | ⟨v, h⟩)
    · exact absurd h (by decide +kernel)
    · exact no_victim _ _ _ (by decide +kernel) (.inr (by decide +kernel)) v h
  · rintro _ _ ⟨-, -, -, h, -⟩
    cases h
  · rintro kind scope ⟨-, -, -, -, h | h | h⟩ <;> exact absurd h.1 (by decide +kernel)
  · rintro n ⟨-, -, hn, a, ha, hs⟩
    obtain rfl : 0 = n := Option.some.inj ((by decide +kernel : _ = some 0).symm.trans hn)
    obtain rfl : alarm 100 0 .gas .raised = a := Option.some.inj ((by decide +kernel : _ = some _).symm.trans ha)
    exact absurd hs (by decide)

/-- A channel at a level, reading 16e, with its counts. -/
def judged (x : ChannelState) (e up clear : Nat) (least : Option ChannelState) : Channel :=
  { (sampling 0 x).channel 0 with acc := 16 * e, value := e, up := up, clear := clear, runMin := least }

/-- R68: the first and the second sample above NORMAL (N is 2), with the run minimum absent, less severe and more severe;
R69: the third and the fourth below the clear bound of TRIP (M is 4), and one above it. -/
theorem test_witness_level_changes :
    (let c := judged .normal 160 0 0 none;
      levelOf methane (c.validSample methane 160).value = .trip ∧ c.level.rank < ChannelState.trip.rank
        ∧ c.runMin = none ∧ c.up + 1 ≠ methane.n)
      ∧ (let c := judged .normal 160 1 0 (some .warn);
        levelOf methane (c.validSample methane 160).value = .trip ∧ c.runMin = some .warn
          ∧ ChannelState.warn.rank ≤ ChannelState.trip.rank ∧ c.up + 1 = methane.n)
      ∧ (let c := judged .normal 120 1 0 (some .trip);
        levelOf methane (c.validSample methane 120).value = .warn ∧ c.runMin = some .trip
          ∧ ChannelState.warn.rank < ChannelState.trip.rank)
      ∧ (let c := judged .trip 120 0 2 none;
        ¬ c.level.rank < (levelOf methane (c.validSample methane 120).value).rank
          ∧ clears methane c.level (c.validSample methane 120).value = true ∧ c.clear + 1 ≠ methane.m)
      ∧ (let c := judged .trip 120 0 3 none;
        clears methane c.level (c.validSample methane 120).value = true ∧ c.clear + 1 = methane.m)
      ∧ (let c := judged .trip 148 0 3 none;
        ¬ c.level.rank < (levelOf methane (c.validSample methane 148).value).rank
          ∧ clears methane c.level (c.validSample methane 148).value = false) := by decide +kernel

/-- R73: a rise of the limit, of half of it, of less, and an invalid older slot; a channel with no rise limit. -/
theorem test_witness_rise :
    (sampling 0 .normal).channelCfg 0 = methane ∧ methane.rise = 20
      ∧ (let older (v : Nat) (ok : Bool) := (withChannel (sampling 0 .normal) 0
            (fun c => { c with ring := c.ring.set 8 { value := v, valid := ok } })).channel 0;
          (older 40 true).ring[(older 40 true).writeIx + 8] = { value := 40, valid := true } ∧ 40 + methane.rise ≤ 60
            ∧ (older 51 true).ring[(older 51 true).writeIx + 8] = { value := 51, valid := true }
            ∧ 2 * ((60 : Int) - 51) < methane.rise
            ∧ (older 50 true).ring[(older 50 true).writeIx + 8] = { value := 50, valid := true }
            ∧ (60 < 50 + methane.rise ∧ (methane.rise : Int) ≤ 2 * ((60 : Int) - 50))
            ∧ (older 50 false).ring[(older 50 false).writeIx + 8].valid = false)
      ∧ ({ methane with rise := 0 } : ChannelConfig).rise = 0 := by decide +kernel

/-- R59: both senses, and bounds that no value meets. -/
theorem test_witness_LevelsAndClears :
    (methane.lowSense = false ∧ methane.l1 < methane.l2 ∧ clears methane .trip 144 = true
        ∧ clears methane .trip 145 = false ∧ levelOf methane 150 = .trip ∧ levelOf methane 149 = .warn
        ∧ levelOf methane 99 = .normal ∧ ({ methane with h := 150 } : ChannelConfig).l2 ≤ 150)
      ∧ (({ methane with lowSense := true, l1 := 190, l2 := 170 } : ChannelConfig).l2 < 190
        ∧ levelOf { methane with lowSense := true, l1 := 190, l2 := 170 } 170 = .trip
        ∧ levelOf { methane with lowSense := true, l1 := 190, l2 := 170 } 190 = .warn
        ∧ clears { methane with lowSense := true, l1 := 190, l2 := 170 } .trip 176 = true
        ∧ 3 * methane.fs / 2 ≤ ({ methane with l2 := 745 } : ChannelConfig).l2 + methane.h) := by decide +kernel

theorem test_witness_SecondsEventResult : onDuty.clock.secondDue ≤ onDuty.ms ∧ onDuty.started = true := by decide +kernel

/-- A peer upwind with a METHANE trip, so that a recompute holds an advance. -/
def upwindPeer : Peer :=
  { peerOf 200 true 0 with
    status := some { chainage := 0, zone := 7, roadway := 0, airflowNeg := false, bridge := false, refuge := false,
                     operator := false, slotA := none, slotB := none },
    air := some [{ channel := 0, kind := .methane, state := .trip, rising := false, value := 160 }] }

/-- R82: contributions of an own channel and of a PRESENT peer of the zone; a FAULT, which gives no value; a kind with
none. R44: a PRESENT peer whose silent timeout is over. -/
theorem test_witness_ZoneRecomputeResult :
    Contributes (sampled.setPeers [upwindPeer]) .methane .trip 160 ∧ Contributes sampled .methane .normal 60
      ∧ sampled.recompute.zae.records[(0 : Fin 5)].state = some .normal
      ∧ sampled.recompute.zae.records[(0 : Fin 5)].worst = some 60
      ∧ sampled.recompute.zae.records[(1 : Fin 5)].state = none
      ∧ (withChannel sampled 0 (fun c => { c with level := .fault })).recompute.zae.records[(0 : Fin 5)].worst = none
      ∧ (let s := (stationAt .running 300000).setPeers [upwindPeer];
          s.findPeer 200 = some upwindPeer ∧ upwindPeer.present = true
            ∧ upwindPeer.lastHeard + s.cfg.silent * 1000 ≤ s.ms) :=
  ⟨.inr ⟨upwindPeer, .head _, rfl, ⟨_, rfl, rfl⟩, _, rfl, _, .head _, rfl, by decide, by decide, rfl, rfl⟩,
    .inl ⟨0, by decide +kernel, by decide +kernel, by decide +kernel, by decide +kernel, by decide +kernel⟩,
    by decide +kernel⟩

/-- R87 to R89: an upwind tripped peer, one in the wrong direction, one in WARN; the own velocity NORMAL and in FAULT; the
source's entry usable, and none. -/
theorem test_witness_advance_source :
    (let s := under onDuty { station with chainage := 600 };
      Upwind s upwindPeer ∧ ¬ Upwind s { upwindPeer with air := none } ∧ metresTo s upwindPeer = 600)
      ∧ ¬ Upwind (under onDuty { station with chainage := 600, airflowNeg := true }) upwindPeer
      ∧ (let own (x : ChannelState) := withChannel onDuty 6 (fun c => { c with level := x, value := 12 });
        (onDuty.channelCfg 6).kind ≠ none ∧ ((own .warn).channel 6).published = .warn
          ∧ (own .warn).airVelocity upwindPeer = some 12 ∧ ((own .trip).channel 6).published ≠ .normal
          ∧ ((own .trip).channel 6).published ≠ .warn ∧ (own .trip).airVelocity upwindPeer = none
          ∧ (own .trip).airVelocity { upwindPeer with air := some [⟨6, .airVelocity, .trip, false, 9⟩] } = some 9) := by
  unfold Upwind
  refine ⟨⟨⟨rfl, ⟨_, rfl, rfl, rfl, by decide +kernel, by decide +kernel⟩, _, rfl, _, .head _, rfl, rfl⟩, ?_, by decide +kernel⟩,
    ?_, by decide +kernel⟩
  · rintro ⟨-, -, es, h, -⟩
    cases h
  · rintro ⟨-, ⟨t, h, -, -, -, hneg⟩, -⟩
    cases h
    exact absurd (hneg rfl) (by decide +kernel)

theorem test_witness_EtaOfAnAdvance :
    ((under onDuty { station with chainage := 600 }).setPeers [upwindPeer]).recompute.zae.advance
        = some { source := 200, distance := 600, eta := none, declared := 1 }
      ∧ etaOf 600 (some 9) = none ∧ etaOf 600 (some 10) = some 6000 ∧ etaOf 65535 (some 10) = some 65535 := by
  decide +kernel

theorem test_witness_PackedBlockError :
    (List.replicate 16 (32767 : Int)).length = 16 ∧ (∀ v ∈ List.replicate 16 (32767 : Int), -32768 ≤ v ∧ v ≤ 32767)
      ∧ packedExponent (packBlock (List.replicate 16 31)) = 0 ∧ packedExponent (packBlock (List.replicate 16 32)) = 1
      ∧ packedExponent (packBlock (List.replicate 16 (-32768))) = 10 ∧ 31 < mantissa 10 32256 ∧ mantissa 10 32255 ≤ 31 := by
  decide +kernel

/-! ### Witnesses: the block packer, the codec, calls -/

/-- A voice block of run 3 in flight, n blocks packed. -/
def capturing (n : Nat) (run : Option Nat) : State :=
  let s := inCall onDuty .connected
  (s.setClu { s.clu with capture := { run := run, nextRun := 4, filling := some (List.replicate 15 0), waiting := [],
                                      packed := List.replicate n (packBlock (List.replicate 16 0)) } }).setBpk
    { flight := some ⟨.voice 3, List.replicate 16 0, 0, 0, 0⟩, history := [] }

def packingFor (e : HistoryRequest) : State :=
  sampled.setBpk { flight := some ⟨.history e, List.replicate 16 0, 0, 0, 0⟩, history := [] }

theorem test_witness_PackAndCodecResult :
    ((capturing 6 (some 3)).bpk.flight.map Flight.claim = some (.voice 3) ∧ (capturing 6 (some 3)).clu.capture.run = some 3
        ∧ (capturing 6 (some 3)).clu.capture.packed.length < 7 ∧ 7 ≤ (capturing 7 (some 3)).clu.capture.packed.length
        ∧ (capturing 0 (some 4)).clu.capture.run ≠ some 3)
      ∧ (packingFor (.host 0 1)).bpk.flight.map Flight.claim = some (.history (.host 0 1))
      ∧ (packingFor (.line 0 200 .A)).bpk.flight.map Flight.claim = some (.history (.line 0 200 .A))
      ∧ waitingHost.started = false ∧ onDuty.started = true
      ∧ ((capturing 0 (some 3)).clu.capture.filling = some (List.replicate 15 0) ∧ (List.replicate 15 (0 : Int)).length = 15
        ∧ (capturing 0 (some 3)).bpk.flight ≠ none) := by decide +kernel

/-- R101: a free engine with a voice block and a history entry waiting, with the entry alone, and with neither. -/
theorem test_witness_arbiter :
    (let s := (ringTaken.setBpk { flight := none, history := [.host 0 1] });
      s.bpk.flight = none ∧ s.clu.capture.waiting = List.replicate 16 0 :: List.replicate 13 (List.replicate 16 0))
      ∧ (let s := sampled.setBpk { flight := none, history := [.host 0 1] };
        s.bpk.flight = none ∧ s.clu.capture.waiting = [] ∧ s.bpk.history = .host 0 1 :: [])
      ∧ (onDuty.clu.capture.waiting = [] ∧ onDuty.bpk.history = []) := by decide +kernel

theorem test_witness_denyTone :
    (onDuty.setTones { onDuty.clu.tones with deny := some 1600 }).clu.tones.deny = some 1600 := rfl

/-- A context with its timers due. -/
def timedCall (x : CallState) (f : CallContext → CallContext) : State :=
  let s := inCall onDuty x
  s.setCtx (f { s.clu.ctx with
    setupDue := some 1000, ringDue := some 1000, silenceDue := some 1000, holdingDue := some 1000, talkDue := some 1000,
    gapDue := some 1000 })

theorem test_witness_CallTimersResult :
    1000 ≤ onDuty.ms
      ∧ ((timedCall .outgoing (fun x => { x with setups := 2 })).clu.ctx.state = .outgoing
        ∧ (timedCall .outgoing (fun x => { x with setups := 2 })).clu.ctx.setupDue = some 1000
        ∧ (timedCall .outgoing (fun x => { x with setups := 2 })).clu.ctx.setups < 3
        ∧ 3 ≤ (timedCall .outgoing (fun x => { x with setups := 3 })).clu.ctx.setups)
      ∧ ((timedCall .paging id).clu.ctx.state = .paging ∧ (timedCall .paging id).clu.ctx.setupDue = some 1000)
      ∧ ((timedCall .ringback id).clu.ctx.state = .ringback ∧ (timedCall .incoming id).clu.ctx.ringDue = some 1000)
      ∧ ((timedCall .connected id).clu.ctx.silenceDue = some 1000 ∧ (timedCall .connected id).clu.ctx.holdingDue = some 1000)
      ∧ ((timedCall .connected (fun x => { x with floor := some .localSide })).clu.ctx.talkDue = some 1000
        ∧ (timedCall .connected (fun x => { x with floor := some .localSide })).clu.ctx.floor = some .localSide)
      ∧ (timedCall .paging (fun x => { x with talkSpan := true })).clu.ctx.talkSpan = true
      ∧ ((timedCall .hearingPage id).clu.ctx.state = .hearingPage ∧ (timedCall .hearingPage id).clu.ctx.gapDue = some 1000) := by
  decide +kernel

/-- R111: a PRESENT peer, a SILENT one, and a station that is no peer; calls of this station, of another, and a page. -/
theorem test_witness_CallFrameResult :
    (busyStation.findPeer 200).map Peer.present = some true ∧ (busyStation.findPeer 300).map Peer.present = some false
      ∧ busyStation.findPeer 400 = none ∧ (200 : Nat) ≠ 4095
      ∧ (inCall onDuty .connected).clu.ctx.state = .connected ∧ (inCall onDuty .incoming).clu.ctx.state ≠ .connected := by
  decide +kernel

/-- With a floor. -/
def withFloor (f : Floor) : State := timedCall .connected (fun x => { x with floor := some f })

/-- The states, floors and calls that the clauses on a CALL section name. -/
theorem test_witness_CallSectionResult :
    waitingHost.running = false ∧ onDuty.running = true ∧ onDuty.cfg.station = 100
      ∧ (∀ x ∈ [CallState.outgoing, .ringback, .incoming, .connected, .hearingPage, .paging],
          (inCall onDuty x).clu.ctx.call = some ⟨100, 1⟩ ∧ (inCall onDuty x).clu.ctx.state = x)
      ∧ (∀ f ∈ [Floor.none, .remote, .localSide], (withFloor f).clu.ctx.floor = some f)
      ∧ ((inCall onDuty .outgoing).clu.ctx.call ≠ some ⟨200, 1⟩ ∧ (inCall onDuty .outgoing).clu.ctx.peer = some 200
        ∧ 100 < 200)
      ∧ ((inCall (under onDuty { station with station := 300 }) .outgoing).cfg.station = 300 ∧ 200 ≤ 300)
      ∧ (onDuty.clu.ctx.state = .idle ∧ onDuty.clu.hookOff = false)
      ∧ (∀ b : Bool, ((onDuty.setHook true b).clu.hookOff, (onDuty.setHook true b).clu.hookStale) = (true, b))
      ∧ (under onDuty { station with rate := .k62 }).cfg.rate = .k62
      ∧ admissionLimit onDuty.cfg.rate
          ≤ ((hearing onDuty 2).pru.heard.filter (fun h => decide (h.id ≠ ⟨200, 1⟩))).length
      ∧ ((hearing onDuty 1).pru.heard.filter (fun h => decide (h.id ≠ ⟨200, 1⟩))).length < admissionLimit onDuty.cfg.rate := by
  decide +kernel

/-- A SETUP taken from IDLE enters INCOMING; R130: while not RUNNING the section does nothing. -/
theorem test_setup_taken :
    (onDuty.callSection 100 ⟨200, 1⟩ .setup 100 none).clu.ctx.state = .incoming
      ∧ waitingHost.callSection 100 ⟨200, 1⟩ .setup 100 none = waitingHost := by decide +kernel

/-- With a playback ring of n blocks. -/
def ringing (n given : Nat) (playing : Bool) : State :=
  onDuty.setPlayback { blocks := List.replicate n (List.replicate 16 7), given := given, playing := playing, lastBlock := none }

/-- R126: a first frame, the frame expected, and the distances 1, 8, 9, 127 and 128 from a sequence of 250; R127: rings of
63 and 64 blocks, the fifteenth and the sixteenth sample, and an empty ring. -/
theorem test_witness_VoiceAndPlaybackResult :
    onDuty.clu.ctx.expectSeq = none
      ∧ (∀ d ∈ [0, 1, 8, 9, 127, 128, 255], (250 + d) % 256 < 256
          ∧ voiceDistance (some 250) ((250 + d) % 256) = d)
      ∧ (inCall onDuty .hearingPage).clu.ctx.call = some ⟨100, 1⟩ ∧ (inCall onDuty .paging).clu.ctx.state ≠ .hearingPage
      ∧ ((withFloor .remote).clu.ctx.floor = some .remote ∧ (withFloor .localSide).clu.ctx.state = .connected)
      ∧ (ringing 63 0 false).clu.playback.blocks.length < 64 ∧ (ringing 64 0 true).clu.playback.blocks.length = 64
      ∧ ((ringing 1 14 true).clu.playback.given < 15 ∧ (ringing 1 15 true).clu.playback.given = 15
        ∧ (ringing 1 15 true).clu.playback.blocks = List.replicate 16 7 :: [])
      ∧ ((ringing 0 0 true).clu.playback.playing = true ∧ (ringing 0 0 true).clu.playback.blocks = [])
      ∧ onDuty.started = true := by decide +kernel

/-! ### Witnesses: inputs -/

/-- With the pull-cord cell set, at a level, with its timer. -/
def cellAt (immediate : Bool) (x : Level) (due : Option Nat) : State :=
  onDuty.setCell .pullCord { setting := some { immediate := immediate, t := 20 }, level := x, due := due }

theorem test_witness_InputsAndCadenceResult :
    (onDuty.rawLevel .pullCord ≠ .active ∧ (onDuty.cell .pullCord).setting = none)
      ∧ ((cellAt false .inactive none).rawLevel .pullCord ≠ .active
        ∧ ((cellAt false .inactive none).cell .pullCord).setting = some { immediate := false, t := 20 })
      ∧ (((cellAt true .inactive none).cell .pullCord).due = none
        ∧ Level.active ≠ ((cellAt true .inactive none).cell .pullCord).level)
      ∧ ((cellAt true .inactive (some 1000000)).cell .pullCord).due ≠ none
      ∧ (((cellAt false .active (some 1000000)).cell .pullCord).due = some 1000000 ∧ 1000000 ≤ onDuty.clock.usec)
      ∧ (cellAt true .inactive (some 1000000)).rawLevel .pullCord = ((cellAt true .inactive (some 1000000)).cell .pullCord).level
      ∧ (cellAt true .active (some 1000000)).rawLevel .pullCord ≠ ((cellAt true .active (some 1000000)).cell .pullCord).level
      ∧ (onDuty.setIou { onDuty.iou with cadence := some ⟨7, 1000⟩ }).iou.cadence = some ⟨7, 1000⟩ := by decide +kernel

/-- R172 to R174: T counts from the change itself, to the microsecond, here of T 20 from 999 us into a tick. -/
theorem test_debounce_counts_from_the_change :
    (let s := { cellAt false .inactive none with clock := { onDuty.clock with usec := 1000999 } };
      ((s.cellRaw .pullCord .active).cell .pullCord).due = some 1020999) := by decide +kernel

/-- A station by hotline and role, its handset off: since the start, or lifted after it. -/
def atHandset (hotline : Nat) (operator stale : Bool) : State :=
  (under onDuty { station with hotline := hotline, operator := operator }).setHook true stale

/-- R113, R130: a handset lifted after the start and one off since; each hotline; R118, R120, R123: each state and floor. -/
theorem test_witness_call_edges :
    (let s := atHandset 200 true false;
      s.running = true ∧ s.clu.ctx.state = .idle ∧ s.clu.hookOff = true ∧ s.clu.hookStale = false ∧ s.cfg.hotline ≠ 0
        ∧ s.cfg.hotline ≠ s.cfg.station ∧ s.pru.heard.length < admissionLimit s.cfg.rate)
      ∧ (atHandset 200 true true).clu.hookStale = true
      ∧ ((atHandset 4095 true false).cfg.hotline = 4095 ∧ (atHandset 4095 true false).cfg.operator = true
        ∧ (atHandset 4095 false false).cfg.operator = false)
      ∧ ((atHandset 0 true false).cfg.hotline = 0 ∧ (atHandset 100 true false).cfg.hotline = onDuty.cfg.station)
      ∧ admissionLimit (hearing (atHandset 200 true false) 2).cfg.rate
          ≤ (hearing (atHandset 200 true false) 2).pru.heard.length
      ∧ (∀ f ∈ [Floor.none, .localSide, .remote], (withFloor f).clu.ctx.floor = some f ∧ (withFloor f).clu.ctx.state = .connected)
      ∧ (∀ b, (timedCall .paging (fun x => { x with talkSpan := b })).clu.ctx.talkSpan = b)
      ∧ (inCall onDuty .incoming).clu.ctx.state = .incoming := by decide +kernel

/-- R130: a press with the handset off since the start changes nothing; one with it lifted places the call. -/
theorem test_stale_handset :
    (atHandset 200 true true).buttonPressed = atHandset 200 true true
      ∧ (atHandset 200 true false).buttonPressed.clu.ctx.state = .outgoing := by decide +kernel

/-- R62, R157, R169: a velocity channel that counts and one UNSET; a cord and a door with no alarm raised and with one; a
refuge station and none, its muster active; room for a PULLCORD, and none. -/
theorem test_witness_edges :
    ((withChannel onDuty 6 (fun c => { c with level := .starting })).channel 6).level ≠ .unset
      ∧ (onDuty.channel 6).level = .unset ∧ onDuty.started = true ∧ waitingHost.started = false
      ∧ (onDuty.aru.pullRef = none ∧ onDuty.aru.doorRef = none ∧ onDuty.aru.musterActive = false)
      ∧ (onDuty.setAru { onDuty.aru with pullRef := some 3, doorRef := some 4 }).aru.pullRef ≠ none
      ∧ (onDuty.setAru { onDuty.aru with pullRef := some 3, doorRef := some 4 }).aru.doorRef ≠ none
      ∧ ((under busyStation { station with refuge := true }).cfg.refuge = true
        ∧ (under busyStation { station with refuge := true }).aru.musterActive = true ∧ onDuty.cfg.refuge = false)
      ∧ HasRoom onDuty .pullcord ∧ ¬ HasRoom (alarmed onDuty sixteenFires) .pullcord := by
  refine ⟨by decide +kernel, by decide +kernel, by decide +kernel, by decide +kernel, by decide +kernel,
    by decide +kernel, by decide +kernel, by decide +kernel, .inl (by decide +kernel), ?_⟩
  rintro (h | ⟨v, h⟩)
  · exact absurd h (by decide +kernel)
  · exact no_victim _ _ _ (by decide +kernel) (.inr (by decide +kernel)) v h

/-! ### Witnesses: tags -/

def linkAt (x : Assembler) : State := onDuty.setTgu { onDuty.tgu with assembler := x }

/-- A SIGHTING body: tag 5, PERSON, INBYE, −50, 0 (R36). -/
def sightingBody : List Byte := [1, 0, 0, 5, 0, 206, 0, 0]

theorem test_witness_LinkBytesResult :
    (onDuty.started = true ∧ onDuty.cfg.link ≠ .notUsed) ∧ onDuty.tgu.assembler = .hunt
      ∧ (linkAt .length).tgu.assembler = .length ∧ (linkAt (.body [] 8)).tgu.assembler = .body [] 8
      ∧ (linkAt (.body (sightingBody.take 7) 214)).tgu.assembler = .body (sightingBody.take 7) 214
      ∧ (linkAt (.check sightingBody 220)).tgu.assembler = .check sightingBody 220
      ∧ (220 + (36#8).toNat) % 256 = 0 ∧ (220 + (37#8).toNat) % 256 ≠ 0
      ∧ (readSighting sightingBody).isSome = true ∧ readSighting (sightingBody.set 5 1) = none
      ∧ ((linkAt .length).tgu.assembler ≠ .hunt ∧ (linkAt .length).linkHundredBits 0 = true) := by decide +kernel

/-- n waiting persons, tags 1 to n, last seen at the tick of their tag. -/
def nearsOf (n : Nat) : List NearEntry := (List.range n).map (fun k => { nearOf (k + 1) with lastSeen := k + 1 })

def withNear (ns : List NearEntry) : State := onDuty.setTgu { onDuty.tgu with near := ns }

def sightingOf (tag : Nat) : Sighting :=
  { tag := tag, kind := .person, heading := .inbye, loaded := false, strength := -50, speed := 0 }

/-- R136, R138: an entry known; tables of 63 and of 64, tag 1 the longest unseen of the latter. -/
theorem test_witness_near_table :
    ((withNear [nearOf 5]).tgu.near.find? (fun y => decide (y.tag = (sightingOf 5).tag)) = some (nearOf 5))
      ∧ (∀ n ∈ [63, 64], (withNear (nearsOf n)).tgu.near.find? (fun y => decide (y.tag = (sightingOf 99).tag)) = none)
      ∧ (withNear (nearsOf 63)).tgu.near.length < 64
      ∧ ((withNear (nearsOf 64)).tgu.near.length = 64 ∧ { nearOf 1 with lastSeen := 1 } ∈ (withNear (nearsOf 64)).tgu.near
        ∧ (withNear (nearsOf 64)).tgu.near.Pairwise (fun a b => a.tag < b.tag)
        ∧ (∀ y ∈ (withNear (nearsOf 64)).tgu.near, y.tag ≠ 1 → 1 < y.lastSeen)
        ∧ (nearOf 1).kind = .person ∧ (nearOf 1).near = true) := by decide +kernel

/-- R137 with a threshold of -60, at its bounds: -60 and -61 to become near, -64 and -65 to stop, at each count. -/
theorem test_near_judgement :
    (let far (v : Int) (up : Nat) : NearEntry := { nearOf 5 with near := false, strength := v, up := up };
      let by' (v : Int) (down : Nat) : NearEntry := { nearOf 5 with strength := v, down := down };
      judgeNear (-60) (far (-60) 0) = far (-60) 1 ∧ judgeNear (-60) (far (-60) 1) = by' (-60) 0
        ∧ judgeNear (-60) (far (-61) 1) = far (-61) 0 ∧ judgeNear (-60) (by' (-64) 2) = by' (-64) 0
        ∧ judgeNear (-60) (by' (-65) 1) = by' (-65) 2 ∧ judgeNear (-60) (by' (-65) 2) = far (-65) 0) := by decide +kernel

/-- A truck sighting of a tag by a reporter, at a strength and a time. -/
def truckAt (tag reporter : Nat) (strength : Int) (time : Nat) : TruckSighting :=
  { tag := tag, kind := .truck, reporter := reporter, chainage := 500, strength := strength, heading := .inbye, speed := 0,
    loaded := false, time := time }

/-- n tracks, all OUTSIDE, or all in the section. -/
def tracksOf (n : Nat) (x : LaneState) : List Track :=
  (List.range n).map (fun k => { trackOf (k + 1) none none with lane := x, sighted := k })

/-- R139, R168: an active muster list of 63 and of 64, with the tag and without; a person whose near judgement changes;
a truck whose sighting is taken and one not; a count of persons that changes. -/
theorem test_witness_hand_on :
    (let mustered (n : Nat) := onDuty.setAru { onDuty.aru with musterActive := true, muster := List.range n };
      (∀ n ∈ [63, 64], 99 ∉ (mustered n).aru.muster) ∧ (mustered 63).aru.muster.length < 64
        ∧ 64 ≤ (mustered 64).aru.muster.length ∧ 5 ∈ (mustered 63).aru.muster
        ∧ ((nearOf 99).kind = .person ∧ (nearOf 99).near = true ∧ (mustered 63).cfg.musterThreshold ≤ (nearOf 99).strength))
      ∧ ((some { nearOf 5 with near := false }).map NearEntry.near).getD false ≠ (nearOf 5).near
      ∧ ((none : Option NearEntry).map NearEntry.near).getD false ≠ (nearOf 5).near
      ∧ ({ nearOf 5 with kind := .truck } : NearEntry).kind ≠ .person
      ∧ (enterTrack onDuty.tgu.tracks (truckAt 5 100 (-50) 1000)).2 = true
      ∧ (enterTrack (tracksOf 16 .inSection) (truckAt 99 100 (-50) 1000)).2 = false
      ∧ (withNear [nearOf 5]).personsNear = 1 ∧ onDuty.personsNear = 0 := by decide +kernel

/-- The tables of the tag unit, every deadline reached. -/
def tagsDue : State :=
  (stationAt .running 30000).setTgu
    { Tgu.reset with
      near := [nearOf 5, nearOf 6], tracks := [trackOf 9 (some .hold) (some 30000)], evacDue := some 30000,
      advisories := [⟨9, .hold, 5⟩], sending := some ⟨⟨9, .slow, 5⟩, advisoryBytes ⟨9, .slow, 5⟩, 0⟩ }

theorem test_witness_TagDeadlinesResult :
    (nearOf 5 ∈ tagsDue.tgu.near ∧ tagsDue.tgu.near.Pairwise (fun a b => a.tag < b.tag)
        ∧ (nearOf 5).lastSeen + tagsDue.cfg.tagExpiry * 1000 ≤ tagsDue.ms
        ∧ (nearOf 5).kind = .person ∧ (nearOf 5).near = true)
      ∧ (let truck : NearEntry := { nearOf 7 with kind := .truck };
        truck ∈ (withNear [truck]).tgu.near ∧ (withNear [truck]).tgu.near.Pairwise (fun a b => a.tag < b.tag)
          ∧ truck.kind ≠ .person ∧ ({ nearOf 8 with near := false } : NearEntry).near = false)
      ∧ (trackOf 9 (some .hold) (some 30000) ∈ tagsDue.tgu.tracks ∧ tagsDue.tgu.tracks.Pairwise (fun a b => a.tag < b.tag)
        ∧ 0 + 30000 ≤ tagsDue.ms)
      ∧ (tagsDue.tgu.evacDue = some 30000 ∧ tagsDue.cfg.link ≠ .notUsed)
      ∧ (tagsDue.tgu.sending.isSome = true ∧ tagsDue.linkHundredBits 0 = true ∧ tagsDue.running = true
        ∧ tagsDue.tgu.advisories = ⟨9, .hold, 5⟩ :: []) := by decide +kernel

/-- R147: a queue with the tag, of seven, and of eight whose least severe is the third; a newcomer below it and one of its
own severity. -/
theorem test_witness_advisory_queue :
    (let a (tag : Nat) (c : AdvisoryCode) : Advisory := ⟨tag, c, 5⟩;
      let older := [a 1 .hold, a 2 .hold];
      let newer := (List.range 5).map (fun k => a (k + 4) .slow);
      (∃ x ∈ older, x.tag = (a 2 .slow).tag) ∧ (∀ x ∈ older ++ a 3 .slow :: newer, x.tag ≠ (a 9 .proceed).tag)
        ∧ ((a 3 .hold :: older ++ newer.drop 1).length < 8 ∧ 8 ≤ (older ++ a 3 .slow :: newer).length)
        ∧ (∀ x ∈ older, AdvisoryCode.slow.severity < x.code.severity)
        ∧ (∀ x ∈ newer, AdvisoryCode.slow.severity ≤ x.code.severity)
        ∧ (a 9 .proceed).code.severity < AdvisoryCode.slow.severity
        ∧ AdvisoryCode.slow.severity ≤ (a 9 .slow).code.severity)
      ∧ (waitingHost.cfg.link = .notUsed ∧ onDuty.cfg.link ≠ .notUsed)
      ∧ (tagsDue.tgu.sending ≠ none ∧ onDuty.running = true ∧ onDuty.tgu.sending = none
        ∧ (enqueueAdvisory ⟨9, .hold, 5⟩ onDuty.tgu.advisories).1 = ⟨9, .hold, 5⟩ :: []) := by decide +kernel

/-- A claimant. -/
def claimantOf (t : Nat) (x : LaneState) (d : Option LaneDir) : Track :=
  { trackOf t none none with lane := x, dir := d, entered := some 0 }

/-- R142: what replaces a sighting and what does not; a table with room, and full ones with a victim and without. -/
theorem test_witness_sightings :
    ([trackOf 9 none none].find? (fun y => decide (y.tag = (truckAt 9 200 (-50) 0).tag)) = some (trackOf 9 none none)
        ∧ (truckAt 9 200 (-90) 0).reporter = (trackOf 9 none none).reporter
        ∧ (trackOf 9 none none).strength + 6 < (truckAt 9 300 (-43) 0).strength
        ∧ (trackOf 9 none none).sighted + 3000 < (truckAt 9 300 (-90) 3001).time)
      ∧ ((truckAt 9 300 (-44) 3000).reporter ≠ (trackOf 9 none none).reporter
        ∧ (truckAt 9 300 (-44) 3000).strength ≤ (trackOf 9 none none).strength + 6
        ∧ (truckAt 9 300 (-44) 3000).time ≤ (trackOf 9 none none).sighted + 3000)
      ∧ ((tracksOf 15 .outside).find? (fun y => decide (y.tag = 40)) = none ∧ (tracksOf 15 .outside).length < 16)
      ∧ (16 ≤ (tracksOf 16 .inSection).length ∧ ∀ y ∈ tracksOf 16 .inSection, y.lane ≠ .outside)
      ∧ (16 ≤ (tracksOf 16 .outside).length ∧ trackOf 1 none none ∈ tracksOf 16 .outside
        ∧ (∀ y ∈ tracksOf 16 .outside, y.lane = .outside → y.tag ≠ 1 → 0 < y.sighted ∨ 0 = y.sighted ∧ 1 < y.tag)
        ∧ (tracksOf 16 .outside).Pairwise (fun a b => a.tag < b.tag))
      ∧ (enterTrack onDuty.tgu.tracks (truckAt 9 200 (-50) 0)).2 = true
      ∧ (enterTrack [trackOf 9 none none] (truckAt 9 300 (-44) 3000)).2 = false := by decide +kernel

/-- R143: the section 400 to 600 with an approach of 100: its edges, the approaches' edges, and beyond them. -/
theorem test_witness_lane_states :
    let x : LaneSection := ⟨400, 600, 100⟩
    let at' (c : Nat) (h : Heading) : Track := { trackOf 9 none none with chainage := c, heading := h }
    x.pLow ≤ x.pHigh
      ∧ (placeTrack (some x) 0 (at' 400 .inbye)).lane = .inSection ∧ (placeTrack (some x) 0 (at' 600 .stopped)).lane = .inSection
      ∧ (x.pLow ≤ (at' 300 .inbye).chainage + x.approach ∧ (at' 399 .inbye).chainage < x.pLow)
      ∧ (x.pHigh < (at' 601 .outbye).chainage ∧ (at' 700 .outbye).chainage ≤ x.pHigh + x.approach)
      ∧ ((at' 299 .inbye).chainage + x.approach < x.pLow ∧ x.pHigh + x.approach < (at' 701 .outbye).chainage)
      ∧ ((at' 399 .outbye).heading ≠ .inbye ∧ (at' 601 .stopped).heading ≠ .outbye
        ∧ (at' 601 .stopped).lane ≠ .approaching)
      ∧ (claimantOf 9 .approaching (some .inbye)).lane = .approaching := by decide +kernel

/-- A station with a lane section, its tracks, and its lockout. -/
def laneAt (ts : List Track) (lockout : Bool) : State :=
  let s := under onDuty { station with lane := some ⟨400, 600, 100⟩ }
  (s.setTgu { s.tgu with tracks := ts }).setZae { s.zae with lockout := lockout }

/-- R144 to R148: claimants and none, a loser and none, a person near and none, lockout, an evacuation that begins and
one that is held. -/
theorem test_witness_LaneMonitorResult :
    winnerOf [claimantOf 1 .inSection (some .inbye), claimantOf 2 .approaching (some .outbye)]
        = some (claimantOf 1 .inSection (some .inbye))
      ∧ isLoser (claimantOf 1 .inSection (some .inbye)) (claimantOf 2 .approaching (some .outbye)) = true
      ∧ isLoser (claimantOf 1 .inSection (some .inbye)) (claimantOf 2 .approaching (some .inbye)) = false
      ∧ winnerOf [trackOf 9 none none] = none ∧ waitingHost.running = false ∧ onDuty.running = true
      ∧ onDuty.cfg.lane = none ∧ (laneAt [] false).cfg.lane = some ⟨400, 600, 100⟩ ∧ (laneAt [] true).zae.lockout = true
      ∧ (∃ n ∈ tagsDue.tgu.near, n.kind = .person ∧ n.near = true) ∧ onDuty.tgu.near = []
      ∧ ((alarmed onDuty sixteenFires).evacuation = true ∧ (alarmed onDuty sixteenFires).tgu.evacHeld = false)
      ∧ onDuty.clock.secondDue ≤ onDuty.ms ∧ onDuty.started = true := by decide +kernel

/-- R144 to R148: an inbye truck in the section shows GREEN to its own way and RED to the other; a lockout HOLDs one that
approaches and lets one in the section go SLOW. -/
theorem test_lane_evaluation :
    (let s := (laneAt [{ trackOf 9 none none with chainage := 500 }] false).laneEvaluate;
      s.iou.lampOut = some greenSteady ∧ s.iou.lampIn = some redSteady
        ∧ s.tgu.tracks.map Track.advisory = [some .proceed])
      ∧ (let s := (laneAt [{ trackOf 8 none none with chainage := 350 }, { trackOf 9 none none with chainage := 500 }] true).laneEvaluate;
        s.iou.lampOut = some redSteady ∧ s.tgu.tracks.map Track.advisory = [some .hold, some .slow]) := by
  decide +kernel

/-! ### Witnesses: alarms -/

def deliveryOf (n tries : Nat) (x : DeliveryPhase) (due : Option Nat) : Delivery :=
  { id := ⟨100, n⟩, source := .own, frame := mappedFrame n, alarmState := .raised, transmissions := tries, hearMap := [3],
    phase := x, repeatDue := due }

/-- Two peers in slots 3 and 4 of port A, and one delivery. -/
def delivering (tries : Nat) (x : DeliveryPhase) (due : Option Nat) : State :=
  let here (n slot : Nat) : Peer :=
    { peerOf n true 0 with
      status := some { chainage := 0, zone := 7, roadway := 0, airflowNeg := false, bridge := false, refuge := false,
                       operator := false, slotA := some slot, slotB := none } }
  (onDuty.setPeers [here 200 3, here 300 4]).setDeliveries .A [deliveryOf 1 tries x due]

theorem test_witness_AlarmTimersResult :
    (((delivering 1 .waiting (some 1000)).deliveriesOn .A).find? (fun x => decide (x.id = ⟨100, 1⟩)
          && (delivering 1 .waiting (some 1000)).dueMs x.repeatDue) = some (deliveryOf 1 1 .waiting (some 1000)))
      ∧ (threeAlarms.findAlarm ⟨100, 2⟩ = some (alarm 100 2 .gas .cleared) ∧ (alarm 100 2 .gas .cleared).linger = some 1000
        ∧ 1000 ≤ threeAlarms.ms)
      ∧ ((alarmed onDuty [alarm 100 5 .test .raised]).findAlarm ⟨100, 5⟩ = some (alarm 100 5 .test .raised)
        ∧ (alarm 100 5 .test .raised).testUntil = some 1000) := by decide +kernel

/-- R160: an alarm of this station handed on REMOVED, and one of another. R167: each row of the sounder's table. R168: a
refuge with an evacuation alarm, muster active and not, with its near table; none; and a station that is no refuge. -/
theorem test_witness_sounder_and_muster :
    ((alarm 100 0 .gas .raised).id.origin = onDuty.cfg.station ∧ (alarm 200 0 .gas .raised).id.origin ≠ onDuty.cfg.station)
      ∧ (let held (k : AlarmKind) := (alarmed onDuty [alarm 200 0 k .raised]).sounderPattern;
        held .fire = .fast ∧ held .evacuate = .fast ∧ held .gas = .fast ∧ held .vent = .slow ∧ held .pullcord = .slow
          ∧ held .test = .slow ∧ held .refugeDoor = .off ∧ onDuty.sounderPattern = .off
          ∧ (alarmed (under onDuty { station with refuge := true }) [alarm 200 0 .refugeDoor .raised]).sounderPattern = .slow
          ∧ (alarmed onDuty [{ alarm 200 0 .fire .raised with silenced := true }]).sounderPattern = .off)
      ∧ (let refuge (k : AlarmKind) := alarmed (under (withNear [nearOf 5, { nearOf 6 with near := false }])
            { station with refuge := true }) [alarm 200 0 k .raised];
        (refuge .fire).cfg.refuge = true ∧ Evacuates (refuge .fire) ∧ (refuge .fire).aru.musterActive = false
          ∧ (refuge .fire).aru.muster = [] ∧ (refuge .fire).tgu.near.length ≤ 64
          ∧ (refuge .fire).tgu.near.Pairwise (fun x y => x.tag < y.tag)
          ∧ (refuge .fire).testMuster.aru.muster = [5] ∧ (refuge .fire).testMuster.aru.musterActive = true
          ∧ ¬ Evacuates (refuge .vent))
      ∧ onDuty.cfg.refuge = false := by
  unfold Evacuates
  decide +kernel

/-- R94, R153, R159: a new alarm with room; the clear asked for and not; a full table with a CLEARED entry, with one of a lower
severity, with neither, and with a newcomer CLEARED itself; the same state and a later one. -/
theorem test_witness_MergeAlarmResult :
    (threeAlarms.findAlarm ⟨200, 0⟩ = none ∧ threeAlarms.aru.alarms.length < 16)
      ∧ AsksClear atNormal ⟨100, 0⟩ .acknowledged ∧ ¬ AsksClear atNormal ⟨100, 0⟩ .raised
      ∧ ¬ AsksClear atNormal ⟨200, 0⟩ .acknowledged
      ∧ (let vents := alarm 200 0 .vent .raised :: sixteenFires.drop 1;
        oneCleared.length = 16 ∧ Displaces oneCleared AlarmKind.vent.severity .cleared (alarm 200 15 .fire .cleared)
          ∧ (alarmed onDuty oneCleared).findAlarm ⟨100, 0⟩ = none
          ∧ vents.length = 16 ∧ Displaces vents AlarmKind.fire.severity .raised (alarm 200 0 .vent .raised)
          ∧ (∀ v, ¬ Displaces vents AlarmKind.fire.severity .cleared v)
          ∧ (∀ v, ¬ Displaces sixteenFires AlarmKind.fire.severity .raised v))
      ∧ (threeAlarms.findAlarm ⟨100, 1⟩ = some (alarm 100 1 .gas .acknowledged)
        ∧ AlarmState.raised.rank ≤ AlarmState.acknowledged.rank ∧ AlarmState.acknowledged.rank < AlarmState.cleared.rank)
      ∧ ((threeAlarms.mergeAlarm ⟨⟨100, 1⟩, .gas, .cleared, .zone 7, 0⟩).findAlarm ⟨100, 1⟩).isSome = true := by
  refine ⟨by decide +kernel, ⟨rfl, rfl, 0, by decide +kernel, by decide +kernel⟩, (fun h => by cases h.1),
    (fun h => absurd h.2.1 (by decide +kernel)), ⟨by decide +kernel, ?_, by decide +kernel, by decide +kernel, ?_, ?_, ?_⟩,
    by decide +kernel, by decide +kernel⟩
  · exact ⟨sixteenFires.take 15, [], by decide +kernel, .inl (by decide +kernel)⟩
  · exact ⟨[], sixteenFires.drop 1, rfl, .inr (by decide +kernel)⟩
  · exact no_victim _ _ _ (by decide +kernel) (.inl rfl)
  · exact no_victim _ _ _ (by decide +kernel) (.inr (by decide +kernel))

/-- R164: the delivery of an alarm with one on the port already, of a sixteenth alarm, and of a seventeenth, the first of the
sixteen with every expected slot heard and with one missing. -/
theorem test_witness_holds_delivery :
    (∃ x ∈ (delivering 1 .queued none).deliveriesOn .A, x.id = (deliveryOf 1 1 .queued none).id)
      ∧ (let many (n : Nat) (heard : List Nat) := (delivering 1 .queued none).setDeliveries .A
          ({ deliveryOf 2 1 .queued none with hearMap := heard } :: (List.range n).map (fun k => deliveryOf (k + 3) 1 .queued none));
        (∀ n ∈ [14, 15], ∀ x ∈ (many n []).deliveriesOn .A, x.id ≠ (deliveryOf 1 1 .queued none).id)
          ∧ ((many 14 []).deliveriesOn .A).length < 16 ∧ 16 ≤ ((many 15 []).deliveriesOn .A).length
          ∧ (∀ n ∈ (many 15 [3, 4]).expectedSlots .A, n ∈ [3, 4]) ∧ ∃ n ∈ (many 15 [3]).expectedSlots .A, n ∉ [3]) := by
  decide +kernel

/-- R165: every expected slot heard; one missing at five transmissions, and at six. -/
theorem test_witness_DeliveryOutcomeResult :
    (((delivering 5 .queued none).deliveriesOn .A).find? (fun x => decide (frameKey x.frame = frameKey (mappedFrame 1)))
        = some (deliveryOf 1 5 .queued none))
      ∧ (∀ n ∈ (delivering 5 .queued none).expectedSlots .A, n ∈ (deliveryOf 1 5 .queued none).hearMap ∨ n ∈ [4])
      ∧ (∃ n ∈ (delivering 5 .queued none).expectedSlots .A, n ∉ (deliveryOf 1 5 .queued none).hearMap ∧ n ∉ [5])
      ∧ (deliveryOf 1 5 .queued none).transmissions < 6 ∧ 6 ≤ (deliveryOf 1 6 .queued none).transmissions
      ∧ (delivering 6 .queued none).urgentHeld < 32 := by decide +kernel

end Sys2Proof.Tests
end

