-- ==== Sys2Proof/Proofs/AirChannels.lean ====
section
/-! The air channels: the answers to READ_CHANNEL (R78), and the level of a value against the clear conditions (R59). -/

namespace Sys2Proof.Machine

/-! ### A head request that R37 refuses -/

theorem byteOf_toNat {n : Nat} (h : n ≤ 255) : (byteOf n).toNat = n :=
  (BitVec.toNat_ofNat n 8).trans (Nat.mod_eq_of_lt (by omega))

/-- R183: with room for a RESPONSE and no answer being read, a request of any kind can be served. -/
theorem mayServe_of_empty {s : State} (kind : Nat) (hroom : s.urgentHeld < 32) (hempty : s.spu.answer = []) :
    s.mayServe kind = true := by
  simp [State.mayServe, hroom, hempty]

/-- R37: a head request that fails the record check leaves the queue and is answered BAD_ARGUMENT, whatever the action
of its kind is. -/
theorem serveKind_malformed {s : State} {r : List Byte} {more : List (List Byte)} (hhead : s.spu.requests = r :: more)
    (hbad : readRequest r = none) (hserve : s.mayServe (requestKind r) = true) (act : Nat → Request → State → State) :
    s.serveKind (requestKind r) act = (s.served more).respond (requestTag r) (requestKind r) .badArgument := by
  simp only [State.serveKind, hhead, hserve, and_self, if_true, State.serveHead, hbad]
  rfl

/-! ### READ_CHANNEL (R78) -/

theorem channelOf_eq_none {n : Nat} (h : 6 < n) : channelOf n = none := dif_neg (by omega)

/-- The record check of a READ_CHANNEL record looks at its channel number alone. -/
theorem readRequest_readChannel (tag channel : Byte) :
    readRequest [12#8, tag, channel] = (channelOf channel.toNat).map .readChannel := rfl

/-- An UNSET channel has no data, whether a gas kind is configured for it or not. -/
theorem serveReadChannel_unset {s : State} {c : Fin 7} (h : (s.channel c).level = .unset) (tag : Nat) :
    s.serveReadChannel tag (.readChannel c) = s.respond tag 12 .noSuch := by
  cases hkind : (s.channelCfg c).kind with
  | none => simp only [State.serveReadChannel, hkind]
  | some kind => simp only [State.serveReadChannel, hkind, h, if_true]

theorem serveReadChannel_set {s : State} {c : Fin 7} {kind : GasKind} (h : (s.channel c).level ≠ .unset)
    (hkind : (s.channelCfg c).kind = some kind) (tag : Nat) :
    s.serveReadChannel tag (.readChannel c) = s.answerTable tag 12 [s.channelItem c kind] := by
  simp only [State.serveReadChannel, hkind, h, if_false]

theorem exec_readChannel (s : State) : exec .readChannel s = .next (s.serveKind 12 State.serveReadChannel) := rfl

theorem exec_readChannel_serving {s : State} {c : Fin 7} {tag : Nat} {more : List (List Byte)}
    (h : Serving s (.readChannel c) tag more) :
    exec .readChannel s = .next ((s.served more).serveReadChannel tag (.readChannel c)) :=
  congrArg Host.Outcome.next (serveKind_serving h State.serveReadChannel)

theorem exec_readChannel_badChannel {s : State} {tag n : Nat} {more : List (List Byte)}
    (hhead : s.spu.requests = [12#8, byteOf tag, byteOf n] :: more) (hroom : s.urgentHeld < 32)
    (hempty : s.spu.answer = []) (htag : tag ≤ 255) (hchannel : 6 < n) (hn : n ≤ 255) :
    exec .readChannel s = .next ((s.served more).respond tag 12 .badArgument) := by
  have hbad : readRequest [12#8, byteOf tag, byteOf n] = none := by
    rw [readRequest_readChannel, byteOf_toNat hn, channelOf_eq_none hchannel, Option.map_none]
  have htagOf : requestTag [12#8, byteOf tag, byteOf n] = tag := byteOf_toNat htag
  have hserve := serveKind_malformed hhead hbad (mayServe_of_empty _ hroom hempty) State.serveReadChannel
  rw [htagOf] at hserve
  exact congrArg Host.Outcome.next hserve

/-- Settles O31: each of the three answers is the shared effect of a RESPONSE alone, or of a table answer. -/
theorem readChannelResult : Obligations.ReadChannelResult := by
  refine ⟨fun s tag c more h => ⟨fun hunset => ?_, fun kind hset hkind => ?_⟩,
    fun s tag n more hhead hroom hempty htag hchannel hn => ?_⟩
  · have hexec := exec_readChannel_serving h
    rw [serveReadChannel_unset (s := s.served more) hunset] at hexec
    exact ⟨_, hexec, respond_only more tag 12 .noSuch h.room⟩
  · have hexec := exec_readChannel_serving h
    rw [serveReadChannel_set (s := s.served more) hset hkind] at hexec
    exact ⟨_, hexec, answerTable_only more tag 12 [s.channelItem c kind] h.room⟩
  · exact ⟨_, exec_readChannel_badChannel hhead hroom hempty htag hchannel hn,
      respond_only more tag 12 .badArgument hroom⟩

/-! ### The level of a value and the clear conditions (R59) -/

section HighSense

variable {g : ChannelConfig} {v : Nat}

theorem levelOf_high (hs : g.lowSense = false) (v : Nat) :
    levelOf g v = if g.l2 ≤ v then .trip else if g.l1 ≤ v then .warn else .normal := by
  simp [levelOf, hs]

theorem levelOf_high_eq_trip (hs : g.lowSense = false) : levelOf g v = .trip ↔ g.l2 ≤ v := by
  rw [levelOf_high hs]
  split_ifs with htrip <;> simp [htrip]

theorem levelOf_high_eq_warn (hs : g.lowSense = false) : levelOf g v = .warn ↔ g.l1 ≤ v ∧ v < g.l2 := by
  rw [levelOf_high hs]
  split_ifs <;> simp <;> omega

theorem levelOf_high_eq_normal (hs : g.lowSense = false) (hl : g.l1 < g.l2) : levelOf g v = .normal ↔ v < g.l1 := by
  rw [levelOf_high hs]
  split_ifs <;> simp <;> omega

/-- High sense: a bound is cleared from more than the hysteresis below it. -/
theorem clearsBound_high (hs : g.lowSense = false) (bound : Nat) : clearsBound g bound v = true ↔ v + g.h < bound := by
  simp [clearsBound, hs]

end HighSense

section LowSense

variable {g : ChannelConfig} {v : Nat}

theorem levelOf_low (hs : g.lowSense = true) (v : Nat) :
    levelOf g v = if v ≤ g.l2 then .trip else if v ≤ g.l1 then .warn else .normal := by
  simp [levelOf, hs]

theorem levelOf_low_eq_trip (hs : g.lowSense = true) : levelOf g v = .trip ↔ v ≤ g.l2 := by
  rw [levelOf_low hs]
  split_ifs with htrip <;> simp [htrip]

theorem levelOf_low_eq_warn (hs : g.lowSense = true) : levelOf g v = .warn ↔ g.l2 < v ∧ v ≤ g.l1 := by
  rw [levelOf_low hs]
  split_ifs <;> simp <;> omega

theorem levelOf_low_eq_normal (hs : g.lowSense = true) (hl : g.l2 < g.l1) : levelOf g v = .normal ↔ g.l1 < v := by
  rw [levelOf_low hs]
  split_ifs <;> simp <;> omega

/-- Low sense: a bound is cleared from more than the hysteresis above it. -/
theorem clearsBound_low (hs : g.lowSense = true) (bound : Nat) : clearsBound g bound v = true ↔ bound + g.h < v := by
  simp [clearsBound, hs]

end LowSense

theorem clears_trip (g : ChannelConfig) (v : Nat) : clears g .trip v = clearsBound g g.l2 v := rfl

theorem clears_warn (g : ChannelConfig) (v : Nat) : clears g .warn v = clearsBound g g.l1 v := rfl

/-- Only WARN and TRIP have a clear condition. -/
theorem clears_eq_true {g : ChannelConfig} {x : ChannelState} {v : Nat} (h : clears g x v = true) :
    (x = .trip ∧ clearsBound g g.l2 v = true) ∨ (x = .warn ∧ clearsBound g g.l1 v = true) := by
  cases x with
  | trip => exact .inl ⟨rfl, h⟩
  | warn => exact .inr ⟨rfl, h⟩
  | unset | starting | normal | fault => cases h

/-- High sense: a bound within the hysteresis of 0 is cleared by no value. -/
theorem clearsBound_high_eq_false {g : ChannelConfig} {bound : Nat} (hs : g.lowSense = false) (hb : bound ≤ g.h)
    (v : Nat) : clearsBound g bound v = false := by
  rw [Bool.eq_false_iff, Ne, clearsBound_high hs]
  omega

/-- Low sense: a bound within the hysteresis of the greatest value reported is cleared by none up to it. -/
theorem clearsBound_low_eq_false {g : ChannelConfig} {bound top v : Nat} (hs : g.lowSense = true) (hv : v ≤ top)
    (hb : top ≤ bound + g.h) : clearsBound g bound v = false := by
  rw [Bool.eq_false_iff, Ne, clearsBound_low hs]
  omega

/-- The level of a value is one of three. -/
theorem levelOf_cases (g : ChannelConfig) (v : Nat) :
    levelOf g v = .trip ∨ levelOf g v = .warn ∨ levelOf g v = .normal := by
  unfold levelOf
  split_ifs <;> simp

/-- A level that is not TRIP ranks below it. -/
theorem rank_levelOf_lt_trip {g : ChannelConfig} {v : Nat} (h : levelOf g v ≠ .trip) :
    (levelOf g v).rank < ChannelState.trip.rank := by
  obtain ht | hw | hn := levelOf_cases g v
  · exact absurd ht h
  · rw [hw]; decide
  · rw [hn]; decide

/-- R59: the value lies beyond the bound it clears, on the safe side, so its level is below the level cleared. -/
theorem levelOf_rank_lt_of_clears {g : ChannelConfig} {x : ChannelState} {v : Nat}
    (hg : (g.lowSense = false ∧ g.l1 < g.l2) ∨ (g.lowSense = true ∧ g.l2 < g.l1)) (h : clears g x v = true) :
    (levelOf g v).rank < x.rank := by
  obtain ⟨rfl, hc⟩ | ⟨rfl, hc⟩ := clears_eq_true h
  · refine rank_levelOf_lt_trip ?_
    obtain ⟨hs, -⟩ | ⟨hs, -⟩ := hg
    · have hv := (clearsBound_high hs _).1 hc
      rw [Ne, levelOf_high_eq_trip hs]
      omega
    · have hv := (clearsBound_low hs _).1 hc
      rw [Ne, levelOf_low_eq_trip hs]
      omega
  · have hnormal : levelOf g v = .normal := by
      obtain ⟨hs, hl⟩ | ⟨hs, hl⟩ := hg
      · have hv := (clearsBound_high hs _).1 hc
        exact (levelOf_high_eq_normal hs hl).2 (by omega)
      · have hv := (clearsBound_low hs _).1 hc
        exact (levelOf_low_eq_normal hs hl).2 (by omega)
    rw [hnormal]
    decide

/-- Settles O44: the equations of each sense, and the rank of a value that clears a level. -/
theorem levelsAndClears : Obligations.LevelsAndClears := by
  refine fun g v => ⟨fun hs hl => ?_, fun hs hl => ?_, fun hg x => levelOf_rank_lt_of_clears hg⟩
  · have hclears (bound : Nat) : clearsBound g bound v = true ↔ (v : Int) < (bound : Int) - g.h := by
      rw [clearsBound_high hs]
      omega
    exact ⟨levelOf_high_eq_trip hs, levelOf_high_eq_warn hs, levelOf_high_eq_normal hs hl, hclears g.l2, hclears g.l1,
      fun hb => clearsBound_high_eq_false hs hb v, fun hb => clearsBound_high_eq_false hs hb v⟩
  · exact ⟨levelOf_low_eq_trip hs, levelOf_low_eq_warn hs, levelOf_low_eq_normal hs hl, clearsBound_low hs g.l2,
      clearsBound_low hs g.l1, clearsBound_low_eq_false hs, clearsBound_low_eq_false hs⟩

end Sys2Proof.Machine
end

