-- ==== Sys2Proof/Proofs/GasAdvance.lean ====
section
/-! The gas advance: the record a recompute holds, its ETA and its remaining time (R88, R90). -/

namespace Sys2Proof.Machine

/-! ### The record after a recompute -/

theorem rebuildZone_advance (s : State) : s.rebuildZone.zae.advance = s.rebuildAdvance := rfl

/-- R85: what a recompute does once the records and the advance are rebuilt. -/
theorem recompute_touches_after_rebuildZone (s : State) :
    OnlyTouches (.lockout :: .indications :: laneFoot) s.rebuildZone s.recompute := by
  have hlockout := (setLockout_touches s.rebuildZone s.rebuildZone.lockoutHolds).mono
    (b := .lockout :: .indications :: laneFoot) (by simp)
  have hindications := hlockout.trans (OnlyTouches.foldl (State.zoneIndication s.zae.records)
    (fun t i => (zoneIndication_touches _ t i).mono (by simp)) (List.finRange 5) _)
  unfold State.recompute
  exact .ite hindications (hindications.trans ((laneEvaluate_touches _).mono (by simp +contextual)))

/-- R88: the advance a recompute holds is the one rebuilt from the state before it. -/
theorem recompute_advance (s : State) : s.recompute.zae.advance = s.rebuildAdvance :=
  (recompute_touches_after_rebuildZone s .advance (by decide)).trans (rebuildZone_advance s)

/-- R88: an advance held has a source, and its distance and ETA are that source's. -/
theorem rebuildAdvance_eq_some {s : State} {a : Advance} (h : s.rebuildAdvance = some a) :
    ∃ x, s.advanceSource = some x ∧ a.distance = s.distanceTo x
      ∧ a.eta = etaOf (s.distanceTo x) (s.airVelocity x) := by
  obtain ⟨x, hx, rfl⟩ := Option.map_eq_some_iff.1 h
  exact ⟨x, hx, rfl, rfl⟩

/-! ### The ETA and the remaining time -/

theorem etaOf_unknown (d : Nat) : etaOf d none = none := rfl

theorem etaOf_slow (d : Nat) {v : Nat} (h : v < 10) : etaOf d (some v) = none := if_pos h

/-- R90: the model's division rounds up, and its minimum is the clamp at 65 535. -/
theorem etaOf_moving (d : Nat) {v : Nat} (h : 10 ≤ v) :
    etaOf d (some v) = some (if 65535 < d * 100 ⌈/⌉ v then 65535 else d * 100 ⌈/⌉ v) := by
  have hclamp (n : Nat) : min 65535 n = if 65535 < n then 65535 else n := by
    split <;> omega
  rw [Nat.ceilDiv_eq_add_pred_div, ← hclamp]
  exact if_neg (by omega)

/-- R90: taken as 0 when it is negative. -/
theorem remaining_eq_max (s : State) (a : Advance) (eta : Nat) :
    (s.remaining a eta : Int) = max 0 ((eta : Int) - ((s.seconds : Int) - a.declared)) := by
  rw [State.remaining, Int.toNat_eq_max, max_comm]

/-- Settles O47: the ETA by the velocity, of an advance as `recompute_advance` gives it, and the remaining time. -/
theorem etaOfAnAdvance : Obligations.EtaOfAnAdvance := by
  refine ⟨etaOf_unknown, fun d _ => etaOf_slow d, fun d v hv => ?_, fun s a ha => ?_, remaining_eq_max⟩
  · have hceil (n : Nat) : d * 100 ⌈/⌉ v ≤ n ↔ d * 100 ≤ n * v := by
      rw [ceilDiv_le_iff_le_mul (by omega), Nat.mul_comm v]
    refine ⟨d * 100 ⌈/⌉ v, (hceil _).1 le_rfl, fun hpos => ?_, etaOf_moving d hv⟩
    rw [← Nat.not_le, ← hceil]
    omega
  · obtain ⟨x, hx, hdistance, heta⟩ := rebuildAdvance_eq_some ((recompute_advance s).symm.trans ha)
    exact ⟨x, hx, by rw [heta, hdistance]⟩

end Sys2Proof.Machine
end

/-! Every command completes: what it may touch, and the invariants it keeps, one lemma a command (O1 to O12). -/

namespace Sys2Proof.Machine

/-! ### Completing within a footprint -/

/-- Composition from the last operation back: it fixes the state between. -/
theorem Keeps.after {s t u : State} (k : Keeps t u) (h : Keeps s t) : Keeps s u := h.trans k

/-- A command answers a next state, changes nothing outside a footprint, and keeps the invariants. -/
def Completes (foot : List Part) (s : State) (o : Host.Outcome State Fault Refusal) : Prop :=
  ∃ t, o = .next t ∧ OnlyTouches foot s t ∧ Keeps s t

theorem Completes.next {foot : List Part} {s t : State} (h : OnlyTouches foot s t) (k : Keeps s t) :
    Completes foot s (.next t) := ⟨t, rfl, h, k⟩

/-- A command that acts under a condition, and else leaves the state. -/
theorem Completes.when {foot : List Part} {s t : State} {c : Prop} [Decidable c] (h : OnlyTouches foot s t)
    (k : Keeps s t) : Completes foot s (.next (if c then t else s)) :=
  .next (.ite h (.refl _ _)) (.ite k (.refl _))

/-- A command that finds no subject leaves the state. -/
theorem Completes.idle (foot : List Part) (s : State) : Completes foot s (.next s) := .next (.refl _ _) (.refl _)

/-- A command that changes loose parts only. -/
theorem Completes.loose {foot : List Part} {s t : State} (h : OnlyTouches foot s t)
    (sub : ∀ x ∈ foot, x ∈ loose := by decide) : Completes foot s (.next t) := .next h (keeps_of_touches h sub)

/-- A command that serves a request of a kind. -/
theorem Completes.serve {foot : List Part} {s : State} {kind : Nat} {act : Nat → Request → State → State}
    (h : ∀ t q u, OnlyTouches foot u (act t q u)) (k : ∀ t q u, Keeps u (act t q u))
    (hr : Part.requests ∈ foot := by decide) (hi : Part.indications ∈ foot := by decide) :
    Completes foot s (.next (s.serveKind kind act)) :=
  .next (serveKind_touches s kind act foot h hr hi) (serveKind_keeps s kind act k)

/-! ### The commands of the line -/

section Line

variable (p : Port) (s : State)

theorem execCarrierStart_completes : Completes [.line p] s (execCarrierStart p s) := by
  have hset (l : Lau) := setPort_touches s p l
  refine .next (.ite (.refl _ _) (.ite (hset _) (hset _))) (.ite (.refl _) (.ite ?_ ?_)) <;>
    exact setPort_keeps_lists s p _ rfl rfl rfl

theorem execLineQuiet_completes : Completes [.draws, .line p] s (execLineQuiet p s) :=
  .next (.ite (.refl _ _) (((setPort_touches s p _).mono (by simp)).trans (settleQuiet_touches _ p)))
    (.ite (.refl _) ((settleQuiet_keeps _ p).after (setPort_keeps_lists s p _ rfl rfl rfl)))

theorem execFrameEnd_completes (g : Gathered) : Completes [.line p] s (execFrameEnd p g s) :=
  .when ((setPort_touches s p _).trans (receiveGathered_touches _ p g))
    ((receiveGathered_keeps _ p g).after (setPort_keeps_lists s p _ rfl rfl rfl))

theorem execWindowHoldEnd_completes : Completes [.draws, .line p] s (execWindowHoldEnd p s) :=
  .when (((setPort_touches s p _).mono (by simp)).trans (settleQuiet_touches _ p))
    ((settleQuiet_keeps _ p).after (setPort_keeps_lists s p _ rfl rfl rfl))

theorem execPresencePulse_completes : Completes [.line p] s (execPresencePulse p s) :=
  .when (setPort_touches s p _) (setPort_keeps_lists s p _ rfl rfl rfl)

theorem execDeferWaitExpiry_completes : Completes [.sequence, .line p] s (execDeferWaitExpiry p s) :=
  .when (enterTransmit_touches s p) (enterTransmit_keeps s p)

theorem setPort_touches_queue (l : Lau) : OnlyTouches (queueFoot p) s (s.setPort p l) :=
  (setPort_touches s p l).mono (by simp [queueFoot])

theorem count_touches_queue (f : LineCounters → LineCounters) : OnlyTouches (queueFoot p) s (s.count p f) :=
  setPort_touches_queue p s _

theorem execTransmissionComplete_completes : Completes (queueFoot p) s (execTransmissionComplete p s) :=
  .when (.ite (setPort_touches_queue p s _) ((setPort_touches_queue p s _).trans (finishService_touches _ p _ _)))
    (.ite (setPort_keeps_lists s p _ rfl rfl rfl)
      ((finishService_keeps _ p _ _).after (setPort_keeps_lists s p _ rfl rfl rfl)))

/-- R11: one more failed attempt changes no class and no queue order. -/
theorem failService_keeps (l : Lau) (hlist : l.list = (s.port p).failService)
    (hreceived : l.received = (s.port p).received) (horder : l.nextOrder = (s.port p).nextOrder) :
    Keeps s (s.setPort p l) := by
  refine setPort_keeps s p l (fun hfits => ?_) (fun hordered => ?_)
  · unfold Lau.fits at hfits ⊢
    rwa [hlist, hreceived, Lau.failService, List.length_map]
  · have hmap := ordered_map (l := s.port p)
      (fun e => if (s.port p).service = some e.order then { e with fails := e.fails + 1 } else e)
      (fun e => by split <;> rfl) (fun e => by split <;> rfl) hordered
    unfold Lau.ordered at hmap ⊢
    rwa [hlist, horder]

theorem execCollision_completes : Completes [.line p] s (execCollision p s) :=
  .when ((setPort_touches s p _).trans (count_touches _ p _))
    ((count_keeps _ p _).after (failService_keeps p s _ rfl rfl rfl))

theorem execJamEnd_completes : Completes (queueFoot p) s (execJamEnd p s) := by
  have hset (l : Lau) := setPort_touches_queue p s l
  refine .when (.ite (((hset _).trans (count_touches_queue p _ _)).trans (finishService_touches _ p _ _)) (hset _))
    (.ite ((Keeps.trans ?_ (count_keeps _ p _)).trans (finishService_keeps _ p _ _)) ?_) <;>
    exact setPort_keeps_lists s p _ rfl rfl rfl

theorem execResponseWindowEnd_completes (slots : List Nat) :
    Completes (queueFoot p) s (execResponseWindowEnd p slots s) :=
  .when ((setPort_touches_queue p s _).trans (finishService_touches _ p _ _))
    ((finishService_keeps _ p _ _).after (setPort_keeps_lists s p _ rfl rfl rfl))

end Line

/-- R21: a snapshot leaves every transmit and receive list. -/
theorem execCounterSnapshot_completes (s : State) :
    Completes (footprint .counterSnapshot) s (execCounterSnapshot s) := by
  refine .when (fun x hx => ?_) ⟨id, id, fun _ => id, id, id, id⟩
  cases x
  case line p => cases p <;> exact absurd (by decide) hx
  all_goals first | rfl | exact ⟨rfl, rfl⟩ | exact ⟨rfl, rfl, rfl⟩ | exact absurd (by decide) hx

/-! ### The frame engine's and the peer and relay unit's commands -/

theorem execFrameParse_keeps (s t : State) (h : execFrameParse s = .next t) : Keeps s t := by
  unfold execFrameParse at h
  injection h with h
  subst h
  split
  · exact .refl _
  · rename_i p _
    split
    · exact .refl _
    · rename_i r more hreceived
      have hleaves : Keeps s (s.setPort p { s.port p with received := more }) := by
        refine setPort_keeps s p _ (fun hfits => ⟨hfits.1, ?_⟩) id
        have hshorter := hfits.2
        rw [hreceived, List.length_cons] at hshorter
        show more.length ≤ 4
        omega
      have hport (u : State) (q : Port) : OnlyTouches [.lastPort] u (u.setFre { u.fre with lastPort := q }) := by
        intro x hx
        cases x <;> first | rfl | exact ⟨rfl, rfl⟩ | exact ⟨rfl, rfl, rfl⟩ | exact absurd (by decide) hx
      exact (hleaves.trans (keeps_of_touches (hport _ p))).trans (parseFrame_keeps _ p r)

theorem execFrameParse_completes (s : State) : Completes (footprint .frameParse) s (execFrameParse s) :=
  ⟨_, rfl, execFrameParse_touches s _ rfl, execFrameParse_keeps s _ rfl⟩

section Peers

variable (s : State)

theorem execPeerSilentDeadline_completes (n : Nat) :
    Completes (.peers :: recomputeFoot) s (execPeerSilentDeadline n s) := by
  unfold execPeerSilentDeadline
  split
  · exact .idle _ s
  · exact .when
      ((((updatePeer_touches s n _).wide).andThen (takeIn_touches _ _)).andThen (recompute_touches _))
      ((recompute_keeps _).after ((takeIn_keeps _ _).after (updatePeer_keeps s n _ (fun _ => rfl) (fun _ => rfl))))

theorem execPeerRemovalDeadline_completes (n : Nat) :
    Completes (.peers :: recomputeFoot) s (execPeerRemovalDeadline n s) := by
  unfold execPeerRemovalDeadline
  split
  · exact .idle _ s
  · exact .when (removePeer_touches s n) (removePeer_keeps s n)

theorem execRecentFrameExpiry_completes : Completes [.recent] s (execRecentFrameExpiry s) := by
  refine .next (fun x hx => ?_) (setPru_keeps s _ id (fun h => ?_) id id id)
  · cases x <;> first | rfl | exact ⟨rfl, rfl⟩ | exact ⟨rfl, rfl, rfl⟩ | exact absurd (by decide) hx
  · exact (List.length_filter_le _ _).trans h

theorem execCallsHeardExpiry_completes (caller number : Nat) :
    Completes [.peers, .heard] s (execCallsHeardExpiry caller number s) :=
  .when (forgetCall_touches s _) (forgetCall_keeps s _)

theorem execBeaconTimerExpiry_completes :
    Completes (.beacon :: plainQueuesFoot) s (execBeaconTimerExpiry s) :=
  .when (((requestLive_onPorts_touches _ s).wide).andThen (startBeaconPeriod_touches _ _))
    ((onPorts_keeps _ (requestLive_keeps _) s).trans (startBeaconPeriod_keeps _ _))

end Peers

/-! ### The commands of the air units and the packer -/

section Air

variable (s : State)

theorem execLoopSampleEvent_completes (c : Fin 6) (code : BitVec 12) :
    Completes channelFoot s (execLoopSampleEvent c code s) :=
  .when (channelEvent_touches s _ _) (channelEvent_keeps s _ _)

theorem execPulseGateClose_completes : Completes (.gate :: channelFoot) s (execPulseGateClose s) :=
  .when (((setGate_touches s _ _).wide).andThen (channelEvent_touches _ _ _))
    ((keeps_of_touches (setGate_touches s _ _)).trans (channelEvent_keeps _ _ _))

theorem execTrendEvent_completes (c : Fin 7) : Completes channelFoot s (execTrendEvent c s) :=
  .when (channelEvent_touches s _ _) (channelEvent_keeps s _ _)

theorem execSecondsEvent_completes : Completes (.clock :: lockoutFoot) s (execSecondsEvent s) := by
  have htime (x : Clock) : OnlyTouches (.clock :: lockoutFoot) s (s.setClock x) := (setClock_touches s x).wide
  have hkeeps (x : Clock) : Keeps s (s.setClock x) := keeps_of_touches (setClock_touches s x)
  exact .when (.ite (((htime _).andThen (evaluateLockout_touches _)).andThen (laneEvaluate_touches _)) (htime _))
    (.ite (((hkeeps _).trans (evaluateLockout_keeps _)).trans (laneEvaluate_keeps _)) (hkeeps _))

/-- R102: a pack completed frees the engine; the places of the capture ring can only become fewer by it. -/
theorem freeEngine_keeps : Keeps s (s.setBpk { s.bpk with flight := none }) :=
  setBpk_keeps s _ id (captureFits_of_le
    (Nat.add_le_add_left (Nat.zero_le _) _) (Nat.le_refl _))

theorem execPackCompletion_completes : Completes (grantFoot ++ captureFoot) s (execPackCompletion s) := by
  unfold execPackCompletion
  split
  · exact .idle _ s
  · rename_i f _
    have hfree : OnlyTouches (grantFoot ++ captureFoot) s (s.setBpk { s.bpk with flight := none }) :=
      (setBpk_touches s _).wide
    have hkeeps := freeEngine_keeps s
    dsimp only
    split
    · exact .next ((hfree.andThen (voicePacked_touches _ _ _)).andThen (arbitrate_touches _))
        ((hkeeps.trans (voicePacked_keeps _ _ _)).trans (arbitrate_keeps _))
    · exact .next ((hfree.andThen (historyPacked_touches _ _ _ _ _)).andThen (arbitrate_touches _))
        ((hkeeps.trans (historyPacked_keeps _ _ _ _ _)).trans (arbitrate_keeps _))

end Air

/-! ### The call unit's commands -/

section Calls

variable (s : State)

theorem execCodecSample_completes (mic : BitVec 16) :
    Completes ([.earpiece, .playback, .tones] ++ grantFoot) s (execCodecSample mic s) := by
  have hearpiece : OnlyTouches [.earpiece] s (s.setClu { s.clu with earpiece := 0 }) := by
    intro x hx
    cases x <;> first | rfl | exact ⟨rfl, rfl⟩ | exact ⟨rfl, rfl, rfl⟩ | exact absurd (by decide) hx
  exact .next (.ite (((codecOut_touches s).wide).andThen (captureSample_touches _ _)) hearpiece.wide)
    (.ite ((codecOut_keeps s).trans (captureSample_keeps _ _)) (keeps_of_touches hearpiece))

theorem execDenyToneEnd_completes : Completes [.tones] s (execDenyToneEnd s) := by
  unfold execDenyToneEnd
  split
  · exact .idle _ s
  · exact .when (setTones_touches s _) (setTones_keeps s _)

theorem execSetupTimerExpiry_completes : Completes (.tones :: callFrameFoot) s (execSetupTimerExpiry s) :=
  .when (.ite ((sendSetup_touches s).wide) (releaseCall_touches s _)) (.ite (sendSetup_keeps s) (releaseCall_keeps s _))

theorem execPageSetupTimerExpiry_completes : Completes (.tones :: callFrameFoot) s (execPageSetupTimerExpiry s) :=
  .when (releaseCall_touches s _) (releaseCall_keeps s _)

theorem execRingTimerExpiry_completes : Completes (.tones :: callFrameFoot) s (execRingTimerExpiry s) :=
  .when (releaseCall_touches s _) (releaseCall_keeps s _)

theorem execSilenceTimerExpiry_completes : Completes releaseFoot s (execSilenceTimerExpiry s) :=
  .when (dropCall_touches s _) (dropCall_keeps s _)

theorem execHoldingTimerExpiry_completes : Completes callFrameFoot s (execHoldingTimerExpiry s) :=
  .when (sendMessage_touches s _ _) (sendMessage_keeps s _ _)

theorem execTalkTimerExpiry_completes : Completes (.tones :: captureFoot) s (execTalkTimerExpiry s) :=
  .when
    (.ite (((giveFloor_touches s).wide).andThen (takeIn_touches _ _))
      (.ite ((endPage_touches s).andThen (takeIn_touches _ _)) (.refl _ _)))
    (.ite ((giveFloor_keeps s).trans (takeIn_keeps _ _)) (.ite ((endPage_keeps s).trans (takeIn_keeps _ _)) (.refl _)))

theorem execPageGapTimerExpiry_completes :
    Completes [.playback, .tones, .context, .indications] s (execPageGapTimerExpiry s) :=
  .when (endHeardPage_touches s) (endHeardPage_keeps s)

end Calls

/-! ### The input/output unit's commands -/

section Inputs

variable (s : State)

theorem execRawInputChange_completes (i : Input) (x : Level) :
    Completes ([.raw, .cells] ++ edgeFoot i) s (execRawInputChange i x s) :=
  .next
    (.ite (.refl _ _) (((setRaw_touches s i x).mono (by simp)).trans ((cellRaw_touches _ i x).mono (by simp +contextual))))
    (.ite (.refl _) ((keeps_of_touches (setRaw_touches s i x)).trans (cellRaw_keeps _ i x)))

theorem execDebounceTimerExpiry_completes (i : Input) :
    Completes (.cells :: edgeFoot i) s (execDebounceTimerExpiry i s) := by
  unfold execDebounceTimerExpiry
  dsimp only
  split
  · exact .idle _ s
  · exact .when (acceptEdge_touches s i _ _) (acceptEdge_keeps s i _ _)

theorem execImmediateHoldExpiry_completes (i : Input) :
    Completes (.cells :: edgeFoot i) s (execImmediateHoldExpiry i s) := by
  unfold execImmediateHoldExpiry
  dsimp only
  split
  · exact .idle _ s
  · exact .when (.ite ((setCell_touches s i _).mono (by simp)) (acceptEdge_touches s i _ _))
      (.ite (keeps_of_touches (setCell_touches s i _)) (acceptEdge_keeps s i _ _))

theorem execCadencePhaseChange_completes : Completes [.cadence] s (execCadencePhaseChange s) := by
  unfold execCadencePhaseChange
  split
  · exact .idle _ s
  · refine .loose (.ite (fun x hx => ?_) (.refl _ _))
    cases x <;> first | rfl | exact ⟨rfl, rfl⟩ | exact ⟨rfl, rfl, rfl⟩ | exact absurd (by decide) hx

end Inputs

/-! ### The tag unit's commands -/

section Tags

variable (s : State)

theorem execLinkByteReceived_completes (b : Byte) (framing overrun : Bool) :
    Completes (.assembler :: sightingFoot) s (execLinkByteReceived b framing overrun s) :=
  .next
    (.ite (.refl _ _) (.ite (((setAssembler_touches s _).wide).andThen (countLostByte_touches _ _))
      (goodByte_touches s b)))
    (.ite (.refl _) (.ite
      ((keeps_of_touches (setAssembler_touches s _)).trans (keeps_of_touches (countLostByte_touches _ _)))
      (goodByte_keeps s b)))

theorem execLinkGapTimerExpiry_completes : Completes [.assembler, .linkCounters] s (execLinkGapTimerExpiry s) := by
  refine .loose (.ite (fun x hx => ?_) (.refl _ _))
  cases x <;> first | rfl | exact ⟨rfl, rfl⟩ | exact ⟨rfl, rfl, rfl⟩ | exact absurd (by decide) hx

theorem execNearEntryExpiry_completes (n : Nat) : Completes sightingFoot s (execNearEntryExpiry n s) := by
  unfold execNearEntryExpiry
  split
  · exact .idle _ s
  · exact .when (removeNear_touches s _) (removeNear_keeps s _)

theorem execTrackRemovalDeadline_completes (n : Nat) : Completes laneFoot s (execTrackRemovalDeadline n s) := by
  have hfilter (f : Track → Bool) : Keeps s (s.setTracks (s.tgu.tracks.filter f)) :=
    setTgu_keeps s _ id (fun h => (List.length_filter_le _ _).trans h) id id (fun h => h.sublist List.filter_sublist)
  unfold execTrackRemovalDeadline
  split
  · exact .idle _ s
  · exact .when (((setTracks_touches s _).wide).andThen (laneEvaluate_touches _))
      ((hfilter _).trans (laneEvaluate_keeps _))

theorem execAdvisoryRepeatDeadline_completes (n : Nat) :
    Completes (.tracks :: advisoryFoot) s (execAdvisoryRepeatDeadline n s) := by
  unfold execAdvisoryRepeatDeadline
  split
  · exact .idle _ s
  · refine .next (((setTracks_touches s _).wide).andThen (queueAdvisory_touches _ _))
      (Keeps.trans (sameTags_keeps s _ ?_) (queueAdvisory_keeps _ _))
    rw [List.map_map]
    exact List.map_congr_left (fun t _ => by dsimp only [Function.comp]; split <;> rfl)

theorem execEvacuationRepeatTimer_completes :
    Completes [.evacuation, .advisories, .linkCounters] s (execEvacuationRepeatTimer s) :=
  .when (queueEvacuate_touches s) (queueEvacuate_keeps s)

theorem execAdvisorySendComplete_completes : Completes [.advisories] s (execAdvisorySendComplete s) := by
  unfold execAdvisorySendComplete
  split
  · exact .idle _ s
  · refine .when (OnlyTouches.trans (fun x hx => ?_) (startSending_touches _))
      ((startSending_keeps _).after (setTgu_keeps_tables s _ rfl rfl id))
    cases x <;> first | rfl | exact ⟨rfl, rfl⟩ | exact ⟨rfl, rfl, rfl⟩ | exact absurd (by decide) hx

end Tags

/-! ### The alarm and refuge unit's commands -/

section Alarms

variable (s : State)

theorem execDeliveryRepeatTimer_completes (p : Port) (origin number : Nat) :
    Completes (queueFoot p) s (execDeliveryRepeatTimer p origin number s) := by
  unfold execDeliveryRepeatTimer
  split
  · exact .idle _ s
  · exact .next (((setDeliveries_touches s p _).mono (by simp [queueFoot])).trans (queueRequest_touches _ p _))
      ((setDeliveries_keeps s p _ (fun h => by rwa [List.length_map])).trans (queueRequest_keeps _ p _))

theorem execLingerDeadline_completes (origin number : Nat) :
    Completes ([.alarms, .indications] ++ handOnFoot) s (execLingerDeadline origin number s) := by
  unfold execLingerDeadline
  split
  · exact .idle _ s
  · exact .when (removeAlarm_touches s _) (removeAlarm_keeps s _)

theorem execTestWindowExpiry_completes (origin number : Nat) :
    Completes [.alarms, .sounder] s (execTestWindowExpiry origin number s) := by
  unfold execTestWindowExpiry
  split
  · exact .idle _ s
  · rename_i a hfind
    exact .when (((replaceAlarm_touches s _).wide).andThen (decideSounder_touches _))
      (Keeps.after (keeps_of_touches (decideSounder_touches _))
        (replaceAlarm_keeps s a _ (findAlarm_mem hfind).1 rfl rfl rfl))

end Alarms

/-! ### The start commands, the transfer and the coalescing timer -/

section Start

variable (s : State)

theorem execConfigReadCompletion_completes (answer : Option (List Byte)) :
    Completes (.intake :: joiningFoot) s (execConfigReadCompletion answer s) := by
  have hwaiting := setPart_touches s .waiting s.spu.joinDue
  unfold execConfigReadCompletion
  split
  · split
    · exact .next (startWith_touches s _) (startWith_keeps s _)
    · exact .next hwaiting.wide (keeps_of_touches hwaiting)
  · exact .idle _ s

theorem execJoiningTimerExpiry_completes : Completes runningFoot s (execJoiningTimerExpiry s) :=
  .when (enterRunning_touches s) (enterRunning_keeps s)

theorem execHostTransfer_completes (bytes : List Byte) :
    Completes [.requests, .answer, .indications, .portOut] s (execHostTransfer bytes s) :=
  .next (.ite (.refl _ _) (transfer_touches s bytes)) (.ite (.refl _) (transfer_keeps s bytes))

theorem execUnknownRequest_completes : Completes [.requests, .indications] s (execUnknownRequest s) := by
  unfold execUnknownRequest
  split
  · exact .idle _ s
  · rename_i r more hhead
    have hleaves : Keeps s (s.setSpu { s.spu with requests := more }) := by
      refine setSpu_keeps s _ (fun h => ?_) id (fun h k => ⟨h, k⟩)
      rw [hhead, List.length_cons] at h
      exact (Nat.le_succ _).trans h
    exact .when (((served_touches s more).wide).andThen (respond_touches _ _ _ _))
      (hleaves.trans (respond_keeps _ _ _ _))

theorem execCoalescingTimerExpiry_completes : Completes [.indications] s (execCoalescingTimerExpiry s) := by
  unfold execCoalescingTimerExpiry
  split
  · refine .when (fun x hx => ?_) (setSpu_keeps s _ id id (fun h k => ⟨h, k⟩))
    cases x <;> first | rfl | exact ⟨rfl, rfl⟩ | exact ⟨rfl, rfl, rfl⟩ | exact absurd (by decide) hx
  · exact .idle _ s

end Start

/-! ### Every command -/

/-- Every command completes within its footprint, and keeps the invariants. -/
theorem exec_completes (c : Instr) (s : State) : Completes (footprint c) s (exec c s) := by
  cases c with
  | hardReset => exact .next (hardReset_touches s) (hardReset_keeps s)
  | configReadCompletion answer => exact execConfigReadCompletion_completes s answer
  | joiningTimerExpiry => exact execJoiningTimerExpiry_completes s
  | hostTransfer bytes => exact execHostTransfer_completes s bytes
  | unknownRequest => exact execUnknownRequest_completes s
  | configure => exact .serve serveConfigure_touches serveConfigure_keeps
  | start => exact .serve serveStart_touches serveStart_keeps
  | restart => exact .serve serveRestart_touches serveRestart_keeps
  | placeCall => exact .serve servePlaceCall_touches servePlaceCall_keeps
  | releaseCall => exact .serve serveReleaseCall_touches serveReleaseCall_keeps
  | raiseAlarm => exact .serve serveRaise_touches serveRaise_keeps
  | acknowledgeAlarm => exact .serve serveAcknowledge_touches serveAcknowledge_keeps
  | clearAlarm => exact .serve serveClear_touches serveClear_keeps
  | silence => exact .serve serveSilence_touches serveSilence_keeps
  | sendText => exact .serve serveSendText_touches serveSendText_keeps
  | readHistory => exact .serve serveReadHistory_touches serveReadHistory_keeps
  | readChannel => exact .serve serveReadChannel_touches serveReadChannel_keeps
  | readPeers => exact .serve (fun t _ u => (answerTable_touches u t 13 _).wide) serveReadPeers_keeps
  | readAlarms => exact .serve (fun t _ u => (answerTable_touches u t 14 _).wide) serveReadAlarms_keeps
  | readTags => exact .serve (fun t _ u => (answerTable_touches u t 15 _).wide) serveReadTags_keeps
  | readCounters => exact .serve (fun t _ u => (answerTable_touches u t 16 _).wide) serveReadCounters_keeps
  | requestHistory => exact .serve serveRequestHistory_touches serveRequestHistory_keeps
  | coalescingTimerExpiry => exact execCoalescingTimerExpiry_completes s
  | carrierStart p => exact execCarrierStart_completes p s
  | lineQuiet p => exact execLineQuiet_completes p s
  | frameEnd p g => exact execFrameEnd_completes p s g
  | windowHoldEnd p => exact execWindowHoldEnd_completes p s
  | presencePulse p => exact execPresencePulse_completes p s
  | deferWaitExpiry p => exact execDeferWaitExpiry_completes p s
  | transmissionComplete p => exact execTransmissionComplete_completes p s
  | collision p => exact execCollision_completes p s
  | jamEnd p => exact execJamEnd_completes p s
  | responseWindowEnd p slots => exact execResponseWindowEnd_completes p s slots
  | counterSnapshot => exact execCounterSnapshot_completes s
  | frameParse => exact execFrameParse_completes s
  | peerSilentDeadline n => exact execPeerSilentDeadline_completes s n
  | peerRemovalDeadline n => exact execPeerRemovalDeadline_completes s n
  | recentFrameExpiry => exact execRecentFrameExpiry_completes s
  | callsHeardExpiry caller number => exact execCallsHeardExpiry_completes s caller number
  | beaconTimerExpiry => exact execBeaconTimerExpiry_completes s
  | loopSampleEvent c code => exact execLoopSampleEvent_completes s c code
  | pulseGateClose => exact execPulseGateClose_completes s
  | trendEvent c => exact execTrendEvent_completes s c
  | secondsEvent => exact execSecondsEvent_completes s
  | packCompletion => exact execPackCompletion_completes s
  | codecSample mic => exact execCodecSample_completes s mic
  | denyToneEnd => exact execDenyToneEnd_completes s
  | setupTimerExpiry => exact execSetupTimerExpiry_completes s
  | pageSetupTimerExpiry => exact execPageSetupTimerExpiry_completes s
  | ringTimerExpiry => exact execRingTimerExpiry_completes s
  | silenceTimerExpiry => exact execSilenceTimerExpiry_completes s
  | holdingTimerExpiry => exact execHoldingTimerExpiry_completes s
  | talkTimerExpiry => exact execTalkTimerExpiry_completes s
  | pageGapTimerExpiry => exact execPageGapTimerExpiry_completes s
  | rawInputChange i x => exact execRawInputChange_completes s i x
  | debounceTimerExpiry i => exact execDebounceTimerExpiry_completes s i
  | immediateHoldExpiry i => exact execImmediateHoldExpiry_completes s i
  | linkByteReceived b framing overrun => exact execLinkByteReceived_completes s b framing overrun
  | linkGapTimerExpiry => exact execLinkGapTimerExpiry_completes s
  | nearEntryExpiry n => exact execNearEntryExpiry_completes s n
  | trackRemovalDeadline n => exact execTrackRemovalDeadline_completes s n
  | advisoryRepeatDeadline n => exact execAdvisoryRepeatDeadline_completes s n
  | evacuationRepeatTimer => exact execEvacuationRepeatTimer_completes s
  | advisorySendComplete => exact execAdvisorySendComplete_completes s
  | deliveryRepeatTimer p origin number => exact execDeliveryRepeatTimer_completes s p origin number
  | lingerDeadline origin number => exact execLingerDeadline_completes s origin number
  | testWindowExpiry origin number => exact execTestWindowExpiry_completes s origin number
  | cadencePhaseChange => exact execCadencePhaseChange_completes s

theorem exec_touches {c : Instr} {s t : State} (h : exec c s = .next t) : OnlyTouches (footprint c) s t := by
  obtain ⟨u, hu, htouches, -⟩ := exec_completes c s
  obtain rfl : u = t := Host.Outcome.next.inj (hu.symm.trans h)
  exact htouches

theorem exec_keeps {c : Instr} {s t : State} (h : exec c s = .next t) : Keeps s t := by
  obtain ⟨u, hu, -, hkeeps⟩ := exec_completes c s
  obtain rfl : u = t := Host.Outcome.next.inj (hu.symm.trans h)
  exact hkeeps

theorem pending_not_mem_edgeFoot (i : Input) : Part.pending ∉ edgeFoot i := by cases i <;> decide

/-- No command's footprint holds the queue of commands. -/
theorem pending_not_mem_footprint (c : Instr) : Part.pending ∉ footprint c := by
  cases c with
  | rawInputChange i x => simp [footprint, pending_not_mem_edgeFoot]
  | debounceTimerExpiry i => simp [footprint, pending_not_mem_edgeFoot]
  | immediateHoldExpiry i => simp [footprint, pending_not_mem_edgeFoot]
  | _ => simp [footprint, queueFoot] <;> decide

/-! ### One step -/

theorem step_of_empty {s : State} (h : s.pending = []) : step s = .next s.tick := by
  simp only [step, h]

theorem step_of_cons {c : Instr} {rest : List Instr} {s : State} (h : s.pending = c :: rest) :
    step s = exec c (s.setPending rest) := by
  simp only [step, h]

theorem setPending_touches (s : State) (x : List Instr) : OnlyTouches [.pending] s (s.setPending x) := by
  intro y hy
  cases y <;> first | rfl | exact ⟨rfl, rfl⟩ | exact ⟨rfl, rfl, rfl⟩ | exact absurd (by decide) hy

theorem tick_touches (s : State) : OnlyTouches [.pending, .clock] s s.tick :=
  ((setClock_touches s _).wide).andThen (setPending_touches _ _)

/-- One step keeps every invariant: what every reachable state has. -/
theorem step_keeps {s t : State} (h : step s = .next t) : Keeps s t := by
  cases hqueue : s.pending with
  | nil =>
    rw [step_of_empty hqueue] at h
    obtain rfl := Host.Outcome.next.inj h
    exact keeps_of_touches (tick_touches s)
  | cons c rest =>
    rw [step_of_cons hqueue] at h
    exact (keeps_of_touches (setPending_touches s rest)).trans (exec_keeps h)

/-! ### The statements -/

/-- Settles O1: the definition of a step on a queue with a front command. -/
theorem stepRunsTheFrontCommand : Obligations.StepRunsTheFrontCommand := fun _ _ _ => step_of_cons

theorem dueCommands_setPending (s : State) (x : List Instr) : (s.setPending x).dueCommands = s.dueCommands := rfl

/-- Settles O2: a step on an empty queue is a tick, and the queue is no part of what is due. -/
theorem emptyQueueRunsTheClock : Obligations.EmptyQueueRunsTheClock := fun s h =>
  ⟨s.tick, step_of_empty h, rfl, rfl, rfl, (dueCommands_setPending _ _).symm, tick_touches s⟩

/-- Settles O3: every command completes, and no footprint holds the queue. -/
theorem commandsCompleteAndKeepTheQueue : Obligations.CommandsCompleteAndKeepTheQueue := by
  intro c s
  obtain ⟨t, ht, htouches, -⟩ := exec_completes c s
  exact ⟨t, ht, htouches .pending (pending_not_mem_footprint c)⟩

/-- Settles O6: the capacities are the first part of what a step keeps. -/
theorem stepKeepsCapacity : Obligations.StepKeepsCapacity := fun _ _ hs h => (step_keeps h).capacity hs

/-- Settles O7: from what a step keeps. -/
theorem stepKeepsMuster : Obligations.StepKeepsMuster := fun _ _ hs h => (step_keeps h).muster hs

/-- Settles O8: from what a step keeps in a state within capacity. -/
theorem stepKeepsTables : Obligations.StepKeepsTables := fun _ _ hcap hs h => (step_keeps h).tables hcap hs

/-- Settles O9: from what a step keeps. -/
theorem stepKeepsTransmitOrder : Obligations.StepKeepsTransmitOrder := fun _ _ hs h => (step_keeps h).lists hs

/-- Settles O10: from what a step keeps. -/
theorem stepKeepsFlagsAndNumbers : Obligations.StepKeepsFlagsAndNumbers :=
  ⟨fun _ _ hs h => (step_keeps h).calls hs, fun _ _ hs h => (step_keeps h).numbers hs⟩

/-- The footprint of each command holds for every family it may belong to. -/
theorem familyFrame (f : Family) : FamilyFrame f := fun _ _ _ _ h => exec_touches h

/-- Settles O11: every command stays in its footprint. -/
theorem stationAndLineFrame : Obligations.StationAndLineFrame :=
  ⟨familyFrame .start, familyFrame .request, familyFrame .line, familyFrame .frames⟩

/-- Settles O12: every command stays in its footprint. -/
theorem unitFrame : Obligations.UnitFrame :=
  ⟨familyFrame .air, familyFrame .call, familyFrame .input, familyFrame .tag, familyFrame .alarm⟩

end Sys2Proof.Machine


/-! The part states: what a hard reset leaves, entry to JOINING and RUNNING, and START and RESTART (O4, O5, O13 to O17). -/

namespace Sys2Proof.Machine

/-! ### Reset values -/

theorem reset_port (p : Port) : State.reset.port p = Lau.reset := by cases p <;> rfl

theorem reset_parse (p : Port) : State.reset.fre.parse.get p = ParseCounters.zero := by cases p <;> rfl

theorem reset_channel (c : Fin 7) : State.reset.channel c = Channel.reset := by
  simp [State.channel, State.reset, Acu.reset]

theorem reset_cell (i : Input) : State.reset.cell i = { setting := none, level := .inactive, due := none } := by
  cases i <;> rfl

theorem reset_record (i : Fin 5) : State.reset.zae.records[i] = { state := none, worst := none, lowSense := false } := by
  simp [State.reset, Zae.reset]

/-- The thirteen counters of a port are zero, and the six of the link. -/
theorem zero_counters :
    LineCounters.zero.all ++ ParseCounters.zero.all
        = List.replicate 13 { live := 0, mark := false, snap := 0, overflow := false }
      ∧ LinkCounters.zero.all = List.replicate 6 { live := 0, mark := false, snap := 0, overflow := false } :=
  ⟨rfl, rfl⟩

/-- Settles O4: each unit's reset values, read off its definition. -/
theorem resetState : Obligations.ResetState := by
  have hrepeat (k : LiveKind) : Lau.reset.repeatOf k = false := by cases k <;> rfl
  have hring (i : Fin 16) : Channel.reset.ring[i].valid = false := by simp [Channel.reset]
  unfold Obligations.ResetState
  simp only [reset_port, reset_parse, reset_channel, reset_cell, reset_record, hrepeat, hring]
  simp only [Lau.reset, zero_counters, Channel.reset]
  simp [State.attention, State.reset, Spu.reset, Fre.reset, Pru.reset, Acu.reset, Zae.reset, Bpk.reset, Clu.reset,
    CallContext.idle, Playback.empty, Tgu.reset, Aru.reset, Iou.reset, zero_counters]

/-- Settles O5: every list, queue and table of a hard reset is empty. -/
theorem resetHoldsTheInvariants : Obligations.ResetHoldsTheInvariants := by
  refine ⟨?_, ?_, ?_, ?_, ?_, ?_⟩
  · simp [Capacity, Lau.fits, CaptureFits, State.placesTaken, State.inFlightPlaces, State.reset, Spu.reset, Lau.reset,
      Pru.reset, Bpk.reset, Clu.reset, Playback.empty, Tgu.reset, Aru.reset]
  · simp [MusterOk, State.reset, Aru.reset]
  · simp [TablesOk, State.reset, Pru.reset, Tgu.reset, Aru.reset]
  · simp [ListsOrdered, Lau.ordered, State.reset, Lau.reset]
  · simp [InCallOk, State.reset, Pru.reset]
  · simp [NumbersOk, State.reset, Fre.reset, Clu.reset, Aru.reset]

/-- Settles O13: unit by unit, the values of `State.reset`. -/
theorem hardResetResult : Obligations.HardResetResult := fun s =>
  ⟨s.hardReset, rfl, rfl, rfl, rfl, rfl, rfl, rfl, rfl, rfl, rfl, rfl, fun p => by cases p <;> rfl, rfl, rfl, rfl⟩

/-! ### Entry to JOINING (R178) -/

/-- R149: the lane monitor is evaluated while the part is RUNNING only. -/
theorem laneEvaluate_not_running {s : State} (h : s.running = false) : s.laneEvaluate = s := by
  simp [State.laneEvaluate, h]

theorem touched_running {foot : List Part} {s t : State} (h : OnlyTouches foot s t)
    (k : Part.partState ∉ foot := by decide) : t.running = s.running := by
  unfold State.running
  rw [(h .partState k).1]

/-- A recompute while the part is not RUNNING hands nothing to the lane monitor. -/
theorem recompute_touches_not_running {s : State} (h : s.running = false) :
    OnlyTouches [.zone, .advance, .lockout, .indications] s s.recompute := by
  unfold State.recompute
  dsimp only
  have hzone : OnlyTouches [.zone, .advance, .lockout, .indications] s
      ((List.finRange 5).foldl (State.zoneIndication s.zae.records)
        (s.rebuildZone.setZae { s.rebuildZone.zae with lockout := s.rebuildZone.lockoutHolds })) :=
    (((rebuildZone_touches s).wide).andThen (setLockout_touches _ _)).trans
      (.foldl _ (fun t i => (zoneIndication_touches _ t i).wide) _ _)
  rw [laneEvaluate_not_running ((touched_running hzone).trans h), ite_self]
  exact hzone

/-- The state at the start of JOINING, before the units start. -/
def State.joined (s : State) : State :=
  s.setSpu { s.spu with part := .joining, joinDue := some (s.ms + 2000 * s.cfg.beacon) }

theorem joined_touches (s : State) : OnlyTouches [.partState] s s.joined := setPart_touches s _ _

theorem joined_not_running (s : State) : s.joined.running = false := rfl

/-- The air units started, and the zone recomputed. -/
def State.airStarted (s : State) : State := s.joined.startChannels.setSenses.recompute

theorem enterJoining_eq (s : State) : s.enterJoining = (s.airStarted.startCells.reportLevels).decideSounder := rfl

theorem airStarted_touches_after_channels (s : State) :
    OnlyTouches [.zone, .advance, .lockout, .indications] s.joined.startChannels s.airStarted :=
  ((setSenses_touches _).wide).andThen (recompute_touches_not_running
    ((touched_running ((startChannels_touches s.joined).wide.andThen (setSenses_touches _)
      (b := [.zone]) (a := [.channels, .gate, .zone]))).trans (joined_not_running s)))

theorem inputsStarted_touches (t : State) :
    OnlyTouches [.cells, .cadence, .hook, .door, .sounder] t ((t.startCells.reportLevels).decideSounder) :=
  (((startCells_touches t).wide).andThen (reportLevels_touches _)).andThen (decideSounder_touches _)

/-- What entry to JOINING leaves alone once the channels are started. -/
theorem enterJoining_touches_after_channels (s : State) :
    OnlyTouches [.zone, .advance, .lockout, .indications, .cells, .cadence, .hook, .door, .sounder]
      s.joined.startChannels s.enterJoining :=
  ((airStarted_touches_after_channels s).wide).andThen (inputsStarted_touches _)

/-- R178: entry to JOINING touches no table of the tag unit: the lane monitor is not evaluated yet. -/
theorem enterJoining_touches_no_tables (s : State) :
    OnlyTouches [.partState, .channels, .gate, .zone, .advance, .lockout, .indications, .cells, .cadence, .hook, .door,
      .sounder] s s.enterJoining :=
  (((joined_touches s).wide).andThen (startChannels_touches _)).andThen (enterJoining_touches_after_channels s)

theorem startChannels_channel (s : State) (c : Fin 7) :
    s.startChannels.channel c = startChannel (s.channelCfg c) (decide (c.val < 6)) s.ms (s.channel c) := by
  simp [State.startChannels, State.channel]

theorem startCells_cell (s : State) (i : Input) :
    s.startCells.cell i
      = { setting := some s.cfg.cells[inputIndex i], level := s.iou.raw[inputIndex i], due := none } := by
  simp [State.startCells, State.cell]

theorem reportLevels_hook (s : State) :
    s.reportLevels.clu.hookOff = decide (s.rawLevel .hook = .active)
      ∧ s.reportLevels.clu.hookStale = decide (s.rawLevel .hook = .active) := by
  unfold State.reportLevels
  dsimp only
  split <;> exact ⟨rfl, rfl⟩

theorem reportLevels_door {s : State} (h : s.cfg.refuge = true) :
    s.reportLevels.aru.doorOpen = decide (s.rawLevel .refugeDoor = .active) := by
  have hcfg (off stale : Bool) : (s.setHook off stale).cfg.refuge = true := h
  simp only [State.reportLevels, hcfg, if_true]
  rfl

theorem airStarted_touches (s : State) :
    OnlyTouches [.channels, .gate, .zone, .advance, .lockout, .indications] s.joined s.airStarted :=
  ((startChannels_touches s.joined).wide).andThen (airStarted_touches_after_channels s)

theorem airStarted_ms (s : State) : s.airStarted.ms = s.ms := touched_ms (s := s.joined) (airStarted_touches s)

theorem airStarted_cfg (s : State) : s.airStarted.cfg = s.cfg := touched_cfg (s := s.joined) (airStarted_touches s)

theorem airStarted_raw (s : State) : s.airStarted.iou.raw = s.iou.raw := airStarted_touches s .raw (by decide)

/-- The levels the hook and the door are reported with are those of the pins. -/
theorem airStarted_rawLevel (s : State) (i : Input) :
    s.airStarted.startCells.rawLevel i = s.iou.raw[inputIndex i] := by
  show s.airStarted.iou.raw[inputIndex i] = _
  rw [airStarted_raw]

theorem enterJoining_partState (s : State) :
    s.enterJoining.spu.part = .joining ∧ s.enterJoining.spu.config = s.spu.config
      ∧ s.enterJoining.spu.joinDue = some (s.ms + 2000 * s.cfg.beacon) := by
  obtain ⟨hpart, hjoin, hconfig⟩ :=
    ((airStarted_touches s).wide.andThen (inputsStarted_touches s.airStarted)
      (a := [.channels, .gate, .zone, .advance, .lockout, .indications, .cells, .cadence, .hook, .door, .sounder]))
      .partState (by decide)
  exact ⟨hpart, hconfig, hjoin⟩

theorem enterJoining_channel (s : State) (c : Fin 7) : s.enterJoining.channel c
    = startChannel s.cfg.channels[c] (decide (c.val < 6)) s.ms (s.channel c) :=
  (touched_channel (enterJoining_touches_after_channels s) (by decide) c).trans (startChannels_channel s.joined c)

theorem enterJoining_gate (s : State) :
    s.enterJoining.acu.gateDue = if s.cfg.channels[6].kind.isSome then some (s.ms + 1000) else none :=
  (enterJoining_touches_after_channels s .gate (by decide)).2

/-- After the cells start, only the levels are reported and the sounder decided. -/
theorem enterJoining_touches_after_cells (s : State) :
    OnlyTouches [.hook, .door, .sounder] s.airStarted.startCells s.enterJoining :=
  ((reportLevels_touches _).wide).andThen (decideSounder_touches _)

theorem enterJoining_cell (s : State) (i : Input) : s.enterJoining.cell i
    = { setting := some s.cfg.cells[inputIndex i], level := s.iou.raw[inputIndex i], due := none } := by
  have hcells := enterJoining_touches_after_cells s .cells (by decide)
  have hcell := startCells_cell s.airStarted i
  rw [airStarted_cfg, airStarted_raw] at hcell
  rw [← hcell]
  unfold State.cell
  rw [hcells]

theorem enterJoining_cadence (s : State) : s.enterJoining.iou.cadence = some { phase := 0, due := s.ms + 125 } := by
  rw [← airStarted_ms s]
  exact enterJoining_touches_after_cells s .cadence (by decide)

theorem enterJoining_hook (s : State) :
    s.enterJoining.clu.hookOff = decide (s.iou.raw[inputIndex .hook] = .active)
      ∧ s.enterJoining.clu.hookStale = decide (s.iou.raw[inputIndex .hook] = .active) := by
  rw [← airStarted_rawLevel s .hook]
  exact reportLevels_hook s.airStarted.startCells

theorem enterJoining_door {s : State} (h : s.cfg.refuge = true) :
    s.enterJoining.aru.doorOpen = decide (s.iou.raw[inputIndex .refugeDoor] = .active) := by
  rw [← airStarted_rawLevel s .refugeDoor]
  exact reportLevels_door (s := s.airStarted.startCells) ((congrArg Configuration.refuge (airStarted_cfg s)).trans h)

theorem cfg_of_config {s : State} {g : Configuration} (h : s.spu.config = some g) : s.cfg = g := by
  rw [State.cfg, h, Option.getD_some]

/-- R178: entry to JOINING with a configuration. -/
theorem enterJoining_entered {s : State} {g : Configuration} (h : s.spu.config = some g) :
    JoiningEntered s.ms s.iou.raw s.enterJoining g := by
  obtain rfl := cfg_of_config h
  obtain ⟨hpart, hconfig, hjoin⟩ := enterJoining_partState s
  obtain ⟨hoff, hstale⟩ := enterJoining_hook s
  refine ⟨hpart, hconfig.trans h, ?_, fun c hkind => ?_, fun hkind => ?_, enterJoining_cell s, enterJoining_cadence s,
    hoff, hstale, enterJoining_door⟩
  · rw [hjoin]
    congr 2
    omega
  · rw [enterJoining_channel]
    simp only [startChannel, hkind, if_true, Nat.mul_comm, true_and]
    exact fun hloop => by simp [hloop]
  · rw [enterJoining_gate, if_pos hkind]

/-! ### CONFIG_READ_COMPLETION, START and RESTART (R177, R179, R181) -/

theorem readImage_ok {bytes : List Byte} (h : imageFault bytes = none) : readImage bytes = .ok (configurationOf bytes) := by
  simp only [readImage, h]

theorem readImage_error {bytes : List Byte} {i : Nat} (h : imageFault bytes = some i) : readImage bytes = .error i := by
  simp only [readImage, h]

theorem startWith_entered (s : State) (g : Configuration) : JoiningEntered s.ms s.iou.raw (s.startWith g) g :=
  enterJoining_entered (s := s.setSpu { s.spu with config := some g, held := none, assembly := none }) rfl

/-- A read that brings no passing image leaves the part waiting for the host. -/
theorem enterWaiting_only (s : State) :
    (s.setSpu { s.spu with part := .waiting }).spu = { s.spu with part := .waiting }
      ∧ OnlyTouches [.partState] s (s.setSpu { s.spu with part := .waiting }) :=
  ⟨rfl, setPart_touches s .waiting s.spu.joinDue⟩

theorem exec_configReadCompletion_loading {s : State} (h : s.spu.part = .loading) (answer : Option (List Byte)) :
    exec (.configReadCompletion answer) s
      = .next (match answer.map readImage with
          | some (.ok g) => s.startWith g
          | _ => s.setSpu { s.spu with part := .waiting }) :=
  congrArg Host.Outcome.next (if_pos h)

/-- Settles O14: by what the memory answers. -/
theorem configReadResult : Obligations.ConfigReadResult := by
  intro s hloading
  have hexec := exec_configReadCompletion_loading hloading
  refine ⟨fun bytes hpass => ?_, fun bytes hfail => ?_, _, hexec none, enterWaiting_only s⟩
  · refine ⟨s.startWith (configurationOf bytes), ?_, startWith_entered s _⟩
    rw [hexec, Option.map_some, readImage_ok hpass]
  · obtain ⟨i, hi⟩ := Option.ne_none_iff_exists'.1 hfail
    refine ⟨_, ?_, enterWaiting_only s⟩
    rw [hexec, Option.map_some, readImage_error hi]

theorem exec_start_serving {s : State} {tag : Nat} {more : List (List Byte)} (h : Serving s .start tag more) :
    exec .start s = .next ((s.served more).serveStart tag .start) :=
  congrArg Host.Outcome.next (serveKind_serving h State.serveStart)

/-! ### Urgent records stay (R184) -/

/-- R184: room is made by discarding routine records only. -/
theorem makeRoom_mem_urgent (need : Nat) {x : Queued} (hx : x.record.urgent = true) :
    ∀ (fuel : Nat) (q : List Queued), x ∈ q → x ∈ (makeRoom need fuel q).1
  | 0, _, h => h
  | fuel + 1, q, h => by
    unfold makeRoom
    split
    · exact h
    · split
      · exact makeRoom_mem_urgent need hx fuel _ ((List.mem_eraseP_of_neg (by simp [Queued.routine, hx])).2 h)
      · exact h

/-- R184: an urgent record at the head stays at the head. -/
theorem makeRoom_head_urgent (need : Nat) {x : Queued} (hx : x.record.urgent = true) :
    ∀ (fuel : Nat) (q : List Queued), q.head? = some x → (makeRoom need fuel q).1.head? = some x
  | 0, _, h => h
  | fuel + 1, q, h => by
    obtain ⟨rest, rfl⟩ := List.head?_eq_some_iff.1 h
    unfold makeRoom
    split
    · exact h
    · split
      · refine makeRoom_head_urgent need hx fuel _ ?_
        rw [List.eraseP_cons_of_neg (by simp [Queued.routine, hx])]
        rfl
      · exact h

/-- The queue after an intake: what room was made of, with or without the newcomers. -/
theorem takeInAll_ind (rs : List HostRecord) (s : State) : ∃ new fuel,
    (takeInAll rs s).spu.ind = (makeRoom rs.length fuel s.spu.ind).1 ++ new := by
  unfold takeInAll
  dsimp only
  split
  · cases rs with
    | nil => exact ⟨[], 0, (List.append_nil _).symm⟩
    | cons r more => exact ⟨_, _, rfl⟩
  · exact ⟨[], _, (List.append_nil _).symm⟩

theorem takeInAll_mem_urgent (rs : List HostRecord) {s : State} {x : Queued} (hx : x.record.urgent = true)
    (h : x ∈ s.spu.ind) : x ∈ (takeInAll rs s).spu.ind := by
  obtain ⟨new, fuel, hind⟩ := takeInAll_ind rs s
  rw [hind]
  exact List.mem_append_left _ (makeRoom_mem_urgent _ hx _ _ h)

theorem takeInAll_head_urgent (rs : List HostRecord) {s : State} {x : Queued} (hx : x.record.urgent = true)
    (h : s.spu.ind.head? = some x) : (takeInAll rs s).spu.ind.head? = some x := by
  obtain ⟨new, fuel, hind⟩ := takeInAll_ind rs s
  rw [hind, List.head?_append, makeRoom_head_urgent _ hx _ _ h]
  rfl

/-- What every intake keeps of the queue, entry to JOINING keeps: its recompute only takes records in. -/
theorem enterJoining_ind {P : List Queued → Prop} (hP : ∀ r t, P t.spu.ind → P (takeIn r t).spu.ind) {s : State}
    (h : P s.spu.ind) : P s.enterJoining.spu.ind := by
  have hzone (before : Vector ZoneRecord 5) (is : List (Fin 5)) (t : State) (ht : P t.spu.ind) :
      P (is.foldl (State.zoneIndication before) t).spu.ind := by
    induction is generalizing t with
    | nil => exact ht
    | cons i is ih =>
      refine ih _ ?_
      unfold State.zoneIndication
      split
      · exact ht
      · exact hP _ _ ht
  have hrecompute (t : State) (ht : P t.spu.ind) : P t.recompute.spu.ind := by
    unfold State.recompute
    dsimp only
    split
    · exact hzone _ _ _ ht
    · rw [(laneEvaluate_touches _ .indications (by decide)).1]
      exact hzone _ _ _ ht
  rw [enterJoining_eq, (inputsStarted_touches s.airStarted .indications (by decide)).1]
  exact hrecompute _ h

/-! ### START and RESTART (R179, R181) -/

theorem startWith_mem_urgent {s : State} (g : Configuration) {x : Queued} (hx : x.record.urgent = true)
    (h : x ∈ s.spu.ind) : x ∈ (s.startWith g).spu.ind :=
  enterJoining_ind (P := (x ∈ ·)) (fun r _ => takeInAll_mem_urgent [r] hx)
    (s := s.setSpu { s.spu with config := some g, held := none, assembly := none }) h

theorem serveStart_loading {s : State} (h : s.spu.part = .loading) (tag : Nat) (q : Request) :
    State.serveStart tag q s = s.respond tag 2 .busy := by
  simp only [State.serveStart, h]

theorem serveStart_held {s : State} {g : Configuration} (h : s.spu.part = .waiting) (hheld : s.spu.held = some g)
    (tag : Nat) (q : Request) : State.serveStart tag q s = (s.respond tag 2 .ok).startWith g := by
  simp only [State.serveStart, h, hheld]

theorem serveStart_refused {s : State}
    (h : (s.spu.part = .waiting ∧ s.spu.held = none) ∨ s.spu.part = .joining ∨ s.spu.part = .running)
    (tag : Nat) (q : Request) : State.serveStart tag q s = s.respond tag 2 .badState := by
  obtain ⟨hpart, hheld⟩ | hpart | hpart := h
  · simp only [State.serveStart, hpart, hheld]
  · simp only [State.serveStart, hpart]
  · simp only [State.serveStart, hpart]

/-- Settles O16: by part state and held image. -/
theorem startResult : Obligations.StartResult := by
  intro s tag more h
  have hexec := exec_start_serving h
  refine ⟨fun g hpart hheld => ?_, fun hpart => ?_, fun hpart => ?_⟩
  · rw [serveStart_held (s := s.served more) hpart hheld] at hexec
    obtain ⟨lost, hlast⟩ := respond_last (s.served more) tag 2 .ok h.room
    have hentered := startWith_entered ((s.served more).respond tag 2 .ok) g
    rw [touched_ms (respond_touches _ _ _ _), respond_touches (s.served more) tag 2 .ok .raw (by decide)] at hentered
    refine ⟨_, hexec, hentered, ?_, _, startWith_mem_urgent g (by rfl) (List.mem_of_getLast? hlast), rfl⟩
    rw [startWith_touches _ g .requests (by decide)]
    exact takeIn_requests _ _
  · rw [serveStart_loading (s := s.served more) hpart] at hexec
    exact ⟨_, hexec, respond_only more tag 2 .busy h.room⟩
  · rw [serveStart_refused (s := s.served more) hpart] at hexec
    exact ⟨_, hexec, respond_only more tag 2 .badState h.room⟩

theorem exec_restart_serving {s : State} {tag : Nat} {more : List (List Byte)} (h : Serving s .restart tag more) :
    exec .restart s = .next ((s.served more).serveRestart tag .restart) :=
  congrArg Host.Outcome.next (serveKind_serving h State.serveRestart)

/-- The part restarted: the units reset, the request answered, JOINING entered. -/
def State.restarted (s : State) (tag : Nat) : State := (s.restartUnits.respond tag 3 .ok).enterJoining

/-- What a restarted part holds beside what entry to JOINING sets is what RESTART's reset left (R179). -/
theorem restarted_touches (s : State) (tag : Nat) :
    OnlyTouches [.partState, .channels, .gate, .zone, .advance, .lockout, .indications, .cells, .cadence, .hook, .door,
      .sounder] s.restartUnits (s.restarted tag) :=
  ((respond_touches _ _ _ _).wide).andThen (enterJoining_touches_no_tables _)

theorem bpk_of_touches {foot : List Part} {s t : State} (h : OnlyTouches foot s t)
    (hengine : Part.engine ∉ foot := by decide) (hhistory : Part.history ∉ foot := by decide) : t.bpk = s.bpk := by
  have hflight : t.bpk.flight = s.bpk.flight := h .engine hengine
  have hlist : t.bpk.history = s.bpk.history := h .history hhistory
  cases ht : t.bpk
  cases hs : s.bpk
  simp_all

/-- R179: the RESPONSE of a RESTART is the first record the host reads. -/
theorem restarted_head (s : State) (tag : Nat) :
    (s.restarted tag).spu.ind.head? = some { record := .response tag 3 .ok 0 0, lost := 0 } :=
  enterJoining_ind (P := (List.head? · = some { record := .response tag 3 .ok 0 0, lost := 0 }))
    (fun r _ => takeInAll_head_urgent [r] rfl) (by rfl)

theorem restarted_entered {s : State} {g : Configuration} (h : s.spu.config = some g) (tag : Nat) :
    JoiningEntered 0 s.iou.raw (s.restarted tag) g := by
  have htouches := respond_touches s.restartUnits tag 3 .ok
  have hentered := enterJoining_entered (s := s.restartUnits.respond tag 3 .ok) (g := g)
    ((htouches .partState (by decide)).2.2.trans h)
  have hms : s.restartUnits.ms = 0 := Nat.zero_div 1000
  have hraw : s.restartUnits.iou.raw = s.iou.raw := rfl
  rwa [touched_ms htouches, htouches .raw (by decide), hms, hraw] at hentered

theorem restarted_port (s : State) (tag : Nat) (p : Port) :
    (s.restarted tag).port p = { State.reset.port p with carrier := (s.port p).carrier } := by
  unfold State.restarted
  rw [enterJoining_port, respond_touches s.restartUnits tag 3 .ok (.line p) (by cases p <;> decide), restartUnits_port]

theorem restarted_deliveries (s : State) (tag : Nat) : (s.restarted tag).aru.deliveries = ⟨[], []⟩ := by
  have ha : (s.restarted tag).aru.deliveries.a = [] := restarted_touches s tag (.deliveries .A) (by decide)
  have hb : (s.restarted tag).aru.deliveries.b = [] := restarted_touches s tag (.deliveries .B) (by decide)
  cases h : (s.restarted tag).aru.deliveries
  simp_all

/-- Settles O17: the parts entry to JOINING leaves alone hold the values of the reset. -/
theorem restartResult : Obligations.RestartResult := by
  intro s tag more h
  have hexec := exec_restart_serving h
  refine ⟨fun g hstarted hconfig => ?_, fun hstarted => ?_⟩
  · have hserve : (s.served more).serveRestart tag .restart = (s.served more).restarted tag := if_pos hstarted
    rw [hserve] at hexec
    have hkept := restarted_touches (s.served more) tag
    exact ⟨_, hexec, restarted_entered (s := s.served more) hconfig tag, hkept .clock (by decide),
      hkept .sequence (by decide), hkept .nextCall (by decide), hkept .alarmNumber (by decide),
      hkept .requests (by decide), (hkept .answer (by decide)).1, restarted_head _ tag,
      restarted_port (s.served more) tag, hkept .peers (by decide), hkept .recent (by decide),
      hkept .heard (by decide), (bpk_of_touches hkept).trans rfl, hkept .context (by decide), hkept .near (by decide),
      hkept .tracks (by decide), hkept .alarms (by decide), restarted_deliveries _ tag⟩
  · have hserve : (s.served more).serveRestart tag .restart = (s.served more).respond tag 3 .badState :=
      if_neg (by simpa using hstarted)
    rw [hserve] at hexec
    exact ⟨_, hexec, respond_only more tag 3 .badState h.room⟩

end Sys2Proof.Machine


/-! The roadway line: sensing, frame ends, deferral, queue requests, outcomes, collisions, counters (O33 to O39), and the
beacons at entry to RUNNING (O15). -/

namespace Sys2Proof.Machine

/-! ### Deferral (R7, R8) -/

/-- R8: a new draw changes the draw and the wait of its port, no more. -/
theorem newDraw_port (s : State) (p : Port) :
    ∃ d w, (s.newDraw p).port p = { s.port p with draw := d, wait := w } := by
  cases h : (s.port p).candidate with
  | none => exact ⟨(s.port p).draw, (s.port p).wait, by simp [State.newDraw, h]⟩
  | some e =>
    obtain ⟨r, -, -, hport⟩ := newDraw_draws s p e h
    exact ⟨_, _, hport⟩

theorem enterDefer_port (s : State) (p : Port) :
    ∃ d w, (s.enterDefer p).port p = { s.port p with access := .defer, draw := d, wait := w } := by
  obtain ⟨d, w, h⟩ := newDraw_port (s.setPort p { s.port p with access := .defer }) p
  refine ⟨d, w, h.trans ?_⟩
  rw [setPort_port_same]

theorem drawWindow_le (n : Nat) : 4 * 2 ^ min n 4 ≤ 64 := by
  have : 2 ^ min n 4 ≤ 2 ^ 4 := Nat.pow_le_pow_right (by omega) (Nat.min_le_right n 4)
  omega

theorem FrameClass.code_le (c : FrameClass) : c.code ≤ 4 := by cases c <;> decide

/-- R8: D lies from 48 to 1944 bit times. -/
theorem wait_bounds (c : FrameClass) {r n : Nat} (h : r < 4 * 2 ^ min n 4) : 48 + 24 * (4 * c.code + r) ≤ 1944 := by
  have := drawWindow_le n
  have := c.code_le
  omega

/-! ### Sensing the line (R2, R5, R7, R12) -/

theorem settleQuiet_busy {s : State} {p : Port} (h : (s.port p).lineQuiet = false) : s.settleQuiet p = s := by
  simp [State.settleQuiet, h]

theorem settleQuiet_receive {s : State} {p : Port} (hop : s.operating p = true) (hq : (s.port p).lineQuiet = true)
    (ha : (s.port p).access = .receive) : s.settleQuiet p = s.setPort p { s.port p with access := .idle } := by
  simp [State.settleQuiet, hop, hq, ha]

theorem settleQuiet_backoff {s : State} {p : Port} (hop : s.operating p = true) (hq : (s.port p).lineQuiet = true)
    (ha : (s.port p).access = .backoff) : s.settleQuiet p = s.enterDefer p := by
  simp [State.settleQuiet, hop, hq, ha]

/-- What a line gone quiet leaves of its port, whatever the access state. -/
theorem settleQuiet_port (s : State) (p : Port) :
    ∃ a d w, (s.settleQuiet p).port p = { s.port p with access := a, draw := d, wait := w } := by
  unfold State.settleQuiet
  dsimp only
  split
  · exact ⟨_, _, _, rfl⟩
  · split
    · exact ⟨_, _, _, setPort_port_same _ _ _⟩
    · split
      · obtain ⟨d, w, h⟩ := enterDefer_port s p
        exact ⟨_, _, _, h⟩
      · exact ⟨_, _, _, rfl⟩

/-- The port once its line has been quiet for two bit times (R2). -/
def State.quieted (s : State) (p : Port) : State :=
  s.setPort p { s.port p with carrier := false, quietAt := max (s.port p).quietAt s.frameEndAt }

theorem exec_lineQuiet_driving {s : State} {p : Port} (h : (s.port p).access = .transmit ∨ (s.port p).access = .jam) :
    exec (.lineQuiet p) s = .next s := by
  obtain h | h := h <;> simp [exec, execLineQuiet, Lau.driving, h]

theorem exec_lineQuiet_carrier {s : State} {p : Port} (ht : (s.port p).access ≠ .transmit)
    (hj : (s.port p).access ≠ .jam) (hc : (s.port p).carrier = true) :
    exec (.lineQuiet p) s = .next ((s.quieted p).settleQuiet p) := by
  simp [exec, execLineQuiet, Lau.driving, ht, hj, hc, State.quieted]

/-- The port once a held window has ended (R5). -/
def State.released (s : State) (p : Port) (held : Nat) : State :=
  s.setPort p { s.port p with holdEnd := none, quietAt := max (s.port p).quietAt held }

theorem exec_windowHoldEnd_due {s : State} {p : Port} {held : Nat} (hh : (s.port p).holdEnd = some held)
    (hdue : held ≤ s.clock.usec) : exec (.windowHoldEnd p) s = .next ((s.released p held).settleQuiet p) := by
  simp [exec, execWindowHoldEnd, State.dueUs, hh, hdue, State.released]

theorem exec_presencePulse_due {s : State} {p : Port} {d : Nat} {more : List Nat} (hop : s.operating p = true)
    (hp : (s.port p).pulses = d :: more) (hdue : d ≤ s.clock.usec) :
    exec (.presencePulse p) s
      = .next (s.setPort p { s.port p with pulses := more, pulseEnd := some (s.clock.usec + 3 * s.bitTime) }) := by
  simp [exec, execPresencePulse, State.dueUs, hop, hp, hdue]

/-- Settles O33: command by command. -/
theorem lineSensingResult : Obligations.LineSensingResult := by
  intro s p
  refine ⟨fun hop hc => ?_, fun hop hc => ?_, fun hc => ?_, exec_lineQuiet_driving, fun ht hj hc => ?_,
    fun held hh hdue => ?_, fun d more hop hp hdue => ?_⟩
  · refine ⟨_, by simp only [exec, execCarrierStart, hc, hop]; rfl, ?_⟩
    simp
  · simp [exec, execCarrierStart, hc, hop]
  · simp [exec, execCarrierStart, hc]
  · obtain ⟨a, d, w, hport⟩ := settleQuiet_port (s.quieted p) p
    have hquieted : (s.quieted p).port p
        = { s.port p with carrier := false, quietAt := max (s.port p).quietAt s.frameEndAt } := setPort_port_same _ _ _
    refine ⟨_, exec_lineQuiet_carrier ht hj hc, ?_, ?_, ?_, fun hop hh => ⟨fun ha => ?_, fun ha => ?_⟩, fun hh => ?_⟩
    · rw [hport, hquieted]
    · rw [hport, hquieted]
      rfl
    · rw [hport, hquieted]
    · rw [settleQuiet_receive (s := s.quieted p) hop (by simp [hquieted, Lau.lineQuiet, hh]) (by simp [hquieted, ha])]
      rw [setPort_port_same]
    · rw [settleQuiet_backoff (s := s.quieted p) hop (by simp [hquieted, Lau.lineQuiet, hh]) (by simp [hquieted, ha])]
      obtain ⟨d, w, hdefer⟩ := enterDefer_port (s.quieted p) p
      rw [hdefer]
    · rw [settleQuiet_busy (by simpa [hquieted, Lau.lineQuiet, Option.isSome_iff_ne_none] using hh), hquieted]
  · obtain ⟨a, d, w, hport⟩ := settleQuiet_port (s.released p held) p
    have hreleased : (s.released p held).port p
        = { s.port p with holdEnd := none, quietAt := max (s.port p).quietAt held } := setPort_port_same _ _ _
    refine ⟨_, exec_windowHoldEnd_due hh hdue, ?_, ?_, fun hop hc ha => ?_⟩
    · rw [hport, hreleased]
    · rw [hport, hreleased]
    · rw [settleQuiet_receive (s := s.released p held) hop (by simp [hreleased, Lau.lineQuiet, hc])
        (by simp [hreleased, ha]), setPort_port_same]
  · exact ⟨_, exec_presencePulse_due hop hp hdue, setPort_port_same _ _ _⟩

/-! ### Frame ends (R3 to R6) -/

theorem classify_fragment {g : Gathered} (h : g.startMarker = false ∨ g.bytes.length < 10) : classify g = .fragment := by
  obtain h | h := h <;> simp [classify, h]

theorem classify_damaged {g : Gathered} (hm : g.startMarker = true) (hl : 10 ≤ g.bytes.length)
    (h : g.violation = true ∨ g.partialByte = true ∨ 256 < g.bytes.length ∨ crcOk g.bytes = false) :
    classify g = .damaged := by
  have hl : ¬ g.bytes.length < 10 := by omega
  obtain h | h | h | h := h <;> simp [classify, hm, hl, h]

theorem classify_intact {g : Gathered} (hm : g.startMarker = true) (hl : 10 ≤ g.bytes.length)
    (hv : g.violation = false) (hp : g.partialByte = false) (hlong : g.bytes.length ≤ 256) (hcrc : crcOk g.bytes = true) :
    classify g = .intact := by
  have hl : ¬ g.bytes.length < 10 := by omega
  have hlong : ¬ 256 < g.bytes.length := by omega
  simp [classify, hm, hl, hv, hp, hlong, hcrc]

theorem holdWindow_port (s : State) (p : Port) : (s.holdWindow p).port p = { s.port p with
    holdEnd := some (max ((s.port p).holdEnd.getD 0) (s.frameEndAt + 272 * s.bitTime)),
    access := if (s.port p).access = .idle then .receive else (s.port p).access } := setPort_port_same _ _ _

theorem count_port (s : State) (p : Port) (f : LineCounters → LineCounters) :
    (s.count p f).port p = { s.port p with counters := f (s.port p).counters } := setPort_port_same _ _ _

theorem offerFrame_room {s : State} {p : Port} (h : (s.port p).received.length < 4) (bytes : List Byte) :
    (s.offerFrame p bytes).port p = { s.port p with
      received := (s.port p).received ++ [{ bytes := bytes, arrival := s.ms }],
      pulses := (s.port p).pulses ++ s.pulsesFor p bytes,
      counters := { (s.port p).counters with good := (s.port p).counters.good.bump } } := by
  simp only [State.offerFrame, h, if_true, count_port, setPort_port_same]

theorem offerFrame_full {s : State} {p : Port} (h : 4 ≤ (s.port p).received.length) (bytes : List Byte) :
    (s.offerFrame p bytes).port p = { s.port p with
      counters := { (s.port p).counters with overruns := (s.port p).counters.overruns.bump } } := by
  simp only [State.offerFrame, Nat.not_lt.2 h, if_false, count_port]

theorem offerFrame_holdEnd (s : State) (p : Port) (bytes : List Byte) :
    ((s.offerFrame p bytes).port p).holdEnd = (s.port p).holdEnd := by
  by_cases h : (s.port p).received.length < 4
  · rw [offerFrame_room h]
  · rw [offerFrame_full (Nat.not_lt.1 h)]

/-- R5, R6: the hold an intact frame asks for, and what it leaves of the offer. -/
theorem intact_port (s : State) (p : Port) (bytes : List Byte) (g : Gathered) (hb : g.bytes = bytes)
    (hc : classify g = .intact) :
    ∃ a, (s.receiveGathered p g).port p = { (s.offerFrame p bytes).port p with
      access := a, holdEnd := if (headerOf bytes).mapRequest
        then some (max ((s.port p).holdEnd.getD 0) (s.frameEndAt + 272 * s.bitTime)) else (s.port p).holdEnd } := by
  have htouch := offerFrame_touches s p bytes
  have hclock : (s.offerFrame p bytes).frameEndAt + 272 * (s.offerFrame p bytes).bitTime
      = s.frameEndAt + 272 * s.bitTime := by
    unfold State.frameEndAt State.bitTime
    rw [htouch .clock (by simp), touched_cfg htouch (by simp)]
  subst hb
  simp only [State.receiveGathered, hc]
  split
  · refine ⟨if ((s.offerFrame p g.bytes).port p).access = .idle then .receive
      else ((s.offerFrame p g.bytes).port p).access, ?_⟩
    rw [holdWindow_port, hclock, offerFrame_holdEnd]
  · refine ⟨((s.offerFrame p g.bytes).port p).access, ?_⟩
    rw [← offerFrame_holdEnd s p g.bytes]

theorem exec_frameEnd_gathered {s : State} {p : Port} (g : Gathered) (hop : s.operating p = true)
    (hg : (s.port p).gathering = true) (ht : (s.port p).access ≠ .transmit) (hj : (s.port p).access ≠ .jam) :
    exec (.frameEnd p g) s = .next ((s.setPort p { s.port p with gathering := false }).receiveGathered p g) := by
  simp [exec, execFrameEnd, hop, hg, Lau.driving, ht, hj]

theorem receiveGathered_gathering (s : State) (p : Port) (g : Gathered) :
    ((s.receiveGathered p g).port p).gathering = (s.port p).gathering := by
  cases h : classify g with
  | fragment => simp only [State.receiveGathered, h]
  | damaged => simp only [State.receiveGathered, h, holdWindow_port, count_port]
  | intact =>
    obtain ⟨a, hport⟩ := intact_port s p g.bytes g rfl h
    rw [hport]
    by_cases hroom : (s.port p).received.length < 4
    · rw [offerFrame_room hroom]
    · rw [offerFrame_full (Nat.not_lt.1 hroom)]

/-- Settles O34: by the class of what was gathered. -/
theorem frameEndResult : Obligations.FrameEndResult := by
  intro s p g hop hg ht hj
  have hstart : (s.setPort p { s.port p with gathering := false }).port p = { s.port p with gathering := false } :=
    setPort_port_same _ _ _
  refine ⟨_, exec_frameEnd_gathered g hop hg ht hj, ?_,
    (setPort_touches s p _).trans (receiveGathered_touches _ p g), fun hf => ?_,
    fun hm hl => ⟨fun hd => ?_, fun hv hp hlong hcrc => ?_⟩⟩
  · rw [receiveGathered_gathering, hstart]
  · simp only [State.receiveGathered, classify_fragment hf, hstart]
  · simp only [State.receiveGathered, classify_damaged hm hl hd, holdWindow_port, count_port, hstart, true_and]
    rfl
  · obtain ⟨a, hport⟩ := intact_port (s.setPort p { s.port p with gathering := false }) p g.bytes g rfl
      (classify_intact hm hl hv hp hlong hcrc)
    rw [hport]
    refine ⟨fun hroom => ?_, fun hfull => ?_, ?_⟩
    · rw [offerFrame_room (by rwa [hstart])]
      simp only [hstart, true_and]
      exact ⟨rfl, rfl⟩
    · rw [offerFrame_full (by rwa [hstart])]
      simp only [hstart, and_self]
    · simp only [hstart]
      rfl

/-! ### Starting an attempt (R9, R10, R17) -/

theorem candidate_of_head {l : Lau} {h : TxEntry} (hs : l.inService = none) (hh : l.list.head? = some h) :
    l.candidate = some h := by
  simp [Lau.candidate, hs, hh]

/-- R10: the attempt of an entry, its frame composed. -/
theorem enterTransmit_eq {s : State} {p : Port} {e : TxEntry} (h : (s.port p).candidate = some e) :
    s.enterTransmit p = (s.composeEntry p e).2.setPort p { (s.composeEntry p e).2.port p with
      access := .transmit, service := some e.order,
      list := ((s.composeEntry p e).2.port p).mapEntry e.order (fun x => { x with frame := some (s.composeEntry p e).1 }),
      startedAt := s.clock.usec, gathering := false } := by
  simp only [State.enterTransmit, h]

theorem composeEntry_port (s : State) (p : Port) (e : TxEntry) : (s.composeEntry p e).2.port p = s.port p :=
  composeEntry_touches s p e (.line p) (by simp)

theorem enterTransmit_port {s : State} {p : Port} {e : TxEntry} (h : (s.port p).candidate = some e) :
    (s.enterTransmit p).port p = { s.port p with
      access := .transmit, service := some e.order,
      list := (s.port p).mapEntry e.order (fun x => { x with frame := some (s.composeEntry p e).1 }),
      startedAt := s.clock.usec, gathering := false } := by
  rw [enterTransmit_eq h, setPort_port_same, composeEntry_port]

theorem enterTransmit_seq {s : State} {p : Port} {e : TxEntry} (h : (s.port p).candidate = some e) :
    (s.enterTransmit p).fre.seq = (s.composeEntry p e).2.fre.seq := by
  rw [enterTransmit_eq h]
  rfl

theorem composeEntry_frame (s : State) (p : Port) {e : TxEntry} {f : List Byte} (h : e.frame = some f) :
    s.composeEntry p e = (f, s) := by
  simp only [State.composeEntry, h]

theorem composeEntry_live (s : State) (p : Port) {e : TxEntry} {k : LiveKind} (h : e.frame = none)
    (hk : e.live = some k) : s.composeEntry p e = s.composeLive p k := by
  simp only [State.composeEntry, h, hk]

theorem waitReached_iff (l : Lau) (now bitTime : Nat) : l.waitReached now bitTime = true
    ↔ l.carrier = false ∧ l.holdEnd = none ∧ l.quietAt + l.wait * bitTime ≤ now := by
  simp [Lau.waitReached, Lau.lineQuiet, and_assoc]

theorem exec_deferWaitExpiry_reached {s : State} {p : Port} (hrun : s.running = true)
    (ha : (s.port p).access = .defer) (hw : (s.port p).waitReached s.clock.usec s.bitTime = true) :
    exec (.deferWaitExpiry p) s = .next (s.enterTransmit p) := by
  simp [exec, execDeferWaitExpiry, hrun, ha, hw]

/-! ### Looking at the list after a change (R7, R9) -/

section Wake

variable {s : State} {p : Port} (before : Option Nat)

theorem wakePort_not_running (h : s.running = false) : s.wakePort p before = s := by
  simp [State.wakePort, h]

theorem wakePort_idle (h : s.running = true) (hl : (s.port p).list ≠ [])
    (ha : (s.port p).access = .idle ∨ (s.port p).access = .receive) : s.wakePort p before = s.enterDefer p := by
  simp [State.wakePort, h, hl, ha]

/-- R9: a unit that drives the line, backs off, waits for a response or has an entry in service takes no note of it. -/
theorem wakePort_engaged (h : (s.port p).access = .transmit ∨ (s.port p).access = .jam ∨ (s.port p).access = .backoff
    ∨ (s.port p).access = .responseWait ∨ ((s.port p).access = .defer ∧ (s.port p).inService ≠ none)) :
    s.wakePort p before = s := by
  obtain h | h | h | h | ⟨h, hs⟩ := h <;> simp [State.wakePort, h]
  simp [hs]

theorem wakePort_same_head (ha : (s.port p).access = .defer) {h : TxEntry} (hh : (s.port p).list.head? = some h)
    (hb : before = some h.order) : s.wakePort p before = s := by
  simp [State.wakePort, ha, hh, hb]

theorem wakePort_new_head (hrun : s.running = true) (ha : (s.port p).access = .defer)
    (hs : (s.port p).inService = none) {h : TxEntry} (hh : (s.port p).list.head? = some h)
    (hb : before ≠ some h.order) : s.wakePort p before
      = if ((s.newDraw p).port p).waitReached (s.newDraw p).clock.usec (s.newDraw p).bitTime
        then (s.newDraw p).enterTransmit p else s.newDraw p := by
  have hl : (s.port p).list ≠ [] := by rintro hl; simp [hl] at hh
  simp [State.wakePort, hrun, ha, hs, hh, hl, Ne.symm hb]

end Wake

/-! ### Queue requests (R15 to R19) -/

theorem placeEntry_port (s : State) (p : Port) (e : TxEntry) : (s.placeEntry p e).port p = { s.port p with
    list := insertEntry { e with order := (s.port p).nextOrder } (s.port p).list,
    nextOrder := (s.port p).nextOrder + 1 } := setPort_port_same _ _ _

theorem insertEntry_ne_nil (e : TxEntry) (l : List TxEntry) : insertEntry e l ≠ [] := by simp [insertEntry]

theorem enterList_room {s : State} {p : Port} (h : (s.port p).list.length < 12) (e : TxEntry) :
    s.enterList p e = (.queued, s.placeEntry p e) := by
  simp [State.enterList, h]

theorem enterList_victim {s : State} {p : Port} {e v : TxEntry} (h : 12 ≤ (s.port p).list.length)
    (hv : (s.port p).victim e.cls = some v) : s.enterList p e = (.queued, (s.evictEntry p v).placeEntry p e) := by
  simp [State.enterList, Nat.not_lt.2 h, hv]

theorem enterList_full {s : State} {p : Port} {e : TxEntry} (h : 12 ≤ (s.port p).list.length)
    (hv : (s.port p).victim e.cls = none) :
    s.enterList p e = (.dropped, s.count p (fun c => { c with queueFullDrops := c.queueFullDrops.bump })) := by
  simp [State.enterList, Nat.not_lt.2 h, hv]

theorem enterList_queued {s u : State} {p : Port} {e : TxEntry} (h : s.enterList p e = (.queued, u)) :
    (u.port p).list ≠ [] := by
  unfold State.enterList at h
  dsimp only at h
  split at h
  · cases h
    rw [placeEntry_port]
    exact insertEntry_ne_nil _ _
  · split at h
    · cases h
      rw [placeEntry_port]
      exact insertEntry_ne_nil _ _
    · cases h

theorem answerRequest_unconfigured {s : State} {p : Port} (h : s.configured p = false) (e : TxEntry) :
    s.answerRequest p e = (.dropped, s) := by
  simp [State.answerRequest, h]

theorem answerRequest_live {s : State} {p : Port} {e : TxEntry} {k : LiveKind} (h : s.configured p = true)
    (hk : e.live = some k) (hl : (s.port p).holdsLike e = true) :
    s.answerRequest p e = (.absorbed, s.setPort p ((s.port p).markRepeat k)) := by
  simp [State.answerRequest, h, hk, hl]

theorem answerRequest_fixed {s : State} {p : Port} {e : TxEntry} (h : s.configured p = true)
    (hk : e.live = none) (hl : (s.port p).holdsLike e = true) : s.answerRequest p e = (.absorbed, s) := by
  simp [State.answerRequest, h, hk, hl]

theorem answerRequest_new {s : State} {p : Port} {e : TxEntry} (h : s.configured p = true)
    (hl : (s.port p).holdsLike e = false) : s.answerRequest p e = (s.applyVoiceDepth p e).enterList p e := by
  simp [State.answerRequest, h, hl]

/-- A request that is QUEUED leaves an entry in the list. -/
theorem answerRequest_queued {s u : State} {p : Port} {e : TxEntry} (h : s.answerRequest p e = (.queued, u)) :
    (u.port p).list ≠ [] := by
  cases hc : s.configured p with
  | false => rw [answerRequest_unconfigured hc] at h; cases h
  | true =>
    cases hl : (s.port p).holdsLike e with
    | false =>
      rw [answerRequest_new hc hl] at h
      exact enterList_queued h
    | true =>
      cases hk : e.live with
      | none => rw [answerRequest_fixed hc hk hl] at h; cases h
      | some k => rw [answerRequest_live hc hk hl] at h; cases h

theorem queueRequest_queued {s u : State} {p : Port} {e : TxEntry} (h : s.answerRequest p e = (.queued, u)) :
    s.queueRequest p e = u.wakePort p ((s.port p).list.head?.map TxEntry.order) := by
  simp only [State.queueRequest, h]

theorem queueRequest_absorbed {s u : State} {p : Port} {e : TxEntry} (h : s.answerRequest p e = (.absorbed, u)) :
    s.queueRequest p e = u := by
  simp only [State.queueRequest, h]

theorem answerRequest_same {s u : State} {p : Port} {e : TxEntry} {x : QueueAnswer}
    (h : s.answerRequest p e = (x, u)) : u.running = s.running ∧ u.clock = s.clock ∧ u.bitTime = s.bitTime := by
  have htouch := answerRequest_touches s p e
  rw [h] at htouch
  have hcfg : u.cfg = s.cfg := touched_cfg htouch (by simp)
  exact ⟨touched_running htouch (by simp), htouch .clock (by simp), by unfold State.bitTime; rw [hcfg]⟩

/-! ### Sorting -/

theorem insertBy_perm {α : Type} (le : α → α → Bool) (x : α) : ∀ l : List α, (insertBy le x l).Perm (x :: l)
  | [] => .refl _
  | y :: ys => by
    unfold insertBy
    split
    · exact .refl _
    · exact ((insertBy_perm le x ys).cons y).trans (.swap x y ys)

theorem sortBy_perm {α : Type} (le : α → α → Bool) : ∀ l : List α, (sortBy le l).Perm l
  | [] => .refl _
  | x :: xs => (insertBy_perm le x _).trans ((sortBy_perm le xs).cons x)

theorem sortBy_pairwise {α : Type} {le : α → α → Bool} (tr : ∀ a b c, le a b = true → le b c = true → le a c = true)
    (tot : ∀ a b, le a b = false → le b a = true) : ∀ l : List α, (sortBy le l).Pairwise (fun a b => le a b = true)
  | [] => .nil
  | x :: xs => insertBy_pairwise le _ x _ (fun _ _ => id) (fun y _ => tot x y) (fun y z => tr x y z)
      (sortBy_pairwise tr tot xs)

/-- Two lists with the same members, each strictly ordered by a key, are the same. -/
theorem eq_of_key_order {α : Type} (key : α → Nat) {l m : List α} (hl : l.Pairwise (fun a b => key a < key b))
    (hm : m.Pairwise (fun a b => key a < key b)) (h : ∀ x, x ∈ l ↔ x ∈ m) : l = m := by
  have hnodup {k : List α} (hk : k.Pairwise (fun a b => key a < key b)) : k.Nodup :=
    hk.imp (fun hlt heq => by rw [heq] at hlt; exact Nat.lt_irrefl _ hlt)
  exact List.Perm.eq_of_pairwise (le := fun a b => key a < key b)
    (fun _ _ _ _ hab hba => absurd hab (Nat.lt_asymm hba)) hl hm
    ((List.perm_ext_iff_of_nodup (hnodup hl) (hnodup hm)).2 h)

/-! ### The sections of the live kinds (R51, R52, R77, R140) -/

theorem strongerTag_iff (a b : NearEntry) : strongerTag a b = true
    ↔ b.strength < a.strength ∨ (a.strength = b.strength ∧ a.tag ≤ b.tag) := by
  simp [strongerTag]

/-- R140: the order of the tags is total. -/
theorem strongerTag_total (a b : NearEntry) (h : strongerTag a b = false) : strongerTag b a = true := by
  rw [← Bool.not_eq_true, strongerTag_iff] at h
  rw [strongerTag_iff]
  omega

theorem strongerTag_trans (a b c : NearEntry) (h : strongerTag a b = true) (k : strongerTag b c = true) :
    strongerTag a c = true := by
  rw [strongerTag_iff] at *
  omega

/-- R140: of the lists of the same tags, one alone is in descending order of strength, ties to the lower tag ID. -/
theorem sortBy_strongerTag_unique {sorted ns : List NearEntry} (hperm : sorted.Perm ns)
    (hsorted : sorted.Pairwise (fun x y => y.strength < x.strength ∨ (x.strength = y.strength ∧ x.tag < y.tag))) :
    sortBy strongerTag ns = sorted := by
  have hanti (a b : NearEntry) (ha : a ∈ sorted) (hb : b ∈ sorted) (hab : strongerTag a b = true)
      (hba : strongerTag b a = true) : a = b := by
    have hnodup : (sorted.map (fun n => (n.strength, n.tag))).Nodup :=
      List.pairwise_map.2 (hsorted.imp (fun h => by simp only [ne_eq, Prod.mk.injEq]; omega))
    rw [strongerTag_iff] at hab hba
    exact List.inj_on_of_nodup_map hnodup ha hb (Prod.ext (by dsimp only; omega) (by dsimp only; omega))
  refine List.Perm.eq_of_pairwise (le := fun a b => strongerTag a b = true) (fun a b ha hb => ?_)
    (sortBy_pairwise strongerTag_trans strongerTag_total ns)
    (hsorted.imp (fun h => (strongerTag_iff _ _).2 (by omega))) ((sortBy_perm _ ns).trans hperm.symm)
  exact hanti a b (hperm.mem_iff.2 ((sortBy_perm _ ns).mem_iff.1 ha)) hb

theorem airEntry_eq_some {s : State} {c : Fin 7} {x : AirEntry} : s.airEntry c = some x
    ↔ ∃ kind, (s.channelCfg c).kind = some kind ∧ (s.channel c).level ≠ .unset
      ∧ x = { channel := c.val, kind := kind, state := (s.channel c).published, rising := (s.channel c).rising,
              value := (s.channel c).value } := by
  unfold State.airEntry
  cases hkind : (s.channelCfg c).kind with
  | none => simp
  | some kind =>
    by_cases hunset : (s.channel c).level = .unset
    · simp [hunset]
    · simp [hunset, eq_comm]

/-- R77: the AIR entries come in channel order. -/
theorem airEntries_order (s : State) : s.airEntries.Pairwise (fun x y => x.channel < y.channel) := by
  refine List.Pairwise.filterMap (R := (· < ·)) _ (fun a b hab x hx y hy => ?_) (List.pairwise_lt_finRange 7)
  obtain ⟨_, -, -, rfl⟩ := airEntry_eq_some.1 hx
  obtain ⟨_, -, -, rfl⟩ := airEntry_eq_some.1 hy
  exact hab

theorem mem_airEntries {s : State} {x : AirEntry} : x ∈ s.airEntries
    ↔ ∃ (c : Fin 7) (kind : GasKind), (s.channelCfg c).kind = some kind ∧ (s.channel c).level ≠ .unset
      ∧ x = { channel := c.val, kind := kind, state := (s.channel c).published, rising := (s.channel c).rising,
              value := (s.channel c).value } := by
  simp only [State.airEntries, List.mem_filterMap, List.mem_finRange, true_and, airEntry_eq_some]

theorem statusSection_eq {s : State} {p : Port} {slot : Nat} (h : s.slotOf p = some slot) : s.statusSection p
    = .status s.cfg.chainage s.cfg.zone s.cfg.roadway slot s.cfg.airflowNeg true
        (decide (s.configured .A = true ∧ s.configured .B = true)) s.cfg.refuge s.cfg.operator
        (s.aru.alarms.filter (fun a => decide (a.state ≠ .cleared))).length := by
  have hbridge : s.bridging = decide (s.configured .A = true ∧ s.configured .B = true) := by
    simp [State.bridging, Bool.decide_and]
  simp only [State.statusSection, h, hbridge, Option.getD_some, List.countP_eq_length_filter]
  rfl

theorem airSection_eq (s : State) : s.airSection = if s.airEntries = [] then [] else [.air s.airEntries] := by
  simp [State.airSection, List.isEmpty_iff]

theorem alarmSection_eq (s : State) : s.alarmSection
    = if (s.aru.alarms.filter (fun a => decide (a.state ≠ .cleared))).take 6 = [] then []
      else [.alarm (((s.aru.alarms.filter (fun a => decide (a.state ≠ .cleared))).take 6).map s.alarmRecord)] := by
  have hstanding : Alarm.standing = fun a => decide (a.state ≠ .cleared) := rfl
  simp only [State.alarmSection, List.isEmpty_iff, hstanding]

theorem vehicleSection_eq {s : State} {sorted : List NearEntry}
    (hperm : sorted.Perm
      (s.tgu.near.filter (fun n => decide (n.kind ≠ .person) && decide (s.ms ≤ n.lastSeen + 2000))))
    (hsorted : sorted.Pairwise (fun x y => y.strength < x.strength ∨ (x.strength = y.strength ∧ x.tag < y.tag))) :
    s.vehicleSection = .vehicle (s.tgu.near.filter (fun n => decide (n.kind = .person) && n.near)).length
      ((sorted.take 8).map (fun n => {
        tag := n.tag, kind := n.kind, heading := n.heading, loaded := n.loaded, strength := n.strength,
        speed := n.speed })) := by
  simp only [State.vehicleSection, State.personsNear, State.tagEntries, sortBy_strongerTag_unique hperm hsorted,
    List.countP_eq_length_filter]

/-! ### DEFER and DEFER_WAIT_EXPIRY -/

/-- R8: the wait entering DEFER sets. -/
theorem enterDefer_draws {s : State} {p : Port} {e : TxEntry} (h : (s.port p).candidate = some e) :
    ∃ r, r < 4 * 2 ^ min e.fails 4 ∧ ((s.enterDefer p).port p).access = .defer
      ∧ ((s.enterDefer p).port p).draw = r ∧ ((s.enterDefer p).port p).wait = 48 + 24 * (4 * e.cls.code + r)
      ∧ 48 ≤ ((s.enterDefer p).port p).wait ∧ ((s.enterDefer p).port p).wait ≤ 1944 := by
  have hcandidate : ((s.setPort p { s.port p with access := .defer }).port p).candidate = some e := by
    rw [setPort_port_same]
    exact h
  obtain ⟨r, hr, -, hport⟩ := newDraw_draws (s.setPort p { s.port p with access := .defer }) p e hcandidate
  unfold State.enterDefer
  rw [hport, setPort_port_same]
  exact ⟨r, hr, rfl, rfl, rfl, Nat.le_add_right _ _, wait_bounds e.cls hr⟩

/-- R9: a request that changes the head in DEFER with no entry in service. -/
theorem wakePort_draws {u : State} {p : Port} {before : Option Nat} (hrun : u.running = true)
    (ha : (u.port p).access = .defer) (hs : (u.port p).inService = none) {h : TxEntry}
    (hh : (u.port p).list.head? = some h) (hb : before ≠ some h.order) :
    ∃ (r : Nat) (w : State), r < 4 * 2 ^ min h.fails 4 ∧ OnlyTouches [.draws, .line p] u w
      ∧ w.port p = { u.port p with draw := r, wait := 48 + 24 * (4 * h.cls.code + r) }
      ∧ ((u.port p).carrier = true ∨ (u.port p).holdEnd ≠ none
          ∨ u.clock.usec < (u.port p).quietAt + (w.port p).wait * u.bitTime → u.wakePort p before = w)
      ∧ ((u.port p).carrier = false → (u.port p).holdEnd = none →
          (u.port p).quietAt + (w.port p).wait * u.bitTime ≤ u.clock.usec →
        u.wakePort p before = w.enterTransmit p
          ∧ ((u.wakePort p before).port p).access = .transmit
          ∧ ((u.wakePort p before).port p).service = some h.order
          ∧ ((u.wakePort p before).port p).startedAt = u.clock.usec) := by
  have hcandidate := candidate_of_head hs hh
  obtain ⟨r, hr, htouch, hport⟩ := newDraw_draws u p h hcandidate
  have hclock : (u.newDraw p).clock = u.clock := htouch .clock (by simp)
  have hbit : (u.newDraw p).bitTime = u.bitTime := by
    unfold State.bitTime
    rw [touched_cfg htouch (by simp)]
  have hcandidate' : ((u.newDraw p).port p).candidate = some h := by
    rw [hport]
    exact hcandidate
  have hwake := wakePort_new_head before hrun ha hs hh hb
  rw [hclock, hbit] at hwake
  refine ⟨r, u.newDraw p, hr, htouch, hport, fun hbusy => ?_, fun hc he hq => ?_⟩
  · rw [hwake, if_neg]
    rw [waitReached_iff, hport]
    rw [hport] at hbusy
    simp only at hbusy ⊢
    rintro ⟨hc, he, hq⟩
    obtain hbusy | hbusy | hbusy := hbusy
    · simp [hc] at hbusy
    · exact hbusy he
    · omega
  · have hreached : ((u.newDraw p).port p).waitReached u.clock.usec u.bitTime = true := by
      rw [waitReached_iff, hport]
      rw [hport] at hq
      exact ⟨hc, he, hq⟩
    rw [if_pos hreached] at hwake
    rw [hwake, enterTransmit_port hcandidate', hclock]
    exact ⟨rfl, rfl, rfl, rfl⟩

/-- Settles O35: the draw, the attempt, a QUEUED request by access state, and the sections. -/
theorem deferralResult : Obligations.DeferralResult := by
  refine ⟨fun s p e h => enterDefer_draws h, fun s p e hrun ha hc he hcand hq => ?_, fun s p e u hqueued => ?_,
    fun s p slot status air standing sorted persons vehicle hslot hstatus hair hmem hstanding hpersons hperm hsorted
      hvehicle => ?_⟩
  · have hexec := exec_deferWaitExpiry_reached hrun ha ((waitReached_iff _ _ _).2 ⟨hc, he, hq⟩)
    have hport := enterTransmit_port hcand
    have hseq := enterTransmit_seq hcand
    refine ⟨fun f hf => ⟨_, hexec, ?_⟩, fun k hf hk => ⟨_, hexec, ?_⟩⟩
    · rw [hport, hseq, composeEntry_frame s p hf]
      exact ⟨rfl, rfl, rfl, rfl, rfl⟩
    · rw [hport, hseq, composeEntry_live s p hf hk]
      exact ⟨rfl, rfl, rfl, rfl, rfl⟩
  · have hrequest := queueRequest_queued hqueued
    obtain ⟨hrunning, hclock, hbit⟩ := answerRequest_same hqueued
    rw [← hrunning, ← hclock, ← hbit, hrequest]
    exact ⟨fun hrun => wakePort_not_running _ hrun, fun hrun =>
      ⟨fun ha => wakePort_idle _ hrun (answerRequest_queued hqueued) ha,
        fun ha hs h hh => ⟨fun hb => wakePort_same_head _ ha hh hb, fun hb => wakePort_draws hrun ha hs hh hb⟩,
        fun ha => wakePort_engaged _ ha⟩⟩
  · obtain rfl : air = s.airEntries :=
      eq_of_key_order AirEntry.channel hair (airEntries_order s) (fun x => (hmem x).trans mem_airEntries.symm)
    subst hstatus hstanding hpersons hvehicle
    have htext : (s.pru.text.map (fun words => FrameSection.text true words)).toList
        = match s.pru.text with
          | some words => [.text true words]
          | none => [] := by
      cases s.pru.text <;> rfl
    rw [← statusSection_eq hslot, ← vehicleSection_eq hperm hsorted, ← airSection_eq]
    refine ⟨rfl, rfl, ?_⟩
    show s.beaconSections p = _
    simp only [State.beaconSections, htext, alarmSection_eq]
    rfl

/-! ### The answers to a queue request (R16 to R19) -/

theorem holdsLike_live {l : Lau} {e : TxEntry} {k : LiveKind} (hk : e.live = some k) :
    l.holdsLike e = true ↔ ∃ x ∈ l.list, x.live = some k := by
  simp [Lau.holdsLike, hk]

theorem holdsLike_fixed {l : Lau} {e : TxEntry} (hk : e.live = none) :
    l.holdsLike e = true ↔ ∃ x ∈ l.list, x.frame.map frameKey = e.frame.map frameKey := by
  simp [Lau.holdsLike, hk]

/-- R17: a composed entry of the kind marks it as pending repeat. -/
theorem markRepeat_composed {l : Lau} {k : LiveKind} (h : ∃ x ∈ l.list, x.live = some k ∧ x.frame ≠ none) :
    (l.markRepeat k).repeatOf k = true := by
  have hany : l.list.any (fun x => decide (x.live = some k) && x.frame.isSome) = true := by
    simpa [Option.isSome_iff_ne_none] using h
  cases k <;> simp [Lau.markRepeat, hany, Lau.repeatOf]

theorem markRepeat_uncomposed {l : Lau} {k : LiveKind} (h : ∀ x ∈ l.list, x.live = some k → x.frame = none) :
    l.markRepeat k = l := by
  have hany : l.list.any (fun x => decide (x.live = some k) && x.frame.isSome) = false := by
    simpa using h
  simp [Lau.markRepeat, hany]

theorem setPort_port_self (s : State) (p : Port) : s.setPort p (s.port p) = s := by cases p <;> rfl

/-- R19: the entries of a call that wait for their turn. -/
theorem waiting_filter_call (l : Lau) (call : CallId) : l.waiting.filter (fun e => decide (e.voiceCall = some call))
    = l.list.filter (fun y => decide (l.service ≠ some y.order ∧ y.voiceCall = some call)) := by
  simp only [Lau.waiting, List.filter_filter, Bool.decide_and, Bool.and_comm]

theorem voiceExcess_some {l : Lau} {call : CallId} {x : TxEntry} {more : List TxEntry}
    (h : l.list.filter (fun y => decide (l.service ≠ some y.order ∧ y.voiceCall = some call)) = x :: more)
    (hmore : more ≠ []) : l.voiceExcess call = some x := by
  have hlength : 0 < more.length := List.length_pos_iff.2 hmore
  simp only [Lau.voiceExcess, waiting_filter_call, h, List.length_cons, List.head?_cons]
  exact if_pos (by omega)

theorem voiceExcess_none {l : Lau} {call : CallId}
    (h : (l.list.filter (fun y => decide (l.service ≠ some y.order ∧ y.voiceCall = some call))).length < 2) :
    l.voiceExcess call = none := by
  simp only [Lau.voiceExcess, waiting_filter_call]
  exact if_neg (by omega)

theorem applyVoiceDepth_none {s : State} {p : Port} {e : TxEntry}
    (h : ∀ call, e.voiceCall = some call → (s.port p).voiceExcess call = none) : s.applyVoiceDepth p e = s := by
  have hnone : e.voiceCall.bind (s.port p).voiceExcess = none := Option.bind_eq_none_iff.2 h
  simp only [State.applyVoiceDepth, hnone]

theorem applyVoiceDepth_some {s : State} {p : Port} {e x : TxEntry} {call : CallId} (hcall : e.voiceCall = some call)
    (h : (s.port p).voiceExcess call = some x) : s.applyVoiceDepth p e = s.evictEntry p x := by
  simp only [State.applyVoiceDepth, hcall, Option.bind_some, h]

/-- What an outcome leaves of its port: only a relayed frame SENT is counted (R20). -/
theorem handOutcome_port (s : State) (p : Port) (e : TxEntry) (o : TxOutcome) (m : List Nat) :
    (s.handOutcome p e o m).port p = { s.port p with counters := if e.relayed = true ∧ o = .sent
      then { (s.port p).counters with relayedOut := (s.port p).counters.relayedOut.bump } else (s.port p).counters } := by
  have hreport : (s.reportOutcome p e o).port p = s.port p :=
    reportOutcome_touches s p e o (.line p) (by simp)
  have hdelivery : (if e.cls = .alarm ∧ e.requester = some .aru
      then (s.reportOutcome p e o).deliveryOutcome p (e.frame.getD []) m else s.reportOutcome p e o).port p = s.port p := by
    split
    · rw [deliveryOutcome_port, hreport]
    · exact hreport
  unfold State.handOutcome
  dsimp only
  split
  · rw [count_port, hdelivery]
  · exact hdelivery

/-- R20: TX_DONE for a report request is the last record taken in. -/
theorem handOutcome_reported (s : State) (p : Port) {e : TxEntry} (o : TxOutcome) (m : List Nat) {tag : Nat}
    (hr : e.report = some tag) (hc : e.cls ≠ .alarm) :
    (s.handOutcome p e o m).spu = (takeIn (.txDone tag p o) s).spu := by
  simp only [State.handOutcome, State.reportOutcome, hr, hc, false_and, if_false]
  split <;> rfl

theorem handOutcome_unreported (s : State) (p : Port) {e : TxEntry} (o : TxOutcome) (m : List Nat)
    (hr : e.report = none) (hc : e.cls ≠ .alarm) : (s.handOutcome p e o m).spu = s.spu := by
  simp only [State.handOutcome, State.reportOutcome, hr, hc, false_and, if_false]
  split <;> rfl

theorem handOutcome_no_delivery (s : State) (p : Port) {e : TxEntry} (o : TxOutcome) (m : List Nat)
    (hc : e.cls ≠ .alarm) : (s.handOutcome p e o m).deliveriesOn p = s.deliveriesOn p :=
  handOutcome_touches_plain s p e o m hc (.deliveries p) (by simp)

/-- R18, R19: what the eviction of an entry leaves of its port. -/
theorem evictEntry_port (s : State) (p : Port) (e : TxEntry) :
    (s.evictEntry p e).port p = { s.port p with list := (s.port p).without e.order } := by
  unfold State.evictEntry
  rw [handOutcome_port, setPort_port_same]
  simp

/-- R18: every waiting entry's class is at most the worst. -/
theorem le_foldl_max (xs : List Nat) (n : Nat) : n ≤ xs.foldl max n ∧ ∀ x ∈ xs, x ≤ xs.foldl max n := by
  induction xs generalizing n with
  | nil => simp
  | cons y ys ih =>
    obtain ⟨hacc, hall⟩ := ih (max n y)
    refine ⟨(Nat.le_max_left _ _).trans hacc, fun x hx => ?_⟩
    obtain rfl | hx := List.mem_cons.1 hx
    · exact (Nat.le_max_right _ _).trans hacc
    · exact hall x hx

theorem foldl_max_mem (xs : List Nat) (n : Nat) : xs.foldl max n = n ∨ xs.foldl max n ∈ xs := by
  induction xs generalizing n with
  | nil => exact .inl rfl
  | cons y ys ih =>
    obtain h | h := ih (max n y)
    · rw [List.foldl_cons, h]
      rcases Nat.le_total n y with hle | hle
      · simp [Nat.max_eq_right hle]
      · simp [Nat.max_eq_left hle]
    · exact .inr (List.mem_cons_of_mem _ h)

theorem waiting_iff {l : Lau} {x : TxEntry} : x ∈ l.waiting ↔ x ∈ l.list ∧ l.service ≠ some x.order := by
  simp [Lau.waiting]

theorem victim_worst {l : Lau} {c : FrameClass} {v : TxEntry} (h : l.victim c = some v) :
    ∀ x ∈ l.list, l.service ≠ some x.order → x.cls.code ≤ v.cls.code := by
  intro x hx hs
  have hmem : x.cls.code ∈ l.waiting.map (fun e => e.cls.code) := List.mem_map_of_mem (waiting_iff.2 ⟨hx, hs⟩)
  have hle := (le_foldl_max (l.waiting.map (fun e => e.cls.code)) 0).2 _ hmem
  simp only [Lau.victim] at h
  split at h
  · have hcode := List.find?_some h
    simp only [decide_eq_true_eq] at hcode
    omega
  · cases h

/-- R18: no waiting entry is less urgent than a newcomer that finds no victim. -/
theorem victim_none {l : Lau} {c : FrameClass} (h : l.victim c = none) :
    ∀ x ∈ l.list, l.service ≠ some x.order → x.cls.code ≤ c.code := by
  intro x hx hs
  have hmem : x.cls.code ∈ l.waiting.map (fun e => e.cls.code) := List.mem_map_of_mem (waiting_iff.2 ⟨hx, hs⟩)
  have hle := (le_foldl_max (l.waiting.map (fun e => e.cls.code)) 0).2 _ hmem
  simp only [Lau.victim] at h
  split at h
  · rename_i hlt
    obtain hzero | hworst := foldl_max_mem (l.waiting.map (fun e => e.cls.code)) 0
    · omega
    · obtain ⟨y, hy, hcode⟩ := List.mem_map.1 hworst
      have hnot := List.find?_eq_none.1 h y hy
      simp [hcode] at hnot
  · omega

theorem placeEntry_list_evicted (s : State) (p : Port) (e v : TxEntry) :
    (((s.evictEntry p v).placeEntry p e).port p).list = insertEntry { e with order := (s.port p).nextOrder }
      ((s.port p).list.filter (fun x => decide (x.order ≠ v.order))) := by
  rw [placeEntry_port, evictEntry_port]
  rfl

/-- R19: a newcomer of a call with two VOICE frames waiting. -/
theorem answerRequest_deep {s : State} {p : Port} {e x : TxEntry} {more : List TxEntry} {call : CallId}
    (hc : s.configured p = true) (hl : (s.port p).holdsLike e = false) (hcall : e.voiceCall = some call)
    (hmine : (s.port p).list.filter (fun y => decide ((s.port p).service ≠ some y.order ∧ y.voiceCall = some call))
      = x :: more) (hmore : more ≠ []) (hlen : (s.port p).list.length ≤ 12) :
    s.answerRequest p e = (.queued, (s.evictEntry p x).placeEntry p e) := by
  have hx : x ∈ (s.port p).list := (List.mem_filter.1 (hmine ▸ List.mem_cons_self : x ∈ _)).1
  have hroom : ((s.evictEntry p x).port p).list.length < 12 := by
    rw [evictEntry_port]
    exact (without_length hx).trans_le hlen
  rw [answerRequest_new hc hl, applyVoiceDepth_some hcall (voiceExcess_some hmine hmore), enterList_room hroom]

theorem placeEntry_spu (s : State) (p : Port) (e : TxEntry) : (s.placeEntry p e).spu = s.spu := rfl

/-- Settles O38: by configuration, by what the list holds, by the voice depth, by room and victim. -/
theorem queueAnswers : Obligations.QueueAnswers := by
  intro s p e
  refine ⟨fun hc => answerRequest_unconfigured hc e, fun hc => ⟨fun k hk hlike => ?_, fun hk hlike => ?_, fun hl =>
    ⟨fun call x more hcall hmine hmore hlen => ?_, fun hshallow => ?_⟩⟩⟩
  · rw [answerRequest_live hc hk ((holdsLike_live hk).2 hlike)]
    refine ⟨rfl, ?_, fun h => ?_, fun h => ?_⟩
    · rw [setPort_port_same, (markRepeat_lists _ k).1]
    · rw [setPort_port_same]
      exact markRepeat_composed h
    · rw [markRepeat_uncomposed h, setPort_port_self]
  · exact answerRequest_fixed hc hk ((holdsLike_fixed hk).2 hlike)
  · rw [answerRequest_deep hc hl hcall hmine hmore hlen]
    refine ⟨rfl, placeEntry_list_evicted s p e x, fun tag hr hcls hroom => ?_⟩
    rw [placeEntry_spu, State.evictEntry, handOutcome_reported _ p _ _ hr hcls]
    exact takeIn_last _ _ hroom
  · have hdepth : s.applyVoiceDepth p e = s :=
      applyVoiceDepth_none (fun call hcall => voiceExcess_none (hshallow call hcall))
    rw [answerRequest_new hc hl, hdepth]
    refine ⟨fun hroom => ?_, fun v hfull hv => ?_, fun hfull hv => ?_⟩
    · rw [enterList_room hroom, placeEntry_port]
      exact ⟨rfl, rfl⟩
    · obtain ⟨hless, hwaits⟩ := victim_less_urgent _ _ _ hv
      rw [enterList_victim hfull hv]
      exact ⟨hless, (waiting_iff.1 hwaits).2, victim_worst hv, rfl, placeEntry_list_evicted s p e v⟩
    · rw [enterList_full hfull hv]
      exact ⟨victim_none hv, rfl, count_port _ _ _⟩

end Sys2Proof.Machine


/-! ### An outcome, and going on (R7, R17, R20) -/

namespace Sys2Proof.Machine


theorem setPort_setPort (s : State) (p : Port) (l m : Lau) : (s.setPort p l).setPort p m = s.setPort p m := by
  cases p <;> rfl

theorem takeIn_setPort (r : HostRecord) (s : State) (p : Port) (l : Lau) :
    takeIn r (s.setPort p l) = (takeIn r s).setPort p l := by
  unfold takeIn takeInAll
  dsimp only
  by_cases h : (makeRoom [r].length s.spu.ind.length s.spu.ind).1.length + [r].length ≤ 32
  · rw [if_pos h]
    exact if_pos h
  · rw [if_neg h]
    exact if_neg h

/-- R165: an outcome at the alarm unit reads nothing of the line. -/
theorem deliveryOutcome_setPort (s : State) (p : Port) (l : Lau) (f : List Byte) (m : List Nat) :
    (s.setPort p l).deliveryOutcome p f m = (s.deliveryOutcome p f m).setPort p l := by
  have hdeliveries : (s.setPort p l).deliveriesOn p = s.deliveriesOn p := rfl
  have hms : (s.setPort p l).ms = s.ms := rfl
  have hmissing (h : List Nat) : (s.setPort p l).missingSlots p h = s.missingSlots p h := rfl
  have hdrop (i : AlarmId) : (s.setPort p l).dropDelivery p i = (s.dropDelivery p i).setPort p l := rfl
  have hset (ds : List Delivery) : (s.setPort p l).setDeliveries p ds = (s.setDeliveries p ds).setPort p l := rfl
  unfold State.deliveryOutcome
  simp only [hdeliveries, hms, hmissing, hdrop, hset, takeIn_setPort]
  split
  · rfl
  · split
    · rfl
    · split <;> rfl

/-- The unit has an attempt or a wait of its own in progress, and takes no note of a change of its list. -/
def Lau.engaged (l : Lau) : Prop :=
  l.access = .transmit ∨ l.access = .jam ∨ l.access = .backoff ∨ l.access = .responseWait

theorem wakePort_of_engaged {s : State} {p : Port} (h : (s.port p).engaged) (before : Option Nat) :
    s.wakePort p before = s := by
  refine wakePort_engaged before ?_
  obtain h | h | h | h := h <;> simp [h]

theorem ofLive_not_deep (s : State) (p : Port) (k : LiveKind) : s.applyVoiceDepth p (.ofLive k) = s :=
  applyVoiceDepth_none (fun call h => by simp [TxEntry.ofLive] at h)

/-- R16, R17: a live kind requested of an engaged unit with room: absorbed, or placed. -/
theorem requestLive_engaged {s : State} {p : Port} (hc : s.configured p = true) (hlen : (s.port p).list.length < 12)
    (ha : (s.port p).engaged) (k : LiveKind) : s.requestLive k p
      = if ∃ x ∈ (s.port p).list, x.live = some k then s.setPort p ((s.port p).markRepeat k)
        else s.placeEntry p (.ofLive k) := by
  unfold State.requestLive
  split
  · rename_i hlike
    exact queueRequest_absorbed (answerRequest_live hc rfl ((holdsLike_live rfl).2 hlike))
  · rename_i hlike
    have hanswer : s.answerRequest p (.ofLive k) = (.queued, s.placeEntry p (.ofLive k)) := by
      rw [answerRequest_new hc (by rwa [← Bool.not_eq_true, holdsLike_live rfl]), ofLive_not_deep, enterList_room hlen]
    rw [queueRequest_queued hanswer]
    refine wakePort_of_engaged ?_ _
    rw [placeEntry_port]
    exact ha

theorem queueRepeat_unmarked {s : State} {p : Port} {e : TxEntry}
    (h : ∀ k, e.live = some k → (s.port p).repeatOf k = false) : s.queueRepeat p e = s := by
  unfold State.queueRepeat
  split
  · rfl
  · rename_i k hk
    rw [h k hk]
    rfl

theorem queueRepeat_marked {s : State} {p : Port} {e : TxEntry} {k : LiveKind} (hk : e.live = some k)
    (h : (s.port p).repeatOf k = true) :
    s.queueRepeat p e = (s.setPort p ((s.port p).clearRepeat k)).requestLive k p := by
  simp only [State.queueRepeat, hk, h, if_true]

theorem clearRepeat_eq (l : Lau) (k : LiveKind) : ∃ b a v,
    l.clearRepeat k = { l with repBeacon := b, repAir := a, repVehicle := v } := by
  cases k <;> exact ⟨_, _, _, rfl⟩

theorem markRepeat_eq (l : Lau) (k : LiveKind) : ∃ b a v,
    l.markRepeat k = { l with repBeacon := b, repAir := a, repVehicle := v } := by
  unfold Lau.markRepeat
  split
  · cases k <;> exact ⟨_, _, _, rfl⟩
  · exact ⟨_, _, _, rfl⟩

theorem clearRepeat_repeatOf (l : Lau) (k : LiveKind) : (l.clearRepeat k).repeatOf k = false := by cases k <;> rfl

/-- R17: a pending repeat placed when the list holds none of its kind. -/
theorem queueRepeat_placed {s : State} {p : Port} {e : TxEntry} {k : LiveKind} (hc : s.configured p = true)
    (hlen : (s.port p).list.length < 12) (ha : (s.port p).engaged) (hk : e.live = some k)
    (h : (s.port p).repeatOf k = true) (hnone : ∀ x ∈ (s.port p).list, x.live ≠ some k) :
    s.queueRepeat p e = (s.setPort p ((s.port p).clearRepeat k)).placeEntry p (.ofLive k) := by
  obtain ⟨b, a, v, hclear⟩ := clearRepeat_eq (s.port p) k
  rw [queueRepeat_marked hk h,
    requestLive_engaged (s := s.setPort p ((s.port p).clearRepeat k)) hc, if_neg]
  · rw [setPort_port_same, hclear]
    simpa using hnone
  · rwa [setPort_port_same, hclear]
  · rw [setPort_port_same, hclear]
    exact ha

/-- What a pending repeat can change: the list, the next queue order and the repeat marks of its port. -/
theorem queueRepeat_setPort {s : State} {p : Port} (hc : s.configured p = true)
    (hlen : (s.port p).list.length < 12) (ha : (s.port p).engaged) (e : TxEntry) : ∃ list n b a v,
    s.queueRepeat p e = s.setPort p { s.port p with
      list := list, nextOrder := n, repBeacon := b, repAir := a, repVehicle := v } := by
  by_cases h : ∀ k, e.live = some k → (s.port p).repeatOf k = false
  · exact ⟨_, _, _, _, _, (queueRepeat_unmarked h).trans (setPort_port_self s p).symm⟩
  · push Not at h
    obtain ⟨k, hk, hrep⟩ := h
    have hrep : (s.port p).repeatOf k = true := by simpa using hrep
    obtain ⟨b, a, v, hclear⟩ := clearRepeat_eq (s.port p) k
    rw [queueRepeat_marked hk hrep, requestLive_engaged (s := s.setPort p ((s.port p).clearRepeat k)) hc]
    · split
      · obtain ⟨b', a', v', hmark⟩ := markRepeat_eq ((s.port p).clearRepeat k) k
        refine ⟨(s.port p).list, (s.port p).nextOrder, b', a', v', ?_⟩
        rw [setPort_port_same, setPort_setPort, hmark, hclear]
      · refine ⟨insertEntry { TxEntry.ofLive k with order := (s.port p).nextOrder } (s.port p).list,
          (s.port p).nextOrder + 1, b, a, v, ?_⟩
        unfold State.placeEntry
        rw [setPort_port_same, setPort_setPort, hclear]
    · rwa [setPort_port_same, hclear]
    · rw [setPort_port_same, hclear]
      exact ha

/-- R7: after an outcome the unit goes on, its port otherwise as it was. -/
theorem proceed_port (s : State) (p : Port) : ∃ a d w,
    (s.proceed p).port p = { s.port p with access := a, draw := d, wait := w }
      ∧ (s.running = true → (s.port p).list ≠ [] → a = .defer)
      ∧ ((s.port p).list = [] → a = if (s.port p).carrier = false ∧ (s.port p).holdEnd = none then .idle else .receive) := by
  unfold State.proceed
  dsimp only
  split
  · rename_i h
    obtain ⟨-, hl⟩ : s.running = true ∧ (s.port p).list ≠ [] := by simpa using h
    obtain ⟨d, w, hport⟩ := enterDefer_port s p
    exact ⟨.defer, d, w, hport, fun _ _ => rfl, fun h => absurd h hl⟩
  · rename_i h
    refine ⟨_, _, _, setPort_port_same _ _ _, fun hrun hl => absurd (by simp [hrun, hl]) h, fun _ => ?_⟩
    simp [Lau.lineQuiet]

theorem inService_mem {l : Lau} {e : TxEntry} (h : l.inService = some e) : e ∈ l.list := by
  obtain ⟨n, -, hn⟩ := Option.bind_eq_some_iff.1 h
  exact List.mem_of_find?_eq_some hn

/-- The port once the entry in service has left the list and service (R20). -/
def State.leftService (s : State) (p : Port) (e : TxEntry) : State :=
  s.setPort p { s.port p with list := (s.port p).without e.order, service := none }

theorem finishService_eq {s : State} {p : Port} {e : TxEntry} (h : (s.port p).inService = some e) (o : TxOutcome)
    (map : List Nat) : s.finishService p o map
      = (((s.leftService p e).handOutcome p e o map).queueRepeat p e).proceed p := by
  simp only [State.finishService, h]
  rfl

/-- R20, R165: what the alarm unit and the host are handed is that of the outcome alone. -/
theorem leftService_handOutcome_alarm (s : State) (p : Port) {e : TxEntry} {f : List Byte} (o : TxOutcome)
    (map : List Nat) (hf : e.frame = some f) (hc : e.cls = .alarm) (hq : e.requester = some .aru)
    (hr : e.report = none) :
    ((s.leftService p e).handOutcome p e o map).deliveriesOn p = (s.deliveryOutcome p f map).deliveriesOn p
      ∧ ((s.leftService p e).handOutcome p e o map).spu.ind = (s.deliveryOutcome p f map).spu.ind := by
  simp only [State.handOutcome, State.reportOutcome, hr, hc, hq, and_self, if_true, hf, Option.getD_some,
    State.leftService, deliveryOutcome_setPort]
  split <;> exact ⟨rfl, rfl⟩

/-- The port once the outcome is handed on: without the entry, and a relayed one that was sent counted (R20). -/
def Lau.afterOutcome (l : Lau) (e : TxEntry) (o : TxOutcome) : Lau :=
  { l with list := l.without e.order, service := none, counters := if e.relayed = true ∧ o = .sent
      then { l.counters with relayedOut := l.counters.relayedOut.bump } else l.counters }

/-- The state once the outcome is handed on. -/
def State.handed (s : State) (p : Port) (e : TxEntry) (o : TxOutcome) (map : List Nat) : State :=
  (s.leftService p e).handOutcome p e o map

theorem handed_port (s : State) (p : Port) (e : TxEntry) (o : TxOutcome) (map : List Nat) :
    (s.handed p e o map).port p = (s.port p).afterOutcome e o := by
  rw [State.handed, handOutcome_port, State.leftService, setPort_port_same]
  rfl

theorem handed_configured (s : State) (p : Port) (e : TxEntry) (o : TxOutcome) (map : List Nat) :
    (s.handed p e o map).configured p = s.configured p := by
  unfold State.configured State.slotOf
  rw [State.handed, touched_cfg (handOutcome_touches _ p e o map) (by simp)]
  rfl

theorem handed_running (s : State) (p : Port) (e : TxEntry) (o : TxOutcome) (map : List Nat) :
    (s.handed p e o map).running = s.running :=
  (touched_running (handOutcome_touches (s.leftService p e) p e o map) (by cases p <;> decide)).trans
    (setPort_running s p _)

/-- R7, R17: what follows the outcome at the port alone, a pending repeat and the way on, of an engaged unit. -/
theorem repeat_proceed {u : State} {p : Port} (hc : u.configured p = true) (hlen : (u.port p).list.length < 12)
    (ha : (u.port p).engaged) (e : TxEntry) : ∃ list n b a v x d w,
    ((u.queueRepeat p e).proceed p).port p = { u.port p with
        list := list, nextOrder := n, repBeacon := b, repAir := a, repVehicle := v, access := x, draw := d, wait := w }
      ∧ (u.running = true → list ≠ [] → x = .defer)
      ∧ (list = [] → x = if (u.port p).carrier = false ∧ (u.port p).holdEnd = none then .idle else .receive)
      ∧ ((∀ k, e.live = some k → (u.port p).repeatOf k = false) → list = (u.port p).list)
      ∧ (∀ k, e.live = some k → (u.port p).repeatOf k = true → (∀ x ∈ (u.port p).list, x.live ≠ some k) →
          list = insertEntry { TxEntry.ofLive k with order := (u.port p).nextOrder } (u.port p).list
            ∧ (((u.queueRepeat p e).proceed p).port p).repeatOf k = false)
      ∧ OnlyTouches [.line p, .draws] u ((u.queueRepeat p e).proceed p) := by
  obtain ⟨list, n, b, a, v, hrepeat⟩ := queueRepeat_setPort hc hlen ha e
  have hport : (u.queueRepeat p e).port p = { u.port p with
      list := list, nextOrder := n, repBeacon := b, repAir := a, repVehicle := v } := by
    rw [hrepeat, setPort_port_same]
  have hrun : (u.queueRepeat p e).running = u.running := by rw [hrepeat, setPort_running]
  obtain ⟨x, d, w, hproceed, hdefer, hempty⟩ := proceed_port (u.queueRepeat p e) p
  rw [hport] at hproceed hdefer hempty
  rw [hrun] at hdefer
  refine ⟨list, n, b, a, v, x, d, w, hproceed, hdefer, hempty, fun hnone => ?_, fun k hk hrep hnone => ?_, ?_⟩
  · rw [queueRepeat_unmarked hnone] at hport
    exact (congrArg Lau.list hport).symm
  · have hplaced := queueRepeat_placed hc hlen ha hk hrep hnone
    obtain ⟨b', a', v', hclear⟩ := clearRepeat_eq (u.port p) k
    have hlist : ((u.queueRepeat p e).port p).list
        = insertEntry { TxEntry.ofLive k with order := (u.port p).nextOrder } (u.port p).list := by
      rw [hplaced, placeEntry_port, setPort_port_same, hclear]
    have hclean : ((u.queueRepeat p e).port p).repeatOf k = false := by
      rw [hplaced, placeEntry_port, setPort_port_same]
      exact clearRepeat_repeatOf (u.port p) k
    rw [hport] at hlist hclean
    refine ⟨hlist, ?_⟩
    rw [hproceed]
    exact hclean
  · rw [hrepeat]
    exact ((setPort_touches u p _).mono (by simp)).trans ((proceed_touches _ p).mono (by simp))

/-- R7, R17, R20: the entry in service of an engaged unit reaches an outcome. -/
theorem finishService_taken {s : State} {p : Port} {e : TxEntry} {f : List Byte} (hs : (s.port p).inService = some e)
    (hf : e.frame = some f) (hc : s.configured p = true) (hlen : (s.port p).list.length ≤ 12)
    (ha : (s.port p).engaged) (o : TxOutcome) (map : List Nat) :
    OutcomeTaken s (s.finishService p o map) p e f o map
      ∧ ∃ list n b a v x d w, (s.finishService p o map).port p = { (s.port p).afterOutcome e o with
          list := list, nextOrder := n, repBeacon := b, repAir := a, repVehicle := v, access := x, draw := d,
          wait := w } := by
  have hport := handed_port s p e o map
  have hroom : ((s.handed p e o map).port p).list.length < 12 := by
    rw [hport]
    exact (without_length (inService_mem hs)).trans_le hlen
  obtain ⟨list, n, b, a, v, x, d, w, hgone, hdefer, hempty, hplain, hrepeat, htouch⟩ :=
    repeat_proceed ((handed_configured s p e o map).trans hc) hroom (by rw [hport]; exact ha) e
  rw [hport] at hgone hempty hplain hrepeat
  rw [handed_running] at hdefer
  have hind := (htouch .indications (by simp)).1
  have hdeliveries := htouch (.deliveries p) (by simp)
  have heq : s.finishService p o map = ((s.handed p e o map).queueRepeat p e).proceed p := finishService_eq hs o map
  rw [heq]
  refine ⟨⟨?_, fun hk => ?_, fun k hk hrep hnone => ?_, fun hrun hne => ?_, fun hnil => ?_,
    fun tag hr hcls hurgent => ?_, fun hr hcls => ?_, fun hcls hq hr => ?_, fun hcls => ?_⟩, _, _, _, _, _, _, _, _, hgone⟩
  · rw [hgone]
    rfl
  · rw [hgone]
    exact hplain hk
  · obtain ⟨hlist, hclear⟩ := hrepeat k hk hrep hnone
    refine ⟨?_, hclear⟩
    rw [hgone]
    exact hlist
  · rw [hgone] at hne ⊢
    exact hdefer hrun hne
  · rw [hgone] at hnil ⊢
    exact hempty hnil
  · rw [hind, State.handed, handOutcome_reported _ p o map hr hcls]
    exact takeIn_last _ _ hurgent
  · rw [hind, State.handed, handOutcome_unreported _ p o map hr hcls]
    rfl
  · rw [hind, show _ = _ from hdeliveries]
    exact leftService_handOutcome_alarm s p o map hf hcls hq hr
  · exact (show _ = _ from hdeliveries).trans (handOutcome_no_delivery _ p o map hcls)

/-- An outcome reads of its port the entry's list, the repeat marks, the next queue order and what the line shows. -/
theorem OutcomeTaken.of_setPort {s t : State} {p : Port} {l : Lau} {e : TxEntry} {f : List Byte} {o : TxOutcome}
    {map : List Nat} (h : OutcomeTaken (s.setPort p l) t p e f o map) (hlist : l.list = (s.port p).list)
    (horder : l.nextOrder = (s.port p).nextOrder) (hrep : l.repeatOf = (s.port p).repeatOf) :
    OutcomeTaken s t p e f o map := by
  unfold OutcomeTaken at h ⊢
  rw [deliveryOutcome_setPort] at h
  simp only [setPort_port_same, hlist, horder, hrep] at h
  exact h

/-! ### The end of a transmission (R10, R13) -/

theorem exec_transmissionComplete_due {s : State} {p : Port} {e : TxEntry} {f : List Byte}
    (hs : (s.port p).inService = some e) (hf : e.frame = some f) (ha : (s.port p).access = .transmit)
    (hdue : (s.port p).startedAt + (16 + 8 * f.length) * s.bitTime ≤ s.clock.usec) :
    exec (.transmissionComplete p) s = .next (if (headerOf f).mapRequest = true
      then s.setPort p { s.port p with
        access := .responseWait, hearMap := [], startedAt := s.clock.usec, quietAt := s.clock.usec }
      else (s.setPort p { s.port p with quietAt := s.clock.usec }).finishService p .sent []) := by
  have hframe : (s.port p).frameInService = f := by simp [Lau.frameInService, hs, hf]
  have hend : s.transmitEnd p ≤ s.clock.usec := by
    rw [State.transmitEnd, hframe]
    exact hdue
  refine congrArg Host.Outcome.next ?_
  dsimp only
  rw [if_pos (by simp [ha, hend]), hframe]

theorem exec_responseWindowEnd_due {s : State} {p : Port} (ha : (s.port p).access = .responseWait)
    (hdue : (s.port p).startedAt + 272 * s.bitTime ≤ s.clock.usec) (slots : List Nat) :
    exec (.responseWindowEnd p slots) s = .next ((s.setPort p { s.port p with
        quietAt := max (s.port p).quietAt ((s.port p).startedAt + 272 * s.bitTime),
        hearMap := s.joinHearMap p slots }).finishService p .sent (s.joinHearMap p slots)) := by
  refine congrArg Host.Outcome.next ?_
  dsimp only
  rw [if_pos (by simp [ha, hdue])]

theorem mem_joinHearMap (s : State) (p : Port) (slots : List Nat) (n : Nat) :
    n ∈ s.joinHearMap p slots ↔ n < 64 ∧ s.slotOf p ≠ some n ∧ (n ∈ (s.port p).hearMap ∨ n ∈ slots) := by
  simp only [State.joinHearMap, unionSlots, List.mem_filter, List.mem_range, List.contains_iff_mem, Bool.or_eq_true,
    decide_eq_true_eq]
  tauto

/-- Settles O36: the end of a transmission, and of the response window. -/
theorem transmissionEndResult : Obligations.TransmissionEndResult := by
  intro s p e f hs hf hc hlen
  refine ⟨fun ha hdue => ⟨fun hmap => ?_, fun hmap => ?_⟩, fun ha hdue slots => ?_⟩
  · refine ⟨_, exec_transmissionComplete_due hs hf ha hdue, ?_⟩
    rw [if_pos hmap]
    exact ⟨setPort_port_same _ _ _, setPort_touches s p _⟩
  · refine ⟨_, exec_transmissionComplete_due hs hf ha hdue, ?_⟩
    rw [if_neg (by simp [hmap])]
    obtain ⟨htaken, list, n, b, a, v, x, d, w, hport⟩ :=
      finishService_taken (s := s.setPort p { s.port p with quietAt := s.clock.usec }) (p := p) (e := e) (f := f)
        (by rw [setPort_port_same]; exact hs) hf hc (by rw [setPort_port_same]; exact hlen)
        (by rw [setPort_port_same]; exact .inl ha) .sent []
    refine ⟨htaken.of_setPort rfl rfl rfl, ?_⟩
    rw [hport, setPort_port_same]
    simp [Lau.afterOutcome]
  · obtain ⟨u, hu⟩ : ∃ u, u = s.setPort p { s.port p with
        quietAt := max (s.port p).quietAt ((s.port p).startedAt + 272 * s.bitTime),
        hearMap := s.joinHearMap p slots } := ⟨_, rfl⟩
    have huport : u.port p = { s.port p with
        quietAt := max (s.port p).quietAt ((s.port p).startedAt + 272 * s.bitTime),
        hearMap := s.joinHearMap p slots } := by rw [hu, setPort_port_same]
    obtain ⟨htaken, list, n, b, a, v, x, d, w, hport⟩ :=
      finishService_taken (s := u) (p := p) (e := e) (f := f) (by rw [huport]; exact hs) hf (by rw [hu]; exact hc)
        (by rw [huport]; exact hlen) (by rw [huport]; exact .inr (.inr (.inr ha))) .sent (s.joinHearMap p slots)
    have hmap : ((u.finishService p .sent (s.joinHearMap p slots)).port p).hearMap = s.joinHearMap p slots := by
      rw [hport, huport]
      rfl
    refine ⟨_, (exec_responseWindowEnd_due ha hdue slots).trans (by rw [← hu]), ?_, ?_, ?_, fun n => ?_⟩
    · rw [hmap]
      rw [hu] at htaken ⊢
      exact htaken.of_setPort rfl rfl rfl
    · rw [hport, huport]
      rfl
    · rw [hport, huport]
      simp [Lau.afterOutcome]
    · rw [hmap]
      exact mem_joinHearMap s p slots n

/-! ### A collision, and the end of its jam (R11, R12) -/

theorem exec_collision_transmitting {s : State} {p : Port} (ha : (s.port p).access = .transmit) :
    exec (.collision p) s = .next ((s.setPort p { s.port p with
        access := .jam, startedAt := s.clock.usec, carrier := true, list := (s.port p).failService }).count p
      (fun c => if decide (s.clock.usec < (s.port p).startedAt + 272 * s.bitTime)
        then { c with collisions := c.collisions.bump } else { c with lateCollisions := c.lateCollisions.bump })) := by
  refine congrArg Host.Outcome.next ?_
  dsimp only
  rw [if_pos ha]

/-- The port at the end of its jam: it no longer drives, and gathers the carrier it still hears. -/
def Lau.backedOff (l : Lau) : Lau := { l with access := .backoff, carrier := true, gathering := true }

theorem exec_jamEnd_due {s : State} {p : Port} {e : TxEntry} (ha : (s.port p).access = .jam)
    (hdue : (s.port p).startedAt + 32 * s.bitTime ≤ s.clock.usec) (hs : (s.port p).inService = some e) :
    exec (.jamEnd p) s = .next (if 8 ≤ e.fails
      then ((s.setPort p (s.port p).backedOff).count p
        (fun c => { c with excessDrops := c.excessDrops.bump })).finishService p .excess []
      else s.setPort p (s.port p).backedOff) := by
  refine congrArg Host.Outcome.next ?_
  dsimp only
  rw [if_pos (by simp [ha, hdue]), hs]
  rfl

/-- Settles O37: a collision, early or late, and the end of the jam, with failures left or with the eighth. -/
theorem collisionResult : Obligations.CollisionResult := by
  intro s p
  refine ⟨fun ha => ?_, fun e ha hdue hs => ⟨fun hfew => ?_, fun f hmany hf hc hlen => ?_⟩⟩
  · refine ⟨_, exec_collision_transmitting ha, ?_⟩
    rw [count_port, setPort_port_same]
    exact ⟨rfl, rfl, rfl, rfl, fun hearly => if_pos (by simpa using hearly), fun hlate => if_neg (by simpa using hlate)⟩
  · refine ⟨_, exec_jamEnd_due ha hdue hs, ?_⟩
    rw [if_neg (by omega)]
    exact ⟨setPort_port_same _ _ _, setPort_touches s p _⟩
  · refine ⟨_, exec_jamEnd_due ha hdue hs, ?_⟩
    rw [if_pos hmany]
    have hbase : (s.setPort p (s.port p).backedOff).count p (fun c => { c with excessDrops := c.excessDrops.bump })
        = s.setPort p { (s.port p).backedOff with
            counters := { (s.port p).counters with excessDrops := (s.port p).counters.excessDrops.bump } } := by
      rw [State.count, setPort_port_same, setPort_setPort]
      rfl
    rw [hbase]
    obtain ⟨u, hu⟩ : ∃ u, u = s.setPort p { (s.port p).backedOff with
        counters := { (s.port p).counters with excessDrops := (s.port p).counters.excessDrops.bump } } := ⟨_, rfl⟩
    have huport : u.port p = { (s.port p).backedOff with
        counters := { (s.port p).counters with excessDrops := (s.port p).counters.excessDrops.bump } } := by
      rw [hu, setPort_port_same]
    obtain ⟨htaken, list, n, b, a, v, x, d, w, hport⟩ :=
      finishService_taken (s := u) (p := p) (e := e) (f := f) (by rw [huport]; exact hs) hf (by rw [hu]; exact hc)
        (by rw [huport]; exact hlen) (by rw [huport]; exact .inr (.inr (.inl rfl))) .excess []
    rw [← hu]
    refine ⟨?_, ?_⟩
    · rw [hu] at htaken ⊢
      exact htaken.of_setPort rfl rfl rfl
    · rw [hport, huport]
      exact ⟨rfl, rfl, by simp [Lau.afterOutcome]⟩

end Sys2Proof.Machine


/-! Counter snapshots (O39), and entry to RUNNING with its beacons (O15). -/

namespace Sys2Proof.Machine

/-! ### Counters (R21, R35, R134) -/

theorem LineCounters.snapshot_all (c : LineCounters) : c.snapshot.all = c.all.map Counter.snapshot := rfl

theorem ParseCounters.snapshot_all (c : ParseCounters) : c.snapshot.all = c.all.map Counter.snapshot := rfl

theorem LinkCounters.snapshot_all (c : LinkCounters) : c.snapshot.all = c.all.map Counter.snapshot := rfl

theorem exec_counterSnapshot_due {s : State} (h : s.clock.snapshotDue ≤ s.ms) : ∃ t, exec .counterSnapshot s = .next t
    ∧ t.clock = { s.clock with snapshotDue := s.clock.snapshotDue + 1000 }
    ∧ (∀ p, t.port p = { s.port p with counters := (s.port p).counters.snapshot }
        ∧ t.fre.parse.get p = (s.fre.parse.get p).snapshot)
    ∧ t.tgu.counters = s.tgu.counters.snapshot := by
  refine ⟨_, congrArg Host.Outcome.next (if_pos (by simp [State.dueMs, h])), rfl, fun p => ?_, rfl⟩
  cases p <;> exact ⟨rfl, rfl⟩

/-- Settles O39: a snapshot event copies and clears every counter; an increment counts up to 65 535 and then marks. -/
theorem counterSnapshotResult : Obligations.CounterSnapshotResult := by
  refine ⟨fun s hdue => ?_, fun c => ⟨fun hc => if_neg (Nat.ne_of_lt hc), fun hc => if_pos hc⟩⟩
  obtain ⟨t, hexec, hclock, hport, hlink⟩ := exec_counterSnapshot_due hdue
  refine ⟨t, hexec, hclock, fun p => ?_, by rw [hlink]; rfl⟩
  obtain ⟨hp, hparse⟩ := hport p
  rw [hp, hparse]
  exact ⟨rfl, rfl, rfl⟩

/-! ### A command on each configured port -/

/-- What one port gets of a command on each configured port: its own share, on a state whose other parts only the
share of the other port has touched. -/
theorem onPorts_port {f : Port → State → State} {foot : Port → List Part} (hf : ∀ p s, OnlyTouches (foot p) s (f p s))
    (hline : ∀ p q : Port, q ≠ p → .line p ∉ foot q) (hpart : ∀ p, .partState ∉ foot p) (s : State) (p : Port)
    (hc : s.configured p = true) :
    ∃ u, (∃ q, q ≠ p ∧ OnlyTouches (foot q) s u) ∧ (s.onPorts f).port p = (f p u).port p := by
  have hconfigured (u : State) (q r : Port) (h : OnlyTouches (foot q) s u) : u.configured r = s.configured r := by
    unfold State.configured State.slotOf
    rw [touched_cfg h (hpart q)]
  cases p with
  | A =>
    refine ⟨s, ⟨.B, by decide, .refl _ _⟩, ?_⟩
    simp only [State.onPorts, hc, if_true]
    split
    · exact hf .B _ (.line .A) (hline .A .B (by decide))
    · rfl
  | B =>
    have hfirst : OnlyTouches (foot .A) s (if s.configured .A then f .A s else s) := .ite (hf _ _) (.refl _ _)
    refine ⟨_, ⟨.A, by decide, hfirst⟩, ?_⟩
    simp only [State.onPorts]
    rw [if_pos ((hconfigured _ _ _ hfirst).trans hc)]

/-! ### A live kind is in the list of a port with room (R16, R17) -/

theorem mapEntry_live (l : Lau) (n : Nat) (frame : Option (List Byte)) :
    (l.mapEntry n (fun x => { x with frame := frame })).map TxEntry.live = l.list.map TxEntry.live := by
  rw [Lau.mapEntry, List.map_map]
  refine List.map_congr_left fun x _ => ?_
  simp only [Function.comp]
  split <;> rfl

/-- R9: what a unit does about a change of its list leaves the live kinds in it. -/
theorem wakePort_live (s : State) (p : Port) (before : Option Nat) :
    ((s.wakePort p before).port p).list.map TxEntry.live = (s.port p).list.map TxEntry.live := by
  obtain ⟨d, w, hdefer⟩ := enterDefer_port s p
  obtain ⟨d', w', hdraw⟩ := newDraw_port s p
  have htransmit : (((s.newDraw p).enterTransmit p).port p).list.map TxEntry.live
      = (s.port p).list.map TxEntry.live := by
    cases hcand : ((s.newDraw p).port p).candidate with
    | none => rw [State.enterTransmit, hcand]; simp only [hdraw]
    | some e => rw [enterTransmit_port hcand, mapEntry_live, hdraw]
  unfold State.wakePort
  dsimp only
  split
  · rfl
  · split
    · rw [hdefer]
    · split
      · split
        · exact htransmit
        · rw [hdraw]
      · rfl

theorem live_mem_of_map {a b : List TxEntry} (h : a.map TxEntry.live = b.map TxEntry.live) {k : LiveKind}
    (hb : ∃ e ∈ b, e.live = some k) : ∃ e ∈ a, e.live = some k := by
  have hmem : some k ∈ a.map TxEntry.live := h ▸ List.mem_map.2 hb
  exact List.mem_map.1 hmem

theorem requestLive_holds {s : State} {p : Port} (hc : s.configured p = true) (hlen : (s.port p).list.length < 12)
    (k : LiveKind) : ∃ e ∈ ((s.requestLive k p).port p).list, e.live = some k := by
  unfold State.requestLive
  cases hl : (s.port p).holdsLike (.ofLive k) with
  | true =>
    rw [queueRequest_absorbed (answerRequest_live hc rfl hl), setPort_port_same, (markRepeat_lists _ k).1]
    exact (holdsLike_live rfl).1 hl
  | false =>
    have hanswer : s.answerRequest p (.ofLive k) = (.queued, s.placeEntry p (.ofLive k)) := by
      rw [answerRequest_new hc hl, ofLive_not_deep, enterList_room hlen]
    rw [queueRequest_queued hanswer]
    refine live_mem_of_map (wakePort_live _ p _) ⟨{ TxEntry.ofLive k with order := (s.port p).nextOrder }, ?_, rfl⟩
    rw [placeEntry_port]
    exact (mem_insertEntry _ _ _).2 (.inl rfl)

/-- R16, R50: a live kind requested on both ports is in the list of each configured port that had room. -/
theorem onPorts_requestLive_holds {s : State} {p : Port} (k : LiveKind) (hc : s.configured p = true)
    (hlen : (s.port p).list.length < 12) : ∃ e ∈ ((s.onPorts (State.requestLive k)).port p).list, e.live = some k := by
  obtain ⟨u, ⟨q, hq, hu⟩, hport⟩ := onPorts_port (fun p s => requestLive_touches k p s)
    (fun p q h => by simp [plainQueueFoot, h.symm]) (fun p => by simp [plainQueueFoot]) s p hc
  have hconfigured : u.configured p = true := by
    unfold State.configured State.slotOf at hc ⊢
    rwa [touched_cfg hu (by cases q <;> decide)]
  rw [hport]
  refine requestLive_holds hconfigured ?_ k
  rwa [show u.port p = _ from hu (.line p) (by simp [plainQueueFoot, hq.symm])]

/-! ### Entry to RUNNING (R177, R178) -/

def State.nowRunning (s : State) : State := s.setSpu { s.spu with part := .running, joinDue := none }

theorem nowRunning_cfg (s : State) : s.nowRunning.cfg = s.cfg := rfl

/-- R178: deferral begun on both ports, the part RUNNING. -/
def State.deferring (s : State) : State := s.nowRunning.onPorts State.beginDeferral

/-- R177: then a BEACON requested on both. -/
def State.announcing (s : State) : State := s.deferring.onPorts (State.requestLive .beacon)

theorem startBeaconPeriod_due (s : State) (start : Nat) :
    (s.startBeaconPeriod start).pru.beaconDue = some (start + 1000 * s.cfg.beacon + Config.freeDraw s.draws % 256) := rfl

theorem beginDeferral_port (p : Port) (s : State) : ((s.beginDeferral p).port p).list = (s.port p).list := by
  unfold State.beginDeferral
  split
  · rfl
  · obtain ⟨d, w, h⟩ := enterDefer_port s p
    rw [h]

theorem deferring_touches (s : State) : OnlyTouches (.draws :: [.line .A, .line .B])
    s.nowRunning s.deferring :=
  onPorts_touches _ (fun p t => (beginDeferral_touches p t).mono (by cases p <;> decide)) _

theorem deferring_port (s : State) (p : Port) (hc : s.configured p = true) :
    (s.deferring.port p).list = (s.port p).list := by
  obtain ⟨u, ⟨q, hq, hu⟩, hport⟩ := onPorts_port (foot := fun p => [.draws, .line p]) (fun p s => beginDeferral_touches p s)
    (fun p q h => by simp [h.symm]) (fun p => by simp) s.nowRunning p hc
  rw [State.deferring, hport, beginDeferral_port, show u.port p = _ from hu (.line p) (by simp [hq.symm])]
  rfl

theorem announcing_holds (s : State) (p : Port) (hc : s.configured p = true) (hlen : (s.port p).list.length < 12) :
    ∃ e ∈ (s.announcing.port p).list, e.live = some .beacon := by
  have hcfg : s.deferring.cfg = s.cfg := (touched_cfg (deferring_touches s) (by decide)).trans (nowRunning_cfg s)
  refine onPorts_requestLive_holds .beacon ?_ (by rwa [deferring_port s p hc])
  unfold State.configured State.slotOf at hc ⊢
  rwa [hcfg]

/-- R149: with no lane section the lane monitor sets no lamp. -/
theorem laneEvaluate_no_lane {s : State} (h : s.cfg.lane = none) :
    OnlyTouches [.tracks, .evacuation, .advisories, .linkCounters] s s.laneEvaluate := by
  have htracks : OnlyTouches [.tracks, .evacuation, .advisories, .linkCounters] s
      (s.setTgu { s.tgu with tracks := s.tgu.tracks.map (placeTrack s.cfg.lane s.ms) }) := by
    intro x hx
    cases x <;> first | rfl | exact ⟨rfl, rfl⟩ | exact ⟨rfl, rfl, rfl⟩ | exact absurd (by simp) hx
  unfold State.laneEvaluate
  refine .ite (.refl _ _) ?_
  have hstep := htracks.trans ((evacuationStep_touches _).mono (by simp))
  have hcfg := (congrArg Configuration.lane (touched_cfg hstep (by decide))).trans h
  dsimp only at hcfg ⊢
  rw [hcfg]
  exact hstep

/-- R178: the last of the entry to RUNNING, with both ports announced. -/
def State.settled (u : State) : State :=
  let t := u.setTgu { u.tgu with evacHeld := false }
  (if t.cfg.lane.isNone then t.setLamps (darkSteady, darkSteady) else t).laneEvaluate

theorem settled_touches (u : State) : OnlyTouches laneFoot u u.settled := by
  have htgu : OnlyTouches laneFoot u (u.setTgu { u.tgu with evacHeld := false }) := by
    intro x hx
    cases x <;> first | rfl | exact ⟨rfl, rfl⟩ | exact ⟨rfl, rfl, rfl⟩ | exact absurd (by decide) hx
  exact (htgu.trans (.ite ((setLamps_touches _ _).mono (by decide)) (.refl _ _))).trans (laneEvaluate_touches _)

theorem settled_dark {u : State} (h : u.cfg.lane = none) :
    u.settled.iou.lampOut = some darkSteady ∧ u.settled.iou.lampIn = some darkSteady := by
  have hlane : (u.setTgu { u.tgu with evacHeld := false }).cfg.lane.isNone = true := by
    rw [show (u.setTgu { u.tgu with evacHeld := false }).cfg = u.cfg from rfl, h]
    rfl
  unfold State.settled
  dsimp only
  rw [if_pos hlane]
  exact laneEvaluate_no_lane (s := (u.setTgu { u.tgu with evacHeld := false }).setLamps (darkSteady, darkSteady)) h
    .lamps (by decide)

theorem enterRunning_eq (s : State) :
    s.enterRunning = (s.announcing.startBeaconPeriod s.announcing.ms).settled := rfl

/-- Settles O15: the joining timer expires and the part is RUNNING. -/
theorem runningBegins : Obligations.RunningBegins := by
  intro s d hpart hjoin hd
  have hexec : exec .joiningTimerExpiry s = .next s.enterRunning :=
    congrArg Host.Outcome.next (if_pos (by simp [hpart, hjoin, State.dueMs, hd]))
  have hannounce : OnlyTouches plainQueuesFoot s.nowRunning s.announcing :=
    ((deferring_touches s).mono (by decide)).trans (requestLive_onPorts_touches _ _)
  have hbeacon := startBeaconPeriod_touches s.announcing s.announcing.ms
  have hsettled := settled_touches (s.announcing.startBeaconPeriod s.announcing.ms)
  have hcfg : s.announcing.cfg = s.cfg := (touched_cfg hannounce (by decide)).trans (nowRunning_cfg s)
  obtain ⟨hp1, hj1, hc1⟩ := hannounce .partState (by decide)
  obtain ⟨hp2, hj2, hc2⟩ := hbeacon .partState (by decide)
  obtain ⟨hp3, hj3, hc3⟩ := hsettled .partState (by decide)
  rw [← enterRunning_eq] at hp3 hj3 hc3
  refine ⟨_, hexec, by rw [hp3, hp2, hp1]; rfl, by rw [hj3, hj2, hj1]; rfl, by rw [hc3, hc2, hc1]; rfl,
    ⟨Config.freeDraw s.announcing.draws % 256, Nat.mod_lt _ (by decide), ?_⟩, fun p hc hlen => ?_, fun hlane => ?_⟩
  · rw [enterRunning_eq, show _ = _ from hsettled .beacon (by decide), startBeaconPeriod_due, hcfg, Nat.mul_comm]
    have hclock : s.announcing.clock = s.clock := hannounce .clock (by decide)
    rw [State.ms, State.ms, hclock]
  · rw [enterRunning_eq, show State.port _ p = _ from hsettled (.line p) (by cases p <;> decide),
      show State.port _ p = _ from hbeacon (.line p) (by cases p <;> decide)]
    exact announcing_holds s p hc hlen
  · exact settled_dark ((congrArg Configuration.lane ((touched_cfg hbeacon (by decide)).trans hcfg)).trans hlane)

end Sys2Proof.Machine


/-! The station port: transfers, malformed requests, intake, the coalescing timer, CONFIGURE and the requests answered with
no call and no alarm of their own (O18 to O22, O28, O29, O30, O32). -/

namespace Sys2Proof.Machine

/-! ### Transfers (R182, R183) -/

theorem hostLength_cons (b : Byte) (rest : List Byte) :
    hostLength (b :: rest) = if 2 ≤ b.toNat ∧ b.toNat ≤ 250 then b.toNat else 0 := rfl

theorem exec_hostTransfer (b : Byte) (rest : List Byte) (s : State) :
    exec (.hostTransfer (b :: rest)) s = .next (s.transfer (b :: rest)) := rfl

theorem fillTo_one (n : Nat) (b : Byte) : fillTo (n + 1) [b] = b :: List.replicate n 0 := by simp [fillTo]

theorem transfer_refused {s : State} {bytes : List Byte} (hn : hostLength bytes ≠ 0) (hfull : 8 ≤ s.spu.requests.length) :
    s.transfer bytes = s.setSpu { s.spu with portOut := fillTo bytes.length [255#8] } :=
  if_pos ⟨hn, hfull⟩

/-- What the part has to send: the bytes of its next record, or none. -/
def State.outBytes (s : State) : List Byte := (s.nextRecord.map (fun r => recordBytes r.1 r.2)).getD []

/-- The state once the part's record has gone out, if the transfer was long enough for it. -/
def State.sent (s : State) (bytes : List Byte) : State :=
  if !s.outBytes.isEmpty && decide (s.outBytes.length ≤ bytes.length) then s.recordTaken else s

/-- The request queue after a transfer: a request whose last byte arrived joins it. -/
def requestsAfter (bytes : List Byte) (waiting : List (List Byte)) : List (List Byte) :=
  if hostLength bytes ≠ 0 ∧ hostLength bytes + 1 ≤ bytes.length
    then waiting ++ [(bytes.drop 1).take (hostLength bytes)] else waiting

theorem transfer_taken {s : State} {bytes : List Byte} (h : ¬ (hostLength bytes ≠ 0 ∧ 8 ≤ s.spu.requests.length)) :
    s.transfer bytes = (s.sent bytes).setSpu { (s.sent bytes).spu with
      requests := requestsAfter bytes (s.sent bytes).spu.requests, portOut := fillTo bytes.length s.outBytes } :=
  if_neg h

theorem recordBytes_ne_nil (r : HostRecord) (lost : Nat) : recordBytes r lost ≠ [] := List.cons_ne_nil _ _

theorem sent_requests (s : State) (bytes : List Byte) : (s.sent bytes).spu.requests = s.spu.requests := by
  unfold State.sent
  split
  · exact recordTaken_requests s
  · rfl

theorem sent_whole {s : State} {bytes : List Byte} (hne : s.outBytes ≠ []) (hlen : s.outBytes.length ≤ bytes.length) :
    s.sent bytes = s.recordTaken :=
  if_pos (by simp [hne, hlen])

theorem sent_short {s : State} {bytes : List Byte} (hlen : s.outBytes = [] ∨ bytes.length < s.outBytes.length) :
    s.sent bytes = s := by
  refine if_neg ?_
  obtain h | h := hlen
  · simp [h]
  · simp [Nat.not_le.2 h]

section Owed

variable {s : State}

theorem outBytes_empty (ho : s.spu.owed = false) (hi : s.spu.ind = []) : s.outBytes = [] := by
  simp [State.outBytes, State.nextRecord, ho, hi]

theorem outBytes_queued {q : Queued} {more : List Queued} (ho : s.spu.owed = false) (hi : s.spu.ind = q :: more) :
    s.outBytes = recordBytes q.record q.lost := by
  simp [State.outBytes, State.nextRecord, ho, hi]

theorem outBytes_owed {r : HostRecord} {more : List HostRecord} (ho : s.spu.owed = true) (ha : s.spu.answer = r :: more) :
    s.outBytes = recordBytes r 0 := by
  simp [State.outBytes, State.nextRecord, ho, ha]

theorem recordTaken_queued {q : Queued} {more : List Queued} (ho : s.spu.owed = false) (hi : s.spu.ind = q :: more) :
    s.recordTaken = s.setSpu { s.spu with
      ind := more, coal := coalAfterLoss more s.spu.coal, owed := q.record.owes } := by
  simp [State.recordTaken, ho, hi]

theorem recordTaken_owed {r : HostRecord} {more : List HostRecord} (ho : s.spu.owed = true)
    (ha : s.spu.answer = r :: more) :
    s.recordTaken = s.setSpu { s.spu with answer := more, owed := !more.isEmpty } := by
  simp [State.recordTaken, ho, ha]

end Owed

theorem owes_iff (r : HostRecord) : r.owes = true ↔ ∃ tag kind code detail count,
    r = .response tag kind code detail count ∧ 12 ≤ kind ∧ kind ≤ 16 ∧ count ≠ 0 := by
  cases r <;> simp [HostRecord.owes, answeredFromTable, and_assoc]

theorem coalAfterLoss_routine {q : List Queued} (h : ∃ x ∈ q, x.record.urgent = false) (c : Coalescing) :
    coalAfterLoss q c = c := if_pos ((any_routine_iff q).2 h)

theorem coalAfterLoss_urgent {q : List Queued} (h : ∀ x ∈ q, x.record.urgent = true) (c : Coalescing) :
    coalAfterLoss q c = .stopped :=
  if_neg fun hany => by
    obtain ⟨x, hx, hr⟩ := (any_routine_iff q).1 hany
    simp [h x hx] at hr

theorem requestsAfter_cons (b : Byte) (rest : List Byte) (waiting : List (List Byte)) :
    requestsAfter (b :: rest) waiting = if 2 ≤ b.toNat ∧ b.toNat ≤ 250 ∧ b.toNat ≤ rest.length
      then waiting ++ [rest.take b.toNat] else waiting := by
  unfold requestsAfter
  rw [hostLength_cons]
  by_cases hb : 2 ≤ b.toNat ∧ b.toNat ≤ 250
  · rw [if_pos hb]
    obtain ⟨hlow, hhigh⟩ := hb
    have hne : b.toNat ≠ 0 := by omega
    simp [hlow, hhigh, hne]
  · rw [if_neg hb, if_neg (by simp), if_neg (fun h => hb ⟨h.1, h.2.1⟩)]

/-- Settles O18: a transfer refused, and one taken, by what the part has to send. -/
theorem hostTransferResult : Obligations.HostTransferResult := by
  intro s b rest
  refine ⟨fun hlow hhigh hfull => ?_, fun hroom => ?_⟩
  · have hn : hostLength (b :: rest) ≠ 0 := by
      rw [hostLength_cons, if_pos ⟨hlow, hhigh⟩]
      omega
    have htransfer := transfer_refused (s := s) hn hfull
    refine ⟨_, (exec_hostTransfer b rest s).trans (congrArg Host.Outcome.next htransfer),
      fillTo_one rest.length 255#8, ?_⟩
    intro x hx
    cases x <;> first | rfl | exact ⟨rfl, rfl⟩ | exact ⟨rfl, rfl, rfl⟩ | exact absurd (by decide) hx
  · have htaken : ¬ (hostLength (b :: rest) ≠ 0 ∧ 8 ≤ s.spu.requests.length) := by
      rw [hostLength_cons]
      rintro ⟨hn, hfull⟩
      split at hn <;> omega
    refine ⟨_, (exec_hostTransfer b rest s).trans (congrArg Host.Outcome.next (transfer_taken htaken)), ?_,
      fun ho hi => ?_, fun q more ho hi => ?_, fun r more ho ha => ?_⟩
    · show requestsAfter _ _ = _
      rw [sent_requests, requestsAfter_cons]
    · rw [sent_short (.inl (outBytes_empty ho hi)), outBytes_empty ho hi]
      exact ⟨rfl, hi, ho, rfl⟩
    · have hout := outBytes_queued ho hi
      have hne := hout ▸ recordBytes_ne_nil q.record q.lost
      by_cases hwhole : (recordBytes q.record q.lost).length ≤ rest.length + 1
      · rw [sent_whole hne (by rw [hout]; exact hwhole), recordTaken_queued ho hi, hout, if_pos hwhole]
        exact ⟨rfl, rfl, fun _ => ⟨owes_iff q.record, fun h => coalAfterLoss_routine h _,
          fun h => coalAfterLoss_urgent h _⟩, fun h => absurd h (Nat.not_lt.2 hwhole)⟩
      · rw [sent_short (.inr (by rw [hout]; exact Nat.not_le.1 hwhole)), hout, if_neg hwhole]
        exact ⟨rfl, hi, fun h => absurd h hwhole, fun _ => ⟨ho, rfl⟩⟩
    · have hout := outBytes_owed ho ha
      have hne := hout ▸ recordBytes_ne_nil r 0
      by_cases hwhole : (recordBytes r 0).length ≤ rest.length + 1
      · rw [sent_whole hne (by rw [hout]; exact hwhole), recordTaken_owed ho ha, hout, if_pos hwhole]
        exact ⟨rfl, rfl, by simp [State.setSpu], rfl, rfl⟩
      · rw [sent_short (.inr (by rw [hout]; exact Nat.not_le.1 hwhole)), hout, if_neg hwhole]
        exact ⟨rfl, ha, by simp [State.setSpu, ho, ha], rfl, rfl⟩

/-! ### A head request that R37 refuses -/

/-- Each kind of R37's table is served by the one shared rule. -/
theorem exec_serviceOf {kind : Nat} (hlow : 1 ≤ kind) (hhigh : kind ≤ 17) (s : State) :
    ∃ act, exec (serviceOf kind) s = .next (s.serveKind kind act) := by
  interval_cases kind <;> exact ⟨_, rfl⟩

theorem serviceOf_unknown {kind : Nat} (h : knownKind kind = false) : serviceOf kind = .unknownRequest := by
  have hout : kind = 0 ∨ 17 < kind := by
    simp only [knownKind, Bool.and_eq_false_iff, decide_eq_false_iff_not] at h
    omega
  unfold serviceOf
  split <;> first | rfl | omega

theorem exec_unknownRequest {s : State} {r : List Byte} {more : List (List Byte)} (hhead : s.spu.requests = r :: more)
    (hkind : knownKind (requestKind r) = false) (hroom : s.urgentHeld < 32) :
    exec .unknownRequest s = .next ((s.served more).respond (requestTag r) (requestKind r) .badArgument) := by
  have hserve : s.mayServe 0 = true := by simp [State.mayServe, hroom, answeredFromTable]
  refine congrArg Host.Outcome.next ?_
  simp only [hhead, hkind, hserve, and_self, if_true]
  rfl

/-- Settles O19: a head request that fails the record check, of a kind known or not. -/
theorem malformedRequestAnswered : Obligations.MalformedRequestAnswered := by
  intro s r more hhead hroom hempty hbad
  cases hknown : knownKind (requestKind r) with
  | false =>
    refine ⟨_, ?_, respond_only more _ _ _ hroom⟩
    rw [serviceOf_unknown hknown]
    exact exec_unknownRequest hhead hknown hroom
  | true =>
    obtain ⟨hlow, hhigh⟩ : 1 ≤ requestKind r ∧ requestKind r ≤ 17 := by simpa [knownKind] using hknown
    obtain ⟨act, hexec⟩ := exec_serviceOf hlow hhigh s
    have hserve : s.mayServe (requestKind r) = true := by
      cases htable : answeredFromTable (requestKind r) with
      | false => simp [State.mayServe, hroom, htable]
      | true => exact mayServe_of_empty _ hroom (hempty htable)
    rw [serveKind_malformed hhead hbad hserve act] at hexec
    exact ⟨_, hexec, respond_only more _ _ _ hroom⟩

/-! ### Intake (R184, R185) -/

theorem makeRoom_room {need fuel : Nat} {q : List Queued} (h : q.length + need ≤ 32) : makeRoom need fuel q = (q, 0) := by
  cases fuel with
  | zero => rfl
  | succ n => exact if_pos h

/-- R184: in a full queue the oldest routine record gives way to one newcomer. -/
theorem makeRoom_full {before after : List Queued} {q : Queued} (hlen : (before ++ q :: after).length = 32)
    (hbefore : ∀ x ∈ before, x.record.urgent = true) (hq : q.record.urgent = false) :
    makeRoom 1 32 (before ++ q :: after) = (before ++ after, 1) := by
  have hany : (before ++ q :: after).any Queued.routine = true :=
    (any_routine_iff _).2 ⟨q, by simp, hq⟩
  have herase : (before ++ q :: after).eraseP Queued.routine = before ++ after := by
    rw [List.eraseP_append_right _ (fun x hx => by simp [Queued.routine, hbefore x hx])]
    simp [Queued.routine, hq]
  have hroom : (before ++ after).length + 1 ≤ 32 := by
    simp only [List.length_append, List.length_cons] at hlen ⊢
    omega
  rw [makeRoom, if_neg (by omega), if_pos hany, herase, makeRoom_room hroom]

theorem makeRoom_urgent {need fuel : Nat} {q : List Queued} (h : ∀ x ∈ q, x.record.urgent = true) :
    makeRoom need fuel q = (q, 0) := by
  have hany : ¬ q.any Queued.routine = true := fun hany => by
    obtain ⟨x, hx, hr⟩ := (any_routine_iff q).1 hany
    simp [h x hx] at hr
  cases fuel with
  | zero => rfl
  | succ n => rw [makeRoom, if_neg hany, ite_self]

/-- What the newcomers leave of the coalescing timer (R185). -/
def coalAfterIntake (s : State) (r : HostRecord) (kept : List Queued) : Coalescing :=
  if r.urgent then coalAfterLoss kept s.spu.coal
  else coalAfterRoutine s.ms s.cfg.coalesce (coalAfterLoss kept s.spu.coal)

section Intake

variable {s : State} {r : HostRecord} {more : List HostRecord} {kept : List Queued} {n : Nat}

theorem takeInAll_fits (hm : makeRoom (more.length + 1) s.spu.ind.length s.spu.ind = (kept, n))
    (h : kept.length + (more.length + 1) ≤ 32) : takeInAll (r :: more) s = s.setSpu { s.spu with
      ind := kept ++ { record := r, lost := min 255 (s.spu.lost + n) } :: more.map (fun x => { record := x, lost := 0 }),
      lost := 0, coal := coalAfterIntake s r kept } := by
  simp only [takeInAll, List.length_cons, hm, h, if_true]
  rfl

theorem takeInAll_lost (hm : makeRoom (more.length + 1) s.spu.ind.length s.spu.ind = (kept, n))
    (h : 32 < kept.length + (more.length + 1)) : takeInAll (r :: more) s = s.setSpu { s.spu with
      ind := kept, lost := min 255 (s.spu.lost + n + (more.length + 1)), coal := coalAfterLoss kept s.spu.coal } := by
  have hlost : addLost (addLost s.spu.lost n) (more.length + 1) = min 255 (s.spu.lost + n + (more.length + 1)) := by
    unfold addLost
    omega
  simp only [takeInAll, List.length_cons, hm, Nat.not_le.2 h, if_false, hlost]

end Intake

/-- Settles O20: one record into a queue with room, with a routine record, and with none; and the general rule. -/
theorem recordIntake : Obligations.RecordIntake := by
  refine ⟨fun s r hlost => ⟨fun hroom => ?_, fun before q after hind hlen hbefore hq => ?_, fun hlen hurgent => ?_,
    fun q hq hurgent => takeInAll_mem_urgent [r] hurgent hq⟩, fun s r => rfl, fun s r more => ?_⟩
  · have hfit := takeInAll_fits (r := r) (more := []) (makeRoom_room (need := 1) (fuel := s.spu.ind.length) hroom) hroom
    rw [takeIn, hfit]
    refine ⟨?_, rfl⟩
    simp [State.setSpu, hlost]
  · have hmake : makeRoom 1 s.spu.ind.length s.spu.ind = (before ++ after, 1) := by
      rw [hlen, hind]
      exact makeRoom_full (hind ▸ hlen) hbefore hq
    have hroom : (before ++ after).length + 1 ≤ 32 := by
      rw [hind] at hlen
      simp only [List.length_append, List.length_cons] at hlen ⊢
      omega
    rw [takeIn, takeInAll_fits (more := []) hmake hroom]
    exact ⟨rfl, rfl⟩
  · have hmake : makeRoom 1 s.spu.ind.length s.spu.ind = (s.spu.ind, 0) := makeRoom_urgent hurgent
    rw [takeIn, takeInAll_lost (more := []) hmake (by rw [hlen]; decide)]
    exact ⟨rfl, rfl⟩
  · obtain ⟨kept, n, hmake⟩ : ∃ kept n, makeRoom (more.length + 1) s.spu.ind.length s.spu.ind = (kept, n) :=
      ⟨_, _, rfl⟩
    obtain ⟨hdiscards, hneeded, hnone⟩ := makeRoom_discards (more.length + 1) s.spu.ind.length s.spu.ind (Nat.le_refl _)
    rw [hmake] at hdiscards hneeded hnone
    refine ⟨n, kept, coalAfterLoss kept s.spu.coal, hdiscards, hneeded, hnone, fun h => coalAfterLoss_routine h _,
      fun h => coalAfterLoss_urgent h _, takeInAll_lost hmake,
      fun h => ⟨coalAfterIntake s r kept, takeInAll_fits hmake h, fun hu => by rw [coalAfterIntake, if_pos hu],
        fun hr => ?_⟩⟩
    rw [coalAfterIntake, if_neg (by simp [hr])]
    refine ⟨fun hc => by rw [hc]; rfl, fun deadline anchor latest hc hlatest => ?_, fun hc => by rw [hc]; rfl⟩
    rw [hc, hlatest]
    rfl

/-! ### The coalescing timer and the attention line (R185) -/

theorem exec_coalescingTimerExpiry_due {s : State} {deadline anchor : Nat} (h : s.spu.coal = .running deadline anchor)
    (hdue : deadline ≤ s.ms) :
    exec .coalescingTimerExpiry s = .next (s.setSpu { s.spu with coal := .expired }) := by
  refine congrArg Host.Outcome.next ?_
  simp only [h, hdue, if_true]

theorem attention_iff (s : State) : s.attention = true ↔ s.spu.owed = true
    ∨ (s.spu.ind ≠ [] ∧ ((∃ q ∈ s.spu.ind, q.record.urgent = true) ∨ s.spu.coal = .expired)) := by
  simp [State.attention]

/-- Settles O21: the coalescing timer's expiry, and what asserts the attention line. -/
theorem coalescingExpiryResult : Obligations.CoalescingExpiryResult :=
  ⟨fun _ _ _ h hdue => ⟨_, exec_coalescingTimerExpiry_due h hdue, rfl,
    fun hheld => (attention_iff _).2 (.inr ⟨hheld, .inr rfl⟩)⟩, attention_iff⟩

end Sys2Proof.Machine


/-! The station port's requests: CONFIGURE, SILENCE, SEND_TEXT, REQUEST_HISTORY, READ_HISTORY and the table reads (O22,
O28, O29, O30, O32). -/

namespace Sys2Proof.Machine

/-! ### CONFIGURE (R181) -/

theorem exec_configure_serving {s : State} {tag index : Nat} {last : Bool} {image : List Byte} {more : List (List Byte)}
    (h : Serving s (.configure index last image) tag more) :
    exec .configure s = .next ((s.served more).serveConfigure tag (.configure index last image)) :=
  congrArg Host.Outcome.next (serveKind_serving h State.serveConfigure)

section Configure

variable {s : State} {index : Nat} {last : Bool} {image : List Byte}

theorem serveConfigure_loading (h : s.spu.part = .loading) (tag : Nat) :
    s.serveConfigure tag (.configure index last image) = s.respond tag 1 .busy := by
  simp only [State.serveConfigure, h]

theorem serveConfigure_started (h : s.started = true) (tag : Nat) :
    s.serveConfigure tag (.configure index last image) = s.respond tag 1 .badState := by
  obtain hpart | hpart : s.spu.part = .joining ∨ s.spu.part = .running := by simpa [State.started] using h
  all_goals simp only [State.serveConfigure, hpart]

theorem serveConfigure_waiting (h : s.spu.part = .waiting) (tag : Nat) :
    s.serveConfigure tag (.configure index last image) = s.configurePart tag index last image := by
  simp only [State.serveConfigure, h]

theorem assemblePart_refused {a : Option Assembly} (hi : index ≠ 0) (h : ∀ x, a = some x → x.next ≠ index) :
    assemblePart a index image = none := by
  cases a with
  | none => simp [assemblePart, hi]
  | some x => simp [assemblePart, hi, h x rfl]

theorem assemblePart_taken {a : Option Assembly} {whole : List Byte} (h : index = 0 ∧ whole = image
    ∨ index ≠ 0 ∧ ∃ x, a = some x ∧ x.next = index ∧ whole = x.bytes ++ image) :
    assemblePart a index image = some { bytes := whole, next := index + 1 } := by
  obtain ⟨rfl, rfl⟩ | ⟨hi, x, rfl, hx, rfl⟩ := h
  · rfl
  · simp [assemblePart, hi, hx]

/-- What a part of an image leaves held: an assembly begun anew discards it. -/
def heldAfter (s : State) (index : Nat) : Option Configuration := if index = 0 then none else s.spu.held

theorem configurePart_refused (h : assemblePart s.spu.assembly index image = none) (tag : Nat) :
    s.configurePart tag index last image
      = (s.setSpu { s.spu with assembly := none, held := heldAfter s index }).respond tag 1 .badArgument := by
  simp only [State.configurePart, h]
  rfl

section Taken

variable {x : Assembly} (h : assemblePart s.spu.assembly index image = some x)
include h

theorem configurePart_part (tag : Nat) : s.configurePart tag index false image
    = (s.setSpu { s.spu with assembly := some x, held := heldAfter s index }).respond tag 1 .ok := by
  simp only [State.configurePart, h]
  rfl

theorem configurePart_passes (hp : imageFault x.bytes = none) (tag : Nat) : s.configurePart tag index true image
    = (s.setSpu { s.spu with assembly := none, held := some (configurationOf x.bytes) }).respond tag 1 .ok := by
  simp only [State.configurePart, h, readImage, hp, if_true]

theorem configurePart_fails {i : Nat} (hp : imageFault x.bytes = some i) (tag : Nat) :
    s.configurePart tag index true image
      = takeIn (.response tag 1 .badArgument i 0) (s.setSpu { s.spu with assembly := none, held := none }) := by
  simp only [State.configurePart, h, readImage, hp, if_true]

end Taken

end Configure

/-- What an answer leaves of the state it is placed in, when only the intake was touched before it. -/
theorem answered_intake {s : State} (more : List (List Byte)) (a : Option Assembly) (held : Option Configuration)
    (tag kind : Nat) (code : ResponseCode) (detail : Nat) (h : s.urgentHeld < 32) :
    let t := takeIn (.response tag kind code detail 0) ((s.served more).setSpu { (s.served more).spu with
      assembly := a, held := held })
    t.spu.requests = more ∧ Answered t tag kind code detail 0 ∧ t.spu.assembly = a ∧ t.spu.held = held := by
  intro t
  have hintake := takeIn_touches (.response tag kind code detail 0)
    ((s.served more).setSpu { (s.served more).spu with assembly := a, held := held }) .intake (by decide)
  exact ⟨takeIn_requests _ _, takeIn_last _ _ h, hintake.2, hintake.1⟩

/-- Settles O22: by the part state, and in WAITING by the index, the last-part flag and the image. -/
theorem configureResult : Obligations.ConfigureResult := by
  intro s tag index last image more h
  have hexec := exec_configure_serving h
  refine ⟨fun hpart => ?_, fun hstarted => ?_, fun hpart hi hnext => ?_, fun whole hpart hwhole => ?_⟩
  · rw [serveConfigure_loading (s := s.served more) hpart] at hexec
    exact ⟨_, hexec, respond_only more tag 1 .busy h.room⟩
  · rw [serveConfigure_started (s := s.served more) hstarted] at hexec
    exact ⟨_, hexec, respond_only more tag 1 .badState h.room⟩
  · rw [serveConfigure_waiting (s := s.served more) hpart,
      configurePart_refused (assemblePart_refused (a := (s.served more).spu.assembly) hi hnext)] at hexec
    obtain ⟨hreq, hans, hass, hheld⟩ := answered_intake (s := s) more none (heldAfter (s.served more) index) tag 1
      .badArgument 0 h.room
    exact ⟨_, hexec, hreq, hans, hass, hheld.trans (if_neg hi)⟩
  · rw [serveConfigure_waiting (s := s.served more) hpart] at hexec
    have htaken : assemblePart (s.served more).spu.assembly index image = some { bytes := whole, next := index + 1 } :=
      assemblePart_taken hwhole
    refine ⟨fun hlast => ?_, fun hlast hpass => ?_, fun i hlast hfault => ?_⟩
    · subst hlast
      rw [configurePart_part htaken] at hexec
      exact ⟨_, hexec, answered_intake more _ (heldAfter (s.served more) index) tag 1 .ok 0 h.room⟩
    · subst hlast
      rw [configurePart_passes htaken hpass] at hexec
      exact ⟨_, hexec, answered_intake more none (some (configurationOf whole)) tag 1 .ok 0 h.room⟩
    · subst hlast
      rw [configurePart_fails htaken hfault] at hexec
      exact ⟨_, hexec, answered_intake more none none tag 1 .badArgument i h.room⟩

/-! ### SILENCE (R163, R167) -/

theorem exec_silence_serving {s : State} {tag : Nat} {more : List (List Byte)} (h : Serving s .silence tag more) :
    exec .silence s = .next ((s.served more).serveSilence tag .silence) :=
  congrArg Host.Outcome.next (serveKind_serving h State.serveSilence)

/-- R167: silenced entries ask for no pattern. -/
theorem sounderPattern_silenced {s : State} (h : ∀ a ∈ s.aru.alarms, a.silenced = true) : s.sounderPattern = .off := by
  have hnone : s.aru.alarms.filter (fun a => s.standsHere a && !a.silenced) = [] :=
    List.filter_eq_nil_iff.2 fun a ha => by simp [h a ha]
  simp [State.sounderPattern, hnone]

theorem silenceAll_alarms (s : State) :
    s.silenceAll.aru.alarms = s.aru.alarms.map (fun a => { a with silenced := true }) := rfl

theorem silenceAll_sounder (s : State) : s.silenceAll.iou.sounder = .off := by
  refine sounderPattern_silenced (s := s.setAlarms (s.aru.alarms.map (fun a => { a with silenced := true }))) ?_
  intro a ha
  obtain ⟨b, -, rfl⟩ := List.mem_map.1 ha
  rfl

/-- Settles O28: every held entry silenced and the sounder off once the part has started; else BAD_STATE. -/
theorem silenceResult : Obligations.SilenceResult := by
  intro s tag more h
  have hexec := exec_silence_serving h
  refine ⟨fun hstarted => ?_, fun hstarted => ?_⟩
  · rw [State.serveSilence, if_pos (show (s.served more).started = true from hstarted)] at hexec
    have hsilence : OnlyTouches [.alarms, .sounder] (s.served more) (s.served more).silenceAll := silenceAll_touches _
    have hanswer := respond_touches (s.served more).silenceAll tag 9 .ok
    have hroom : (s.served more).silenceAll.urgentHeld < 32 := h.room
    refine ⟨_, hexec, takeIn_requests _ _, respond_last _ tag 9 .ok hroom, ?_, ?_,
      ((served_touches s more).wide.andThen hsilence).andThen hanswer⟩
    · exact (hanswer .alarms (by decide)).trans (silenceAll_alarms (s.served more))
    · exact (hanswer .sounder (by decide)).trans (silenceAll_sounder (s.served more))
  · rw [State.serveSilence, if_neg (by simp [hstarted])] at hexec
    exact ⟨_, hexec, respond_only more tag 9 .badState h.room⟩

/-! ### SEND_TEXT and REQUEST_HISTORY (R53, R105) -/

theorem exec_sendText_serving {s : State} {tag dest : Nat} {sticky report : Bool} {words : List Byte}
    {more : List (List Byte)} (h : Serving s (.sendText dest sticky report words) tag more) :
    exec .sendText s = .next ((s.served more).serveSendText tag (.sendText dest sticky report words)) :=
  congrArg Host.Outcome.next (serveKind_serving h State.serveSendText)

theorem exec_requestHistory_serving {s : State} {tag dest channel : Nat} {more : List (List Byte)}
    (h : Serving s (.requestHistory dest channel) tag more) :
    exec .requestHistory s = .next ((s.served more).serveRequestHistory tag (.requestHistory dest channel)) :=
  congrArg Host.Outcome.next (serveKind_serving h State.serveRequestHistory)

/-- The standing text taken from a sticky SEND_TEXT (R53). -/
def State.worded (s : State) (sticky : Bool) (words : List Byte) : State :=
  if sticky then s.setPru { s.pru with text := standingText words } else s

theorem worded_touches (s : State) (sticky : Bool) (words : List Byte) :
    OnlyTouches [.text] s (s.worded sticky words) := by
  refine .ite ?_ (.refl _ _)
  intro x hx
  cases x <;> first | rfl | exact ⟨rfl, rfl⟩ | exact ⟨rfl, rfl, rfl⟩ | exact absurd (by decide) hx

theorem worded_text (s : State) (sticky : Bool) (words : List Byte) : (s.worded sticky words).pru.text
    = if sticky then (if words = [0#8] then none else some (words.take 32)) else s.pru.text := by
  cases sticky <;> rfl

/-- Settles O29: the frames requested on the configured ports, or the refusal. -/
theorem sendFrameRequestsResult : Obligations.SendFrameRequestsResult := by
  intro s tag more
  refine ⟨fun dest sticky report words h => ?_, fun dest channel h => ?_⟩
  · have hexec := exec_sendText_serving h
    refine ⟨fun hstarted => ?_, fun hstarted => ?_⟩
    · rw [State.serveSendText, if_pos (show (s.served more).started = true from hstarted)] at hexec
      have htext := worded_touches (s.served more) sticky words
      exact ⟨(s.served more).worded sticky words, hexec, htext .requests (by decide),
        (served_touches s more).wide.andThen htext, worded_text (s.served more) sticky words⟩
    · rw [State.serveSendText, if_neg (by simp [hstarted])] at hexec
      exact ⟨_, hexec, respond_only more tag 10 .badState h.room⟩
  · have hexec := exec_requestHistory_serving h
    refine ⟨fun hstarted hdest => ?_, fun code hcode => ?_⟩
    · rw [State.serveRequestHistory, if_neg (by simp [hstarted]), served_cfg, if_neg hdest] at hexec
      exact ⟨s.served more, hexec, rfl, served_touches s more⟩
    · obtain ⟨hstarted, rfl⟩ | ⟨hstarted, hdest, rfl⟩ := hcode
      · rw [State.serveRequestHistory, if_pos (by simp [hstarted])] at hexec
        exact ⟨_, hexec, respond_only more tag 17 .badState h.room⟩
      · rw [State.serveRequestHistory, if_neg (by simp [hstarted]), served_cfg, if_pos hdest] at hexec
        exact ⟨_, hexec, respond_only more tag 17 .badArgument h.room⟩

/-! ### READ_HISTORY and the arbiter (R101, R104) -/

theorem exec_readHistory_serving {s : State} {tag : Nat} {c : Fin 7} {more : List (List Byte)}
    (h : Serving s (.readHistory c) tag more) :
    exec .readHistory s = .next ((s.served more).serveReadHistory tag (.readHistory c)) :=
  congrArg Host.Outcome.next (serveKind_serving h State.serveReadHistory)

theorem arbitrate_busy {s : State} (h : s.bpk.flight ≠ none) : s.arbitrate = s :=
  if_pos (Option.isSome_iff_ne_none.2 h)

theorem arbitrate_voice {s : State} {block : List Int} {more : List (List Int)} (h : s.bpk.flight = none)
    (hw : s.clu.capture.waiting = block :: more) :
    s.arbitrate = s.grantVoice (s.clu.capture.run.getD 0) block more := by
  simp [State.arbitrate, h, hw]

theorem arbitrate_history {s : State} {e : HistoryRequest} {more : List HistoryRequest} (h : s.bpk.flight = none)
    (hw : s.clu.capture.waiting = []) (hl : s.bpk.history = e :: more) : s.arbitrate = s.grantHistory e more := by
  simp [State.arbitrate, h, hw, hl]

theorem arbitrate_none {s : State} (hw : s.clu.capture.waiting = []) (hl : s.bpk.history = []) : s.arbitrate = s := by
  unfold State.arbitrate
  split
  · rfl
  · simp only [hw, hl]

section ReadHistory

variable {s : State} {c : Fin 7}

theorem serveReadHistory_unset (h : (s.channel c).level = .unset) (tag : Nat) :
    s.serveReadHistory tag (.readHistory c) = s.respond tag 11 .noSuch := if_pos h

theorem serveReadHistory_full (h : (s.channel c).level ≠ .unset) (hfull : 4 ≤ s.bpk.history.length) (tag : Nat) :
    s.serveReadHistory tag (.readHistory c) = s.respond tag 11 .busy := by
  simp only [State.serveReadHistory, h, hfull, if_true, if_false]

theorem serveReadHistory_added (h : (s.channel c).level ≠ .unset) (hroom : s.bpk.history.length < 4) (tag : Nat) :
    s.serveReadHistory tag (.readHistory c) = s.addHistory (.host c tag) := by
  simp only [State.serveReadHistory, h, Nat.not_le.2 hroom, if_false]

end ReadHistory

/-- Settles O30: NO_SUCH, BUSY, or an entry on which the arbiter decides. -/
theorem readHistoryResult : Obligations.ReadHistoryResult := by
  intro s tag c more h
  have hexec := exec_readHistory_serving h
  refine ⟨fun hunset => ?_, fun hset hfull => ?_, fun hset hroom => ?_⟩
  · rw [serveReadHistory_unset (s := s.served more) hunset] at hexec
    exact ⟨_, hexec, respond_only more tag 11 .noSuch h.room⟩
  · rw [serveReadHistory_full (s := s.served more) hset hfull] at hexec
    exact ⟨_, hexec, respond_only more tag 11 .busy h.room⟩
  · rw [serveReadHistory_added (s := s.served more) hset hroom] at hexec
    have hentry : OnlyTouches [.history] (s.served more) ((s.served more).setBpk
        { (s.served more).bpk with history := (s.served more).bpk.history ++ [.host c tag] }) := by
      intro x hx
      cases x <;> first | rfl | exact ⟨rfl, rfl⟩ | exact ⟨rfl, rfl, rfl⟩ | exact absurd (by decide) hx
    refine ⟨_, hexec, rfl, rfl, (served_touches s more).wide.andThen hentry, fun hflight => arbitrate_busy hflight,
      fun hfree hwaiting hempty => ?_⟩
    have hgrant := arbitrate_history (s := (s.served more).setBpk
        { (s.served more).bpk with history := (s.served more).bpk.history ++ [.host c tag] })
      hfree hwaiting (congrArg (· ++ [HistoryRequest.host c tag]) hempty)
    rw [hgrant]
    exact ⟨rfl, _, rfl, rfl⟩

/-! ### Table reads (R39, R134, R150, R170, R183) -/

theorem exec_readPeers_serving {s : State} {tag : Nat} {more : List (List Byte)} (h : Serving s .readPeers tag more) :
    exec .readPeers s = .next ((s.served more).serveReadPeers tag .readPeers) :=
  congrArg Host.Outcome.next (serveKind_serving h State.serveReadPeers)

theorem exec_readAlarms_serving {s : State} {tag : Nat} {more : List (List Byte)} (h : Serving s .readAlarms tag more) :
    exec .readAlarms s = .next ((s.served more).serveReadAlarms tag .readAlarms) :=
  congrArg Host.Outcome.next (serveKind_serving h State.serveReadAlarms)

theorem exec_readTags_serving {s : State} {tag : Nat} {more : List (List Byte)} (h : Serving s .readTags tag more) :
    exec .readTags s = .next ((s.served more).serveReadTags tag .readTags) :=
  congrArg Host.Outcome.next (serveKind_serving h State.serveReadTags)

theorem exec_readCounters_serving {s : State} {tag : Nat} {more : List (List Byte)}
    (h : Serving s .readCounters tag more) :
    exec .readCounters s = .next ((s.served more).serveReadCounters tag .readCounters) :=
  congrArg Host.Outcome.next (serveKind_serving h State.serveReadCounters)

/-- Settles O32: each of the four is a table answer of the items it names. -/
theorem tableReadsResult : Obligations.TableReadsResult := by
  intro s tag more
  refine ⟨fun h => ?_, fun h => ?_, fun h => ?_, fun h => ?_⟩
  · obtain ⟨hreq, hans, hitems, htouch⟩ := answerTable_only more tag 13 (s.pru.peers.map s.peerItem) h.room
    rw [List.length_map] at hans
    rw [List.map_map] at hitems
    exact ⟨_, exec_readPeers_serving h, hreq, hans, hitems, htouch⟩
  · obtain ⟨hreq, hans, hitems, htouch⟩ := answerTable_only more tag 14 (s.aru.alarms.map s.alarmItem) h.room
    rw [List.length_map] at hans
    rw [List.map_map] at hitems
    exact ⟨_, exec_readAlarms_serving h, hreq, hans, hitems, htouch⟩
  · obtain ⟨hreq, hans, hitems, htouch⟩ := answerTable_only more tag 15
      (s.tgu.near.map s.nearItem ++ s.tgu.tracks.map s.trackItem) h.room
    rw [List.length_append, List.length_map, List.length_map] at hans
    rw [List.map_append, List.map_map, List.map_map] at hitems
    exact ⟨_, exec_readTags_serving h, hreq, hans, hitems, htouch⟩
  · obtain ⟨hreq, hans, hitems, htouch⟩ := answerTable_only more tag 16 [s.portItem .A, s.portItem .B, s.linkItem] h.room
    exact ⟨_, exec_readCounters_serving h, hreq, hans, hitems, htouch⟩

end Sys2Proof.Machine


/-! The calls and alarms a request places, releases, raises, acknowledges and clears (O23 to O27). -/

namespace Sys2Proof.Machine

/-! ### PLACE_CALL (R112, R123, R127) -/

theorem setPlaced_emptied_touches (s : State) (x : CallContext) (n : Nat) :
    OnlyTouches [.context, .nextCall, .playback] s (s.setClu { s.clu with ctx := x, nextCall := n }).emptyPlayback := by
  intro y hy
  cases y <;> first | rfl | exact ⟨rfl, rfl⟩ | exact ⟨rfl, rfl, rfl⟩ | exact absurd (by decide) hy

/-- R112, R127: a call is placed. -/
theorem placeCall_places (s : State) (callee : Nat) : PlacesCall s (s.placeCall callee) callee := by
  refine ⟨_, setPlaced_emptied_touches s _ _, rfl, rfl, rfl, setCtx_touches _ _, ?_⟩
  obtain ⟨u, hu⟩ : ∃ u, u = (s.setClu { s.clu with
      ctx := s.ownContext .outgoing callee, nextCall := (s.clu.nextCall + 1) % 256 }).emptyPlayback := ⟨_, rfl⟩
  have hclu : (u.sendMessage .setup none).clu = u.clu := by
    rw [sendMessage_clu, if_neg (by rw [hu]; exact CallState.noConfusion)]
  have hms : (u.sendMessage .setup none).ms = s.ms := by
    rw [touched_ms (sendMessage_touches u .setup none), hu]
    rfl
  rw [State.placeCall, State.sendSetup, ← hu]
  show ({ (u.sendMessage .setup none).clu.ctx with
    setups := (u.sendMessage .setup none).clu.ctx.setups + 1, setupDue := some ((u.sendMessage .setup none).ms + 1000) }
      : CallContext) = _
  rw [hclu, hms, hu]
  rfl

/-- R112, R123: a page is placed. -/
theorem placePage_places (s : State) : PlacesPage s s.placePage :=
  ⟨setPlaced_emptied_touches s _ _, rfl, rfl, rfl⟩

theorem exec_placeCall_serving {s : State} {tag callee : Nat} {more : List (List Byte)}
    (h : Serving s (.placeCall callee) tag more) :
    exec .placeCall s = .next ((s.served more).servePlaceCall tag (.placeCall callee)) :=
  congrArg Host.Outcome.next (serveKind_serving h State.servePlaceCall)

theorem running_iff (s : State) : s.running = true ↔ s.spu.part = .running := decide_eq_true_iff

/-- R112: the code of a refusal is that of the first case that applies. -/
theorem callAnswer_refused {s : State} {callee : Nat} {code : ResponseCode}
    (h : if s.spu.part ≠ .running then code = .badState
      else if callee = s.cfg.station then code = .badArgument
      else if callee = 4095 ∧ s.cfg.operator = false then code = .notPermitted
      else if s.clu.ctx.state ≠ .idle then code = .badState
      else admissionLimit s.cfg.rate ≤ s.pru.heard.length ∧ code = .lineFull) : s.callAnswer callee = code := by
  have hrunning := running_iff s
  unfold State.callAnswer
  split at h
  next hpart =>
    rw [if_pos (by simp [← Bool.not_eq_true, hrunning, hpart]), h]
  next hpart =>
    rw [if_neg (by simpa [← Bool.not_eq_true, hrunning] using hpart)]
    split at h
    next hown => rw [if_pos hown, h]
    next hown =>
      rw [if_neg hown]
      split at h
      next hpage => rw [if_pos hpage, h]
      next hpage =>
        rw [if_neg hpage]
        split at h
        next hidle => rw [if_pos hidle, h]
        next hidle =>
          obtain ⟨hfull, rfl⟩ := h
          rw [if_neg hidle, if_pos hfull]

theorem callAnswer_admitted {s : State} {callee : Nat} (hrun : s.spu.part = .running) (hown : callee ≠ s.cfg.station)
    (hpage : callee = 4095 → s.cfg.operator = true) (hidle : s.clu.ctx.state = .idle)
    (hroom : s.pru.heard.length < admissionLimit s.cfg.rate) : s.callAnswer callee = .ok := by
  unfold State.callAnswer
  rw [if_neg (by simp [(running_iff s).2 hrun]), if_neg hown, if_neg (fun h => by simp [hpage h.1] at h),
    if_neg (by simp [hidle]), if_neg (Nat.not_le.2 hroom)]

theorem servePlaceCall_refused {s : State} {callee : Nat} {code : ResponseCode} (h : s.callAnswer callee = code)
    (hne : code ≠ .ok) (tag : Nat) : s.servePlaceCall tag (.placeCall callee) = s.respond tag 4 code := by
  simp only [State.servePlaceCall, h, hne, if_false]

theorem servePlaceCall_admitted {s : State} {callee : Nat} (h : s.callAnswer callee = .ok) (tag : Nat) :
    s.servePlaceCall tag (.placeCall callee) = (s.placeAdmitted callee).respond tag 4 .ok := by
  simp only [State.servePlaceCall, h, if_true]

/-- Settles O23: by the first case of R112 that applies. -/
theorem placeCallResult : Obligations.PlaceCallResult := by
  refine ⟨rfl, rfl, rfl, fun s tag callee more h => ⟨fun code hne hcode => ?_, fun hrun hown hidle hroom =>
    ⟨fun hcall => ?_, fun hpage hoperator => ?_⟩⟩⟩
  · have hexec := exec_placeCall_serving h
    rw [servePlaceCall_refused (callAnswer_refused (s := s.served more) hcode) hne] at hexec
    exact ⟨_, hexec, respond_only more tag 4 code h.room⟩
  · have hexec := exec_placeCall_serving h
    rw [servePlaceCall_admitted (callAnswer_admitted (s := s.served more) hrun hown (fun hp => absurd hp hcall) hidle hroom),
      State.placeAdmitted, if_neg hcall] at hexec
    obtain ⟨u, hu, hctx, hnext, hplay, hv, hdue⟩ := placeCall_places (s.served more) callee
    exact ⟨u, _, hexec, hu .requests (by decide), hctx, (served_touches s more).wide.andThen hu, hnext, hplay, hdue, hv⟩
  · have hexec := exec_placeCall_serving h
    rw [servePlaceCall_admitted (callAnswer_admitted (s := s.served more) hrun hown (fun _ => hoperator) hidle hroom),
      State.placeAdmitted, if_pos hpage] at hexec
    obtain ⟨hu, hctx, hnext, hplay⟩ := placePage_places (s.served more)
    have hanswer := respond_touches (s.served more).placePage tag 4 .ok
    refine ⟨_, hexec, (takeIn_requests _ _).trans (hu .requests (by decide)), respond_last _ tag 4 .ok h.room, ?_, ?_, ?_,
      ((served_touches s more).wide.andThen hu).andThen hanswer⟩
    · exact (hanswer .context (by decide)).trans hctx
    · exact (hanswer .nextCall (by decide)).trans hnext
    · exact (hanswer .playback (by decide)).trans hplay

/-! ### RELEASE_CALL (R118) -/

theorem exec_releaseCall_serving {s : State} {tag : Nat} {more : List (List Byte)} (h : Serving s .releaseCall tag more) :
    exec .releaseCall s = .next ((s.served more).serveReleaseCall tag .releaseCall) :=
  congrArg Host.Outcome.next (serveKind_serving h State.serveReleaseCall)

theorem releasable_iff (x : CallState) : x.releasable = true ↔ x ≠ .idle ∧ x ≠ .hearingPage := by cases x <;> decide

/-- Settles O24: a call in progress is dropped; with none there is nothing to release. -/
theorem releaseCallResult : Obligations.ReleaseCallResult := by
  intro s tag more h
  have hexec := exec_releaseCall_serving h
  refine ⟨fun hidle hpage => ?_, fun hnone => ?_⟩
  · have hheld : (s.served more).clu.ctx.state.releasable = true := (releasable_iff _).2 ⟨hidle, hpage⟩
    rw [State.serveReleaseCall, if_pos hheld] at hexec
    obtain ⟨u, hu, hended, hv, hctx, hplay, htones, -⟩ := dropCall_releases (s.served more) .normal
    refine ⟨u, _, hexec, hu .requests (by decide), hu .context (by decide), (served_touches s more).wide.andThen hu,
      ?_, ?_, ?_, ?_, hv, hctx, hplay, by rw [htones]⟩
    all_goals rw [show u.clu.capture = _ from hended]
  · have hnot : ¬ (s.served more).clu.ctx.state.releasable = true := by
      rw [releasable_iff]
      rintro ⟨hidle, hpage⟩
      exact hnone.elim hidle hpage
    rw [State.serveReleaseCall, if_neg hnot] at hexec
    exact ⟨_, hexec, respond_only more tag 5 .badState h.room⟩

/-! ### RAISE_ALARM (R156, R158) -/

/-- The parts an announcement can touch (R160, R164). -/
theorem Announces.touches {s t : State} {a : Alarm} (h : Announces s t a) : OnlyTouches (queuesFoot ++ handOnFoot) s t := by
  rw [show t = _ from h]
  exact ((openOwn_onPorts_touches a s).mono fun _ hx => List.mem_append_left _ hx).trans
    ((handOn_touches _ a false).mono fun _ hx => List.mem_append_right _ hx)

theorem MakesRoom.ms {s t : State} {n : Nat} {x : AlarmState} (h : MakesRoom s t n x) : t.ms = s.ms := by
  obtain ⟨hroom, hfull⟩ := h
  by_cases hlen : s.aru.alarms.length < 16
  · rw [hroom hlen]
  · obtain ⟨v, -, u, hu, -, -, rfl⟩ := hfull (Nat.not_lt.1 hlen)
    exact (touched_ms (handOn_touches u v true)).trans (touched_ms hu)

/-- R156, R160: the alarm raised is in the table, and the next alarm number is past it. -/
theorem RaisesAlarm.held {s t : State} {kind : AlarmKind} {scope : Scope} {n : Nat} (h : RaisesAlarm s t kind scope n) :
    (∃ a ∈ t.aru.alarms, a.id = ⟨s.cfg.station, n⟩ ∧ a.kind = kind ∧ a.scope = scope ∧ a.state = .raised
        ∧ a.firstHeard = s.ms ∧ a.linger = none)
      ∧ t.aru.nextNumber = (n + 1) % 256 := by
  obtain ⟨-, u, v, w, a, hid, hkind, hscope, hstate, hroom, ⟨-, hmem, -, hheard, -, hlinger, -⟩, rfl, hannounce⟩ := h
  have htouch := hannounce.touches
  refine ⟨⟨a, ?_, hid, hkind, hscope, hstate, hheard.trans hroom.ms, ?_⟩, htouch .alarmNumber (by decide)⟩
  · rw [show t.aru.alarms = _ from htouch .alarms (by decide)]
    exact (hmem a).2 (.inl rfl)
  · rw [hlinger, hstate]
    rfl

theorem exec_raiseAlarm_serving {s : State} {tag : Nat} {kind : AlarmKind} {scope : Scope} {more : List (List Byte)}
    (h : Serving s (.raiseAlarm kind scope) tag more) :
    exec .raiseAlarm s = .next ((s.served more).serveRaise tag (.raiseAlarm kind scope)) :=
  congrArg Host.Outcome.next (serveKind_serving h State.serveRaise)

theorem serveRaise_started {s : State} {kind : AlarmKind} {scope : Scope} {n : Option Nat} {t : State}
    (h : s.started = true) (hr : s.raise kind scope = (n, t)) (tag : Nat) :
    s.serveRaise tag (.raiseAlarm kind scope) = t.respond tag 6 (if n.isSome then .ok else .busy) := by
  simp only [State.serveRaise, h, hr, if_true]

theorem serveRaise_unconfigured {s : State} {kind : AlarmKind} {scope : Scope} (h : s.started = false) (tag : Nat) :
    s.serveRaise tag (.raiseAlarm kind scope) = s.respond tag 6 .badState := by
  simp [State.serveRaise, h]

/-- Settles O25: an alarm that can be held, one that cannot, and the part not started. -/
theorem raiseAlarmResult : Obligations.RaiseAlarmResult := by
  intro s tag kind scope more h
  have hexec := exec_raiseAlarm_serving h
  refine ⟨fun hstarted hroom => ?_, fun hstarted hroom => ?_, fun hstarted => ?_⟩
  · obtain ⟨n, u, hraise, hraised⟩ := raise_held (s := s.served more) (x := scope) hroom
    rw [serveRaise_started (s := s.served more) hstarted hraise] at hexec
    have htouch : OnlyTouches raiseFoot (s.served more) u := by
      have htouch := raise_touches (s.served more) kind scope
      rwa [hraise] at htouch
    obtain ⟨hheld, hnext⟩ := hraised.held
    refine ⟨s.served more, u, n, hexec, htouch .requests (by decide), served_touches s more, rfl, hraised, fun hlen => ?_,
      hheld, hnext⟩
    obtain ⟨-, -, -, hfree, -⟩ := hraised.1 hlen
    exact hfree
  · rw [serveRaise_started (s := s.served more) hstarted (raise_not_held hroom)] at hexec
    exact ⟨_, hexec, respond_only more tag 6 .busy h.room⟩
  · rw [serveRaise_unconfigured (s := s.served more) hstarted] at hexec
    exact ⟨_, hexec, respond_only more tag 6 .badState h.room⟩

/-! ### What a change handed on leaves of the channels (R94, R160) -/

/-- R94, R160: a channel that an own alarm handed on names no more has its field emptied; every other stays. -/
theorem handOn_channel (s : State) (a : Alarm) (removed : Bool) (c : Fin 7) : (s.handOn a removed).1.channel c
    = if a.id.origin = s.cfg.station ∧ emptiesField a (s.ownEnded a removed) (s.channel c) = true
      then { s.channel c with raised := none } else s.channel c := by
  obtain ⟨u, hu⟩ : ∃ u, u = (s.clearReferences a removed).evaluateLockout := ⟨_, rfl⟩
  have htold : OnlyTouches ([.references] ++ lockoutFoot) s u := hu ▸ handOn_told s a removed
  have hcfg : u.cfg = s.cfg := touched_cfg htold
  have hended : u.ownEnded a removed = s.ownEnded a removed := by rw [State.ownEnded, State.ownEnded, hcfg]
  have hrest : (s.handOn a removed).1.channel c = (u.reportToChannels a removed).1.channel c := by
    rw [State.handOn, ← hu]
    exact touched_channel (((laneEvaluate_touches _).mono (by decide)).trans
      (((testMuster_touches _).mono (by decide)).trans ((decideSounder_touches _).mono (by decide))
        : OnlyTouches (.muster :: .sounder :: laneFoot) _ _)) (by decide) c
  rw [hrest]
  unfold State.reportToChannels
  rw [hcfg]
  by_cases hown : a.id.origin = s.cfg.station
  · rw [if_neg (by simpa using hown)]
    have hmap : (u.setAcu { u.acu with channels := u.acu.channels.map (fun x =>
        if emptiesField a (u.ownEnded a removed) x then { x with raised := none } else x) }).channel c
          = if emptiesField a (u.ownEnded a removed) (u.channel c) then { u.channel c with raised := none }
            else u.channel c := by
      unfold State.channel
      simp [State.setAcu]
    dsimp only
    rw [hmap, hended, touched_channel htold (by decide) c]
    simp only [hown, true_and]
  · rw [if_pos hown, if_neg (fun h => hown h.1)]
    exact touched_channel htold (by decide) c

/-- The channel array and the gate make up the air channel unit. -/
theorem acu_ext {s t : State} (hchannels : ∀ c, t.channel c = s.channel c) (hgate : Part.gate.same s t) : t.acu = s.acu := by
  obtain ⟨hcount, hdue⟩ := hgate
  have harray : t.acu.channels = s.acu.channels := Vector.ext fun i hi => hchannels ⟨i, hi⟩
  rcases ht : t.acu with ⟨channels, count, due⟩
  rcases hs : s.acu with ⟨channels', count', due'⟩
  simp_all

/-- An acknowledgement that asks for no clear leaves the air channel unit as it was. -/
theorem handOn_acu {s : State} {a : Alarm} (hstate : a.state = .acknowledged) (h : ¬ AsksClear s a.id a.state) :
    (s.handOn a false).1.acu = s.acu := by
  refine acu_ext (fun c => ?_) (handOn_touches s a false .gate (by decide))
  rw [handOn_channel, if_neg]
  rintro ⟨hown, hempties⟩
  have hempties : (s.channel c).raised = some a.id.number ∧ (s.channel c).published = .normal := by
    simpa [emptiesField, State.ownEnded, hstate] using hempties
  exact h ⟨hstate, hown, c, hempties⟩

/-- R160: no channel names an own alarm that is handed on CLEARED. -/
theorem handOn_unnamed {s : State} {a : Alarm} (hstate : a.state = .cleared) (hown : a.id.origin = s.cfg.station)
    (c : Fin 7) : ((s.handOn a false).1.channel c).raised ≠ some a.id.number := by
  rw [handOn_channel]
  split
  · exact nofun
  · rename_i h
    intro hraised
    exact h ⟨hown, by simp [emptiesField, State.ownEnded, hstate, hown, hraised]⟩

/-! ### ACKNOWLEDGE_ALARM (R161) -/

theorem exec_acknowledgeAlarm_serving {s : State} {tag : Nat} {id : AlarmId} {more : List (List Byte)}
    (h : Serving s (.acknowledgeAlarm id) tag more) :
    exec .acknowledgeAlarm s = .next ((s.served more).serveAcknowledge tag (.acknowledgeAlarm id)) :=
  congrArg Host.Outcome.next (serveKind_serving h State.serveAcknowledge)

theorem serveAcknowledge_eq (s : State) (tag : Nat) (id : AlarmId) : s.serveAcknowledge tag (.acknowledgeAlarm id)
    = (if s.acknowledgeAnswer id = .ok then s.acknowledge id else s).respond tag 7 (s.acknowledgeAnswer id) := rfl

section Acknowledge

variable {s : State} {id : AlarmId} {a : Alarm}

theorem acknowledgeAnswer_found (hs : s.started = true) (ho : s.cfg.operator = true) (ha : s.findAlarm id = some a) :
    s.acknowledgeAnswer id = if a.state = .cleared then .badState else .ok := by
  simp [State.acknowledgeAnswer, hs, ho, ha]

/-- An alarm that is not RAISED is left as it is. -/
theorem acknowledge_same (h : ∀ a, s.findAlarm id = some a → a.state ≠ .raised) : s.acknowledge id = s := by
  unfold State.acknowledge
  split
  · rfl
  · rename_i a ha
    rw [if_neg (h a ha)]

theorem acknowledge_raised (ha : s.findAlarm id = some a) (hstate : a.state = .raised) :
    s.acknowledge id = State.thenClear (s.ownChange { a with state := .acknowledged }) id := by
  simp only [State.acknowledge, ha, hstate, if_true]
  rfl

/-- R161: the first case that applies, of those that change no alarm. -/
theorem acknowledge_unchanged {code : ResponseCode}
    (h : if s.started = false then code = .badState
      else if s.cfg.operator = false then code = .notPermitted
      else match s.findAlarm id with
        | none => code = .noSuch
        | some a => (a.state = .cleared ∧ code = .badState) ∨ (a.state = .acknowledged ∧ code = .ok)) :
    s.acknowledgeAnswer id = code ∧ (code = .ok → s.acknowledge id = s) := by
  unfold State.acknowledgeAnswer
  split at h
  next hs => simp [hs, h]
  next hs =>
    split at h
    next ho => simp [hs, ho, h]
    next ho =>
      cases ha : s.findAlarm id with
      | none =>
        simp only [ha] at h
        simp [hs, ho, h]
      | some a =>
        simp only [ha] at h
        obtain ⟨hstate, rfl⟩ | ⟨hstate, rfl⟩ := h
        · simp [hs, ho, hstate]
        · refine ⟨by simp [hs, ho, hstate], fun _ => acknowledge_same fun b hb => ?_⟩
          rw [ha, Option.some_inj] at hb
          rw [← hb, hstate]
          exact AlarmState.noConfusion

end Acknowledge

/-- The state an own change is handed on in: its indication placed and its deliveries opened (R161, R164). -/
def State.announced (s : State) (a : Alarm) : State :=
  (placeAlarmChange a .advanced (s.replaceAlarm a)).onPorts (State.openOwn a)

theorem announced_touches (s : State) (a : Alarm) : OnlyTouches (.alarms :: queuesFoot) s (s.announced a) :=
  ((setAlarms_touches s _).wide.andThen (placeAlarmChange_touches a .advanced _)).trans
    ((openOwn_onPorts_touches a _).mono (by decide))

theorem ownChange_eq (s : State) (a : Alarm) : s.ownChange a = (s.announced a).handOn a false := rfl

theorem asksClear_congr {s t : State} (hcfg : t.cfg = s.cfg) (hchannel : ∀ c, t.channel c = s.channel c) (id : AlarmId)
    (x : AlarmState) : AsksClear t id x ↔ AsksClear s id x := by
  unfold AsksClear
  simp only [hcfg, hchannel]

theorem announced_asksClear (s : State) (a : Alarm) (id : AlarmId) (x : AlarmState) :
    AsksClear (s.announced a) id x ↔ AsksClear s id x :=
  asksClear_congr (touched_cfg (announced_touches s a)) (touched_channel (announced_touches s a)) id x

/-- R94, R162: an own alarm that is ACKNOWLEDGED is cleared on request, and no channel names it then. -/
theorem clearAsOrigin_unnamed {s : State} {id : AlarmId} {a : Alarm} (ha : s.findAlarm id = some a)
    (hstate : a.state = .acknowledged) (hown : id.origin = s.cfg.station) (c : Fin 7) :
    ((s.clearAsOrigin id).channel c).raised ≠ some id.number := by
  have hid : a.id = id := find_id ha
  have hcfg := touched_cfg (announced_touches s (a.become .cleared s.ms))
  have hclear : s.clearAsOrigin id = (s.ownChange (a.become .cleared s.ms)).1 := by
    simp only [State.clearAsOrigin, ha, hstate, if_true]
  have hnumber : id.number = (a.become .cleared s.ms).id.number := congrArg AlarmId.number hid.symm
  rw [hclear, ownChange_eq, hnumber]
  refine handOn_unnamed rfl ?_ c
  rw [hcfg]
  exact (congrArg AlarmId.origin hid).trans hown

/-- Settles O26: refusals and the alarm already ACKNOWLEDGED; and a RAISED one, with the clear it may ask for. -/
theorem acknowledgeResult : Obligations.AcknowledgeResult := by
  intro s tag id more h
  have hexec := exec_acknowledgeAlarm_serving h
  rw [serveAcknowledge_eq] at hexec
  refine ⟨fun code hcode => ?_, fun a hstarted hoperator ha hraised => ?_⟩
  · obtain ⟨hanswer, hsame⟩ := acknowledge_unchanged (s := s.served more) hcode
    have hkeep : (if code = .ok then (s.served more).acknowledge id else s.served more) = s.served more := by
      split
      next hok => exact hsame hok
      next => rfl
    rw [hanswer, hkeep] at hexec
    exact ⟨_, hexec, respond_only more tag 7 code h.room⟩
  · obtain ⟨r, hr⟩ : ∃ r, r = s.served more := ⟨_, rfl⟩
    have ha' : r.findAlarm id = some a := hr ▸ ha
    have hid : a.id = id := find_id ha
    obtain ⟨held, hheld⟩ : ∃ held : Alarm, held = { a with state := .acknowledged } := ⟨_, rfl⟩
    have hheldid : held.id = id := hheld ▸ hid
    have hheldstate : held.state = .acknowledged := hheld ▸ rfl
    have hack : r.acknowledgeAnswer id = .ok := by
      rw [acknowledgeAnswer_found (hr ▸ hstarted) (hr ▸ hoperator) ha', hraised]
      rfl
    rw [← hr, hack, if_pos rfl, acknowledge_raised ha' hraised, ← hheld, ownChange_eq] at hexec
    obtain ⟨w, hw⟩ : ∃ w, w = ((r.announced held).handOn held false).1 := ⟨_, rfl⟩
    obtain ⟨u, hu⟩ : ∃ u, u = State.thenClear ((r.announced held).handOn held false) id := ⟨_, rfl⟩
    have hasks : AsksClear (r.announced held) held.id held.state ↔ AsksClear s id .acknowledged := by
      rw [announced_asksClear, hheldid, hheldstate, hr]
      exact asksClear_congr rfl (fun _ => rfl) id _
    have hplain (hno : ¬ AsksClear s id .acknowledged) : u = w :=
      hu.trans ((thenClear_not_asked _ _ id (hno ∘ hasks.1)).trans hw.symm)
    have hcleared (hyes : AsksClear s id .acknowledged) : u = w.clearAsOrigin id :=
      hu.trans ((thenClear_asked _ _ id (hasks.2 hyes)).trans (by rw [hw]))
    have hwfind : w.findAlarm id = some held := by
      rw [hw, ← ownChange_eq]
      exact ownChange_find r held a id ha' hheldid
    have htouch : OnlyTouches alarmFoot r w := by
      rw [hw, ← ownChange_eq]
      exact ownChange_touches r held
    have hutouch : OnlyTouches alarmFoot r u := by
      rw [hu, ← ownChange_eq]
      exact thenClear_touches id (ownChange_touches r held)
    have hwms : w.ms = s.ms := (touched_ms htouch).trans (by rw [hr]; rfl)
    have hwcfg : w.cfg = s.cfg := (touched_cfg htouch).trans (by rw [hr]; rfl)
    have hrequests : u.spu.requests = more := (hutouch .requests (by decide)).trans (by rw [hr]; rfl)
    have hreplaced : OnlyTouches [.requests, .alarms] s (r.replaceAlarm held) := by
      rw [hr]
      exact (served_touches s more).wide.andThen (setAlarms_touches _ _)
    have halarms : (r.replaceAlarm held).aru.alarms = s.aru.alarms.map (fun x => if x.id = id then held else x) := by
      rw [← hheldid, hr]
      rfl
    have hwhole : w = (((takeIn (.alarmChange id a.kind a.scope .acknowledged .advanced) (r.replaceAlarm held)).onPorts
        (State.openOwn held)).handOn held false).1 := by
      rw [hw, State.announced, placeAlarmChange, hheldid, hheldstate, hheld]
    by_cases hclear : AsksClear s id .acknowledged
    · have hasked := hclear
      obtain ⟨-, hown, c, hnames, hnormal⟩ := hasked
      have hfind := clearAsOrigin_find w id held hwfind
      rw [if_pos hheldstate, ← hcleared hclear] at hfind
      refine ⟨u, _, w, _, held, hexec.trans (by rw [hu]), hrequests, hheld, hreplaced, halarms, hwhole, hplain, hcleared,
        hfind, by rw [hheld]; rfl, by rw [hheld]; rfl, by rw [hheld]; rfl, by rw [hheld]; rfl, fun hnot => ?_,
        fun _ _ => ⟨rfl, by rw [← hwms]; rfl, fun d => ?_⟩⟩
      · exact (hnot.elim (fun hother => hother hown) (fun hnone => hnone c hnames hnormal)).elim
      · rw [hcleared hclear]
        exact clearAsOrigin_unnamed hwfind hheldstate (hown.trans (congrArg Configuration.station hwcfg.symm)) d
    · have hacu : u.acu = s.acu := by
        rw [hplain hclear, hw, handOn_acu hheldstate (hclear ∘ hasks.1),
          acu_ext (touched_channel (announced_touches r held)) (announced_touches r held .gate (by decide)), hr]
        rfl
      refine ⟨u, _, w, held, held, hexec.trans (by rw [hu]), hrequests, hheld, hreplaced, halarms, hwhole, hplain, hcleared,
        (hplain hclear).symm ▸ hwfind, by rw [hheld], by rw [hheld], by rw [hheld], by rw [hheld],
        fun _ => ⟨hheldstate, by rw [hheld], hacu⟩, fun hown hnames => absurd ⟨rfl, hown, hnames⟩ hclear⟩

/-! ### CLEAR_ALARM (R162) -/

theorem exec_clearAlarm_serving {s : State} {tag : Nat} {id : AlarmId} {more : List (List Byte)}
    (h : Serving s (.clearAlarm id) tag more) :
    exec .clearAlarm s = .next ((s.served more).serveClear tag (.clearAlarm id)) :=
  congrArg Host.Outcome.next (serveKind_serving h State.serveClear)

theorem serveClear_eq (s : State) (tag : Nat) (id : AlarmId) : s.serveClear tag (.clearAlarm id)
    = (if s.clearAnswer id = .ok then s.clearAsOrigin id else s).respond tag 8 (s.clearAnswer id) := rfl

section Clear

variable {s : State} {id : AlarmId} {a : Alarm}

/-- R94, R162: a clear changes an ACKNOWLEDGED alarm, no other. -/
theorem clearAsOrigin_same (h : ∀ a, s.findAlarm id = some a → a.state ≠ .acknowledged) : s.clearAsOrigin id = s := by
  unfold State.clearAsOrigin
  split
  · rename_i a ha
    rw [if_neg (h a ha)]
  · rfl

theorem clearAsOrigin_acknowledged (ha : s.findAlarm id = some a) (hstate : a.state = .acknowledged) :
    s.clearAsOrigin id = (s.ownChange { a with state := .cleared, linger := some (s.ms + 60000) }).1 := by
  simp only [State.clearAsOrigin, ha, hstate, if_true]
  rfl

/-- R94, R160, R162: the clear of an ACKNOWLEDGED alarm, and its announcement. -/
theorem clearAsOrigin_announces (ha : s.findAlarm id = some a) (hstate : a.state = .acknowledged) :
    ∃ v b, b = { a with state := .cleared, linger := some (s.ms + 60000) } ∧ AdvancesAlarm s v b
      ∧ Announces v (s.clearAsOrigin id) b :=
  ⟨_, _, rfl, replaceAlarm_advances s _, clearAsOrigin_acknowledged ha hstate⟩

/-- R162: the first case that applies, of those that change no alarm. -/
theorem clear_unchanged {code : ResponseCode}
    (h : if s.started = false then code = .badState
      else match s.findAlarm id with
        | none => code = .noSuch
        | some a =>
          if id.origin ≠ s.cfg.station ∧ s.cfg.operator = false then code = .notPermitted
          else (a.state = .raised ∧ code = .notAcknowledged) ∨ (a.state = .cleared ∧ code = .ok)) :
    s.clearAnswer id = code ∧ (code = .ok → s.clearAsOrigin id = s) := by
  unfold State.clearAnswer
  split at h
  next hs => simp [hs, h]
  next hs =>
    cases ha : s.findAlarm id with
    | none =>
      simp only [ha] at h
      simp [hs, h]
    | some a =>
      simp only [ha] at h
      split at h
      next hp => simp [hs, hp, h]
      next hp =>
        simp only [hs, hp]
        obtain ⟨hstate, rfl⟩ | ⟨hstate, rfl⟩ := h
        · simp [hstate]
        · refine ⟨by simp [hstate], fun _ => clearAsOrigin_same fun b hb => ?_⟩
          rw [ha, Option.some_inj] at hb
          rw [← hb, hstate]
          exact AlarmState.noConfusion

theorem clearAnswer_acknowledged (hs : s.started = true) (hp : id.origin = s.cfg.station ∨ s.cfg.operator = true)
    (ha : s.findAlarm id = some a) (hstate : a.state = .acknowledged) : s.clearAnswer id = .ok := by
  have hnot : ¬ (id.origin ≠ s.cfg.station ∧ s.cfg.operator = false) := by
    rintro ⟨horigin, hoperator⟩
    exact hp.elim horigin (by simp [hoperator])
  simp only [State.clearAnswer, hs, ha, if_neg hnot, hstate]
  rfl

end Clear

/-- Settles O27: refusals and the alarm already CLEARED; an ACKNOWLEDGED one; and the clear of R94. -/
theorem clearResult : Obligations.ClearResult := by
  refine ⟨fun s tag id more h => ?_, fun s id => ⟨fun a ha hstate => clearAsOrigin_announces ha hstate,
    fun hnot => clearAsOrigin_same hnot⟩⟩
  have hexec := exec_clearAlarm_serving h
  rw [serveClear_eq] at hexec
  refine ⟨fun code hcode => ?_, fun a hstarted hpermitted ha hstate => ?_⟩
  · obtain ⟨hanswer, hsame⟩ := clear_unchanged (s := s.served more) hcode
    have hkeep : (if code = .ok then (s.served more).clearAsOrigin id else s.served more) = s.served more := by
      split
      next hok => exact hsame hok
      next => rfl
    rw [hanswer, hkeep] at hexec
    exact ⟨_, hexec, respond_only more tag 8 code h.room⟩
  · rw [clearAnswer_acknowledged (s := s.served more) hstarted hpermitted ha hstate, if_pos rfl] at hexec
    obtain ⟨v, b, hb, hadvance, hannounce⟩ := clearAsOrigin_announces (s := s.served more) ha hstate
    have hfind := clearAsOrigin_find (s.served more) id a ha
    rw [if_pos hstate] at hfind
    refine ⟨s.served more, v, _, b, hexec, clearAsOrigin_touches (s.served more) id .requests (by decide),
      served_touches s more, rfl, hb, hadvance, hannounce, hfind.trans (by rw [hb]; rfl), by rw [hb], by rw [hb]⟩

end Sys2Proof.Machine


/-! Frames and peers: the parse of a frame, the peer table, relaying, the dispatch of sections, the calls heard and the
deadlines of the peer and relay unit (O40 to O42). -/

namespace Sys2Proof.Machine

/-! ### The frame the engine takes (R31, R33) -/

theorem nextPort_of {s : State} {p : Port} (hp : (s.port p).received ≠ [])
    (h : (s.port (otherPort p)).received = [] ∨ s.fre.lastPort = otherPort p) : s.nextPort = some p := by
  cases p with
  | A =>
    have hA : (s.port .A).received.isEmpty = false := by simpa using hp
    obtain h | h := h
    · have hB : (s.port .B).received.isEmpty = true := by simpa [otherPort] using h
      simp only [State.nextPort, hA, hB]
    · cases hB : (s.port .B).received.isEmpty <;> simp [State.nextPort, hA, hB, h, otherPort]
  | B =>
    have hB : (s.port .B).received.isEmpty = false := by simpa using hp
    obtain h | h := h
    · have hA : (s.port .A).received.isEmpty = true := by simpa [otherPort] using h
      simp only [State.nextPort, hA, hB]
    · cases hA : (s.port .A).received.isEmpty <;> simp [State.nextPort, hA, hB, h, otherPort]

/-- The state once the oldest frame of a port has been taken from its list (R31). -/
def State.frameTaken (s : State) (p : Port) (more : List RxFrame) : State :=
  (s.setPort p { s.port p with received := more }).setFre { s.fre with lastPort := p }

theorem exec_frameParse {s : State} {p : Port} {r : RxFrame} {more : List RxFrame} (hr : (s.port p).received = r :: more)
    (h : (s.port (otherPort p)).received = [] ∨ s.fre.lastPort = otherPort p) :
    exec .frameParse s = .next ((s.frameTaken p more).parseFrame p r) := by
  refine congrArg Host.Outcome.next ?_
  simp only [nextPort_of (by simp [hr]) h, hr]
  rfl

theorem frameTaken_port (s : State) (p : Port) (more : List RxFrame) :
    (s.frameTaken p more).port p = { s.port p with received := more } := by cases p <;> rfl

theorem frameTaken_touches (s : State) (p : Port) (more : List RxFrame) :
    OnlyTouches [.line p, .lastPort] s (s.frameTaken p more) := by
  refine ((setPort_touches s p { s.port p with received := more }).mono (by simp)).trans ?_
  intro x hx
  cases x <;> first | rfl | exact ⟨rfl, rfl⟩ | exact ⟨rfl, rfl, rfl⟩ | exact absurd (by simp) hx

theorem frameTaken_cfg (s : State) (p : Port) (more : List RxFrame) : (s.frameTaken p more).cfg = s.cfg := by
  cases p <;> rfl

theorem frameTaken_pru (s : State) (p : Port) (more : List RxFrame) : (s.frameTaken p more).pru = s.pru := by
  cases p <;> rfl

theorem frameTaken_parse (s : State) (p : Port) (more : List RxFrame) :
    (s.frameTaken p more).fre.parse = s.fre.parse := by cases p <;> rfl

theorem frameTaken_findPeer (s : State) (p : Port) (more : List RxFrame) (n : Nat) :
    (s.frameTaken p more).findPeer n = s.findPeer n := by
  unfold State.findPeer
  rw [frameTaken_pru]

theorem countParse_parse (s : State) (p : Port) (f : ParseCounters → ParseCounters) :
    (s.countParse p f).fre.parse = s.fre.parse.set p (f (s.fre.parse.get p)) := rfl

section Parse

variable {s : State} {p : Port} {r : RxFrame}

theorem parseFrame_malformed (h : headerBad r.bytes = true ∨ chainOf r.bytes = none) :
    s.parseFrame p r = s.countParse p (fun c => { c with malformed := c.malformed.bump }) := by
  unfold State.parseFrame
  dsimp only
  split
  · rfl
  · rename_i hheader
    rw [h.resolve_left hheader]

theorem parseFrame_formed {chain : List (Nat × List Byte)} (h : headerBad r.bytes = false)
    (hc : chainOf r.bytes = some chain) : s.parseFrame p r
      = s.takeFrame { port := p, time := r.arrival, header := headerOf r.bytes } r.bytes chain := by
  simp only [State.parseFrame, h, hc]
  rfl

end Parse

section Verdict

variable {s : State} {a : Arrival} {f : List Byte} {chain : List (Nat × List Byte)}

theorem takeFrame_echo (h : a.origin = s.cfg.station) : s.takeFrame a f chain = s := by
  have hverdict : s.verdict a = .echo := if_pos h
  simp only [State.takeFrame, hverdict, if_true]

theorem verdict_duplicate (h : a.origin ≠ s.cfg.station) (hd : (∃ x ∈ s.pru.recent, x.origin = a.origin ∧ x.seq = a.seq)
    ∨ ∃ x, s.findPeer a.origin = some x ∧ x.present = true ∧ x.lastSeq = a.seq) : s.verdict a = .duplicate := by
  unfold State.verdict
  rw [if_neg h, if_pos]
  rw [Bool.or_eq_true]
  obtain ⟨x, hx, horigin, hseq⟩ | ⟨x, hx, hpresent, hseq⟩ := hd
  · exact .inl (List.any_eq_true.2 ⟨x, hx, by simp [RecentFrame.is, horigin, hseq]⟩)
  · exact .inr (by simp [hx, hpresent, hseq])

theorem verdict_new (h : a.origin ≠ s.cfg.station) (hr : ∀ x ∈ s.pru.recent, x.origin = a.origin → x.seq ≠ a.seq)
    (hp : ∀ x, s.findPeer a.origin = some x → x.present = true → x.lastSeq ≠ a.seq) : s.verdict a = .new := by
  unfold State.verdict
  rw [if_neg h, if_neg]
  rw [Bool.or_eq_true, List.any_eq_true]
  rintro (⟨x, hx, his⟩ | hany)
  · obtain ⟨horigin, hseq⟩ : x.origin = a.origin ∧ x.seq = a.seq := by simpa [RecentFrame.is] using his
    exact hr x hx horigin hseq
  · cases hx : s.findPeer a.origin with
    | none => simp [hx] at hany
    | some x =>
      obtain ⟨hpresent, hseq⟩ : x.present = true ∧ x.lastSeq = a.seq := by simpa [hx] using hany
      exact hp x hx hpresent hseq

theorem takeFrame_duplicate (h : s.verdict a = .duplicate) :
    s.takeFrame a f chain = (s.duplicateHeard a).takeSections a .duplicate chain := by
  simp only [State.takeFrame, h]
  rfl

/-- The state with a NEW frame in the recent-frame list (R45). -/
def State.noted (s : State) (a : Arrival) : State := s.setPru { s.pru with recent := addRecent s.pru.recent a }

theorem takeFrame_new (h : s.verdict a = .new) :
    s.takeFrame a f chain = (((s.noted a).peerHeard a).relayFrame a f).takeSections a .new chain := by
  simp only [State.takeFrame, h]
  rfl

theorem noted_touches (s : State) (a : Arrival) : OnlyTouches [.recent] s (s.noted a) := by
  intro x hx
  cases x <;> first | rfl | exact ⟨rfl, rfl⟩ | exact ⟨rfl, rfl, rfl⟩ | exact absurd (by decide) hx

/-- The sections of a DUPLICATE are counted and go no further (R34; log 7). -/
theorem candidateSection_duplicate (a : Arrival) (s : State) (x : Nat × List Byte) :
    OnlyTouches [.parse] s (State.candidateSection a .duplicate s x) := by
  unfold State.candidateSection
  refine .ite (countParse_touches s _ _) ?_
  split
  · exact countParse_touches s _ _
  · rw [if_neg (by decide)]
    exact .refl _ _

theorem takeSections_duplicate (s : State) (a : Arrival) (chain : List (Nat × List Byte)) :
    OnlyTouches [.parse] s (s.takeSections a .duplicate chain) :=
  OnlyTouches.trans (.ite (countParse_touches s _ _) (.refl _ _))
    (OnlyTouches.foldl _ (fun t x => candidateSection_duplicate a t x) _ _)

theorem duplicateHeard_port (s : State) (a : Arrival) : (s.duplicateHeard a).port a.port
    = { s.port a.port with counters :=
        { (s.port a.port).counters with duplicates := (s.port a.port).counters.duplicates.bump } } :=
  (updatePeer_touches (s.count a.port _) _ _ (.line a.port) (by simp)).trans (count_port s a.port _)

end Verdict

/-- The arrival the frame engine hands over with a received frame (R33). -/
def arrivalOf (p : Port) (r : RxFrame) : Arrival := { port := p, time := r.arrival, header := headerOf r.bytes }

section FrameParse

variable {s : State} {p : Port} {r : RxFrame} {more : List RxFrame} {chain : List (Nat × List Byte)}
  (hr : (s.port p).received = r :: more) (hturn : (s.port (otherPort p)).received = [] ∨ s.fre.lastPort = otherPort p)
include hr hturn

/-- R31: a malformed frame is counted. -/
theorem frameParse_malformed (hbad : headerBad r.bytes = true ∨ chainOf r.bytes = none) :
    ∃ t, exec .frameParse s = .next t ∧ t.port p = { s.port p with received := more } ∧ t.fre.lastPort = p
      ∧ t.fre.parse.get p = { s.fre.parse.get p with malformed := (s.fre.parse.get p).malformed.bump }
      ∧ OnlyTouches [.line p, .lastPort, .parse] s t := by
  have hexec := exec_frameParse hr hturn
  rw [parseFrame_malformed hbad] at hexec
  have hcount := countParse_touches (s.frameTaken p more) p (fun c => { c with malformed := c.malformed.bump })
  refine ⟨_, hexec, (hcount (.line p) (by simp)).trans (frameTaken_port s p more), hcount .lastPort (by decide), ?_,
    ((frameTaken_touches s p more).mono (by simp)).trans (hcount.mono (by simp))⟩
  rw [countParse_parse, PortPair.get_set_same, frameTaken_parse]

variable (hheader : headerBad r.bytes = false) (hchain : chainOf r.bytes = some chain)
include hheader hchain

theorem exec_frameParse_formed :
    exec .frameParse s = .next ((s.frameTaken p more).takeFrame (arrivalOf p r) r.bytes chain) := by
  rw [exec_frameParse hr hturn, parseFrame_formed hheader hchain]
  rfl

/-- R45: an ECHO is discarded. -/
theorem frameParse_echo (hecho : (headerOf r.bytes).origin = s.cfg.station) :
    exec .frameParse s = .next (s.frameTaken p more) := by
  rw [exec_frameParse_formed hr hturn hheader hchain, takeFrame_echo (by rw [frameTaken_cfg]; exact hecho)]

/-- R45, R47: a DUPLICATE is counted on its port, and its peer's route looked at. -/
theorem frameParse_duplicate (hother : (headerOf r.bytes).origin ≠ s.cfg.station)
    (hdup : (∃ x ∈ s.pru.recent, x.origin = (headerOf r.bytes).origin ∧ x.seq = (headerOf r.bytes).seq)
      ∨ ∃ x, s.findPeer (headerOf r.bytes).origin = some x ∧ x.present = true ∧ x.lastSeq = (headerOf r.bytes).seq) :
    ∃ t, exec .frameParse s = .next t ∧ t.fre.lastPort = p
      ∧ t.port p = { s.port p with received := more, counters :=
          { (s.port p).counters with duplicates := (s.port p).counters.duplicates.bump } }
      ∧ OnlyTouches [.line p, .lastPort, .parse, .peers] s t := by
  have hverdict : (s.frameTaken p more).verdict (arrivalOf p r) = .duplicate := by
    refine verdict_duplicate (by rw [frameTaken_cfg]; exact hother) ?_
    rw [frameTaken_pru, frameTaken_findPeer]
    exact hdup
  have hexec := exec_frameParse_formed hr hturn hheader hchain
  rw [takeFrame_duplicate hverdict] at hexec
  have htaken := frameTaken_touches s p more
  have hheard : OnlyTouches [.line p, .peers] _ _ := duplicateHeard_touches (s.frameTaken p more) (arrivalOf p r)
  have hsections := takeSections_duplicate ((s.frameTaken p more).duplicateHeard (arrivalOf p r)) (arrivalOf p r) chain
  have hcounted : ((s.frameTaken p more).duplicateHeard (arrivalOf p r)).port p = _ :=
    duplicateHeard_port (s.frameTaken p more) (arrivalOf p r)
  refine ⟨_, hexec, (hsections .lastPort (by decide)).trans (hheard .lastPort (by simp)), ?_,
    ((htaken.mono (by simp)).trans (hheard.mono (by simp))).trans (hsections.mono (by simp))⟩
  refine ((hsections (.line p) (by simp)).trans hcounted).trans ?_
  rw [show (arrivalOf p r).port = p from rfl, frameTaken_port]

/-- R45: a NEW frame joins the recent-frame list, and reaches the peer table, the relay decision and its owners. -/
theorem frameParse_new (hother : (headerOf r.bytes).origin ≠ s.cfg.station)
    (hrecent : ∀ x ∈ s.pru.recent, x.origin = (headerOf r.bytes).origin → x.seq ≠ (headerOf r.bytes).seq)
    (hpeer : ∀ x, s.findPeer (headerOf r.bytes).origin = some x → x.present = true → x.lastSeq ≠ (headerOf r.bytes).seq) :
    ∃ t w : State, w = (s.frameTaken p more).noted (arrivalOf p r) ∧ exec .frameParse s = .next t ∧ t.fre.lastPort = p
      ∧ t.pru.recent = addRecent s.pru.recent (arrivalOf p r) ∧ w.pru.recent = t.pru.recent
      ∧ t = ((w.peerHeard (arrivalOf p r)).relayFrame (arrivalOf p r) r.bytes).takeSections (arrivalOf p r) .new chain := by
  have hverdict : (s.frameTaken p more).verdict (arrivalOf p r) = .new := by
    refine verdict_new (by rw [frameTaken_cfg]; exact hother) ?_ ?_
    · rw [frameTaken_pru]
      exact hrecent
    · rw [frameTaken_findPeer]
      exact hpeer
  have hexec := exec_frameParse_formed hr hturn hheader hchain
  rw [takeFrame_new hverdict] at hexec
  obtain ⟨w, hw⟩ : ∃ w, w = (s.frameTaken p more).noted (arrivalOf p r) := ⟨_, rfl⟩
  rw [← hw] at hexec
  have hpeers := peerHeard_touches w (arrivalOf p r)
  have hrelay := relayFrame_touches (w.peerHeard (arrivalOf p r)) (arrivalOf p r) r.bytes
  have hsections := takeSections_touches ((w.peerHeard (arrivalOf p r)).relayFrame (arrivalOf p r) r.bytes)
    (arrivalOf p r) .new chain
  have hkept := ((hsections .recent (by decide)).trans (hrelay .recent (by decide))).trans (hpeers .recent (by decide))
  refine ⟨_, w, hw, hexec, ?_, hkept.trans ?_, hkept.symm, rfl⟩
  · refine ((hsections .lastPort (by decide)).trans (hrelay .lastPort (by decide))).trans
      ((hpeers .lastPort (by decide)).trans ?_)
    rw [hw]
    exact noted_touches (s.frameTaken p more) _ .lastPort (by decide)
  · rw [hw]
    exact congrArg (fun x : Pru => addRecent x.recent (arrivalOf p r)) (frameTaken_pru s p more)

end FrameParse

end Sys2Proof.Machine


/-! The peer table, the calls heard and their deadlines, relaying, and the dispatch of sections (O40 to O42, continued). -/

namespace Sys2Proof.Machine

/-! ### One entry of the peer table -/

theorem find_map_update {α : Type} (key : α → Nat) (f : α → α) (hf : ∀ x, key (f x) = key x) (n : Nat) :
    ∀ l : List α, (l.map (fun x => if key x = n then f x else x)).find? (fun x => decide (key x = n))
      = (l.find? (fun x => decide (key x = n))).map f
  | [] => rfl
  | x :: xs => by
    rw [List.map_cons]
    by_cases hx : key x = n
    · rw [if_pos hx, List.find?_cons_of_pos (by simpa [hf] using hx), List.find?_cons_of_pos (by simpa using hx)]
      rfl
    · rw [if_neg hx, List.find?_cons_of_neg (by simpa using hx), List.find?_cons_of_neg (by simpa using hx)]
      exact find_map_update key f hf n xs

theorem findPeer_updatePeer {s : State} {n : Nat} {x : Peer} {f : Peer → Peer} (hf : ∀ y, (f y).station = y.station)
    (h : s.findPeer n = some x) : (s.updatePeer n f).findPeer n = some (f x) := by
  refine (find_map_update Peer.station f hf n s.pru.peers).trans ?_
  rw [show s.pru.peers.find? (fun y => decide (y.station = n)) = some x from h]
  rfl

theorem findPeer_touched {foot : List Part} {s t : State} (h : OnlyTouches foot s t) (hp : .peers ∉ foot) (n : Nat) :
    t.findPeer n = s.findPeer n := by
  unfold State.findPeer
  rw [show t.pru.peers = s.pru.peers from h .peers hp]

/-! ### The route and the last-heard time of an entry (R41, R47) -/

theorem refresh_eq (x : Peer) (a : Arrival) : x.refresh a = { x with
    lastHeard := a.time, lastSeq := a.seq, present := true,
    port := if a.hops < x.hops ∨ (a.hops = x.hops ∧ a.port = x.port) ∨ x.present = false then a.port else x.port,
    hops := if a.hops < x.hops ∨ (a.hops = x.hops ∧ a.port = x.port) ∨ x.present = false then a.hops else x.hops } := by
  have hiff : (betterRoute x a || !x.present) = true
      ↔ a.hops < x.hops ∨ (a.hops = x.hops ∧ a.port = x.port) ∨ x.present = false := by
    simp [betterRoute, or_assoc]
  unfold Peer.refresh
  by_cases h : a.hops < x.hops ∨ (a.hops = x.hops ∧ a.port = x.port) ∨ x.present = false
  · rw [if_pos (hiff.2 h), if_pos h, if_pos h]
    rfl
  · rw [if_neg (h ∘ hiff.1), if_neg h, if_neg h]

theorem refreshDuplicate_eq (x : Peer) (a : Arrival) (first : Option Port) : x.refreshDuplicate a first = { x with
    port := if a.hops < x.hops ∨ (a.hops = x.hops ∧ a.port = x.port) then a.port else x.port,
    hops := if a.hops < x.hops ∨ (a.hops = x.hops ∧ a.port = x.port) then a.hops else x.hops,
    lastHeard := if a.hops = 0 ∧ first = some a.port then a.time else x.lastHeard } := by
  have hiff : betterRoute x a = true ↔ a.hops < x.hops ∨ (a.hops = x.hops ∧ a.port = x.port) := by
    simp [betterRoute]
  unfold Peer.refreshDuplicate
  by_cases h : a.hops < x.hops ∨ (a.hops = x.hops ∧ a.port = x.port)
  · rw [if_pos (hiff.2 h), if_pos h, if_pos h]
    split <;> rfl
  · rw [if_neg (h ∘ hiff.1), if_neg h, if_neg h]
    split <;> rfl

/-- R41: a NEW frame of a station with an entry refreshes it. -/
theorem peerHeard_found {s : State} {a : Arrival} {x : Peer} (h : s.findPeer a.origin = some x) :
    s.peerHeard a = s.updatePeer a.origin (fun y => y.refresh a) := by
  simp only [State.peerHeard, h]

/-- Settles O41: a NEW frame and a DUPLICATE at the entry of their origin. -/
theorem peerRefresh : Obligations.PeerRefresh := by
  intro s a x h
  refine ⟨?_, ?_⟩
  · rw [peerHeard_found h, findPeer_updatePeer (fun y => by rw [refresh_eq]) h, refresh_eq]
  · have hcount : (s.count a.port (fun c => { c with duplicates := c.duplicates.bump })).findPeer a.origin = some x := by
      rw [findPeer_touched (count_touches s a.port _) (by simp), h]
    have hdup := findPeer_updatePeer
      (f := fun y => y.refreshDuplicate a ((s.pru.recent.find? (fun r => r.is a)).map RecentFrame.port))
      (fun y => by rw [refreshDuplicate_eq]) hcount
    exact hdup.trans (congrArg some (refreshDuplicate_eq x a _))

/-! ### The deadlines (R44, R46, R50, R55) -/

section Deadlines

variable {s : State} {n : Nat} {x : Peer} (hx : s.findPeer n = some x)
include hx

theorem exec_peerSilentDeadline_due (hpresent : x.present = true) (hdue : x.lastHeard + s.cfg.silent * 1000 ≤ s.ms) :
    exec (.peerSilentDeadline n) s = .next (takeIn (.peerSilent n)
      (s.updatePeer n (fun y => { y with present := false, air := none, refuge := none }))).recompute := by
  rw [Nat.mul_comm] at hdue
  refine congrArg Host.Outcome.next ?_
  simp only [hx, hpresent, hdue, decide_true, Bool.and_self, if_true]

theorem exec_peerRemovalDeadline_due (hsilent : x.present = false) (hdue : x.lastHeard + 300000 ≤ s.ms) :
    exec (.peerRemovalDeadline n) s = .next (s.removePeer n) := by
  refine congrArg Host.Outcome.next ?_
  simp only [hx, hsilent, hdue, decide_true, Bool.not_false, Bool.and_self, if_true]

end Deadlines

theorem removePeer_find (s : State) (n : Nat) : (s.removePeer n).findPeer n = none := by
  unfold State.findPeer
  rw [removePeer_peers, List.find?_eq_none]
  intro y hy
  simpa using (List.mem_filter.1 hy).2

theorem exec_callsHeardExpiry_due {s : State} {h : HeardCall} (hmem : h ∈ s.pru.heard) (hdue : h.last + 2000 ≤ s.ms) :
    exec (.callsHeardExpiry h.id.caller h.id.number) s = .next (s.forgetCall h.id) :=
  congrArg Host.Outcome.next (if_pos (List.any_eq_true.2 ⟨h, hmem, by simp [hdue]⟩))

/-- R55: every in-call flag follows the calls heard. -/
theorem setHeard_inCall (s : State) (heard : List HeardCall) : ∀ x ∈ (s.setHeard heard).pru.peers,
    x.inCall = partyHeard (s.setHeard heard).pru.heard x.station := by
  intro x hx
  obtain ⟨y, -, rfl⟩ := List.mem_map.1 hx
  rfl

theorem exec_beaconTimerExpiry_due {s : State} {d : Nat} (hrun : s.running = true) (hb : s.pru.beaconDue = some d)
    (hdue : d ≤ s.ms) :
    exec .beaconTimerExpiry s = .next ((s.onPorts (State.requestLive .beacon)).startBeaconPeriod d) := by
  refine congrArg Host.Outcome.next ?_
  rw [if_pos (by simp [hrun, hb, State.dueMs, hdue]), hb]
  rfl

/-- Settles O42: the five deadlines of the peer and relay unit. -/
theorem peerDeadlinesResult : Obligations.PeerDeadlinesResult := by
  intro s
  refine ⟨fun n x hx hpresent hdue => ?_, fun n x hx hsilent hdue => ?_, ⟨_, rfl, rfl⟩, fun h hmem hdue => ?_,
    fun d hrun hb hdue => ?_⟩
  · have hchange := updatePeer_touches s n (fun y => { y with present := false, air := none, refuge := none })
    have hround : OnlyTouches recomputeFoot _ _ := (takeIn_touches (.peerSilent n) (s.updatePeer n
      (fun y => { y with present := false, air := none, refuge := none }))).wide.andThen (recompute_touches _)
    refine ⟨_, exec_peerSilentDeadline_due hx hpresent hdue, ?_, hchange.wide.andThen hround⟩
    rw [findPeer_touched hround (by decide)]
    exact findPeer_updatePeer (fun _ => rfl) hx
  · exact ⟨_, exec_peerRemovalDeadline_due hx hsilent hdue, removePeer_find s n, removePeer_peers s n⟩
  · exact ⟨_, exec_callsHeardExpiry_due hmem hdue, rfl, setHeard_inCall s _⟩
  · have hrequest := requestLive_onPorts_touches .beacon s
    have hcfg : (s.onPorts (State.requestLive .beacon)).cfg = s.cfg := touched_cfg hrequest (by decide)
    refine ⟨_, exec_beaconTimerExpiry_due hrun hb hdue,
      ⟨Config.freeDraw (s.onPorts (State.requestLive .beacon)).draws % 256, Nat.mod_lt _ (by decide), ?_⟩,
      fun p hc hlen => ?_⟩
    · rw [startBeaconPeriod_due, hcfg, Nat.mul_comm]
    · rw [show State.port _ p = _ from startBeaconPeriod_touches (s.onPorts (State.requestLive .beacon)) d (.line p)
        (by cases p <;> decide)]
      exact onPorts_requestLive_holds .beacon hc hlen

/-! ### A station with no entry (R40) -/

section NoEntry

variable {s : State} {a : Arrival} (h : s.findPeer a.origin = none)
include h

theorem peerHeard_room (hroom : s.pru.peers.length < 48) : s.peerHeard a = s.insertPeer a := by
  simp only [State.peerHeard, h, hroom, if_true]

theorem peerHeard_displaces {v : Peer} (hfull : 48 ≤ s.pru.peers.length) (hv : peerVictim s.pru.peers = some v) :
    s.peerHeard a = (s.removePeer v.station).insertPeer a := by
  simp only [State.peerHeard, h, Nat.not_lt.2 hfull, if_false, hv]

theorem peerHeard_full (hfull : 48 ≤ s.pru.peers.length) (hv : peerVictim s.pru.peers = none) : s.peerHeard a = s := by
  simp only [State.peerHeard, h, Nat.not_lt.2 hfull, if_false, hv]

end NoEntry

theorem peerVictim_none {ps : List Peer} (h : ∀ x ∈ ps, x.present = true) : peerVictim ps = none := by
  have hnone : ps.filter (fun x => !x.present) = [] := List.filter_eq_nil_iff.2 fun x hx => by simp [h x hx]
  rw [peerVictim, hnone]
  rfl

/-- R40: in a table in order of station the SILENT entry heard longest ago is the victim, the lower station on a tie. -/
theorem peerVictim_some {ps : List Peer} {v : Peer} (hv : v ∈ ps) (hsilent : v.present = false)
    (hleast : ∀ x ∈ ps, x.present = false → x.station ≠ v.station →
      v.lastHeard < x.lastHeard ∨ (v.lastHeard = x.lastHeard ∧ v.station < x.station))
    (hsorted : ps.Pairwise (fun x y => x.station < y.station)) : peerVictim ps = some v := by
  have hmem : v ∈ ps.filter (fun x => !x.present) := List.mem_filter.2 ⟨hv, by simp [hsilent]⟩
  obtain ⟨before, after, hsplit⟩ := List.append_of_mem hmem
  have hsub : (before ++ v :: after).Pairwise (fun x y => x.station < y.station) :=
    hsplit ▸ hsorted.filter _
  obtain ⟨-, hafter, hbefore⟩ := List.pairwise_append.1 hsub
  have hsilentOf (x : Peer) (hx : x ∈ before ++ v :: after) : x ∈ ps ∧ x.present = false := by
    rw [← hsplit] at hx
    simpa using hx
  rw [peerVictim, hsplit, firstBy_split (fun a b c hab hbc => by simp at hab hbc ⊢; omega)
    (fun a b hab => by simp at hab ⊢; omega)]
  refine ⟨before, after, rfl, fun x hx => ?_, fun x hx => ?_⟩
  · obtain ⟨hxs, hxsilent⟩ := hsilentOf x (List.mem_append_left _ hx)
    have hlt : x.station < v.station := hbefore x hx v List.mem_cons_self
    have hle := hleast x hxs hxsilent (by omega)
    simp only [decide_eq_false_iff_not]
    omega
  · obtain ⟨hxs, hxsilent⟩ := hsilentOf x (List.mem_append_right _ (List.mem_cons_of_mem _ hx))
    have hlt : v.station < x.station := (List.pairwise_cons.1 hafter).1 x hx
    have hle := hleast x hxs hxsilent (by omega)
    simp only [decide_eq_true_eq]
    omega

theorem mem_insertPeer (s : State) (a : Arrival) (x : Peer) :
    x ∈ (s.insertPeer a).pru.peers ↔ x = newPeer s.pru.heard a ∨ x ∈ s.pru.peers :=
  mem_insertBy peerBefore _ x s.pru.peers

/-! ### Relaying (R48, R49, R166) -/

theorem relays_iff (s : State) (a : Arrival) : s.relays a = true ↔ Relayed s a := by
  simp only [State.relays, State.bridging, Relayed, Bool.and_eq_true, decide_eq_true_eq, Bool.not_eq_true',
    List.any_eq_false, and_assoc]
  simp

theorem ofCode_code (c : FrameClass) : FrameClass.ofCode c.code = some c := by cases c <;> rfl

theorem relayFrame_refused {s : State} {a : Arrival} (h : ¬ Relayed s a) (f : List Byte) : s.relayFrame a f = s :=
  if_neg (h ∘ (relays_iff s a).1)

theorem relayFrame_class {s : State} {a : Arrival} {c : FrameClass} (h : Relayed s a) (hc : c ≠ .alarm)
    (hcls : a.header.cls = c.code) (f : List Byte) : s.relayFrame a f
      = s.queueRequest (otherPort a.port) { TxEntry.fixed (relayCopy f) c .pru with relayed := true } := by
  unfold State.relayFrame
  rw [if_pos ((relays_iff s a).2 h), hcls, ofCode_code]
  cases c <;> first | rfl | exact absurd rfl hc

theorem relayFrame_alarm {s : State} {a : Arrival} (h : Relayed s a) (hcls : a.header.cls = FrameClass.alarm.code)
    (f : List Byte) : s.relayFrame a f = s.relayAlarm (otherPort a.port) (relayCopy f) := by
  unfold State.relayFrame
  rw [if_pos ((relays_iff s a).2 h), hcls, ofCode_code]

/-- The alarm record a candidate section gives (R166). -/
def alarmRecordOf (x : Nat × List Byte) : Option AlarmRecord :=
  if x.1 = 4 then
    match readSection 4 x.2 with
    | some (.alarm (r :: _)) => some r
    | _ => none
  else none

theorem firstAlarmRecord_eq (f : List Byte) :
    firstAlarmRecord f = (((chainOf f).getD []).take 8).findSome? alarmRecordOf := rfl

theorem alarmRecordOf_none {x : Nat × List Byte} (h : x.1 = 4 → readSection 4 x.2 = none) : alarmRecordOf x = none := by
  unfold alarmRecordOf
  split
  next hx => rw [h hx]
  next => rfl

theorem firstAlarmRecord_none {f : List Byte} (h : NamesNoAlarm f) : firstAlarmRecord f = none := by
  rw [firstAlarmRecord_eq, List.findSome?_eq_none_iff]
  intro x hx
  cases hc : chainOf f with
  | none => simp [hc] at hx
  | some chain =>
    rw [hc] at hx
    exact alarmRecordOf_none (h chain hc x hx)

theorem firstAlarmRecord_some {f : List Byte} {r : AlarmRecord} (h : NamesAlarm f r) : firstAlarmRecord f = some r := by
  obtain ⟨chain, before, bytes, after, rest, hchain, hsplit, hread, hbefore⟩ := h
  have hnone : before.findSome? alarmRecordOf = none :=
    List.findSome?_eq_none_iff.2 fun x hx => alarmRecordOf_none (hbefore x hx)
  have hfound : alarmRecordOf (4, bytes) = some r := by simp [alarmRecordOf, hread]
  rw [firstAlarmRecord_eq, hchain, Option.getD_some, hsplit, List.findSome?_append, hnone, List.findSome?_cons, hfound]
  rfl

section RelayAlarm

variable {s : State} {q : Port} {f : List Byte}

theorem relayAlarm_unnamed (h : NamesNoAlarm f) :
    s.relayAlarm q f = s.queueRequest q { TxEntry.fixed f .alarm .aru with relayed := true } := by
  simp only [State.relayAlarm, firstAlarmRecord_none h]

theorem relayAlarm_stands {r : AlarmRecord} {d : Delivery} (h : NamesAlarm f r) (hd : d ∈ s.deliveriesOn q)
    (hid : d.id = r.id) (hstands : r.state.rank < d.alarmState.rank ∨ (d.alarmState = r.state ∧ d.source = .own)) :
    s.relayAlarm q f = s.queueRequest q { TxEntry.fixed f .alarm .aru with relayed := true } := by
  simp only [State.relayAlarm, firstAlarmRecord_some h]
  exact if_pos (List.any_eq_true.2 ⟨d, hd, by simp [hid, standsAgainst, hstands]⟩)

theorem relayAlarm_opened {r : AlarmRecord} (h : NamesAlarm f r) (hall : ∀ x ∈ s.deliveriesOn q, x.id = r.id →
    x.alarmState.rank ≤ r.state.rank ∧ (x.alarmState = r.state → x.source = .relay)) :
    s.relayAlarm q f = s.openDelivery q r.id .relay f r.state := by
  simp only [State.relayAlarm, firstAlarmRecord_some h]
  refine if_neg fun hany => ?_
  obtain ⟨x, hx, hstands⟩ := List.any_eq_true.1 hany
  obtain ⟨hid, hstands⟩ : x.id = r.id ∧ (r.state.rank < x.alarmState.rank ∨ x.alarmState = r.state ∧ x.source = .own) := by
    simpa [standsAgainst] using hstands
  obtain ⟨hrank, hsource⟩ := hall x hx hid
  obtain hlt | ⟨hsame, hown⟩ := hstands
  · omega
  · rw [hsource hsame] at hown
    exact DeliverySource.noConfusion hown

end RelayAlarm

/-! ### The sections of a frame (R32, R34) -/

/-- The state a frame's sections are taken in: a chain of more than eight is counted (R32). -/
def State.chainCounted (s : State) (a : Arrival) (chain : List (Nat × List Byte)) : State :=
  if 8 < chain.length then s.countParse a.port (fun c => { c with truncated := c.truncated.bump }) else s

theorem takeSections_eq (s : State) (a : Arrival) (v : Verdict) (chain : List (Nat × List Byte)) :
    s.takeSections a v chain = (chain.take 8).foldl (State.candidateSection a v) (s.chainCounted a chain) := rfl

theorem chainCounted_touches (s : State) (a : Arrival) (chain : List (Nat × List Byte)) :
    OnlyTouches [.parse] s (s.chainCounted a chain) := .ite (countParse_touches s _ _) (.refl _ _)

theorem chainCounted_parse (s : State) (a : Arrival) (chain : List (Nat × List Byte)) :
    (s.chainCounted a chain).fre.parse = if 8 < chain.length then s.fre.parse.set a.port
      { s.fre.parse.get a.port with truncated := (s.fre.parse.get a.port).truncated.bump } else s.fre.parse := by
  unfold State.chainCounted
  split <;> rfl

section Candidate

variable {s : State} {a : Arrival} {v : Verdict} {kind : Nat} {bytes : List Byte}

theorem candidateSection_unknown (h : 11 ≤ kind) : s.candidateSection a v (kind, bytes)
    = s.countParse a.port (fun c => { c with unknown := c.unknown.bump }) := if_pos h

theorem candidateSection_bad (h : kind < 11) (hr : readSection kind bytes = none) : s.candidateSection a v (kind, bytes)
    = s.countParse a.port (fun c => { c with bad := c.bad.bump }) := by
  simp only [State.candidateSection, Nat.not_le.2 h, if_false, hr]

theorem candidateSection_read {y : FrameSection} (h : kind < 11) (hr : readSection kind bytes = some y) :
    s.candidateSection a v (kind, bytes) = if v = .new then s.dispatch a y else s := by
  simp only [State.candidateSection, Nat.not_le.2 h, if_false, hr]

theorem dispatch_elsewhere (h : a.dest ≠ s.cfg.station) (hall : a.dest ≠ 4095) (y : FrameSection) :
    s.dispatch a y = s.dispatchElsewhere a y := if_neg (by simp [State.addressed, h, hall])

theorem dispatch_here (h : a.dest = s.cfg.station ∨ a.dest = 4095) (y : FrameSection) :
    s.dispatch a y = s.dispatchHere a y := if_pos (by simpa [State.addressed] using h)

/-- R34: a frame for another station reaches the calls heard only. -/
theorem dispatchElsewhere_other {y : FrameSection} (hcall : ∀ id m callee reason, y ≠ .call id m callee reason)
    (hvoice : ∀ id seq blocks, y ≠ .voice id seq blocks) : s.dispatchElsewhere a y = s := by
  cases y with
  | call id m callee reason => exact absurd rfl (hcall id m callee reason)
  | voice id seq blocks => exact absurd rfl (hvoice id seq blocks)
  | _ => rfl

end Candidate

/-! ### What a section does to its owners (R42, R43, R54, R103, R141) -/

theorem slotsAfter_eq (old : Option StatusPart) (a : Arrival) (slot : Nat) : slotsAfter old a slot
    = (if a.hops = 0 ∧ a.port = .A then some slot else old.bind StatusPart.slotA,
       if a.hops = 0 ∧ a.port = .B then some slot else old.bind StatusPart.slotB) := by
  unfold slotsAfter
  by_cases h : a.hops = 0
  · cases hp : a.port <;> simp [h]
  · simp [h]

section Text

variable {s : State} {a : Arrival} {x : Peer} {words : List Byte}

theorem textReceived_unknown (h : s.findPeer a.origin = none) :
    s.textReceived a true words = takeIn (.textReceived a.origin true words) s := by
  simp [State.textReceived, h]

/-- R54: a sticky text that ends the peer's standing text, told when there was one. -/
theorem textReceived_ended (h : s.findPeer a.origin = some x) (hw : words = [0#8]) : s.textReceived a true words
    = if x.text.isSome then takeIn (.textReceived a.origin true words) (s.updatePeer a.origin (fun y => { y with text := none }))
      else s.updatePeer a.origin (fun y => { y with text := none }) := by
  simp [State.textReceived, h, hw]

/-- R54: a sticky text, told when it is another than the peer's standing one. -/
theorem textReceived_standing (h : s.findPeer a.origin = some x) (hw : words ≠ [0#8]) : s.textReceived a true words
    = if x.text = some (words.take 32) then s
      else takeIn (.textReceived a.origin true words)
        (s.updatePeer a.origin (fun y => { y with text := some (words.take 32) })) := by
  simp [State.textReceived, h, hw]

end Text

section HistoryRequested

variable {s : State} {p : Port} {n : Nat} {c : Fin 7}

theorem historyRequested_unset (h : (s.channel c).level = .unset) : s.historyRequested p n c = s := if_pos h

theorem absorbsLine_iff (c : Fin 7) (n : Nat) (e : HistoryRequest) : absorbsLine c n e = true ↔ ∃ q, e = .line c n q := by
  cases e <;> simp [absorbsLine]

theorem historyRequested_absorbed (h : ∃ q, HistoryRequest.line c n q ∈ s.bpk.history) : s.historyRequested p n c = s := by
  obtain ⟨q, hq⟩ := h
  have hany : s.bpk.history.any (absorbsLine c n) = true :=
    List.any_eq_true.2 ⟨_, hq, (absorbsLine_iff c n _).2 ⟨q, rfl⟩⟩
  unfold State.historyRequested
  rw [if_pos hany, ite_self]

theorem historyRequested_new (hset : (s.channel c).level ≠ .unset)
    (h : ∀ q, HistoryRequest.line c n q ∉ s.bpk.history) : s.historyRequested p n c
      = if s.bpk.history.length < 4 then s.addHistory (.line c n p)
        else s.count p (fun x => { x with queueFullDrops := x.queueFullDrops.bump }) := by
  have hany : ¬ s.bpk.history.any (absorbsLine c n) = true := fun hany => by
    obtain ⟨e, he, hab⟩ := List.any_eq_true.1 hany
    obtain ⟨q, rfl⟩ := (absorbsLine_iff c n e).1 hab
    exact h q he
  unfold State.historyRequested
  rw [if_neg hset, if_neg hany]

end HistoryRequested

theorem channelOf_val (c : Fin 7) : channelOf c.val = some c := dif_pos c.isLt

/-! ### The calls heard (R55) -/

theorem calleeGiven_eq {callee given : Option Nat} (hnone : callee = none ∨ callee = some 4095 → given = none)
    (hsome : ∀ n, callee = some n → n ≠ 4095 → given = some n) : calleeGiven callee = given := by
  cases callee with
  | none => exact (hnone (.inl rfl)).symm
  | some n =>
    by_cases hn : n = 4095
    · subst hn
      exact (hnone (.inr rfl)).symm
    · rw [hsome n rfl hn]
      simp [calleeGiven, hn]

section HearCall

variable {heard : List HeardCall} {id : CallId} {callee : Option Nat} {now : Nat}

theorem hearCall_known (h : ∃ x ∈ heard, x.id = id) : hearCall heard id callee now
    = heard.map (fun x => if x.id = id
        then { x with last := now, callee := if calleeGiven callee = none then x.callee else calleeGiven callee } else x) := by
  have hany : heard.any (fun x => decide (x.id = id)) = true := by simpa using h
  unfold hearCall
  rw [if_pos hany]
  refine List.map_congr_left fun x _ => ?_
  cases calleeGiven callee <;> rfl

theorem hearCall_room (h : ∀ x ∈ heard, x.id ≠ id) (hroom : heard.length < 4) :
    hearCall heard id callee now = heard ++ [{ id := id, last := now, callee := calleeGiven callee }] := by
  have hany : ¬ heard.any (fun x => decide (x.id = id)) = true := by simpa using h
  unfold hearCall
  rw [if_neg hany, if_pos hroom]

/-- R55: in a full list the call heard longest ago gives way (log 16). -/
theorem hearCall_full {before after : List HeardCall} {old : HeardCall} (h : ∀ x ∈ heard, x.id ≠ id)
    (hsplit : heard = before ++ old :: after) (hfull : 4 ≤ heard.length) (hbefore : ∀ x ∈ before, old.last < x.last)
    (hafter : ∀ x ∈ after, old.last ≤ x.last) (hother : ∀ x ∈ before ++ after, x.id ≠ old.id) :
    hearCall heard id callee now = before ++ { id := id, last := now, callee := calleeGiven callee } :: after := by
  have hany : ¬ heard.any (fun x => decide (x.id = id)) = true := by simpa using h
  have hfirst : firstBy (fun a b : HeardCall => decide (a.last ≤ b.last)) heard = some old := by
    rw [firstBy_split (fun a b c hab hbc => by simp at hab hbc ⊢; omega) (fun a b hab => by simp at hab ⊢; omega)]
    exact ⟨before, after, hsplit, fun x hx => by simpa using hbefore x hx, fun x hx => by simpa using hafter x hx⟩
  have hkeep (l : List HeardCall) (hl : ∀ x ∈ l, x.id ≠ old.id) (y : HeardCall) :
      l.map (fun x => if x.id = old.id then y else x) = l := by
    conv_rhs => rw [← List.map_id l]
    exact List.map_congr_left fun x hx => if_neg (hl x hx)
  unfold hearCall
  rw [if_neg hany, if_neg (Nat.not_lt.2 hfull)]
  simp only [hfirst]
  rw [hsplit, List.map_append, List.map_cons, if_pos rfl, hkeep before (fun x hx => hother x (List.mem_append_left _ hx)),
    hkeep after (fun x hx => hother x (List.mem_append_right _ hx))]

end HearCall

section CallHeard

variable {s : State} {id : CallId} {callee : Option Nat} {release : Bool} {now : Nat}

theorem callHeard_own (h : s.clu.ctx.call = some id ∨ id.caller = s.cfg.station) :
    s.callHeard id callee release now = s := if_pos (by simpa [State.ownCall] using h)

theorem callHeard_other (h : s.clu.ctx.call ≠ some id) (hc : id.caller ≠ s.cfg.station) :
    s.callHeard id callee release now = s.setHeard (if release then s.pru.heard.filter (fun x => decide (x.id ≠ id))
      else hearCall s.pru.heard id callee now) := by
  unfold State.callHeard
  rw [if_neg (by simp [State.ownCall, h, hc])]
  cases release <;> rfl

end CallHeard

/-! ### The parse of a frame, part by part (O40) -/

theorem newPeer_eq (heard : List HeardCall) (a : Arrival) : newPeer heard a = {
    station := a.origin, port := a.port, hops := a.hops, lastHeard := a.time, lastSeq := a.seq, present := true,
    status := none, air := none, refuge := none, text := none,
    inCall := heard.any (fun h => decide (h.id.caller = a.origin) || decide (h.callee = some a.origin)) } := rfl

/-- R40: an origin with no entry, in a table with room, full of PRESENT peers, or with a SILENT one to displace. -/
theorem peerHeard_unknown {s : State} {a : Arrival} (h : s.findPeer a.origin = none) :
    (s.pru.peers.length < 48 → OnlyTouches [.peers] s (s.peerHeard a)
        ∧ ∀ x, x ∈ (s.peerHeard a).pru.peers ↔ x = newPeer s.pru.heard a ∨ x ∈ s.pru.peers)
      ∧ (48 ≤ s.pru.peers.length → (∀ x ∈ s.pru.peers, x.present = true) → s.peerHeard a = s)
      ∧ (∀ v ∈ s.pru.peers, 48 ≤ s.pru.peers.length → v.present = false →
          (∀ x ∈ s.pru.peers, x.present = false → x.station ≠ v.station →
            v.lastHeard < x.lastHeard ∨ (v.lastHeard = x.lastHeard ∧ v.station < x.station)) →
          s.pru.peers.Pairwise (fun x y => x.station < y.station) →
          ∃ u : State, u.pru.peers = s.pru.peers.filter (fun x => decide (x.station ≠ v.station))
            ∧ OnlyTouches [.peers] s u ∧ OnlyTouches [.peers] u.recompute (s.peerHeard a)
            ∧ ∀ x, x ∈ (s.peerHeard a).pru.peers
                ↔ x = newPeer s.pru.heard a ∨ (x ∈ s.pru.peers ∧ x.station ≠ v.station)) := by
  refine ⟨fun hroom => ?_, fun hfull hpresent => peerHeard_full h hfull (peerVictim_none hpresent),
    fun v hv hfull hsilent hleast hsorted => ?_⟩
  · rw [peerHeard_room h hroom]
    exact ⟨insertPeer_touches s a, mem_insertPeer s a⟩
  · rw [peerHeard_displaces h hfull (peerVictim_some hv hsilent hleast hsorted)]
    have hheard : (s.removePeer v.station).pru.heard = s.pru.heard :=
      removePeer_touches s v.station .heard (by decide)
    refine ⟨_, rfl, setPeers_touches s _, insertPeer_touches _ a, fun x => ?_⟩
    rw [mem_insertPeer, hheard, removePeer_peers, List.mem_filter, decide_eq_true_eq]

/-- R48, R49, R166: whether a frame is relayed, and how its copy is queued. -/
theorem relayFrame_cases (s : State) (a : Arrival) (f : List Byte) :
    (¬ Relayed s a → s.relayFrame a f = s)
      ∧ (Relayed s a →
        (∀ c, c ≠ FrameClass.alarm → a.header.cls = c.code → s.relayFrame a f
          = s.queueRequest (otherPort a.port) { TxEntry.fixed (relayCopy f) c .pru with relayed := true })
        ∧ (a.header.cls = FrameClass.alarm.code →
          s.relayFrame a f = s.relayAlarm (otherPort a.port) (relayCopy f))) :=
  ⟨fun h => relayFrame_refused h f, fun h => ⟨fun _ hc hcls => relayFrame_class h hc hcls f,
    fun hcls => relayFrame_alarm h hcls f⟩⟩

section Here

variable {s : State} {a : Arrival}

/-- R42: a STATUS section at the entry of its origin. -/
theorem statusReceived_found {x : Peer} (h : s.findPeer a.origin = some x) (chainage zone roadway slot : Nat)
    (neg bridge refuge operator : Bool) :
    s.statusReceived a chainage zone roadway slot neg bridge refuge operator
      = (s.updatePeer a.origin (fun y => { y with status := some {
          chainage := chainage, zone := zone, roadway := roadway, airflowNeg := neg, bridge := bridge,
          refuge := refuge, operator := operator,
          slotA := if a.hops = 0 ∧ a.port = .A then some slot else x.status.bind StatusPart.slotA,
          slotB := if a.hops = 0 ∧ a.port = .B then some slot else x.status.bind StatusPart.slotB } })).recompute := by
  simp only [State.statusReceived, h, slotsAfter_eq]

theorem statusReceived_unknown (h : s.findPeer a.origin = none) (chainage zone roadway slot : Nat)
    (neg bridge refuge operator : Bool) :
    s.statusReceived a chainage zone roadway slot neg bridge refuge operator = s := by
  simp only [State.statusReceived, h]

/-- R141: a VEHICLE section is taken from a peer on this roadway, and from no other. -/
theorem vehicleReceived_other {n : Nat} (h : ∀ x st, s.findPeer n = some x → x.status = some st →
    st.roadway ≠ s.cfg.roadway) (tags : List TagEntry) (now : Nat) : s.vehicleReceived n tags now = s := by
  unfold State.vehicleReceived
  split
  · rfl
  · rename_i st hst
    obtain ⟨x, hx, hs⟩ := Option.bind_eq_some_iff.1 hst
    rw [if_pos (h x st hx hs)]

theorem vehicleReceived_same {x : Peer} {st : StatusPart} {n : Nat} (h : s.findPeer n = some x) (hs : x.status = some st)
    (hr : st.roadway = s.cfg.roadway) (tags : List TagEntry) (now : Nat) : s.vehicleReceived n tags now
      = (tags.filter (fun y => decide (y.kind ≠ .person))).foldl (fun u y => u.truckSighting
          { tag := y.tag, kind := y.kind, reporter := n, chainage := st.chainage, strength := y.strength,
            heading := y.heading, speed := y.speed, loaded := y.loaded, time := now }) s := by
  simp [State.vehicleReceived, h, hs, hr]

/-- R54: what a sticky text does at the entry of its origin. -/
theorem textReceived_found {x : Peer} {words : List Byte} {kept : Option (List Byte)} (h : s.findPeer a.origin = some x)
    (hkept : kept = if words = [0#8] then none else some (words.take 32)) :
    ∃ u : State, OnlyTouches [.peers] s u
      ∧ u.pru.peers = s.pru.peers.map (fun y => if y.station = a.origin then { y with text := kept } else y)
      ∧ (kept ≠ none → x.text ≠ kept → s.textReceived a true words = takeIn (.textReceived a.origin true words) u)
      ∧ (kept ≠ none → x.text = kept → s.textReceived a true words = s)
      ∧ (kept = none → x.text ≠ none → s.textReceived a true words = takeIn (.textReceived a.origin true words) u)
      ∧ (kept = none → x.text = none → s.textReceived a true words = u) := by
  refine ⟨s.updatePeer a.origin (fun y => { y with text := kept }), updatePeer_touches s _ _, rfl, ?_⟩
  by_cases hw : words = [0#8]
  · rw [if_pos hw] at hkept
    subst hkept
    rw [textReceived_ended h hw]
    refine ⟨fun hne => absurd rfl hne, fun hne => absurd rfl hne, fun _ htext => ?_, fun _ htext => ?_⟩
    · rw [if_pos (Option.isSome_iff_ne_none.2 htext)]
    · rw [if_neg (by simp [htext])]
  · rw [if_neg hw] at hkept
    subst hkept
    rw [textReceived_standing h hw]
    exact ⟨fun _ htext => if_neg htext, fun _ htext => if_pos htext, nofun, nofun⟩

/-- R103: a HISTORY_REQUEST section at the list. -/
theorem historyRequested_cases (p : Port) (n : Nat) (c : Fin 7) :
    ((s.channel c).level = .unset → s.historyRequested p n c = s)
      ∧ ((s.channel c).level ≠ .unset →
        ((∃ q, HistoryRequest.line c n q ∈ s.bpk.history) → s.historyRequested p n c = s)
        ∧ ((∀ q, HistoryRequest.line c n q ∉ s.bpk.history) →
          (s.bpk.history.length < 4 → ∃ u : State, s.historyRequested p n c = u.arbitrate ∧ OnlyTouches [.history] s u
              ∧ u.bpk.history = s.bpk.history ++ [.line c n p])
          ∧ (4 ≤ s.bpk.history.length → OnlyTouches [.line p] s (s.historyRequested p n c)
            ∧ (s.historyRequested p n c).port p = { s.port p with counters :=
                { (s.port p).counters with queueFullDrops := (s.port p).counters.queueFullDrops.bump } }))) := by
  refine ⟨historyRequested_unset, fun hset => ⟨historyRequested_absorbed, fun hnew => ⟨fun hroom => ?_, fun hfull => ?_⟩⟩⟩
  · rw [historyRequested_new hset hnew, if_pos hroom]
    refine ⟨s.setBpk { s.bpk with history := s.bpk.history ++ [.line c n p] }, rfl, ?_, rfl⟩
    intro x hx
    cases x <;> first | rfl | exact ⟨rfl, rfl⟩ | exact ⟨rfl, rfl, rfl⟩ | exact absurd (by decide) hx
  · rw [historyRequested_new hset hnew, if_neg (Nat.not_lt.2 hfull)]
    exact ⟨count_touches s p _, count_port s p _⟩

end Here

/-- R55: a section of a call, its own or another's, at the calls heard. -/
theorem callHeard_cases (s : State) (id : CallId) (callee : Option Nat) (release : Bool) (now : Nat) (t : State)
    (ht : t = s.callHeard id callee release now) :
    (s.clu.ctx.call = some id ∨ id.caller = s.cfg.station → t = s)
      ∧ (s.clu.ctx.call ≠ some id → id.caller ≠ s.cfg.station →
        t = s.setHeard (if release then s.pru.heard.filter (fun x => decide (x.id ≠ id))
          else hearCall s.pru.heard id callee now)) :=
  ⟨fun hown => ht.trans (callHeard_own hown), fun h hc => ht.trans (callHeard_other h hc)⟩

/-- Settles O40: the verdict on a frame, and each of the operations it leads to. -/
theorem frameParseResult : Obligations.FrameParseResult := by
  refine ⟨fun s p r more hr hturn => ⟨frameParse_malformed hr hturn, fun hheader hchain => ?_⟩,
    fun s a new hnone hnew => ?_, fun s a f copy q once hq hcopy honce => ?_, fun s a v chain => ?_,
    fun s a v kind bytes => ?_, fun s a hdest hall => ?_, fun s a hhere => ?_, fun s id callee release now t ht => ?_⟩
  · obtain ⟨chain, hchain⟩ := Option.ne_none_iff_exists'.1 hchain
    refine ⟨fun hecho => ?_, fun hother => ⟨frameParse_duplicate hr hturn hheader hchain hother, fun hrecent hpeer => ?_⟩⟩
    · exact ⟨_, frameParse_echo hr hturn hheader hchain hecho, frameTaken_port s p more, rfl, frameTaken_touches s p more⟩
    · obtain ⟨t, w, rfl, hexec, hlast, hlist, hkept, ht⟩ :=
        frameParse_new hr hturn hheader hchain hother hrecent hpeer
      have hnoted := noted_touches (s.frameTaken p more) (arrivalOf p r)
      refine ⟨t, _, hexec, hlast, hlist, ((frameTaken_touches s p more).mono (by simp)).trans (hnoted.mono (by simp)),
        (hnoted (.line p) (by simp)).trans (frameTaken_port s p more), hnoted .lastPort (by decide), hkept,
        fun chain' a' hchain' ha' => ?_⟩
      rw [hchain, Option.some_inj] at hchain'
      rw [← hchain', ha']
      exact ht
  · rw [hnew, ← newPeer_eq]
    exact peerHeard_unknown hnone
  · subst hq hcopy honce
    obtain ⟨hrefused, hrelayed⟩ := relayFrame_cases s a f
    refine ⟨hrefused, fun h => ?_⟩
    obtain ⟨hclass, halarm⟩ := hrelayed h
    refine ⟨hclass, fun hcls => ?_⟩
    rw [halarm hcls]
    refine ⟨relayAlarm_unnamed, fun r hr => ⟨fun d hd hid hstands => relayAlarm_stands hr hd hid hstands,
      fun d hd hall => ⟨s.holdDelivery _ d, ?_, holdDelivery_holds s _ d⟩⟩⟩
    rw [relayAlarm_opened hr hall, hd]
    rfl
  · exact ⟨s.chainCounted a chain, chainCounted_touches s a chain, takeSections_eq s a v chain,
      chainCounted_parse s a chain⟩
  · refine ⟨fun hunknown => ?_, fun hkind hbad => ?_, fun y hkind hread => ⟨fun hv => ?_, fun hv => ?_⟩⟩
    · rw [candidateSection_unknown hunknown]
      exact ⟨countParse_touches s _ _, countParse_parse s _ _⟩
    · rw [candidateSection_bad hkind hbad]
      exact ⟨countParse_touches s _ _, countParse_parse s _ _⟩
    · rw [candidateSection_read hkind hread, if_pos hv]
    · rw [candidateSection_read hkind hread, if_neg (by rw [hv]; decide)]
  · refine ⟨fun id m callee reason => dispatch_elsewhere hdest hall _, fun id seq blocks => dispatch_elsewhere hdest hall _,
      fun y hcall hvoice => ?_⟩
    rw [dispatch_elsewhere hdest hall, dispatchElsewhere_other hcall hvoice]
  · refine ⟨fun chainage zone roadway slot neg on bridge refuge operator held t ht => ⟨fun hnone => ?_, fun x hx => ?_⟩,
      fun es => ⟨_, dispatch_here hhere _, updatePeer_touches s _ _, rfl⟩, fun r => ?_,
      fun words => dispatch_here hhere _, fun words hnone => ?_, fun words x kept hx hkept => ?_,
      fun channel interval base mask block => dispatch_here hhere _, fun c t ht => ?_, fun rs => dispatch_here hhere _,
      fun id m callee reason => dispatch_here hhere _, fun id seq blocks => dispatch_here hhere _,
      fun persons tags t ht => ⟨fun hother => ?_, fun x st hx hs hsame => ?_⟩⟩
    · rw [ht, dispatch_here hhere]
      exact statusReceived_unknown hnone _ _ _ _ _ _ _ _
    · refine ⟨_, (ht.trans (dispatch_here hhere _)).trans (statusReceived_found hx _ _ _ _ _ _ _ _),
        updatePeer_touches s _ _, rfl⟩
    · rw [dispatch_here hhere]
      exact ⟨updatePeer_touches s _ _, rfl⟩
    · rw [dispatch_here hhere]
      exact textReceived_unknown hnone
    · rw [dispatch_here hhere]
      exact textReceived_found hx hkept
    · have hsection : t = s.historyRequested a.port a.origin c := by
        rw [ht, dispatch_here hhere]
        simp only [State.dispatchHere, channelOf_val]
      rw [hsection]
      exact historyRequested_cases a.port a.origin c
    · rw [ht, dispatch_here hhere]
      exact vehicleReceived_other hother tags a.time
    · rw [ht, dispatch_here hhere]
      exact vehicleReceived_same hx hs hsame tags a.time
  · obtain ⟨hown, hother⟩ := callHeard_cases s id callee release now t ht
    refine ⟨hown, fun hcall hcaller => ?_⟩
    rw [hother hcall hcaller]
    refine ⟨setHeard_touches s _, rfl, fun hrelease => ?_, fun given hnone hsome hrelease => ?_⟩
    · rw [if_pos hrelease]
      rfl
    · rw [if_neg (by simp [hrelease]), ← calleeGiven_eq hnone hsome]
      exact ⟨hearCall_known, fun hnew => ⟨hearCall_room hnew, fun before old after hsplit hfull hbefore hafter hids =>
        hearCall_full hnew hsplit hfull hbefore hafter hids⟩⟩

end Sys2Proof.Machine


/-! The air channels: samples, gates and trend events, and what they hand on (O43). -/

namespace Sys2Proof.Machine

/-! ### The state machine of a channel (R63, R66 to R69) -/

section Faults

variable {c : Channel}

theorem faultSample_first (h : c.faults = 0) : c.faultSample = { c with faults := 1 } := if_pos h

theorem faultSample_second (h : c.faults = 1) (hl : c.level ≠ .fault) :
    c.faultSample = { c with faults := 2, level := .fault, up := 0, clear := 0, runMin := none } := by
  simp [Channel.faultSample, h, hl, Channel.enter]

theorem faultSample_faulty (h : c.faults = 1) (hl : c.level = .fault) : c.faultSample = { c with faults := 2 } := by
  simp [Channel.faultSample, h, hl]

theorem faultSample_stays (h : c.faults = 2) : c.faultSample = c := by simp [Channel.faultSample, h]

end Faults

/-- The accumulator stays at or above 0 (R63). -/
theorem smooth_eq (k acc e : Nat) : (smooth k acc e : Int) = acc + (16 * (e : Int) - acc) / 2 ^ k := by
  have hpos : (0 : Int) < 2 ^ k := by positivity
  have hlow : -(acc : Int) ≤ (16 * (e : Int) - acc) / 2 ^ k := by
    rw [Int.le_ediv_iff_mul_le hpos]
    nlinarith
  unfold smooth
  omega

theorem smooth_le {k acc e top : Nat} (hacc : acc ≤ 16 * top) (he : e ≤ top) : smooth k acc e ≤ 16 * top := by
  have hpos : (0 : Int) < 2 ^ k := by positivity
  have hhigh : (16 * (e : Int) - acc) / 2 ^ k ≤ 16 * top - acc := by
    refine Int.ediv_le_of_le_mul hpos ?_
    nlinarith
  have heq := smooth_eq k acc e
  omega

section Valid

variable {g : ChannelConfig} {c : Channel} {e : Nat}

theorem validSample_seeded (h : c.level = .starting ∨ c.level = .fault) : c.validSample g e = { c with
    faults := 0, acc := 16 * e, value := e, level := levelOf g e, up := 0, clear := 0, runMin := none } := by
  have hvalue : (16 * e + 8) / 16 = e := by omega
  simp [Channel.validSample, h, Channel.withAcc, Channel.enter, hvalue]

/-- The channel with a valid sample smoothed in, its level not yet judged (R63). -/
def Channel.smoothed (c : Channel) (g : ChannelConfig) (e : Nat) : Channel :=
  { c with faults := 0, acc := smooth g.k c.acc e, value := (smooth g.k c.acc e + 8) / 16 }

theorem validSample_judged (h : c.level = .normal ∨ c.level = .warn ∨ c.level = .trip) :
    c.validSample g e = (c.smoothed g e).judge g := by
  have hnot : ¬ (c.level = .starting ∨ c.level = .fault) := by
    obtain h | h | h := h <;> simp [h]
  simp only [Channel.validSample, hnot, if_false]
  rfl

theorem escalate_acc (c : Channel) (g : ChannelConfig) (x : ChannelState) :
    (c.escalate g x).acc = c.acc ∧ (c.escalate g x).value = c.value := by
  unfold Channel.escalate
  dsimp only
  split <;> exact ⟨rfl, rfl⟩

theorem deescalate_acc (c : Channel) (g : ChannelConfig) :
    (c.deescalate g).acc = c.acc ∧ (c.deescalate g).value = c.value := by
  unfold Channel.deescalate
  split
  · split <;> exact ⟨rfl, rfl⟩
  · exact ⟨rfl, rfl⟩

theorem judge_acc (c : Channel) (g : ChannelConfig) : (c.judge g).acc = c.acc ∧ (c.judge g).value = c.value := by
  unfold Channel.judge
  dsimp only
  split
  · exact escalate_acc _ g _
  · exact deescalate_acc _ g

/-- R68: the least severe level of the run, the sample's among them. -/
theorem lessSevere_eq {held : Option ChannelState} {x least : ChannelState}
    (h : (least = x ∧ (held = none ∨ ∃ m, held = some m ∧ x.rank < m.rank)) ∨ (held = some least ∧ least.rank ≤ x.rank)) :
    lessSevere held x = least := by
  obtain ⟨rfl, rfl | ⟨m, rfl, hm⟩⟩ | ⟨rfl, hle⟩ := h
  · rfl
  · exact if_pos hm
  · exact if_neg (Nat.not_lt.2 hle)

theorem judge_escalates {x least : ChannelState} (hx : x = levelOf g c.value) (hrank : c.level.rank < x.rank)
    (hleast : (least = x ∧ (c.runMin = none ∨ ∃ m, c.runMin = some m ∧ x.rank < m.rank))
      ∨ (c.runMin = some least ∧ least.rank ≤ x.rank)) :
    (c.up + 1 = g.n → c.judge g = { c with level := least, up := 0, clear := 0, runMin := none })
      ∧ (c.up + 1 ≠ g.n → c.judge g = { c with up := c.up + 1, clear := 0, runMin := some least }) := by
  have hjudge : c.judge g = ({ c with clear := 0 } : Channel).escalate g x := by
    rw [Channel.judge, ← hx]
    exact if_pos hrank
  have hless : lessSevere ({ c with clear := 0 } : Channel).runMin x = least := lessSevere_eq hleast
  rw [hjudge]
  unfold Channel.escalate
  dsimp only at hless ⊢
  rw [hless]
  exact ⟨fun hn => if_pos hn, fun hn => if_neg hn⟩

theorem judge_deescalates (hrank : ¬ c.level.rank < (levelOf g c.value).rank) :
    (clears g c.level c.value = true → c.clear + 1 = g.m → c.judge g = { c with
        level := if c.level = .trip then .warn else .normal, up := 0, clear := 0, runMin := none })
      ∧ (clears g c.level c.value = true → c.clear + 1 ≠ g.m →
          c.judge g = { c with up := 0, clear := c.clear + 1, runMin := none })
      ∧ (clears g c.level c.value = false → c.judge g = { c with up := 0, clear := 0, runMin := none }) := by
  have hjudge : c.judge g = ({ c with up := 0, runMin := none } : Channel).deescalate g := if_neg hrank
  rw [hjudge]
  unfold Channel.deescalate
  refine ⟨fun hc hm => ?_, fun hc hm => ?_, fun hc => ?_⟩
  · have hbelow : levelBelow c.level = if c.level = .trip then .warn else .normal := by
      obtain ⟨hl, -⟩ | ⟨hl, -⟩ := clears_eq_true hc <;> rw [hl] <;> rfl
    refine (if_pos hc).trans ((if_pos hm).trans ?_)
    rw [← hbelow]
    rfl
  · exact (if_pos hc).trans (if_neg hm)
  · exact if_neg (by rw [hc]; exact Bool.false_ne_true)

/-- R63, R68, R69: a valid sample in NORMAL, WARN or TRIP. -/
theorem validSample_acc (h : c.level = .normal ∨ c.level = .warn ∨ c.level = .trip) :
    (c.validSample g e).acc = smooth g.k c.acc e ∧ (c.validSample g e).value = (smooth g.k c.acc e + 8) / 16 := by
  rw [validSample_judged h]
  exact judge_acc (c.smoothed g e) g

end Valid

/-! ### Trend events (R70 to R73) -/

theorem riseFlag_spec (limit : Nat) (newest older : Slot) (held : Bool) :
    (limit = 0 ∨ newest.valid = false ∨ older.valid = false → riseFlag limit newest older held = false)
      ∧ (limit ≠ 0 → newest.valid = true → older.valid = true →
        (older.value + limit ≤ newest.value → riseFlag limit newest older held = true)
        ∧ (2 * ((newest.value : Int) - older.value) < limit → riseFlag limit newest older held = false)
        ∧ (newest.value < older.value + limit → (limit : Int) ≤ 2 * ((newest.value : Int) - older.value) →
            riseFlag limit newest older held = held)) := by
  unfold riseFlag
  refine ⟨fun hno => ?_, fun hlimit hnewest holder => ⟨fun hrise => ?_, fun hfall => ?_, fun hlow hhigh => ?_⟩⟩
  · by_cases hlimit : limit = 0
    · exact if_pos hlimit
    · rw [if_neg hlimit, if_pos]
      obtain h | h := hno.resolve_left hlimit <;> simp [h]
  · rw [if_neg hlimit, if_neg (by simp [hnewest, holder]), if_pos hrise]
  · rw [if_neg hlimit, if_neg (by simp [hnewest, holder]), if_neg (by omega), if_pos hfall]
  · rw [if_neg hlimit, if_neg (by simp [hnewest, holder]), if_neg (by omega), if_neg (by omega)]

/-! ### What an event hands on (R64, R75, R76, R93, R94) -/

theorem channel_setChannel_same (s : State) (c : Fin 7) (x : Channel) : (s.setChannel c x).channel c = x := by
  unfold State.channel State.setChannel
  simp [State.setAcu]

theorem channel_setChannel_other (s : State) {c d : Fin 7} (h : d ≠ c) (x : Channel) :
    (s.setChannel c x).channel d = s.channel d := by
  have hne : c.val ≠ d.val := fun e => h (Fin.ext e.symm)
  unfold State.channel State.setChannel
  simp [State.setAcu, hne]

/-- R93: what a channel of an own kind raises. -/
theorem channelAlarm_eq_some {zone : Nat} {k : GasKind} {kind : AlarmKind} {scope : Scope} :
    channelAlarm zone k = some (kind, scope) ↔ (k = .methane ∧ kind = .gas ∧ scope = .zone zone)
      ∨ (k = .carbonMonoxide ∧ kind = .fire ∧ scope = .all) ∨ (k = .airVelocity ∧ kind = .vent ∧ scope = .zone zone) := by
  cases k <;> simp [channelAlarm, eq_comm]

/-- What the alarm unit is asked for a channel, in a state where the channel stands as `after` (R93). -/
theorem raiseForChannel_eq (s : State) (c : Fin 7) (before : ChannelState) (kind : AlarmKind) (scope : Scope)
    (hasks : (s.channel c).level = .trip ∧ before ≠ .trip ∧ (s.channelCfg c).autoAlarm = true ∧ (s.channel c).raised = none)
    (hk : (s.channelCfg c).kind.bind (channelAlarm s.cfg.zone) = some (kind, scope)) :
    s.raiseForChannel c before = match (s.raise kind scope).1 with
      | none => (s.raise kind scope).2
      | some n => (s.raise kind scope).2.setChannel c { (s.raise kind scope).2.channel c with raised := some n } := by
  unfold State.raiseForChannel
  dsimp only
  rw [if_pos hasks, hk] <;> rfl

/-- R93: a channel that asks for no alarm leaves the alarm unit alone. -/
theorem raiseForChannel_same {s : State} {c : Fin 7} {before : ChannelState}
    (h : (s.channel c).level = .trip → before ≠ .trip → (s.channelCfg c).autoAlarm = true → (s.channel c).raised = none →
      (s.channelCfg c).kind.bind (channelAlarm s.cfg.zone) = none) : s.raiseForChannel c before = s := by
  unfold State.raiseForChannel
  dsimp only
  split
  · rename_i hasks
    obtain ⟨htrip, hbefore, hauto, hraised⟩ := hasks
    rw [h htrip hbefore hauto hraised]
  · rfl

/-- R94: no clear is asked for unless the channel stands at NORMAL and names an alarm that is ACKNOWLEDGED. -/
theorem clearForChannel_same {s : State} {c : Fin 7} (h : ∀ n, (s.channel c).raised = some n →
    (s.channel c).published = .normal → ∀ a, s.findAlarm ⟨s.cfg.station, n⟩ = some a → a.state ≠ .acknowledged) :
    s.clearForChannel c = s := by
  unfold State.clearForChannel
  dsimp only
  split
  · rfl
  · rename_i n hn
    refine if_neg ?_
    rintro ⟨hnormal, hstate⟩
    obtain ⟨a, ha, hack⟩ := Option.map_eq_some_iff.1 hstate
    exact h n hn hnormal a ha hack

theorem clearForChannel_asks {s : State} {c : Fin 7} {n : Nat} {a : Alarm} (hn : (s.channel c).raised = some n)
    (hnormal : (s.channel c).published = .normal) (ha : s.findAlarm ⟨s.cfg.station, n⟩ = some a)
    (hack : a.state = .acknowledged) : s.clearForChannel c
      = (s.setChannel c { s.channel c with raised := none }).clearAsOrigin ⟨s.cfg.station, n⟩ := by
  unfold State.clearForChannel
  simp only [hn, hnormal, ha, hack, Option.map_some, and_self, if_true]

theorem published_trip {c : Channel} (h : c.level = .trip) : c.published = .trip := by simp [Channel.published, h]

/-- The state an event is shown in: the recompute made and the alarm unit asked, where the event calls for it (R64, R93,
R94). -/
def State.channelTold (s : State) (c : Fin 7) (after : Channel) : State :=
  let u := s.setChannel c after
  if (s.channel c).published ≠ after.published ∨ (s.channel c).value ≠ after.value then
    if (s.channel c).published ≠ after.published then (u.recompute.raiseForChannel c (s.channel c).level).clearForChannel c
    else u.recompute.raiseForChannel c (s.channel c).level
  else u

theorem channelEvent_eq (s : State) (c : Fin 7) (after : Channel) : s.channelEvent c after
    = if (s.channel c).published ≠ after.published ∨ (s.channel c).rising ≠ after.rising
      then (s.channelTold c after).showChannel c after else s.channelTold c after := by
  simp only [State.channelEvent, State.channelTold, Bool.or_eq_true, decide_eq_true_eq]

section Handing

variable {s : State} {c : Fin 7} {after : Channel}

/-- The state the recompute of a channel event leaves. -/
theorem handed_reads (s : State) (c : Fin 7) (after : Channel) :
    (s.setChannel c after).recompute.cfg = s.cfg ∧ (s.setChannel c after).recompute.channel c = after
      ∧ (s.setChannel c after).recompute.aru.alarms = s.aru.alarms := by
  have hset := setChannel_touches s c after
  have hround := recompute_touches (s.setChannel c after)
  exact ⟨(touched_cfg hround).trans (touched_cfg hset),
    (touched_channel hround (by decide) c).trans (channel_setChannel_same s c after),
    (hround .alarms (by decide)).trans (hset .alarms (by decide))⟩

theorem asksRaise_iff {kind : AlarmKind} {scope : Scope} : AsksRaise s c after kind scope
    ↔ (after.level = .trip ∧ (s.channel c).level ≠ .trip ∧ (s.channelCfg c).autoAlarm = true ∧ after.raised = none)
      ∧ (s.channelCfg c).kind.bind (channelAlarm s.cfg.zone) = some (kind, scope) := by
  unfold AsksRaise
  cases (s.channelCfg c).kind with
  | none => simp
  | some k =>
    simp only [Option.bind_some, channelAlarm_eq_some, Option.some_inj]
    tauto

/-- R93: the alarm asked for, in a table that can hold it. -/
theorem channelTold_raises {kind : AlarmKind} {scope : Scope}
    (hchanged : (s.channel c).published ≠ after.published ∨ (s.channel c).value ≠ after.value)
    (hasks : AsksRaise s c after kind scope) :
    (HasRoom s kind → ∃ n w, RaisesAlarm (s.setChannel c after).recompute w kind scope n
        ∧ s.channelTold c after = w.setChannel c { w.channel c with raised := some n })
      ∧ (¬ HasRoom s kind → s.channelTold c after = (s.setChannel c after).recompute) := by
  obtain ⟨u, hu⟩ : ∃ u, u = (s.setChannel c after).recompute := ⟨_, rfl⟩
  obtain ⟨hcfg, hchannel, halarms⟩ := handed_reads s c after
  rw [← hu] at hcfg hchannel halarms
  obtain ⟨hcond, hkind⟩ := asksRaise_iff.1 hasks
  have hraise := raiseForChannel_eq u c (s.channel c).level kind scope
    (by unfold State.channelCfg; rw [hchannel, hcfg]; exact hcond)
    (by unfold State.channelCfg; rw [hcfg]; exact hkind)
  have hroom : HasRoom u kind ↔ HasRoom s kind := by
    unfold HasRoom
    rw [halarms]
  have hclear (v : State) (hv : (v.channel c).level = .trip) : v.clearForChannel c = v :=
    clearForChannel_same fun _ _ hnormal => by
      rw [published_trip hv] at hnormal
      exact ChannelState.noConfusion hnormal
  have htold (v : State) (hv : (v.channel c).level = .trip) (h : u.raiseForChannel c (s.channel c).level = v) :
      s.channelTold c after = v := by
    unfold State.channelTold
    dsimp only
    rw [if_pos hchanged, ← hu, h]
    split
    · exact hclear v hv
    · rfl
  refine ⟨fun hheld => ?_, fun hnot => ?_⟩
  · obtain ⟨n, w, hw, hraises⟩ := raise_held (x := scope) (hroom.2 hheld)
    rw [hw] at hraise
    obtain ⟨r, hr⟩ := raise_raised u kind scope c
    rw [hw] at hr
    dsimp only at hr
    refine ⟨n, w, hu ▸ hraises, htold _ ?_ hraise⟩
    rw [channel_setChannel_same, hr, hchannel]
    exact hcond.1
  · rw [raise_not_held (mt hroom.1 hnot)] at hraise
    rw [← hu]
    exact htold u (by rw [hchannel]; exact hcond.1) hraise

/-- R94: the clear asked for. -/
theorem channelTold_clears {n : Nat} (hasks : AsksOwnClear s c after n) : s.channelTold c after
    = ((s.setChannel c after).recompute.setChannel c { after with raised := none }).clearAsOrigin ⟨s.cfg.station, n⟩ := by
  obtain ⟨hchanged, hnormal, hnames, a, ha, hack⟩ := hasks
  obtain ⟨u, hu⟩ : ∃ u, u = (s.setChannel c after).recompute := ⟨_, rfl⟩
  obtain ⟨hcfg, hchannel, halarms⟩ := handed_reads s c after
  rw [← hu] at hcfg hchannel halarms
  have hraise : u.raiseForChannel c (s.channel c).level = u := raiseForChannel_same fun _ _ _ hnone => by
    rw [hchannel, hnames] at hnone
    cases hnone
  have hfind : u.findAlarm ⟨u.cfg.station, n⟩ = some a := by
    rw [find_congr halarms, hcfg]
    exact ha
  unfold State.channelTold
  dsimp only
  rw [if_pos (.inl hchanged), if_pos hchanged, ← hu, hraise,
    clearForChannel_asks (by rw [hchannel]; exact hnames) (by rw [hchannel]; exact hnormal) hfind hack, hchannel, hcfg]

/-- R64: an event that asks the alarm unit for nothing leaves the recompute. -/
theorem channelTold_plain (hchanged : (s.channel c).published ≠ after.published ∨ (s.channel c).value ≠ after.value)
    (hraise : ∀ kind scope, ¬ AsksRaise s c after kind scope) (hclear : ∀ n, ¬ AsksOwnClear s c after n) :
    s.channelTold c after = (s.setChannel c after).recompute := by
  obtain ⟨u, hu⟩ : ∃ u, u = (s.setChannel c after).recompute := ⟨_, rfl⟩
  obtain ⟨hcfg, hchannel, halarms⟩ := handed_reads s c after
  rw [← hu] at hcfg hchannel halarms ⊢
  have hkept : u.raiseForChannel c (s.channel c).level = u := raiseForChannel_same fun htrip hbefore hauto hnone => by
    unfold State.channelCfg at hauto ⊢
    rw [hchannel] at htrip hnone
    rw [hcfg] at hauto ⊢
    cases hk : (s.cfg.channels[c]).kind.bind (channelAlarm s.cfg.zone) with
    | none => rfl
    | some x => exact absurd (asksRaise_iff.2 ⟨⟨htrip, hbefore, hauto, hnone⟩, hk⟩) (hraise x.1 x.2)
  unfold State.channelTold
  dsimp only
  rw [if_pos hchanged, ← hu, hkept]
  split
  · rename_i hpublished
    refine clearForChannel_same fun n hn hnormal a ha hack => hclear n ⟨hpublished, ?_, ?_, a, ?_, hack⟩
    · rwa [hchannel] at hnormal
    · rwa [hchannel] at hn
    · rwa [find_congr halarms, hcfg] at ha
  · rfl

end Handing

/-! ### The three events (R60 to R62, R70) -/

theorem exec_loopSampleEvent_due {s : State} {c : Fin 6} {d : Nat} (hs : s.started = true)
    (hl : (s.channel c.castSucc).level ≠ .unset) (hdue : (s.channel c.castSucc).sampleDue = some d) (hd : d ≤ s.ms)
    (code : BitVec 12) : exec (.loopSampleEvent c code) s = .next (s.channelEvent c.castSucc
      (({ s.channel c.castSucc with sampleDue := some (d + 250) } : Channel).loopSample (s.channelCfg c.castSucc)
        code.toNat)) := by
  refine congrArg Host.Outcome.next ?_
  simp only [hdue]
  exact if_pos (by simp [hs, hl, State.dueMs, hd])

theorem exec_pulseGateClose_due {s : State} {d : Nat} (hs : s.started = true) (hl : (s.channel 6).level ≠ .unset)
    (hdue : s.acu.gateDue = some d) (hd : d ≤ s.ms) : exec .pulseGateClose s = .next
      ((s.setAcu { s.acu with gateCount := 0, gateDue := some (d + 1000) }).channelEvent 6
        ((s.channel 6).gateSample (s.channelCfg 6) s.acu.gateCount)) := by
  refine congrArg Host.Outcome.next ?_
  simp only [hdue]
  exact if_pos (by simp [hs, hl, State.dueMs, hd])

theorem exec_trendEvent_due {s : State} {c : Fin 7} {d : Nat} (hs : s.started = true) (hl : (s.channel c).level ≠ .unset)
    (hdue : (s.channel c).trendDue = some d) (hd : d ≤ s.ms) : exec (.trendEvent c) s = .next (s.channelEvent c
      (({ s.channel c with trendDue := some (d + 1000 * (s.channelCfg c).interval) } : Channel).trendEvent
        (s.channelCfg c))) := by
  refine congrArg Host.Outcome.next ?_
  simp only [hdue]
  exact if_pos (by simp [hs, hl, State.dueMs, hd])

/-- Settles O43: the three events, what an event hands on, and the state machine of a channel. -/
theorem channelEventsResult : Obligations.ChannelEventsResult := by
  refine ⟨fun s c code d hs hl hdue hd => ⟨fun hout => ?_, fun hlow hhigh => ?_⟩,
    fun s d hs hl hdue hd after hfault hvalid => ?_, fun s c d hs hl hdue hd => ?_, fun s c after => ?_, fun g c e => ?_⟩
  · have hexec := exec_loopSampleEvent_due hs hl hdue hd code
    rw [Channel.loopSample, if_pos hout] at hexec
    obtain ⟨r, hr⟩ := channelEvent_channel s c.castSucc
      ({ s.channel c.castSucc with sampleDue := some (d + 250) } : Channel).faultSample
    exact ⟨_, r, hexec, hr, rfl⟩
  · have hexec := exec_loopSampleEvent_due hs hl hdue hd code
    rw [Channel.loopSample, if_neg (by omega)] at hexec
    obtain ⟨r, hr⟩ := channelEvent_channel s c.castSucc _
    exact ⟨_, r, _, hexec, rfl, hr, rfl⟩
  · have hexec := exec_pulseGateClose_due hs hl hdue hd
    have hafter : (s.channel 6).gateSample (s.channelCfg 6) s.acu.gateCount = after := by
      unfold Channel.gateSample
      split
      next h => exact (hfault h).symm
      next h => exact (hvalid (Nat.not_lt.1 h)).symm
    rw [hafter] at hexec
    obtain ⟨r, hr⟩ := channelEvent_channel (s.setAcu { s.acu with gateCount := 0, gateDue := some (d + 1000) }) 6 after
    obtain ⟨hcount, hgate⟩ := channelEvent_touches (s.setAcu { s.acu with gateCount := 0, gateDue := some (d + 1000) }) 6
      after .gate (by decide)
    exact ⟨_, r, hexec, hcount, hgate, hr, rfl⟩
  · have hexec := exec_trendEvent_due hs hl hdue hd
    obtain ⟨r, hr⟩ := channelEvent_channel s c (({ s.channel c with
      trendDue := some (d + 1000 * (s.channelCfg c).interval) } : Channel).trendEvent (s.channelCfg c))
    refine ⟨_, r, _, (s.channel c).trendSlot, _, hexec, rfl, rfl, hr, rfl, fun older holder => ?_⟩
    rw [holder]
    exact riseFlag_spec _ _ _ _
  · refine ⟨s.setChannel c after, s.channelTold c after, setChannel_touches s c after, channel_setChannel_same s c after,
      fun x hx => channel_setChannel_other s hx after, fun hpublished hvalue => if_neg (by simp [hpublished, hvalue]),
      fun hchanged => ⟨fun kind scope hasks => channelTold_raises hchanged hasks, fun n hasks => channelTold_clears hasks,
        channelTold_plain hchanged⟩, fun hshown => ?_, fun hpublished hrising => ?_⟩
    · rw [channelEvent_eq, if_pos hshown]
      rfl
    · rw [channelEvent_eq, if_neg (by simp [hpublished, hrising])]
  · refine ⟨faultSample_first, faultSample_second, faultSample_faulty, faultSample_stays, validSample_seeded, fun h => ?_⟩
    obtain ⟨hacc, hvalue⟩ := validSample_acc (g := g) (e := e) h
    rw [hacc, hvalue, validSample_judged h]
    refine ⟨smooth_eq g.k c.acc e, rfl, fun top htop he => ?_, fun x least hx hrank hleast => ?_, fun hrank => ?_⟩
    · have hle := smooth_le (k := g.k) htop he
      exact ⟨hle, by omega⟩
    · exact judge_escalates (c := c.smoothed g e) hx hrank hleast
    · exact judge_deescalates (c := c.smoothed g e) hrank

end Sys2Proof.Machine


/-! The zone air evaluator: the recompute, the gas advance and the evaluation of each second (O45, O46). -/

namespace Sys2Proof.Machine

/-! ### What an evaluation of lockout leaves (R91) -/

theorem touched_spu {foot : List Part} {s t : State} (h : OnlyTouches foot s t)
    (hfoot : ∀ x ∈ [Part.partState, .intake, .requests, .answer, .indications, .portOut], x ∉ foot) : t.spu = s.spu := by
  obtain ⟨hpart, hjoin, hconfig⟩ := h .partState (hfoot _ (by decide))
  obtain ⟨hheld, hassembly⟩ := h .intake (hfoot _ (by decide))
  have hrequests : t.spu.requests = s.spu.requests := h .requests (hfoot _ (by decide))
  obtain ⟨hanswer, howed⟩ := h .answer (hfoot _ (by decide))
  obtain ⟨hind, hlost, hcoal⟩ := h .indications (hfoot _ (by decide))
  have hout : t.spu.portOut = s.spu.portOut := h .portOut (hfoot _ (by decide))
  rcases ht : t.spu
  rcases hs : s.spu
  simp_all

theorem evaluateLockout_lockout (s : State) : s.evaluateLockout.zae.lockout = s.lockoutHolds := by
  unfold State.evaluateLockout
  dsimp only
  split
  · rename_i h
    exact h.symm
  · exact laneEvaluate_touches (s.setZae { s.zae with lockout := s.lockoutHolds }) .lockout (by decide)

theorem evacuationClass_iff (k : AlarmKind) : k.cls = .evacuation ↔ k = .fire ∨ k = .evacuate ∨ k = .gas := by
  cases k <;> decide

theorem standsHere_iff (s : State) (a : Alarm) : s.standsHere a = true
    ↔ a.state ≠ .cleared ∧ (a.scope = .zone s.cfg.zone ∨ a.scope = .all) := by
  simp [State.standsHere, Alarm.standing, Scope.covers, or_comm]

theorem evacuation_iff (s : State) : s.evacuation = true ↔ ∃ a ∈ s.aru.alarms,
    (a.kind = .fire ∨ a.kind = .evacuate ∨ a.kind = .gas) ∧ a.state ≠ .cleared
      ∧ (a.scope = .zone s.cfg.zone ∨ a.scope = .all) := by
  simp only [State.evacuation, List.any_eq_true, Bool.and_eq_true, decide_eq_true_eq, evacuationClass_iff, standsHere_iff]

theorem remaining_le_iff (s : State) (a : Advance) (eta n : Nat) :
    s.remaining a eta ≤ n ↔ (eta : Int) - ((s.seconds : Int) - a.declared) ≤ n := by
  unfold State.remaining
  omega

theorem lockoutHolds_iff (s : State) : s.lockoutHolds = true ↔
    (∃ c, (s.channelCfg c).kind = some .methane
        ∧ ((s.channel c).published = .fault ∨ (s.channel c).published = .trip))
      ∨ (∃ a, s.zae.advance = some a ∧ a.eta = none)
      ∨ (∃ a eta, s.zae.advance = some a ∧ a.eta = some eta
          ∧ (eta : Int) - ((s.seconds : Int) - a.declared) ≤ s.cfg.lockout)
      ∨ (∃ a ∈ s.aru.alarms, (a.kind = .fire ∨ a.kind = .evacuate ∨ a.kind = .gas) ∧ a.state ≠ .cleared
          ∧ (a.scope = .zone s.cfg.zone ∨ a.scope = .all)) := by
  have hadvance : (match s.zae.advance with
      | none => false
      | some a =>
        match a.eta with
        | none => true
        | some eta => decide (s.remaining a eta ≤ s.cfg.lockout)) = true
      ↔ (∃ a, s.zae.advance = some a ∧ a.eta = none)
        ∨ ∃ a eta, s.zae.advance = some a ∧ a.eta = some eta
            ∧ (eta : Int) - ((s.seconds : Int) - a.declared) ≤ s.cfg.lockout := by
    cases hadv : s.zae.advance with
    | none => simp
    | some a => cases heta : a.eta <;> simp [heta, remaining_le_iff]
  have hchannels : (List.finRange 7).any (fun c => decide ((s.channelCfg c).kind = some .methane)
      && (decide ((s.channel c).published = .fault) || decide ((s.channel c).published = .trip))) = true
      ↔ ∃ c, (s.channelCfg c).kind = some .methane
          ∧ ((s.channel c).published = .fault ∨ (s.channel c).published = .trip) := by
    simp [List.any_eq_true]
  unfold State.lockoutHolds
  rw [Bool.or_eq_true, Bool.or_eq_true, hchannels, evacuation_iff, or_assoc]
  exact or_congr_right ((or_congr_left hadvance).trans or_assoc)

/-! ### The second (R91, R149) -/

/-- The state in which the second counted is the next one. -/
def State.nextSecond (s : State) : State := s.setClock { s.clock with secondDue := s.clock.secondDue + 1000 }

theorem exec_secondsEvent_due {s : State} (hdue : s.clock.secondDue ≤ s.ms) (hs : s.started = true) :
    exec .secondsEvent s = .next s.nextSecond.evaluateLockout.laneEvaluate := by
  refine congrArg Host.Outcome.next ((if_pos (by simp [State.dueMs, hdue])).trans ?_)
  exact if_pos (show s.nextSecond.started = true from hs)

/-- Settles O45: the next second, and lockout as R91 has it. -/
theorem secondsEventResult : Obligations.SecondsEventResult := by
  intro s hdue hs
  have hround : OnlyTouches lockoutFoot s.nextSecond s.nextSecond.evaluateLockout.laneEvaluate :=
    (evaluateLockout_touches _).trans ((laneEvaluate_touches _).mono (by decide))
  have hlockout : s.nextSecond.evaluateLockout.laneEvaluate.zae.lockout = s.nextSecond.lockoutHolds :=
    (laneEvaluate_touches _ .lockout (by decide)).trans (evaluateLockout_lockout _)
  refine ⟨_, exec_secondsEvent_due hdue hs, hround .clock (by decide), ?_, hround .zone (by decide),
    hround .advance (by decide)⟩
  rw [hlockout]
  exact lockoutHolds_iff s.nextSecond

/-! ### The records of a recompute (R82 to R84) -/

theorem contributes_iff (x : ChannelState) : contributes x = true ↔ x ≠ .unset ∧ x ≠ .starting := by
  simp [contributes]

theorem mem_contributions (s : State) (k : GasKind) (x : ChannelState) (v : Nat) :
    (x, v) ∈ s.contributions k ↔ Contributes s k x v := by
  unfold State.contributions Contributes
  rw [List.mem_append]
  refine or_congr ?_ ?_
  · rw [List.mem_filterMap]
    refine ⟨fun ⟨c, _, hc⟩ => ?_, fun ⟨c, hk, hunset, hstarting, hx, hv⟩ => ⟨c, List.mem_finRange c, ?_⟩⟩
    · unfold State.ownContribution at hc
      split at hc
      · rename_i h
        obtain ⟨hk, hcontributes⟩ := h
        obtain ⟨hunset, hstarting⟩ := (contributes_iff _).1 hcontributes
        cases hc
        exact ⟨c, hk, hunset, hstarting, rfl, rfl⟩
      · cases hc
    · unfold State.ownContribution
      rw [if_pos ⟨hk, (contributes_iff _).2 ⟨hunset, hstarting⟩⟩, hx, hv]
  · rw [List.mem_flatten]
    refine ⟨?_, ?_⟩
    · rintro ⟨l, hl, hmem⟩
      obtain ⟨y, hy, rfl⟩ := List.mem_map.1 hl
      unfold State.peerContributions at hmem
      split at hmem
      · rename_i h
        obtain ⟨hpresent, hzone⟩ := h
        obtain ⟨t, ht, hz⟩ := Option.map_eq_some_iff.1 hzone
        obtain ⟨e, he, hxv⟩ := List.mem_map.1 hmem
        obtain ⟨hein, hecond⟩ := List.mem_filter.1 he
        obtain ⟨hkind, hcontributes⟩ : e.kind = k ∧ contributes e.state = true := by simpa using hecond
        obtain ⟨hunset, hstarting⟩ := (contributes_iff _).1 hcontributes
        cases hair : y.air with
        | none => simp [hair] at hein
        | some es =>
          rw [hair] at hein
          cases hxv
          exact ⟨y, hy, hpresent, ⟨t, ht, hz⟩, es, hair, e, hein, hkind, hunset, hstarting, rfl, rfl⟩
      · cases hmem
    · rintro ⟨y, hy, hpresent, ⟨t, ht, hz⟩, es, hair, e, he, hkind, hunset, hstarting, hx, hv⟩
      refine ⟨_, List.mem_map_of_mem hy, ?_⟩
      unfold State.peerContributions
      rw [if_pos ⟨hpresent, by rw [ht]; exact congrArg some hz⟩, hair, List.mem_map]
      exact ⟨e, List.mem_filter.2 ⟨he, by simp [hkind, contributes_iff, hunset, hstarting]⟩, by rw [hx, hv]⟩

/-- The more severe of two states is one of them, and neither ranks above it. -/
theorem worseState_spec (a b : ChannelState) :
    (worseState a b = a ∨ worseState a b = b) ∧ a.rank ≤ (worseState a b).rank ∧ b.rank ≤ (worseState a b).rank := by
  unfold worseState
  split
  next h => exact ⟨.inr rfl, Nat.le_of_lt h, le_rfl⟩
  next h => exact ⟨.inl rfl, le_rfl, Nat.not_lt.1 h⟩

theorem foldl_worseState (xs : List (ChannelState × Nat)) : ∀ x : ChannelState,
    (xs.foldl (fun a y => worseState a y.1) x = x
        ∨ ∃ y ∈ xs, xs.foldl (fun a y => worseState a y.1) x = y.1)
      ∧ x.rank ≤ (xs.foldl (fun a y => worseState a y.1) x).rank
      ∧ ∀ y ∈ xs, y.1.rank ≤ (xs.foldl (fun a y => worseState a y.1) x).rank := by
  induction xs with
  | nil => exact fun x => ⟨.inl rfl, le_rfl, by simp⟩
  | cons z zs ih =>
    intro x
    obtain ⟨hone, hx, hz⟩ := worseState_spec x z.1
    obtain ⟨hmem, hrank, hall⟩ := ih (worseState x z.1)
    refine ⟨?_, hx.trans hrank, fun y hy => ?_⟩
    · obtain hmem | ⟨y, hy, hmem⟩ := hmem
      · rw [List.foldl_cons, hmem]
        exact hone.imp_right fun h => ⟨z, List.mem_cons_self, h⟩
      · exact .inr ⟨y, List.mem_cons_of_mem _ hy, hmem⟩
    · obtain rfl | hy := List.mem_cons.1 hy
      · exact hz.trans hrank
      · exact hall y hy

theorem worstState_none {xs : List (ChannelState × Nat)} : worstState xs = none ↔ xs = [] := by
  cases xs <;> simp [worstState]

theorem worstState_some {xs : List (ChannelState × Nat)} {x : ChannelState} (h : worstState xs = some x) :
    (∃ v, (x, v) ∈ xs) ∧ ∀ y v, (y, v) ∈ xs → y.rank ≤ x.rank := by
  cases xs with
  | nil => cases h
  | cons z zs =>
    obtain rfl := Option.some_inj.1 h
    obtain ⟨hmem, hrank, hall⟩ := foldl_worseState zs z.1
    refine ⟨?_, fun y v hy => ?_⟩
    · obtain hmem | ⟨y, hy, hmem⟩ := hmem
      · exact ⟨z.2, by rw [hmem]; exact List.mem_cons_self⟩
      · exact ⟨y.2, by rw [hmem]; exact List.mem_cons_of_mem _ hy⟩
    · obtain rfl | hy := List.mem_cons.1 hy
      · exact hrank
      · exact hall _ hy

/-- The worst of two values, by sense (R84). -/
def worseValue (low : Bool) : Nat → Nat → Nat := if low then min else max

/-- A value is no worse than another, by sense. -/
def NoWorse (low : Bool) (w v : Nat) : Prop := if low = true then w ≤ v else v ≤ w

theorem worseValue_spec (low : Bool) (a b : Nat) : (worseValue low a b = a ∨ worseValue low a b = b)
    ∧ NoWorse low (worseValue low a b) a ∧ NoWorse low (worseValue low a b) b := by
  cases low <;> simp [worseValue, NoWorse] <;> omega

theorem NoWorse.refl (low : Bool) (a : Nat) : NoWorse low a a := by cases low <;> simp [NoWorse]

theorem NoWorse.trans {low : Bool} {a b c : Nat} (h : NoWorse low a b) (k : NoWorse low b c) : NoWorse low a c := by
  cases low <;> simp [NoWorse] at h k ⊢ <;> omega

theorem foldl_worseValue (low : Bool) (xs : List Nat) : ∀ x : Nat,
    (xs.foldl (worseValue low) x = x ∨ xs.foldl (worseValue low) x ∈ xs)
      ∧ NoWorse low (xs.foldl (worseValue low) x) x ∧ ∀ y ∈ xs, NoWorse low (xs.foldl (worseValue low) x) y := by
  induction xs with
  | nil => exact fun x => ⟨.inl rfl, .refl low x, by simp⟩
  | cons z zs ih =>
    intro x
    obtain ⟨hone, hx, hz⟩ := worseValue_spec low x z
    obtain ⟨hmem, hfirst, hall⟩ := ih (worseValue low x z)
    refine ⟨?_, hfirst.trans hx, fun y hy => ?_⟩
    · obtain hmem | hmem := hmem
      · rw [List.foldl_cons, hmem]
        exact hone.imp_right fun h => List.mem_cons.2 (.inl h)
      · exact .inr (List.mem_cons_of_mem _ hmem)
    · obtain rfl | hy := List.mem_cons.1 hy
      · exact hfirst.trans hz
      · exact hall y hy

theorem mem_given {xs : List (ChannelState × Nat)} {v : Nat} :
    v ∈ (xs.filter (fun x => decide (x.1 ≠ .fault))).map Prod.snd ↔ ∃ x, x ≠ .fault ∧ (x, v) ∈ xs := by
  rw [List.mem_map]
  constructor
  · rintro ⟨⟨x, w⟩, hmem, rfl⟩
    obtain ⟨hin, hx⟩ := List.mem_filter.1 hmem
    exact ⟨x, by simpa using hx, hin⟩
  · rintro ⟨x, hx, hin⟩
    exact ⟨(x, v), List.mem_filter.2 ⟨hin, by simpa using hx⟩, rfl⟩

theorem worstValue_none {low : Bool} {xs : List (ChannelState × Nat)} :
    worstValue low xs = none ↔ ∀ x v, (x, v) ∈ xs → x = .fault := by
  have hiff : worstValue low xs = none ↔ (xs.filter (fun x => decide (x.1 ≠ .fault))).map Prod.snd = [] := by
    unfold worstValue
    cases (xs.filter (fun x => decide (x.1 ≠ .fault))).map Prod.snd <;> simp
  rw [hiff, List.eq_nil_iff_forall_not_mem]
  simp only [mem_given, not_exists, not_and']
  exact ⟨fun h x v hx => not_not.1 (h v x hx), fun h v x hx => not_not.2 (h x v hx)⟩

theorem worstValue_some {low : Bool} {xs : List (ChannelState × Nat)} {w : Nat} (h : worstValue low xs = some w) :
    (∃ x, x ≠ .fault ∧ (x, w) ∈ xs) ∧ ∀ x v, x ≠ .fault → (x, v) ∈ xs → NoWorse low w v := by
  unfold worstValue at h
  cases hgiven : (xs.filter (fun x => decide (x.1 ≠ .fault))).map Prod.snd with
  | nil =>
    rw [hgiven] at h
    cases h
  | cons z zs =>
    rw [hgiven] at h
    obtain rfl := Option.some_inj.1 h
    obtain ⟨hmem, hfirst, hall⟩ := foldl_worseValue low zs z
    refine ⟨mem_given.1 ?_, fun x v hx hv => ?_⟩
    · rw [hgiven]
      obtain hmem | hmem := hmem
      · exact List.mem_cons.2 (.inl hmem)
      · exact List.mem_cons_of_mem _ hmem
    · have hin : v ∈ z :: zs := hgiven ▸ mem_given.2 ⟨x, hx, hv⟩
      obtain rfl | hin := List.mem_cons.1 hin
      · exact hfirst
      · exact hall v hin

theorem rebuildZone_record (s : State) (i : Fin 5) : s.rebuildZone.zae.records[i] = s.rebuildRecord i := by
  simp [State.rebuildZone, State.setZae]

/-- R83, R84: a record after a recompute is the one rebuilt. -/
theorem recompute_record (s : State) (i : Fin 5) : s.recompute.zae.records[i] = s.rebuildRecord i := by
  rw [show s.recompute.zae.records = s.rebuildZone.zae.records from
    recompute_touches_after_rebuildZone s .zone (by decide)]
  exact rebuildZone_record s i

/-! ### The indications of a recompute (R86) -/

theorem zoneIndications_spu (before : Vector ZoneRecord 5) : ∀ (l : List (Fin 5)) (s t : State),
    t.spu = s.spu → t.ms = s.ms → (l.foldl (State.zoneIndication before) t).spu
      = ((l.filter (fun i => decide (before[i].state ≠ t.zae.records[i].state))).foldl
          (fun u i => takeIn (.zoneState (gasAt i) t.zae.records[i].state (t.zae.records[i].worst.getD 0)) u) s).spu
  | [], _, _, h, _ => h
  | i :: l, s, t, h, k => by
    by_cases hi : before[i].state = t.zae.records[i].state
    · have hstep : t.zoneIndication before i = t := if_pos hi
      rw [List.foldl_cons, hstep, List.filter_cons_of_neg (by simpa using hi)]
      exact zoneIndications_spu before l s t h k
    · have hstep : t.zoneIndication before i
          = takeIn (.zoneState (gasAt i) t.zae.records[i].state (t.zae.records[i].worst.getD 0)) t := if_neg hi
      have htouch := takeIn_touches (.zoneState (gasAt i) t.zae.records[i].state (t.zae.records[i].worst.getD 0))
      have hrecords : (t.zoneIndication before i).zae.records = t.zae.records := by
        rw [hstep]
        exact htouch t .zone (by decide)
      rw [List.foldl_cons, List.filter_cons_of_pos (by simpa using hi), List.foldl_cons, ← hrecords]
      refine zoneIndications_spu before l _ _ ?_ ?_
      · rw [hrecords, hstep]
        exact takeIn_spu _ h k
      · rw [hrecords, hstep, touched_ms (htouch t), touched_ms (htouch s), k]

/-- R86: a recompute places one ZONE_STATE for each kind whose zone state changed, in kind order. -/
theorem recompute_spu (s : State) : s.recompute.spu
    = (((List.finRange 5).filter (fun i =>
          decide (s.zae.records[i].state ≠ s.recompute.zae.records[i].state))).foldl
        (fun u i => takeIn (.zoneState (gasAt i) s.recompute.zae.records[i].state
          (s.recompute.zae.records[i].worst.getD 0)) u) s).spu := by
  obtain ⟨t, ht⟩ : ∃ t, t = s.rebuildZone.setZae { s.rebuildZone.zae with lockout := s.rebuildZone.lockoutHolds } :=
    ⟨_, rfl⟩
  have hspu : s.recompute.spu = ((List.finRange 5).foldl (State.zoneIndication s.zae.records) t).spu := by
    rw [ht]
    unfold State.recompute
    dsimp only
    split
    · rfl
    · exact touched_spu (laneEvaluate_touches _) (by decide)
  have hrecords : s.recompute.zae.records = t.zae.records :=
    (recompute_touches_after_rebuildZone s .zone (by decide)).trans (by rw [ht]; rfl)
  rw [hspu, hrecords]
  exact zoneIndications_spu s.zae.records (List.finRange 5) s t (by rw [ht]; rfl) (by rw [ht]; rfl)

/-! ### The gas advance (R87 to R89) -/

theorem upwind_iff (s : State) (x : Peer) : s.upwind x = true ↔ Upwind s x := by
  unfold State.upwind Upwind
  cases hs : x.status with
  | none => simp
  | some t =>
    cases ha : x.air with
    | none => simp
    | some es => cases hneg : s.cfg.airflowNeg <;> simp [and_assoc]

theorem distanceTo_eq (s : State) (x : Peer) : s.distanceTo x = metresTo s x := by
  unfold State.distanceTo metresTo chainageDistance
  split <;> omega

section FirstBy

variable {α : Type} {le : α → α → Bool} (tr : ∀ a b c, le a b = true → le b c = true → le a c = true)
  (tot : ∀ a b, le a b = false → le b a = true) {xs : List α} {v : α}
include tr tot

/-- The element chosen under a total preorder stands no higher than any. -/
theorem firstBy_le (h : firstBy le xs = some v) : ∀ x ∈ xs, le v x = true ∨ x = v := by
  obtain ⟨before, after, rfl, hbefore, hafter⟩ := (firstBy_split tr tot xs v).1 h
  intro x hx
  obtain hx | hx := List.mem_append.1 hx
  · exact .inl (tot _ _ (hbefore x hx))
  · obtain rfl | hx := List.mem_cons.1 hx
    · exact .inr rfl
    · exact .inl (hafter x hx)

end FirstBy

theorem advanceSource_none (s : State) : s.advanceSource = none ↔ ∀ x ∈ s.pru.peers, ¬ Upwind s x := by
  unfold State.advanceSource
  constructor
  · intro h x hx hup
    have hnil := firstBy_none _ _ h
    exact List.filter_eq_nil_iff.1 hnil x hx ((upwind_iff s x).2 hup)
  · intro h
    have hnil : s.pru.peers.filter s.upwind = [] :=
      List.filter_eq_nil_iff.2 fun x hx hup => h x hx ((upwind_iff s x).1 hup)
    rw [hnil]
    rfl

/-- R88: the source is the nearest upwind peer, the lowest station ID on a tie. -/
theorem advanceSource_some {s : State} {x : Peer} (h : s.advanceSource = some x) : x ∈ s.pru.peers ∧ Upwind s x
    ∧ ∀ y ∈ s.pru.peers, Upwind s y → y.station ≠ x.station →
      metresTo s x < metresTo s y ∨ (metresTo s x = metresTo s y ∧ x.station < y.station) := by
  obtain ⟨hmem, hup⟩ := List.mem_filter.1 (firstBy_mem _ _ _ h)
  refine ⟨hmem, (upwind_iff s x).1 hup, fun y hy hyup hne => ?_⟩
  have hle := firstBy_le (fun a b c hab hbc => by simp at hab hbc ⊢; omega) (fun a b hab => by simp at hab ⊢; omega) h y
    (List.mem_filter.2 ⟨hy, (upwind_iff s y).2 hyup⟩)
  obtain hle | rfl := hle
  · rw [← distanceTo_eq, ← distanceTo_eq]
    simp only [Bool.or_eq_true, Bool.and_eq_true, decide_eq_true_eq] at hle
    omega
  · exact absurd rfl hne

/-- R88: the instant an advance is declared from stands while the source is the same. -/
theorem rebuildAdvance_declared {s : State} {a : Advance} (h : s.rebuildAdvance = some a) :
    (∃ x, s.advanceSource = some x ∧ a.source = x.station)
      ∧ a.declared = (match s.zae.advance with
        | some b => if b.source = a.source then b.declared else s.seconds
        | none => s.seconds) := by
  obtain ⟨x, hx, rfl⟩ := Option.map_eq_some_iff.1 h
  exact ⟨⟨x, hx, rfl⟩, rfl⟩

/-- The entries of a source's air summary that give an air velocity (R89). -/
def velocityEntries (x : Peer) : List AirEntry :=
  (x.air.getD []).filter (fun e => decide (e.kind = .airVelocity)
    && (decide (e.state = .normal) || decide (e.state = .warn) || decide (e.state = .trip)))

theorem mem_velocityEntries {x : Peer} {e : AirEntry} : e ∈ velocityEntries x ↔ (∃ es, x.air = some es ∧ e ∈ es)
    ∧ e.kind = .airVelocity ∧ (e.state = .normal ∨ e.state = .warn ∨ e.state = .trip) := by
  unfold velocityEntries
  rw [List.mem_filter]
  cases x.air <;> simp [or_assoc]

theorem airVelocity_own {s : State} (hk : (s.channelCfg 6).kind ≠ none)
    (h : (s.channel 6).published = .normal ∨ (s.channel 6).published = .warn) (x : Peer) :
    s.airVelocity x = some (s.channel 6).value :=
  if_pos ⟨Option.isSome_iff_ne_none.2 hk, h⟩

theorem airVelocity_source {s : State} (h : ¬ ((s.channelCfg 6).kind ≠ none
    ∧ ((s.channel 6).published = .normal ∨ (s.channel 6).published = .warn))) (x : Peer) : s.airVelocity x
      = (firstBy (fun a b : AirEntry => decide (a.channel ≤ b.channel)) (velocityEntries x)).map AirEntry.value :=
  if_neg fun ⟨hk, hp⟩ => h ⟨Option.isSome_iff_ne_none.1 hk, hp⟩

/-- R89: the entry of the lowest channel number is the one chosen. -/
theorem firstBy_channel {es : List AirEntry} {e : AirEntry} (he : e ∈ es)
    (hleast : ∀ y ∈ es, y ≠ e → e.channel < y.channel) :
    firstBy (fun a b : AirEntry => decide (a.channel ≤ b.channel)) es = some e := by
  cases hf : firstBy (fun a b : AirEntry => decide (a.channel ≤ b.channel)) es with
  | none =>
    rw [firstBy_none _ _ hf] at he
    cases he
  | some m =>
    have hle := firstBy_le (fun a b c hab hbc => by simp at hab hbc ⊢; omega) (fun a b hab => by simp at hab ⊢; omega)
      hf e he
    by_cases hm : m = e
    · rw [hm]
    · have hlt := hleast m (firstBy_mem _ _ _ hf) hm
      obtain hle | heq := hle
      · simp only [decide_eq_true_eq] at hle
        omega
      · exact absurd heq.symm hm

/-- Settles O46: the records, the indications, the advance with its source and its velocity, and the silent peer. -/
theorem zoneRecomputeResult : Obligations.ZoneRecomputeResult := by
  refine ⟨fun s i => ?_, recompute_spu, recompute_touches, fun s a ha => ?_, fun s => ⟨?_, fun a ha => ?_⟩,
    fun s x own usable hown husable => ⟨fun h => ?_, fun h => ⟨fun e he hleast => ?_, fun hnone => ?_⟩⟩,
    fun s n x hx hpresent hdue => ?_⟩
  · rw [recompute_record]
    refine ⟨rfl, ?_, fun x hx => ?_, ?_, fun w hw => ?_⟩
    · rw [show (s.rebuildRecord i).state = worstState (s.contributions (gasAt i)) from rfl, worstState_none,
        List.eq_nil_iff_forall_not_mem]
      simp only [Prod.forall, mem_contributions]
    · obtain ⟨⟨v, hv⟩, hall⟩ := worstState_some hx
      exact ⟨⟨v, (mem_contributions s _ x v).1 hv⟩, fun y v hy => hall y v ((mem_contributions s _ y v).2 hy)⟩
    · rw [show (s.rebuildRecord i).worst = worstValue s.zae.records[i].lowSense (s.contributions (gasAt i)) from rfl,
        worstValue_none]
      simp only [mem_contributions]
    · obtain ⟨⟨x, hx, hmem⟩, hall⟩ := worstValue_some hw
      exact ⟨⟨x, hx, (mem_contributions s _ x w).1 hmem⟩,
        fun x v hx hv => hall x v hx ((mem_contributions s _ x v).2 hv)⟩
  · rw [recompute_advance] at ha
    exact (rebuildAdvance_declared ha).2
  · rw [recompute_advance, State.rebuildAdvance, Option.map_eq_none_iff]
    exact advanceSource_none s
  · rw [recompute_advance] at ha
    obtain ⟨x, hx, hdistance, heta⟩ := rebuildAdvance_eq_some ha
    obtain ⟨⟨x', hx', hsource⟩, -⟩ := rebuildAdvance_declared ha
    obtain rfl : x' = x := Option.some_inj.1 (hx'.symm.trans hx)
    obtain ⟨hmem, hup, hnearest⟩ := advanceSource_some hx
    exact ⟨x', hmem, hup, hsource, by rw [hdistance, distanceTo_eq], by rw [heta, distanceTo_eq], hnearest⟩
  · obtain ⟨hk, hp⟩ := hown.1 h
    exact airVelocity_own hk hp x
  · rw [airVelocity_source (mt hown.2 h), firstBy_channel (mem_velocityEntries.2 ((husable e).1 he))
      (fun y hy => hleast y ((husable y).2 (mem_velocityEntries.1 hy)))]
    rfl
  · have hnil : velocityEntries x = [] :=
      List.eq_nil_iff_forall_not_mem.2 fun e he => hnone e ((husable e).2 (mem_velocityEntries.1 he))
    rw [airVelocity_source (mt hown.2 h), hnil]
    rfl
  · have hchange := updatePeer_touches s n (fun y => { y with present := false, air := none, refuge := none })
    exact ⟨_, exec_peerSilentDeadline_due hx hpresent hdue, hchange.wide.andThen (takeIn_touches _ _),
      takeIn_spu (.peerSilent n) rfl rfl⟩

end Sys2Proof.Machine


/-! The packed block of sixteen values and its expansion (O48). -/

namespace Sys2Proof.Machine

/-! ### Bits, most significant first (R98) -/

theorem bitsOf_length (w n : Nat) : (bitsOf w n).length = w := by simp [bitsOf]

theorem natOfBits_from (bs : List Bool) : ∀ n : Nat,
    bs.foldl (fun n b => n * 2 + bit b 1) n = n * 2 ^ bs.length + natOfBits bs := by
  induction bs with
  | nil => intro n; simp [natOfBits]
  | cons b bs ih =>
    intro n
    rw [natOfBits, List.foldl_cons, List.foldl_cons, ih, ih (0 * 2 + bit b 1), List.length_cons, Nat.pow_succ]
    ring

theorem natOfBits_append (xs ys : List Bool) : natOfBits (xs ++ ys) = natOfBits xs * 2 ^ ys.length + natOfBits ys := by
  rw [natOfBits, List.foldl_append, natOfBits_from]
  rfl

theorem natOfBits_lt (bs : List Bool) : natOfBits bs < 2 ^ bs.length := by
  induction bs using List.reverseRecOn with
  | nil => decide
  | append_singleton bs b ih =>
    have hb : natOfBits [b] < 2 := by cases b <;> decide
    rw [natOfBits_append, List.length_append, List.length_singleton, Nat.pow_one, Nat.pow_succ]
    omega

theorem bitsOf_succ (w n : Nat) : bitsOf (w + 1) n = bitsOf w (n / 2) ++ [n.testBit 0] := by
  unfold bitsOf
  rw [List.range_succ, List.map_append]
  congr 1
  · refine List.map_congr_left fun i hi => ?_
    have hi := List.mem_range.1 hi
    rw [← Nat.testBit_succ]
    congr 1
    omega
  · simp

theorem natOfBits_bitsOf (w : Nat) : ∀ n : Nat, natOfBits (bitsOf w n) = n % 2 ^ w := by
  induction w with
  | zero => intro n; simp [bitsOf, natOfBits, Nat.mod_one]
  | succ w ih =>
    intro n
    have hbit : natOfBits [n.testBit 0] = n % 2 := by
      rw [Nat.testBit_zero]
      obtain h | h := Nat.mod_two_eq_zero_or_one n <;> rw [h] <;> decide
    rw [bitsOf_succ, natOfBits_append, ih, hbit, List.length_singleton, Nat.pow_one, Nat.pow_succ, Nat.mul_comm (2 ^ w) 2, Nat.mod_mul]
    omega

theorem bitsOf_natOfBits (bs : List Bool) : bitsOf bs.length (natOfBits bs) = bs := by
  induction bs using List.reverseRecOn with
  | nil => rfl
  | append_singleton bs b ih =>
    have hhalf : natOfBits (bs ++ [b]) / 2 = natOfBits bs := by
      have hb : natOfBits [b] < 2 := by cases b <;> decide
      rw [natOfBits_append, List.length_singleton]
      omega
    have hlow : (natOfBits (bs ++ [b])).testBit 0 = b := by
      rw [natOfBits_append, List.length_singleton, Nat.testBit_zero]
      cases b
      · simp [natOfBits, bit]
      · simp [natOfBits, bit]
    rw [List.length_append, List.length_singleton, bitsOf_succ, hhalf, hlow, ih]

/-! ### Thirteen bytes of bits (R98) -/

theorem bytesOfBits_length (bs : List Bool) : (bytesOfBits bs).length = 13 := by simp [bytesOfBits]

theorem bitsOf_byte {xs : List Bool} (h : xs.length = 8) : bitsOf 8 (byteOf (natOfBits xs)).toNat = xs := by
  have hlt : natOfBits xs < 256 := by
    have hlt := natOfBits_lt xs
    rwa [h] at hlt
  rw [byteOf_toNat (by omega), ← h, bitsOf_natOfBits]

/-- A list cut into chunks of one length is put together again by joining them. -/
theorem flatten_chunks (k : Nat) : ∀ (n : Nat) (bs : List Bool), bs.length = k * n →
    ((List.range n).map (fun i => (bs.drop (k * i)).take k)).flatten = bs
  | 0, bs, h => by
    have hnil : bs = [] := List.length_eq_zero_iff.1 (by omega)
    rw [hnil]
    rfl
  | n + 1, bs, h => by
    have hlen : bs.length = k * n + k := h.trans (Nat.mul_succ k n)
    have ih := flatten_chunks k n (bs.take (k * n)) (by rw [List.length_take]; omega)
    have hchunks : (List.range n).map (fun i => (bs.drop (k * i)).take k)
        = (List.range n).map (fun i => ((bs.take (k * n)).drop (k * i)).take k) := by
      refine List.map_congr_left fun i hi => ?_
      have hin : k * i + k ≤ k * n := by
        have hsucc := Nat.mul_le_mul_left k (List.mem_range.1 hi)
        rwa [Nat.succ_eq_add_one, Nat.mul_add, Nat.mul_one] at hsucc
      rw [List.drop_take, List.take_take]
      congr 1
      omega
    have hlast : (bs.drop (k * n)).take k = bs.drop (k * n) := List.take_of_length_le (by rw [List.length_drop]; omega)
    rw [List.range_succ, List.map_append, List.flatten_append, hchunks, ih, List.map_singleton, List.flatten_singleton,
      hlast, List.take_append_drop]

theorem packedBits_bytesOfBits {bs : List Bool} (h : bs.length = 104) : packedBits (bytesOfBits bs) = bs := by
  have hbytes : (List.range 13).map (fun i => bitsOf 8 (byteOf (natOfBits ((bs.drop (8 * i)).take 8))).toNat)
      = (List.range 13).map (fun i => (bs.drop (8 * i)).take 8) := by
    refine List.map_congr_left fun i hi => bitsOf_byte ?_
    have hi := List.mem_range.1 hi
    rw [List.length_take, List.length_drop]
    omega
  rw [packedBits, bytesOfBits, List.map_map]
  exact (congrArg List.flatten hbytes).trans (flatten_chunks 8 13 bs (by omega))

/-! ### The bits of a packed block -/

/-- The bits of a mantissa (R98). -/
def mantissaBits (m : Int) : List Bool := bitsOf 6 (BitVec.ofInt 6 m).toNat

/-- The 104 bits of a packed block (R98). -/
def blockBits (vs : List Int) : List Bool :=
  bitsOf 4 (blockExponent vs) ++ ((blockMantissas vs).map mantissaBits).flatten ++ bitsOf 4 0

theorem packBlock_eq (vs : List Int) : packBlock vs = bytesOfBits (blockBits vs) := rfl

theorem flatten_mantissaBits_length (ms : List Int) : ((ms.map mantissaBits).flatten).length = 6 * ms.length := by
  induction ms with
  | nil => rfl
  | cons m ms ih =>
    rw [List.map_cons, List.flatten_cons, List.length_append, ih, mantissaBits, bitsOf_length, List.length_cons]
    omega

theorem blockMantissas_length (vs : List Int) : (blockMantissas vs).length = vs.length := List.length_map _

theorem blockBits_length {vs : List Int} (h : vs.length = 16) : (blockBits vs).length = 104 := by
  rw [blockBits, List.length_append, List.length_append, bitsOf_length, bitsOf_length, flatten_mantissaBits_length,
    blockMantissas_length, h]

/-- The chunk of a mantissa stands at its place. -/
theorem mantissaBits_chunk : ∀ (ms : List Int) (rest : List Bool) (j : Nat) (m : Int), ms[j]? = some m →
    (((ms.map mantissaBits).flatten ++ rest).drop (6 * j)).take 6 = mantissaBits m
  | [], _, _, _, h => by simp at h
  | x :: ms, rest, 0, m, h => by
    obtain rfl : x = m := by simpa using h
    rw [List.map_cons, List.flatten_cons, List.append_assoc, Nat.mul_zero, List.drop_zero,
      List.take_append_of_le_length (by rw [mantissaBits, bitsOf_length]), List.take_of_length_le
        (by rw [mantissaBits, bitsOf_length])]
  | x :: ms, rest, j + 1, m, h => by
    have hlen : (mantissaBits x).length = 6 := bitsOf_length _ _
    rw [List.map_cons, List.flatten_cons, List.append_assoc, List.drop_append, hlen, Nat.mul_succ,
      List.drop_of_length_le (by omega), List.nil_append, Nat.add_sub_cancel]
    exact mantissaBits_chunk ms rest j m (by simpa using h)

theorem mantissa_of_bits {m : Int} (hlow : -32 ≤ m) (hhigh : m ≤ 31) :
    (BitVec.ofNat 6 (natOfBits (mantissaBits m))).toInt = m := by
  have hlt : (BitVec.ofInt 6 m).toNat < 2 ^ 6 := (BitVec.ofInt 6 m).isLt
  rw [mantissaBits, natOfBits_bitsOf, Nat.mod_eq_of_lt hlt, BitVec.ofNat_toNat, BitVec.setWidth_eq, BitVec.toInt_ofInt]
  exact Int.bmod_eq_of_le (by omega) (by omega)

/-! ### The exponent and the mantissas of a block (R96, R97) -/

theorem mantissa_zero (v : Int) : mantissa 0 v = v := rfl

theorem mantissa_pos {x : Nat} (h : 1 ≤ x) (v : Int) : mantissa x v = (v + 2 ^ (x - 1)) / 2 ^ x := if_neg (by omega)

theorem mantissaFits_iff (m : Int) : mantissaFits m = true ↔ -32 ≤ m ∧ m ≤ 31 := by simp [mantissaFits]

/-- R96, R97: the block exponent, at which every mantissa fits, or 10; below it some mantissa does not. -/
theorem blockExponent_spec (vs : List Int) : blockExponent vs ≤ 10
    ∧ (∀ x, x < blockExponent vs → ∃ v ∈ vs, 31 < mantissa x v ∨ mantissa x v < -32)
    ∧ ((∀ v ∈ vs, -32 ≤ mantissa (blockExponent vs) v ∧ mantissa (blockExponent vs) v ≤ 31) ∨ blockExponent vs = 10) := by
  have hmisfit (x : Nat) (h : ¬ vs.all (fun v => mantissaFits (mantissa x v)) = true) :
      ∃ v ∈ vs, 31 < mantissa x v ∨ mantissa x v < -32 := by
    rw [List.all_eq_true] at h
    push Not at h
    obtain ⟨v, hv, hfit⟩ := h
    refine ⟨v, hv, ?_⟩
    rw [Ne, mantissaFits_iff] at hfit
    omega
  unfold blockExponent
  cases hf : (List.range 11).find? (fun x => vs.all (fun v => mantissaFits (mantissa x v))) with
  | none =>
    rw [Option.getD_none]
    refine ⟨le_rfl, fun x hx => hmisfit x (List.find?_eq_none.1 hf x (List.mem_range.2 (by omega))), .inr rfl⟩
  | some e =>
    rw [Option.getD_some]
    have hin := List.mem_range.1 (List.mem_of_find?_eq_some hf)
    have hfits := List.find?_some hf
    refine ⟨by omega, fun x hx => hmisfit x ?_, .inl fun v hv => ?_⟩
    · obtain ⟨k, hk, hat, -, hbelow⟩ := find_first _ _ _ hf
      rw [List.length_range] at hk
      obtain rfl : k = e := by simpa [List.getElem?_range hk] using hat
      rw [hbelow x hx x (by rw [List.getElem?_range (by omega)])]
      exact Bool.false_ne_true
    · exact (mantissaFits_iff _).1 (List.all_eq_true.1 hfits v hv)

section Block

variable {vs : List Int} (hrange : ∀ v ∈ vs, -32768 ≤ v ∧ v ≤ 32767)
include hrange

/-- R97: no mantissa falls below −32, and one above 31 stands at exponent 10 for a value of 32 256 or more. -/
theorem blockExponent_mantissa : ∀ v ∈ vs, -32 ≤ mantissa (blockExponent vs) v
    ∧ (31 < mantissa (blockExponent vs) v → blockExponent vs = 10 ∧ 32256 ≤ v) := by
  intro v hv
  obtain ⟨hlow, hhigh⟩ := hrange v hv
  obtain ⟨-, -, hfits | hten⟩ := blockExponent_spec vs
  · obtain ⟨hge, hle⟩ := hfits v hv
    exact ⟨hge, fun h => by omega⟩
  · rw [hten, mantissa_pos (by decide)]
    exact ⟨by omega, fun h => ⟨rfl, by omega⟩⟩

theorem blockMantissas_range : ∀ m ∈ blockMantissas vs, -32 ≤ m ∧ m ≤ 31 := by
  intro m hm
  obtain ⟨v, hv, rfl⟩ := List.mem_map.1 hm
  obtain ⟨hlow, -⟩ := blockExponent_mantissa hrange v hv
  omega

variable (hlen : vs.length = 16)
include hlen

omit hrange in
theorem packedExponent_packBlock : packedExponent (packBlock vs) = blockExponent vs := by
  obtain ⟨hten, -, -⟩ := blockExponent_spec vs
  have hfirst : at8 (packBlock vs) 0 = natOfBits ((blockBits vs).take 8) := by
    have hlt := natOfBits_lt ((blockBits vs).take 8)
    rw [List.length_take, blockBits_length hlen] at hlt
    have hbyte : natOfBits ((blockBits vs).take 8) < 256 := hlt
    exact byteOf_toNat (n := natOfBits ((blockBits vs).take 8)) (by omega)
  obtain ⟨rest, hrest, hsplit⟩ : ∃ rest : List Bool, rest.length = 4
      ∧ (blockBits vs).take 8 = bitsOf 4 (blockExponent vs) ++ rest := by
    refine ⟨(((blockMantissas vs).map mantissaBits).flatten ++ bitsOf 4 0).take 4, ?_, ?_⟩
    · rw [List.length_take, List.length_append, flatten_mantissaBits_length, blockMantissas_length, hlen]
      rfl
    · rw [blockBits, List.append_assoc, List.take_append, bitsOf_length,
        List.take_of_length_le (by rw [bitsOf_length]; decide)]
  have hlow := natOfBits_lt rest
  rw [packedExponent, hfirst, hsplit, natOfBits_append, natOfBits_bitsOf, hrest]
  rw [hrest] at hlow
  omega

theorem packedMantissas_packBlock : packedMantissas (packBlock vs) = blockMantissas vs := by
  have hbits : packedBits (packBlock vs) = blockBits vs := by
    rw [packBlock_eq, packedBits_bytesOfBits (blockBits_length hlen)]
  refine List.ext_getElem? fun j => ?_
  rw [packedMantissas, hbits, List.getElem?_map]
  by_cases hj : j < 16
  · obtain ⟨m, hm⟩ : ∃ m, (blockMantissas vs)[j]? = some m :=
      ⟨_, List.getElem?_eq_getElem (by rw [blockMantissas_length, hlen]; exact hj)⟩
    obtain ⟨hlow, hhigh⟩ := blockMantissas_range hrange m (List.mem_of_getElem? hm)
    have hchunk : ((blockBits vs).drop (4 + 6 * j)).take 6 = mantissaBits m := by
      rw [blockBits, List.append_assoc, List.drop_append, bitsOf_length, List.drop_of_length_le
        (by rw [bitsOf_length]; omega), List.nil_append, Nat.add_sub_cancel_left]
      exact mantissaBits_chunk (blockMantissas vs) (bitsOf 4 0) j m hm
    rw [List.getElem?_range hj, hm, Option.map_some, hchunk, mantissa_of_bits hlow hhigh]
  · rw [List.getElem?_eq_none (by rw [List.length_range]; omega),
      List.getElem?_eq_none (by rw [blockMantissas_length, hlen]; omega)]
    rfl

/-- R99: the value expanded at a place is its mantissa times two to the exponent. -/
theorem expandVoice_packBlock {i : Nat} (hi : i < 16) : (expandVoice (packBlock vs)).getD i 0
    = min 31 (mantissa (blockExponent vs) (vs.getD i 0)) * 2 ^ blockExponent vs := by
  have hin : i < vs.length := by omega
  rw [expandVoice, packedMantissas_packBlock hrange hlen, packedExponent_packBlock hlen, List.getD_eq_getElem?_getD,
    List.getElem?_map, blockMantissas, List.getElem?_map, List.getElem?_eq_getElem hin, List.getD_eq_getElem _ _ hin]
  rfl

end Block

/-- R99: a mantissa that is not saturated stands for its value within half of two to the exponent. -/
theorem mantissa_error {x : Nat} (h : 1 ≤ x) (hx : x ≤ 10) (v : Int) : 2 * |mantissa x v * 2 ^ x - v| ≤ 2 ^ x := by
  rw [mantissa_pos h, ← abs_two, ← abs_mul, abs_le]
  interval_cases x <;> norm_num <;> omega

/-- Settles O48: the bits of a block read back, its exponent and mantissas, and the error of each value. -/
theorem packedBlockError : Obligations.PackedBlockError := by
  intro vs hlen hrange
  obtain ⟨hten, hbelow, -⟩ := blockExponent_spec vs
  rw [packedExponent_packBlock hlen]
  refine ⟨mantissa_zero, fun x v hx => mantissa_pos hx v, bytesOfBits_length _, hten, hbelow,
    blockExponent_mantissa hrange, packedMantissas_packBlock hrange hlen, ?_, fun i hi => ?_⟩
  · rw [expandVoice, List.length_map, packedMantissas_packBlock hrange hlen, blockMantissas_length, hlen]
  · have hmem : vs.getD i 0 ∈ vs := by
      rw [List.getD_eq_getElem _ _ (by omega)]
      exact List.getElem_mem _
    obtain ⟨hlow, hhigh⟩ := hrange _ hmem
    obtain ⟨-, hsaturated⟩ := blockExponent_mantissa hrange _ hmem
    rw [expandVoice_packBlock hrange hlen hi]
    generalize vs.getD i 0 = v at *
    refine ⟨fun hzero => ?_, fun hpos hfits => ?_, fun habove => ?_⟩
    · rw [hzero, mantissa_zero] at hsaturated ⊢
      have hle : v ≤ 31 := by
        by_contra hgt
        have hbad := (hsaturated (by omega)).1
        omega
      rw [min_eq_right hle]
      norm_num
    · rw [min_eq_right hfits]
      exact mantissa_error hpos hten _
    · obtain ⟨hexp, hbig⟩ := hsaturated habove
      refine ⟨hexp, ?_⟩
      rw [min_eq_left habove.le, hexp, abs_lt]
      norm_num
      omega

end Sys2Proof.Machine


/-! Pack completion, the arbiter, the codec port and the deny tone (O49). -/

namespace Sys2Proof.Machine

/-! ### The engine freed (R100) -/

/-- The state in which the engine is free again. -/
def State.engineFreed (s : State) : State := s.setBpk { s.bpk with flight := none }

theorem engineFreed_touches (s : State) : OnlyTouches [.engine] s s.engineFreed := by
  intro x hx
  cases x <;> first | rfl | exact ⟨rfl, rfl⟩ | exact ⟨rfl, rfl, rfl⟩ | exact absurd (by decide) hx

section Completion

variable {s : State} {f : Flight} (hflight : s.bpk.flight = some f)
include hflight

theorem exec_packCompletion_voice {run : Nat} (hclaim : f.claim = .voice run) :
    exec .packCompletion s = .next (s.engineFreed.voicePacked run (packBlock f.inputs)).arbitrate := by
  refine congrArg Host.Outcome.next ?_
  simp only [hflight, hclaim, State.engineFreed]

theorem exec_packCompletion_history {e : HistoryRequest} (hclaim : f.claim = .history e) :
    exec .packCompletion s = .next (s.engineFreed.historyPacked e f.base f.mask (packBlock f.inputs)).arbitrate := by
  refine congrArg Host.Outcome.next ?_
  simp only [hflight, hclaim, State.engineFreed]

end Completion

/-! ### A packed voice block (R102, R125) -/

theorem takePlace_packed (s : State) : s.takePlace.clu.capture.packed = s.clu.capture.packed := by
  unfold State.takePlace
  dsimp only
  split <;> rfl

theorem takePlace_waiting (s : State) : s.takePlace.clu.capture.waiting = s.clu.capture.waiting := by
  unfold State.takePlace
  dsimp only
  split <;> rfl

theorem takePlace_bpk (s : State) : s.takePlace.bpk = s.bpk := by
  unfold State.takePlace
  dsimp only
  split <;> rfl

theorem voicePacked_discards {s : State} {run : Nat} (h : s.clu.capture.run ≠ some run) (block : List Byte) :
    s.voicePacked run block = s.takePlace := by
  simp only [State.voicePacked, if_neg h]

theorem voicePacked_joins {s : State} {run : Nat} (h : s.clu.capture.run = some run)
    (hroom : s.clu.capture.packed.length < 7) (block : List Byte) :
    s.voicePacked run block
      = (s.setCapture { s.clu.capture with packed := s.clu.capture.packed ++ [block] }).takePlace := by
  have hfew : ¬ 8 ≤ (s.clu.capture.packed ++ [block]).length := by
    rw [List.length_append, List.length_singleton]
    omega
  simp only [State.voicePacked, if_pos h, if_neg hfew]

theorem voicePacked_sends {s : State} {run : Nat} (h : s.clu.capture.run = some run)
    (hfull : 7 ≤ s.clu.capture.packed.length) (block : List Byte) :
    s.voicePacked run block
      = ((s.setCapture { s.clu.capture with packed := [] }).sendVoice (s.clu.capture.packed ++ [block])).takePlace := by
  have height : 8 ≤ (s.clu.capture.packed ++ [block]).length := by
    rw [List.length_append, List.length_singleton]
    omega
  simp only [State.voicePacked, if_pos h, if_pos height]

section VoiceBlock

variable {s : State} {f : Flight} {run : Nat} (hflight : s.bpk.flight = some f) (hclaim : f.claim = .voice run)
include hflight hclaim

/-- R125: a block of the current run joins fewer than seven packed blocks. -/
theorem packCompletion_joins (hrun : s.clu.capture.run = some run) (hroom : s.clu.capture.packed.length < 7) :
    ∃ u : State, exec .packCompletion s = .next u.arbitrate ∧ u.bpk.flight = none
      ∧ u.clu.capture.packed = s.clu.capture.packed ++ [packBlock f.inputs] ∧ OnlyTouches [.engine, .capture] s u := by
  refine ⟨s.engineFreed.voicePacked run (packBlock f.inputs), exec_packCompletion_voice hflight hclaim, ?_⟩
  rw [voicePacked_joins (s := s.engineFreed) hrun hroom]
  refine ⟨congrArg Bpk.flight (takePlace_bpk _), takePlace_packed _, ?_⟩
  exact ((engineFreed_touches s).wide).andThen
    ((setCapture_touches s.engineFreed _).trans (takePlace_touches _))

/-- R111, R125: the eighth packed block leaves with the seven before it as one VOICE frame. -/
theorem packCompletion_sends (hrun : s.clu.capture.run = some run) (hfull : 7 ≤ s.clu.capture.packed.length) :
    ∃ v u : State, exec .packCompletion s = .next u.arbitrate ∧ u.bpk.flight = none ∧ u.clu.capture.packed = []
      ∧ v.clu.ctx = { s.clu.ctx with sendSeq := some ((s.clu.ctx.sendSeq.getD 0 + 1) % 256) }
      ∧ OnlyTouches [.engine, .capture, .context] s v
      ∧ OnlyTouches [.capture, .context]
          (v.sendCallFrame s.callPeer
            [.voice s.callId (s.clu.ctx.sendSeq.getD 0) (s.clu.capture.packed ++ [packBlock f.inputs])]
            (fun e => { e with voiceCall := some s.callId })) u
      ∧ u.clu.ctx = { v.clu.ctx with
          holdingDue := if s.clu.ctx.state = .connected then some (s.ms + 3000) else s.clu.ctx.holdingDue } := by
  obtain ⟨v, hv⟩ : ∃ v, v = (s.engineFreed.setCapture { s.clu.capture with packed := [] }).setCtx
    { s.clu.ctx with sendSeq := some ((s.clu.ctx.sendSeq.getD 0 + 1) % 256) } := ⟨_, rfl⟩
  obtain ⟨w, hw⟩ : ∃ w, w = v.sendCallFrame s.callPeer
    [.voice s.callId (s.clu.ctx.sendSeq.getD 0) (s.clu.capture.packed ++ [packBlock f.inputs])]
    (fun e => { e with voiceCall := some s.callId }) := ⟨_, rfl⟩
  have hsent : OnlyTouches queuesFoot v w := by
    rw [hw]
    exact sendCallFrame_touches _ _ _ _
  have hheld : OnlyTouches [.context] w w.restartHolding := restartHolding_touches w
  have hstep : s.engineFreed.voicePacked run (packBlock f.inputs) = w.restartHolding.takePlace := by
    rw [voicePacked_sends (s := s.engineFreed) hrun hfull, hw, hv]
    rfl
  have hctx : v.clu.ctx = { s.clu.ctx with sendSeq := some ((s.clu.ctx.sendSeq.getD 0 + 1) % 256) } := by rw [hv]; rfl
  have hms : w.ms = s.ms := (touched_ms hsent).trans (by rw [hv]; rfl)
  refine ⟨v, w.restartHolding.takePlace, ?_, ?_, ?_, hctx, ?_, ?_, ?_⟩
  · rw [exec_packCompletion_voice hflight hclaim, hstep]
  · have hfree : v.bpk.flight = none := by rw [hv]; rfl
    rw [takePlace_bpk]
    exact ((hheld .engine (by decide)).trans (hsent .engine (by decide))).trans hfree
  · have hempty : v.clu.capture.packed = [] := by rw [hv]; rfl
    rw [takePlace_packed]
    exact (congrArg Capture.packed ((hheld .capture (by decide)).trans (hsent .capture (by decide)))).trans hempty
  · rw [hv]
    exact (((engineFreed_touches s).wide).andThen (setCapture_touches s.engineFreed _)).andThen (setCtx_touches _ _)
  · rw [← hw]
    exact (hheld.wide).andThen (takePlace_touches _)
  · have hkept : w.clu.ctx = v.clu.ctx := hsent .context (by decide)
    have hplace : w.restartHolding.takePlace.clu.ctx = w.restartHolding.clu.ctx := takePlace_touches _ .context (by decide)
    rw [hplace, restartHolding_ctx, hkept, hms, hctx]

/-- R102: a block of an ended run is discarded. -/
theorem packCompletion_discards (hrun : s.clu.capture.run ≠ some run) :
    ∃ u : State, exec .packCompletion s = .next u.arbitrate ∧ u.bpk.flight = none
      ∧ u.clu.capture.packed = s.clu.capture.packed ∧ OnlyTouches [.engine, .capture] s u := by
  refine ⟨s.engineFreed.voicePacked run (packBlock f.inputs), exec_packCompletion_voice hflight hclaim, ?_⟩
  rw [voicePacked_discards (s := s.engineFreed) hrun]
  exact ⟨congrArg Bpk.flight (takePlace_bpk _), takePlace_packed _,
    ((engineFreed_touches s).wide).andThen (takePlace_touches _)⟩

end VoiceBlock

/-! ### The grants of the arbiter (R100, R101) -/

theorem grantVoice_touches (s : State) (run : Nat) (block : List Int) (more : List (List Int)) :
    OnlyTouches [.engine, .capture] s (s.grantVoice run block more) := by
  intro x hx
  cases x <;> first | rfl | exact ⟨rfl, rfl⟩ | exact ⟨rfl, rfl, rfl⟩ | exact absurd (by decide) hx

theorem grantHistory_touches (s : State) (e : HistoryRequest) (more : List HistoryRequest) :
    OnlyTouches [.engine, .history] s (s.grantHistory e more) := setBpk_touches s _

/-! ### The codec port (R125, R127 to R129) -/

theorem exec_codecSample_started {s : State} (h : s.started = true) (mic : BitVec 16) :
    exec (.codecSample mic) s = .next (s.codecOut.captureSample mic.toInt) :=
  congrArg Host.Outcome.next (if_pos h)

theorem captureSample_fills {s : State} {b : List Int} (h : s.clu.capture.filling = some b) (hroom : b.length < 15)
    (mic : Int) : s.captureSample mic = s.setCapture { s.clu.capture with filling := some (b ++ [mic]) } := by
  simp only [State.captureSample, h, if_neg (Nat.not_le.2 hroom)]

theorem captureSample_completes {s : State} {b : List Int} (h : s.clu.capture.filling = some b) (hfull : b.length = 15)
    (mic : Int) : s.captureSample mic = ((s.setCapture { s.clu.capture with
      filling := none, waiting := s.clu.capture.waiting ++ [b ++ [mic]] }).takePlace).arbitrate := by
  simp only [State.captureSample, h, if_pos hfull.ge]

theorem giveSample_idle {r : Playback} (h : r.playing = false) : r.giveSample = (0, r) := by
  simp [Playback.giveSample, h]

theorem giveSample_empty {r : Playback} (h : r.playing = true) (hb : r.blocks = []) :
    r.giveSample = (0, { r with playing := false }) := by
  simp [Playback.giveSample, h, hb]

theorem giveSample_plays {r : Playback} {b : List Int} {more : List (List Int)} (h : r.playing = true)
    (hb : r.blocks = b :: more) : r.giveSample = (b.getD r.given 0,
      if 16 ≤ r.given + 1 then { r with blocks := more, given := 0 } else { r with given := r.given + 1 }) := by
  simp [Playback.giveSample, h, hb]

theorem giveSample_sample (r : Playback) :
    r.giveSample.1 = if r.playing = true then (r.blocks.headD []).getD r.given 0 else 0 := by
  cases hp : r.playing with
  | false => rw [giveSample_idle hp, if_neg Bool.false_ne_true]
  | true =>
    rw [if_pos rfl]
    cases hb : r.blocks with
    | nil => rw [giveSample_empty hp hb]; rfl
    | cons b more => rw [giveSample_plays hp hb]; rfl

theorem denyRuns_iff (t : Tones) : t.denyRuns = true ↔ 0 < 1600 - t.deny.getD 1600 := by
  unfold Tones.denyRuns
  cases t.deny with
  | none => simp
  | some n => simp

/-- R128: the first source that applies gives the sample sent to the codec. -/
theorem codecOut_earpiece (s : State) : s.codecOut.clu.earpiece
    = (if s.alarmTone = true then alarmSample (s.clu.tones.alarm.getD 0)
      else if s.clu.ctx.state = .incoming then ringSample 8192 (s.clu.tones.ring.getD 0)
      else if s.clu.ctx.state = .ringback then ringSample 2048 (s.clu.tones.ring.getD 0)
      else if 0 < 1600 - s.clu.tones.deny.getD 1600 then denySample (s.clu.tones.deny.getD 0)
      else if s.clu.playback.playing = true then
        (s.clu.playback.blocks.headD []).getD s.clu.playback.given 0
      else 0) := by
  show s.earpieceSample (s.clu.tones.request s.alarmTone) s.clu.playback.giveSample.1 = _
  have hdeny := denyRuns_iff (s.clu.tones.request s.alarmTone)
  have hplayed := giveSample_sample s.clu.playback
  unfold State.earpieceSample
  refine ite_congr rfl (fun halarm => ?_) fun _ => ite_congr rfl (fun _ => rfl) fun _ => ite_congr rfl (fun _ => rfl)
    fun _ => ite_congr (propext hdeny) (fun _ => rfl) fun _ => ?_
  · simp only [Tones.request, halarm, if_true, Option.getD_some]
  · rw [hplayed]
    by_cases hplaying : s.clu.playback.playing = true
    · rw [if_pos (.inr (.inr hplaying)), if_pos hplaying]
    · rw [if_neg hplaying]
      exact ite_self 0

theorem codecSample_capture {s : State} (mic : BitVec 16) {b : List Int} (hfilling : s.clu.capture.filling = some b) :
    (b.length < 15 →
      (s.codecOut.captureSample mic.toInt).clu.capture = { s.clu.capture with filling := some (b ++ [mic.toInt]) })
    ∧ (b.length = 15 → s.bpk.flight ≠ none →
      (s.codecOut.captureSample mic.toInt).clu.capture.waiting = s.clu.capture.waiting ++ [b ++ [mic.toInt]]) := by
  refine ⟨fun hroom => ?_, fun hfull hbusy => ?_⟩
  · rw [captureSample_fills (s := s.codecOut) hfilling hroom]
    rfl
  · rw [captureSample_completes (s := s.codecOut) hfilling hfull, arbitrate_busy (by rw [takePlace_bpk]; exact hbusy),
      takePlace_waiting]
    rfl

/-- Settles O49: the completion by its claimant, the grants, the sample sent each way, and the end of the deny tone. -/
theorem packAndCodecResult : Obligations.PackAndCodecResult := by
  refine ⟨fun s f hflight => ⟨fun run hclaim hrun => ?_, fun run hclaim hrun => ?_, fun c tag hclaim => ?_,
    fun c n p hclaim => ?_⟩, fun u => ?_, fun s mic => ⟨fun hstopped => ?_, fun hstarted => ?_⟩, fun s n hdeny hend => ?_⟩
  · exact ⟨packCompletion_joins hflight hclaim hrun, packCompletion_sends hflight hclaim hrun⟩
  · exact packCompletion_discards hflight hclaim hrun
  · exact ⟨s.engineFreed, rfl, engineFreed_touches s, exec_packCompletion_history hflight hclaim⟩
  · exact ⟨s.engineFreed, rfl, engineFreed_touches s, exec_packCompletion_history hflight hclaim⟩
  · refine ⟨arbitrate_busy, fun block more hfree hwaiting => ?_, fun e more hfree hwaiting hlist => ?_, arbitrate_none⟩
    · rw [arbitrate_voice hfree hwaiting]
      exact ⟨⟨_, rfl, rfl, rfl⟩, rfl, grantVoice_touches u _ _ _⟩
    · rw [arbitrate_history hfree hwaiting hlist]
      exact ⟨⟨_, rfl, rfl⟩, rfl, grantHistory_touches u _ _⟩
  · exact ⟨_, congrArg Host.Outcome.next (if_neg (by rw [hstopped]; exact Bool.false_ne_true)), rfl⟩
  · have hear : (s.codecOut.captureSample mic.toInt).clu.earpiece = s.codecOut.clu.earpiece :=
      captureSample_touches s.codecOut _ .earpiece (by decide)
    exact ⟨_, exec_codecSample_started hstarted mic, hear.trans (codecOut_earpiece s),
      fun b hfilling => (codecSample_capture mic hfilling).1, fun b hfilling => (codecSample_capture mic hfilling).2⟩
  · have hstep : exec .denyToneEnd s = .next (s.setTones { s.clu.tones with deny := none }) := by
      refine congrArg Host.Outcome.next ?_
      simp only [hdeny]
      exact if_pos hend
    exact ⟨_, hstep, rfl, setTones_touches s _⟩

end Sys2Proof.Machine


/-! The call timers (O50) and the frames of the call unit (O51). -/

namespace Sys2Proof.Machine

/-! ### The call's identity -/

theorem callId_of_ctx {s t : State} (h : t.clu.ctx.call = s.clu.ctx.call) : t.callId = s.callId :=
  congrArg (fun c => Option.getD c (⟨0, 0⟩ : CallId)) h

theorem callPeer_of_ctx {s t : State} (h : t.clu.ctx.peer = s.clu.ctx.peer) : t.callPeer = s.callPeer :=
  congrArg (fun p => Option.getD p 0) h

/-! ### The end of a call (R110, R118, R124) -/

/-- R110, R127: the context returns to IDLE with its event and the ring plays out. `u` is the state after the run ended. -/
theorem toIdle_endsCall {s u : State} (h : OnlyTouches [.context, .capture] s u) (hid : u.callId = s.callId)
    (hpeer : u.callPeer = s.callPeer) (e : CallEvent) (reason : Option ReleaseReason) :
    EndsCall s (u.startPlayout.toIdle e reason) e reason := by
  have hplay : u.clu.playback = s.clu.playback := h .playback (by decide)
  have htones : u.clu.tones = s.clu.tones := h .tones (by decide)
  have hkept : (u.startPlayout.toIdle e reason).clu.playback = u.startPlayout.clu.playback :=
    toIdle_touches u.startPlayout e reason .playback (by decide)
  refine ⟨rfl, ?_, ?_, ?_⟩
  · rw [toIdle_tones, show u.startPlayout.clu.tones = u.clu.tones from rfl, htones]
  · rw [hkept, ← hplay]
    rfl
  · rw [toIdle_spu, show u.startPlayout.callId = s.callId from hid, show u.startPlayout.callPeer = s.callPeer from hpeer]
    have hspu : u.spu = s.spu := touched_spu h (by decide)
    have hms : u.ms = s.ms := touched_ms h
    exact takeIn_spu _ hspu hms

theorem endHeardPage_ends (s : State) : EndsCall s s.endHeardPage .pageEnded none :=
  toIdle_endsCall (.refl _ s) rfl rfl .pageEnded none

/-! ### What a SETUP, a give and the end of a page leave (R114, R120, R123) -/

theorem sendMessage_idle_clu {s : State} (h : s.clu.ctx.state ≠ .connected) (m : CallMessage)
    (reason : Option ReleaseReason) : (s.sendMessage m reason).clu = s.clu := by
  rw [sendMessage_clu, if_neg h]

theorem sendMessage_ms (s : State) (m : CallMessage) (reason : Option ReleaseReason) : (s.sendMessage m reason).ms = s.ms :=
  touched_ms (sendMessage_touches s m reason)

theorem sendSetup_ctx {s : State} (h : s.clu.ctx.state ≠ .connected) :
    s.sendSetup.clu.ctx = { s.clu.ctx with setups := s.clu.ctx.setups + 1, setupDue := some (s.ms + 1000) } := by
  have hctx := congrArg Clu.ctx (sendMessage_idle_clu h .setup none)
  show ({ (s.sendMessage .setup none).clu.ctx with
    setups := (s.sendMessage .setup none).clu.ctx.setups + 1,
    setupDue := some ((s.sendMessage .setup none).ms + 1000) } : CallContext) = _
  rw [hctx, sendMessage_ms]

theorem giveFloor_ctx {s : State} (h : s.clu.ctx.state = .connected) : s.giveFloor.clu.ctx.state = .connected
    ∧ s.giveFloor.clu.ctx.floor = some .none ∧ s.giveFloor.clu.ctx.talkDue = none := by
  refine ⟨?_, rfl, rfl⟩
  show ((s.endRun true).sendMessage .floorGive none).clu.ctx.state = _
  rw [sendMessage_clu]
  split <;> exact (endRun_ctx s).1.trans h

/-- R120, R123, R125: what is packed has left, and the run has ended. -/
theorem giveFloor_runEnded (s : State) : RunEnded s s.giveFloor := by
  obtain ⟨hended, -⟩ := endRun_sent s
  have hkept : s.giveFloor.clu.capture = (s.endRun true).clu.capture :=
    (sendMessage_same (s.endRun true) .floorGive none).2.2.2.2
  exact hkept.trans hended

theorem endPage_runEnded (s : State) : RunEnded s s.endPage := by
  obtain ⟨hended, -⟩ := endRun_sent s
  have hkept : s.endPage.clu.capture = (s.endRun true).clu.capture :=
    releaseCall_touches (s.endRun true) .normal .capture (by decide)
  exact hkept.trans hended

theorem releasesCall_runEnded {s t : State} {reason : ReleaseReason} (h : ReleasesCall s t reason) : RunEnded s t := by
  obtain ⟨u, -, hended, htouch, -⟩ := h
  have hkept : t.clu.capture = (u.sendMessage .release (some reason)).clu.capture := htouch .capture (by decide)
  exact (hkept.trans (sendMessage_same u _ _).2.2.2.2).trans hended

/-! ### The timers -/

theorem dueMs_some {s : State} {d : Nat} {o : Option Nat} (ho : o = some d) (hd : d ≤ s.ms) : s.dueMs o = true := by
  rw [ho]
  exact decide_eq_true hd

section Timers

variable {s : State} {d : Nat} (hd : d ≤ s.ms)
include hd

theorem exec_setupTimerExpiry_due (hstate : s.clu.ctx.state = .outgoing) (hdue : s.clu.ctx.setupDue = some d) :
    exec .setupTimerExpiry s = .next (if s.clu.ctx.setups < 3 then s.sendSetup else s.releaseCall .lost) :=
  congrArg Host.Outcome.next (if_pos (by simp [hstate, dueMs_some hdue hd]))

theorem exec_pageSetupTimerExpiry_due (hstate : s.clu.ctx.state = .paging) (hdue : s.clu.ctx.setupDue = some d) :
    exec .pageSetupTimerExpiry s = .next (s.releaseCall .normal) :=
  congrArg Host.Outcome.next (if_pos (by simp [hstate, dueMs_some hdue hd]))

theorem exec_ringTimerExpiry_due (hstate : s.clu.ctx.state = .ringback ∨ s.clu.ctx.state = .incoming)
    (hdue : s.clu.ctx.ringDue = some d) : exec .ringTimerExpiry s = .next (s.releaseCall .noAnswer) :=
  congrArg Host.Outcome.next (if_pos (by simpa [dueMs_some hdue hd] using hstate))

theorem exec_silenceTimerExpiry_due (hstate : s.clu.ctx.state = .connected) (hdue : s.clu.ctx.silenceDue = some d) :
    exec .silenceTimerExpiry s = .next (s.dropCall .lost) :=
  congrArg Host.Outcome.next (if_pos (by simp [hstate, dueMs_some hdue hd]))

theorem exec_holdingTimerExpiry_due (hstate : s.clu.ctx.state = .connected) (hdue : s.clu.ctx.holdingDue = some d) :
    exec .holdingTimerExpiry s = .next (s.sendMessage .holding none) :=
  congrArg Host.Outcome.next (if_pos (by simp [hstate, dueMs_some hdue hd]))

theorem exec_talkTimerExpiry_floor (hdue : s.clu.ctx.talkDue = some d) (hstate : s.clu.ctx.state = .connected)
    (hfloor : s.clu.ctx.floor = some .localSide) :
    exec .talkTimerExpiry s = .next (takeIn (.talkLimit s.callId) s.giveFloor) :=
  congrArg Host.Outcome.next ((if_pos (dueMs_some hdue hd)).trans (if_pos ⟨hstate, hfloor⟩))

theorem exec_talkTimerExpiry_page (hdue : s.clu.ctx.talkDue = some d) (hstate : s.clu.ctx.state = .paging)
    (hspan : s.clu.ctx.talkSpan = true) :
    exec .talkTimerExpiry s = .next (takeIn (.talkLimit s.callId) s.endPage) :=
  congrArg Host.Outcome.next ((if_pos (dueMs_some hdue hd)).trans
    ((if_neg (by simp [hstate])).trans (if_pos ⟨hstate, hspan⟩)))

theorem exec_pageGapTimerExpiry_due (hstate : s.clu.ctx.state = .hearingPage) (hdue : s.clu.ctx.gapDue = some d) :
    exec .pageGapTimerExpiry s = .next s.endHeardPage :=
  congrArg Host.Outcome.next (if_pos (by simp [hstate, dueMs_some hdue hd]))

end Timers

/-- Settles O50: each timer, by the state of the call it runs in. -/
theorem callTimersResult : Obligations.CallTimersResult := by
  intro s d hd
  refine ⟨fun hstate hdue => ⟨fun hfew => ?_, fun hmany => ?_⟩, fun hstate hdue => ?_, fun hstate hdue => ?_,
    fun hstate hdue => ?_, fun hstate hdue => ?_, fun hdue => ⟨fun hstate hfloor => ?_, fun hstate hspan => ?_⟩,
    fun hstate hdue => ?_⟩
  · refine ⟨s.sendSetup, ?_, sendSetup_ctx (by simp [hstate]), setCtx_touches _ _⟩
    rw [exec_setupTimerExpiry_due hd hstate hdue, if_pos hfew]
  · refine ⟨s.releaseCall .lost, ?_, releaseCall_leaves s .lost⟩
    rw [exec_setupTimerExpiry_due hd hstate hdue, if_neg (Nat.not_lt.2 hmany)]
  · exact ⟨_, exec_pageSetupTimerExpiry_due hd hstate hdue, releaseCall_leaves s .normal⟩
  · exact ⟨_, exec_ringTimerExpiry_due hd hstate hdue, releaseCall_leaves s .noAnswer⟩
  · have hreleases := dropCall_releases s .lost
    have hended := releasesCall_runEnded hreleases
    exact ⟨_, exec_silenceTimerExpiry_due hd hstate hdue, hreleases, congrArg Capture.run hended,
      congrArg Capture.packed hended⟩
  · refine ⟨_, exec_holdingTimerExpiry_due hd hstate hdue, rfl, ?_⟩
    rw [sendMessage_clu, if_pos hstate]
  · obtain ⟨hconnected, hnone, hstopped⟩ := giveFloor_ctx hstate
    have hended := giveFloor_runEnded s
    have hctx : (takeIn (.talkLimit s.callId) s.giveFloor).clu.ctx = s.giveFloor.clu.ctx :=
      takeIn_touches _ _ .context (by decide)
    have hcapture : (takeIn (.talkLimit s.callId) s.giveFloor).clu.capture = s.giveFloor.clu.capture :=
      takeIn_touches _ _ .capture (by decide)
    refine ⟨_, _, exec_talkTimerExpiry_floor hd hdue hstate hfloor, giveFloor_gives s hstate, rfl, ?_⟩
    rw [hctx, hcapture, hended]
    exact ⟨hconnected, hnone, hstopped, rfl, rfl⟩
  · have hcapture : (takeIn (.talkLimit s.callId) s.endPage).clu.capture = s.endPage.clu.capture :=
      takeIn_touches _ _ .capture (by decide)
    have hctx : (takeIn (.talkLimit s.callId) s.endPage).clu.ctx = s.endPage.clu.ctx := takeIn_touches _ _ .context (by decide)
    obtain ⟨-, -, -, hidle, -⟩ := endPage_ends s
    refine ⟨_, _, exec_talkTimerExpiry_page hd hdue hstate hspan, endPage_ends s, rfl, hctx.trans hidle, ?_⟩
    rw [hcapture, endPage_runEnded s]
  · exact ⟨_, exec_pageGapTimerExpiry_due hd hstate hdue, endHeardPage_ends s, endHeardPage_touches s⟩

/-! ### The frames of the call unit (R111, R119) -/

theorem onPorts_eq {s : State} {f : Port → State → State} (h : (f .A s).cfg = s.cfg) :
    s.onPorts f = if s.configured .B = true then f .B (if s.configured .A = true then f .A s else s)
      else if s.configured .A = true then f .A s else s := by
  have hcfg : (if s.configured .A = true then f .A s else s).configured .B = s.configured .B := by
    split
    · unfold State.configured State.slotOf
      rw [h]
    · rfl
  show (if (if s.configured .A = true then f .A s else s).configured .B = true then _ else _) = _
  rw [hcfg]

theorem requestFrame_cfg (s : State) (p : Port) (dest : Nat) (cls : FrameClass) (r : Requester)
    (xs : List FrameSection) (f : TxEntry → TxEntry) : (s.requestFrame p dest cls r xs f).cfg = s.cfg :=
  touched_cfg (requestFrame_touches s p dest cls r xs f) (by cases p <;> decide)

/-- Settles O51: the frame as composed and placed, the ports it goes to, and the holding timer. -/
theorem callFrameResult : Obligations.CallFrameResult := by
  refine ⟨fun s p dest xs f => ?_, fun s dest xs f => ⟨fun x hdest hpeer hpresent => ?_, fun hall => ?_⟩,
    fun s m reason => ⟨_, _, rfl, rfl, fun hstate => ?_, fun hstate => ?_⟩⟩
  · refine ⟨(s.compose dest .call false xs).2, ?_, rfl, rfl⟩
    intro x hx
    cases x <;> first | rfl | exact ⟨rfl, rfl⟩ | exact ⟨rfl, rfl, rfl⟩ | exact absurd (by decide) hx
  · simp only [State.sendCallFrame, if_neg hdest, hpeer, if_pos hpresent]
  · have heach : s.sendCallFrame dest xs f = s.onPorts (fun p t => t.requestFrame p dest .call .clu xs f) := by
      rcases hall with hdest | hunknown | ⟨x, hpeer, hsilent⟩
      · simp only [State.sendCallFrame, if_pos hdest]
      · simp only [State.sendCallFrame, hunknown, ite_self]
      · simp only [State.sendCallFrame, hpeer, hsilent, Bool.false_eq_true, if_false, ite_self]
    exact ⟨_, rfl, heach.trans (onPorts_eq (requestFrame_cfg s .A dest .call .clu xs f))⟩
  · have htouch := sendCallFrame_touches s s.callPeer [.call s.callId m s.calleeField reason] id
    have hctx : (s.sendCallFrame s.callPeer [.call s.callId m s.calleeField reason] id).clu.ctx = s.clu.ctx :=
      htouch .context (by decide)
    exact if_neg (by rw [hctx]; exact hstate)
  · have htouch := sendCallFrame_touches s s.callPeer [.call s.callId m s.calleeField reason] id
    have hctx : (s.sendCallFrame s.callPeer [.call s.callId m s.calleeField reason] id).clu.ctx = s.clu.ctx :=
      htouch .context (by decide)
    have hms := touched_ms htouch
    show State.restartHolding _ = _
    unfold State.restartHolding
    rw [if_pos (by rw [hctx]; exact hstate), hctx, hms]
    rfl

end Sys2Proof.Machine


/-! The CALL sections dispatched to the call unit (O52). -/

namespace Sys2Proof.Machine

/-! ### What a section of the call leaves (R118, R119, R124) -/

theorem setCtx_setCtx (s : State) (x y : CallContext) : (s.setCtx x).setCtx y = s.setCtx y := rfl

/-- R118: a RELEASE received ends the call, with `s` the state before its timer was set again. -/
theorem releasedByPeer_ends {s u : State} (h : OnlyTouches [.context] s u) (hid : u.callId = s.callId)
    (hpeer : u.callPeer = s.callPeer) (reason : Option ReleaseReason) :
    EndsCall s (u.releasedByPeer reason) .released reason ∧ RunEnded s (u.releasedByPeer reason)
      ∧ OnlyTouches [.context, .tones, .playback, .capture, .indications] s (u.releasedByPeer reason) := by
  obtain ⟨htouch, hended⟩ := endRun_ended u
  have hctx : (u.endRun false).clu.ctx = u.clu.ctx := htouch .context (by decide)
  have hcapture : u.clu.capture = s.clu.capture := h .capture (by decide)
  have hkept : (u.releasedByPeer reason).clu.capture = (u.endRun false).clu.capture :=
    toIdle_touches (u.endRun false).startPlayout .released reason .capture (by decide)
  refine ⟨toIdle_endsCall ((h.wide).andThen htouch) ((callId_of_ctx (congrArg CallContext.call hctx)).trans hid)
    ((callPeer_of_ctx (congrArg CallContext.peer hctx)).trans hpeer) .released reason, ?_, ?_⟩
  · rw [RunEnded, hkept, hended, hcapture]
  · exact (((h.wide).andThen htouch).andThen (startPlayout_touches _)).andThen (toIdle_touches _ _ _)

/-- R115: what the taking of a call leaves. -/
theorem takeCall_takes (s : State) (id : CallId) : TakesCall s (s.takeCall id) id := by
  obtain ⟨u, hu⟩ : ∃ u, u = ((s.setCtx { CallContext.idle with
      state := .incoming, call := some id, peer := some id.caller, ringDue := some (s.ms + 30000) }).emptyPlayback).forgetCall
        id := ⟨_, rfl⟩
  have htake : s.takeCall id = ((u.sendMessage .ringing none).startRing).callEvent .incoming none := by
    rw [hu]
    rfl
  obtain ⟨hid, hpeer, htones, -⟩ := sendMessage_same u .ringing none
  refine ⟨u, (u.sendMessage .ringing none).startRing, ?_, by rw [hu]; rfl, by rw [hu]; rfl, by rw [hu]; rfl,
    startRing_touches _, ?_, ?_⟩
  · rw [hu]
    exact (((setCtx_touches s _).wide).andThen (emptyPlayback_touches _)).andThen (forgetCall_touches _ id)
  · show ({ (u.sendMessage .ringing none).clu.tones with ring := some 0, deny := none } : Tones) = _
    rw [htones, hu]
    rfl
  · have hid : (u.sendMessage .ringing none).callId = id := hid.trans (by rw [hu]; rfl)
    have hpeer : (u.sendMessage .ringing none).callPeer = id.caller := hpeer.trans (by rw [hu]; rfl)
    rw [htake, State.callEvent, show (u.sendMessage .ringing none).startRing.callId = id from hid,
      show (u.sendMessage .ringing none).startRing.callPeer = id.caller from hpeer]

theorem takeCall_hook (s : State) (id : CallId) :
    (s.takeCall id).clu.hookOff = s.clu.hookOff ∧ (s.takeCall id).clu.hookStale = s.clu.hookStale :=
  takeCall_touches s id .hook (by decide)

/-! ### A section dispatched (R114 to R124) -/

section Section

variable {s : State} {dest : Nat} {id : CallId} {m : CallMessage} {callee : Nat} {reason : Option ReleaseReason}

theorem callSection_stopped (h : s.running = false) : s.callSection dest id m callee reason = s :=
  if_pos (by rw [h]; rfl)

theorem ownMessage_cfg (s : State) (dest : Nat) (m : CallMessage) (reason : Option ReleaseReason) :
    (s.ownMessage dest m reason).cfg = s.cfg := touched_cfg (ownMessage_touches s dest m reason)

/-- R115: no SETUP to this station as callee, so only the section of the context's call acts. -/
theorem callSection_message (hrun : s.running = true)
    (h : ¬ (m = .setup ∧ dest = s.cfg.station ∧ callee = s.cfg.station)) : s.callSection dest id m callee reason
      = if s.clu.ctx.call = some id then s.ownMessage dest m reason else s := by
  have hcfg : (if s.clu.ctx.call = some id then s.ownMessage dest m reason else s).cfg = s.cfg := by
    split
    · exact ownMessage_cfg s dest m reason
    · rfl
  have hno : ¬ (m = .setup ∧ dest = (if s.clu.ctx.call = some id then s.ownMessage dest m reason else s).cfg.station
      ∧ callee = (if s.clu.ctx.call = some id then s.ownMessage dest m reason else s).cfg.station
      ∧ (if s.clu.ctx.call = some id then s.ownMessage dest m reason else s).setupActs id = true) := by
    rw [hcfg]
    exact fun ⟨hm, hdest, hcallee, _⟩ => h ⟨hm, hdest, hcallee⟩
  exact (if_neg (by rw [hrun]; exact Bool.false_ne_true)).trans (if_neg hno)

theorem callSection_own (hrun : s.running = true) (hcall : s.clu.ctx.call = some id)
    (h : ¬ (m = .setup ∧ dest = s.cfg.station ∧ callee = s.cfg.station)) :
    s.callSection dest id m callee reason = s.ownMessage dest m reason := by
  rw [callSection_message hrun h, if_pos hcall]

theorem callSection_own_message (hrun : s.running = true) (hcall : s.clu.ctx.call = some id) (hm : m ≠ .setup) :
    s.callSection dest id m callee reason = s.ownMessage dest m reason :=
  callSection_own hrun hcall fun ⟨hset, _⟩ => hm hset

theorem callSection_foreign (hrun : s.running = true) (hcall : s.clu.ctx.call ≠ some id)
    (h : ¬ (m = .setup ∧ dest = s.cfg.station ∧ callee = s.cfg.station)) :
    s.callSection dest id m callee reason = s := by
  rw [callSection_message hrun h, if_neg hcall]

/-- R115: a SETUP of another call, addressed to this station and naming it. -/
theorem callSection_setup_foreign (hrun : s.running = true) (hcall : s.clu.ctx.call ≠ some id) :
    s.callSection s.cfg.station id .setup s.cfg.station reason = s.setupReceived id := by
  refine (if_neg (by rw [hrun]; exact Bool.false_ne_true)).trans ?_
  simp only [if_neg hcall]
  exact if_pos ⟨trivial, trivial, trivial, by simp [State.setupActs, hcall]⟩

/-- R114, R115: a SETUP of the context's call, addressed to this station and naming it. -/
theorem callSection_setup_own (hrun : s.running = true) (hcall : s.clu.ctx.call = some id) :
    s.callSection s.cfg.station id .setup s.cfg.station reason
      = if (s.ownMessage s.cfg.station .setup reason).setupActs id = true
        then (s.ownMessage s.cfg.station .setup reason).setupReceived id
        else s.ownMessage s.cfg.station .setup reason := by
  refine (if_neg (by rw [hrun]; exact Bool.false_ne_true)).trans ?_
  simp only [if_pos hcall, ownMessage_cfg, true_and]

end Section

/-! ### The context's call, before it is CONNECTED (R114, R116) -/

section Dialling

variable {s : State}

/-- R114: OUTGOING or RINGBACK. -/
def Dialling (s : State) : Prop := s.clu.ctx.state = .outgoing ∨ s.clu.ctx.state = .ringback

theorem ownMessage_dialling (h : Dialling s) (dest : Nat) (m : CallMessage) (reason : Option ReleaseReason) :
    s.ownMessage dest m reason = s.dialMessage m reason := by
  rcases h with h | h <;> simp only [State.ownMessage, h]

theorem ownMessage_incoming (h : s.clu.ctx.state = .incoming) (dest : Nat) (m : CallMessage)
    (reason : Option ReleaseReason) :
    s.ownMessage dest m reason = if m = .release then s.releasedByPeer reason else s := by
  simp only [State.ownMessage, h]

theorem ownMessage_connected (h : s.clu.ctx.state = .connected) (dest : Nat) (m : CallMessage)
    (reason : Option ReleaseReason) : s.ownMessage dest m reason = s.connectedMessage m reason := by
  simp only [State.ownMessage, h]

theorem ownMessage_hearingPage (h : s.clu.ctx.state = .hearingPage) (dest : Nat) (m : CallMessage)
    (reason : Option ReleaseReason) :
    s.ownMessage dest m reason = if m = .release ∧ dest = 4095 then s.endHeardPage else s := by
  simp only [State.ownMessage, h]

theorem ownMessage_unheard (h : s.clu.ctx.state = .idle ∨ s.clu.ctx.state = .paging) (dest : Nat) (m : CallMessage)
    (reason : Option ReleaseReason) : s.ownMessage dest m reason = s := by
  rcases h with h | h <;> simp only [State.ownMessage, h]

theorem setupActs_dialling {id : CallId} (hcall : s.clu.ctx.call = some id) (h : Dialling s) :
    s.setupActs id = false := by
  rcases h with h | h <;> simp [State.setupActs, hcall, h]

theorem setupActs_settled {id : CallId} (h : ¬ Dialling s) : s.setupActs id = true := by
  unfold Dialling at h
  push Not at h
  simp [State.setupActs, h]

variable {dest : Nat} {id : CallId} {callee : Nat} {reason : Option ReleaseReason}

/-- R114 (log 17): a SETUP of a call this station is itself placing has no effect. -/
theorem callSection_setup_dialling (hrun : s.running = true) (hcall : s.clu.ctx.call = some id) (h : Dialling s) :
    s.callSection dest id .setup callee reason = s := by
  have hown : s.ownMessage dest .setup reason = s := ownMessage_dialling h dest .setup reason
  by_cases hhere : dest = s.cfg.station ∧ callee = s.cfg.station
  · obtain ⟨rfl, rfl⟩ := hhere
    rw [callSection_setup_own hrun hcall, hown, setupActs_dialling hcall h, if_neg Bool.false_ne_true]
  · rw [callSection_own hrun hcall (fun ⟨_, hdest, hcallee⟩ => hhere ⟨hdest, hcallee⟩), hown]

theorem connect_ctx (s : State) : s.connect.clu.ctx = { s.clu.ctx with
    state := .connected, floor := some .none, sendSeq := some 0, expectSeq := none, setupDue := none, ringDue := none,
    silenceDue := some (s.ms + 10000), holdingDue := some (s.ms + 3000) } := by
  obtain ⟨u, -, hctx, -, hconnect⟩ := connect_connects s
  rw [hconnect, ← hctx]
  exact takeIn_touches _ u .context (by decide)

/-- R114, R119: a section that only a connected call carries connects it, and then acts on it. -/
theorem callSection_connects (hrun : s.running = true) (hcall : s.clu.ctx.call = some id) (h : Dialling s)
    {m : CallMessage} (hm : m = .holding ∨ m = .floorTake ∨ m = .floorGive) :
    s.callSection dest id m callee reason = s.connect.callSection dest id m callee reason := by
  have hset : m ≠ .setup := by rcases hm with rfl | rfl | rfl <;> nofun
  have hother : s.callSection dest id m callee reason = s.connect.connectedMessage m reason := by
    rw [callSection_own_message hrun hcall hset, ownMessage_dialling h]
    rcases hm with rfl | rfl | rfl <;> rfl
  have hconnected : s.connect.running = true := (touched_running (connect_touches s) (by decide)).trans hrun
  have hkept : s.connect.clu.ctx.call = some id := (congrArg CallContext.call (connect_ctx s)).trans hcall
  rw [hother, callSection_own_message hconnected hkept hset,
    ownMessage_connected (congrArg CallContext.state (connect_ctx s))]

end Dialling

/-! ### The context's call in CONNECTED (R118, R119, R121) -/

section Connected

variable {s : State} {id : CallId} (hcall : s.clu.ctx.call = some id)
include hcall

theorem callId_eq : s.callId = id := congrArg (fun c => Option.getD c (⟨0, 0⟩ : CallId)) hcall

omit hcall in
theorem floorTaken_none (h : s.clu.ctx.floor = some .none) : s.restartSilence.floorTaken
    = s.setCtx { s.clu.ctx with silenceDue := some (s.ms + 10000), floor := some .remote } := by
  have hfloor : s.restartSilence.clu.ctx.floor = some .none := h
  simp only [State.floorTaken, hfloor]
  rfl

omit hcall in
theorem floorTaken_remote (h : s.clu.ctx.floor = some .remote) : s.restartSilence.floorTaken = s.restartSilence := by
  have hfloor : s.restartSilence.clu.ctx.floor = some .remote := h
  simp only [State.floorTaken, hfloor]

theorem floorTaken_caller (h : s.clu.ctx.floor = some .localSide) (hcaller : id.caller = s.cfg.station) :
    s.restartSilence.floorTaken = s.restartSilence := by
  have hfloor : s.restartSilence.clu.ctx.floor = some .localSide := h
  have hown : s.restartSilence.callId.caller = s.restartSilence.cfg.station :=
    (congrArg CallId.caller (callId_eq (s := s.restartSilence) hcall)).trans hcaller
  simp only [State.floorTaken, hfloor, if_pos hown]

/-- R121: a callee yields the floor to a crossed FLOOR_TAKE. -/
theorem floorTaken_callee (h : s.clu.ctx.floor = some .localSide) (hcaller : id.caller ≠ s.cfg.station) :
    ∃ u : State, OnlyTouches [.context, .capture] s u ∧ RunEnded s u
      ∧ u.clu.ctx = { s.clu.ctx with silenceDue := some (s.ms + 10000), talkDue := none, floor := some .remote }
      ∧ s.restartSilence.floorTaken = takeIn (.floorDenied id) u := by
  obtain ⟨htouch, hended⟩ := endRun_ended s.restartSilence
  have hctx : (s.restartSilence.endRun false).clu.ctx = s.restartSilence.clu.ctx := htouch .context (by decide)
  have hfloor : s.restartSilence.clu.ctx.floor = some .localSide := h
  have hid : s.restartSilence.callId = id := callId_eq (s := s.restartSilence) hcall
  have hother : s.restartSilence.callId.caller ≠ s.restartSilence.cfg.station := by
    rw [hid]
    exact hcaller
  have hyield : s.restartSilence.floorTaken = s.restartSilence.yieldFloor := by
    simp only [State.floorTaken, hfloor, if_neg hother]
  refine ⟨(s.restartSilence.endRun false).setCtx { (s.restartSilence.endRun false).clu.ctx with
    talkDue := none, floor := some .remote }, ?_, hended, ?_, ?_⟩
  · exact (((restartSilence_touches s).wide).andThen htouch).andThen (setCtx_touches _ _)
  · show ({ (s.restartSilence.endRun false).clu.ctx with talkDue := none, floor := some .remote } : CallContext) = _
    rw [hctx]
    rfl
  · rw [hyield, State.yieldFloor,
      show (s.restartSilence.endRun false).callId = id from (callId_of_ctx (congrArg CallContext.call hctx)).trans hid]

omit hcall in
theorem floorGiven_local (h : s.clu.ctx.floor = some .localSide) : s.restartSilence.floorGiven = s.restartSilence := by
  have hfloor : s.restartSilence.clu.ctx.floor = some .localSide := h
  simp only [State.floorGiven, hfloor]

omit hcall in
/-- R121, R127: a floor given leaves no floor, and the ring plays out. -/
theorem floorGiven_gives (h : s.clu.ctx.floor = some .remote ∨ s.clu.ctx.floor = some .none) :
    OnlyTouches [.context, .playback] s s.restartSilence.floorGiven
      ∧ s.restartSilence.floorGiven.clu.ctx
        = { s.clu.ctx with silenceDue := some (s.ms + 10000), floor := some .none }
      ∧ s.restartSilence.floorGiven.clu.playback = { s.clu.playback with
          playing := s.clu.playback.playing || !s.clu.playback.blocks.isEmpty } := by
  rcases h with h | h
  · have hfloor : s.restartSilence.clu.ctx.floor = some .remote := h
    have hgiven : s.restartSilence.floorGiven = (s.restartSilence.setFloor .none).startPlayout := by
      simp only [State.floorGiven, hfloor]
    rw [hgiven]
    exact ⟨(((restartSilence_touches s).wide).andThen (setCtx_touches _ _)).andThen (startPlayout_touches _), rfl, rfl⟩
  · have hfloor : s.restartSilence.clu.ctx.floor = some .none := h
    have hgiven : s.restartSilence.floorGiven = s.restartSilence.startPlayout := by
      simp only [State.floorGiven, hfloor]
    rw [hgiven, ← h]
    exact ⟨((restartSilence_touches s).wide).andThen (startPlayout_touches _), rfl, rfl⟩

end Connected

/-- R119: a section of the connected call that asks for nothing more starts the silence timer again. -/
theorem connectedMessage_heard (s : State) {m : CallMessage} (hm : m = .holding ∨ m = .answer ∨ m = .ringing ∨ m = .setup)
    (reason : Option ReleaseReason) : s.connectedMessage m reason = s.restartSilence := by
  rcases hm with rfl | rfl | rfl | rfl <;> rfl

theorem setupReceived_connected {s : State} {id : CallId} (hcall : s.clu.ctx.call = some id)
    (h : s.clu.ctx.state = .connected) : s.setupReceived id = s := by
  unfold State.setupReceived
  dsimp only
  split
  · rfl
  · rw [if_neg (by simp [h]), if_pos ⟨h, hcall⟩]

/-- R119 (log 33): every such section dispatched starts the silence timer again, a SETUP of the call too. -/
theorem callSection_connected_heard {s : State} {id : CallId} (hrun : s.running = true) (hcall : s.clu.ctx.call = some id)
    (hstate : s.clu.ctx.state = .connected) {m : CallMessage}
    (hm : m = .holding ∨ m = .answer ∨ m = .ringing ∨ m = .setup) (dest callee : Nat) (reason : Option ReleaseReason) :
    s.callSection dest id m callee reason = s.restartSilence := by
  have hown : s.ownMessage dest m reason = s.restartSilence :=
    (ownMessage_connected hstate dest m reason).trans (connectedMessage_heard s hm reason)
  by_cases hhere : m = .setup ∧ dest = s.cfg.station ∧ callee = s.cfg.station
  · obtain ⟨rfl, rfl, rfl⟩ := hhere
    rw [callSection_setup_own hrun hcall, hown,
      setupReceived_connected (s := s.restartSilence) hcall hstate, ite_self]
  · rw [callSection_own hrun hcall hhere, hown]

/-! ### A SETUP to this station (R115, R117) -/

section Setup

variable {s : State} {id : CallId} (hrun : s.running = true)
include hrun

theorem setupReceived_again (hcall : s.clu.ctx.call = some id) (h : s.clu.ctx.state = .incoming) :
    s.setupReceived id = s.sendMessage .ringing none := by
  simp only [State.setupReceived, hrun, h, hcall, Bool.not_true, Bool.false_eq_true, if_false, and_self, if_true]

/-- What R115 asks of a SETUP of another call, or of one with no place in this context. -/
theorem setupReceived_other (h : s.clu.ctx.call ≠ some id ∨ s.clu.ctx.state = .hearingPage ∨ s.clu.ctx.state = .idle) :
    s.setupReceived id = if s.clu.ctx.state = .outgoing ∧ s.clu.ctx.peer = some id.caller then s.glare id
      else if s.clu.ctx.state ≠ .idle ∨ s.clu.hookOff = true then s.sendRelease id id.caller s.cfg.station .busy
      else if s.cfg.rate = .k62 ∨ admissionLimit s.cfg.rate ≤ s.heardBut id then
        s.sendRelease id id.caller s.cfg.station .lineFull
      else s.takeCall id := by
  have hincoming : ¬ (s.clu.ctx.state = .incoming ∧ s.clu.ctx.call = some id) := by
    rintro ⟨hstate, hcall⟩
    rw [hstate] at h
    exact absurd hcall (h.resolve_right nofun)
  have hconnected : ¬ (s.clu.ctx.state = .connected ∧ s.clu.ctx.call = some id) := by
    rintro ⟨hstate, hcall⟩
    rw [hstate] at h
    exact absurd hcall (h.resolve_right nofun)
  exact (if_neg (by rw [hrun]; exact Bool.false_ne_true)).trans ((if_neg hincoming).trans (if_neg hconnected))

end Setup

/-- R117, R130: at glare the higher ID takes the other's call, and answers it with the handset taken. -/
theorem glare_takes {s : State} {id : CallId} (h : id.caller ≤ s.cfg.station) :
    ∃ v, TakesCall (s.sendMessage .release (some .normal)) v id
      ∧ (s.clu.hookOff = false ∨ s.clu.hookStale = true → s.glare id = v)
      ∧ (s.clu.hookOff = true → s.clu.hookStale = false → Connects (v.sendMessage .answer none) (s.glare id)) := by
  obtain ⟨v, hv⟩ : ∃ v, v = (s.sendMessage .release (some .normal)).takeCall id := ⟨_, rfl⟩
  have hglare : s.glare id = if v.handsetTaken = true then v.answerCall else v := by
    rw [hv]
    exact if_neg (Nat.not_lt.2 h)
  have hhook : v.clu.hookOff = s.clu.hookOff ∧ v.clu.hookStale = s.clu.hookStale := by
    obtain ⟨hoff, hstale⟩ := takeCall_hook (s.sendMessage .release (some .normal)) id
    obtain ⟨hoff', hstale'⟩ := sendMessage_touches s .release (some .normal) .hook (by decide)
    rw [hv]
    exact ⟨hoff.trans hoff', hstale.trans hstale'⟩
  obtain ⟨hoff, hstale⟩ := hhook
  refine ⟨v, by rw [hv]; exact takeCall_takes _ id, fun hkept => ?_, fun hlifted hfresh => ?_⟩
  · rw [hglare, if_neg]
    rcases hkept with hkept | hkept <;> simp [State.handsetTaken, hoff, hstale, hkept]
  · rw [hglare, if_pos (by simp [State.handsetTaken, hoff, hstale, hlifted, hfresh])]
    exact connect_connects _

theorem heardBut_eq (s : State) (id : CallId) :
    s.heardBut id = (s.pru.heard.filter (fun h => decide (h.id ≠ id))).length := List.countP_eq_length_filter

/-- R115: a SETUP to this station of another call, by the whole of what the context then holds. -/
theorem callSection_setup_here {s : State} {id : CallId} (hrun : s.running = true)
    (h : s.clu.ctx.call ≠ some id ∨ s.clu.ctx.state = .hearingPage ∨ s.clu.ctx.state = .idle)
    (reason : Option ReleaseReason) :
    s.callSection s.cfg.station id .setup s.cfg.station reason = s.setupReceived id := by
  by_cases hcall : s.clu.ctx.call = some id
  · have hstate := h.resolve_left (not_not_intro hcall)
    have hown : s.ownMessage s.cfg.station .setup reason = s := by
      rcases hstate with hstate | hstate
      · exact (ownMessage_hearingPage hstate _ _ _).trans (if_neg nofun)
      · exact ownMessage_unheard (.inl hstate) _ _ _
    have hsettled : ¬ Dialling s := by
      unfold Dialling
      rcases hstate with hstate | hstate <;> simp [hstate]
    rw [callSection_setup_own hrun hcall, hown, setupActs_settled hsettled, if_pos rfl]
  · exact callSection_setup_foreign hrun hcall

/-! ### The obligation -/

section Result

variable {s : State} {dest : Nat} {id : CallId} {m : CallMessage} {callee : Nat} {reason : Option ReleaseReason}
variable (hrun : s.running = true)
include hrun

/-- R114: RINGING in OUTGOING. -/
theorem callSection_ringing (hcall : s.clu.ctx.call = some id) (hstate : s.clu.ctx.state = .outgoing) :
    ∃ u : State, OnlyTouches [.context, .tones] s u
      ∧ u.clu.ctx = { s.clu.ctx with state := .ringback, setupDue := none, ringDue := some (s.ms + 30000) }
      ∧ u.clu.tones = { s.clu.tones with ring := some 0, deny := none }
      ∧ s.callSection dest id .ringing callee reason = takeIn (.callEvent .ringback s.callId s.callPeer none) u := by
  refine ⟨(s.setCtx { s.clu.ctx with state := .ringback, setupDue := none, ringDue := some (s.ms + 30000) }).startRing,
    ((setCtx_touches s _).wide).andThen (startRing_touches _), rfl, rfl, ?_⟩
  rw [callSection_own_message hrun hcall (by decide), ownMessage_dialling (.inl hstate)]
  exact if_pos hstate

/-- R118: a RELEASE of the context's call, in any state but PAGING and HEARING_PAGE. -/
theorem callSection_release (hcall : s.clu.ctx.call = some id)
    (hstate : Dialling s ∨ s.clu.ctx.state = .incoming ∨ s.clu.ctx.state = .connected) :
    EndsCall s (s.callSection dest id .release callee reason) .released reason
      ∧ RunEnded s (s.callSection dest id .release callee reason)
      ∧ OnlyTouches [.context, .tones, .playback, .capture, .indications] s
          (s.callSection dest id .release callee reason) := by
  rw [callSection_own_message hrun hcall (by decide)]
  rcases hstate with hstate | hstate | hstate
  · rw [ownMessage_dialling hstate]
    exact releasedByPeer_ends (.refl _ s) rfl rfl reason
  · rw [ownMessage_incoming hstate, if_pos rfl]
    exact releasedByPeer_ends (.refl _ s) rfl rfl reason
  · rw [ownMessage_connected hstate]
    exact releasedByPeer_ends (s := s) (u := s.restartSilence) (restartSilence_touches s) rfl rfl reason

theorem callSection_incoming_again (hcall : s.clu.ctx.call = some id) (hstate : s.clu.ctx.state = .incoming) :
    s.callSection s.cfg.station id .setup s.cfg.station reason = s.sendMessage .ringing none := by
  have hown : s.ownMessage s.cfg.station .setup reason = s :=
    (ownMessage_incoming hstate _ _ _).trans (if_neg nofun)
  rw [callSection_setup_own hrun hcall, hown, setupActs_settled (by simp [Dialling, hstate]), if_pos rfl,
    setupReceived_again hrun hcall hstate]

theorem callSection_incoming_other (hcall : s.clu.ctx.call = some id) (hstate : s.clu.ctx.state = .incoming)
    (hm : m ≠ .release) (h : m ≠ .setup ∨ dest ≠ s.cfg.station ∨ callee ≠ s.cfg.station) :
    s.callSection dest id m callee reason = s := by
  have hno : ¬ (m = .setup ∧ dest = s.cfg.station ∧ callee = s.cfg.station) := fun ⟨hset, hdest, hcallee⟩ =>
    h.elim (· hset) fun h => h.elim (· hdest) (· hcallee)
  rw [callSection_own hrun hcall hno, ownMessage_incoming hstate, if_neg hm]

theorem callSection_page (hcall : s.clu.ctx.call = some id) (hstate : s.clu.ctx.state = .hearingPage) (hm : m ≠ .setup) :
    s.callSection dest id m callee reason = if m = .release ∧ dest = 4095 then s.endHeardPage else s := by
  rw [callSection_own_message hrun hcall hm, ownMessage_hearingPage hstate]

end Result

/-- Settles O52: a section of the context's call by its state, and a SETUP to this station by R115 and R117. -/
theorem callSectionResult : Obligations.CallSectionResult := by
  rintro s dest id m callee reason t rfl
  refine ⟨callSection_stopped, fun hrun => ⟨fun hcall hstate => ⟨?_, ?_, ?_, ?_, ?_, ?_⟩, fun hcall hstate => ⟨?_, ?_, ?_⟩,
    fun hcall hstate => ⟨?_, ?_, ?_, ?_⟩, fun hcall hstate hm => ⟨?_, ?_⟩, fun hm hother => ?_, fun hm hcall hthere => ?_,
    fun hm hdest hcallee => ⟨fun hstate hcall hpeer => ⟨fun hlower => ?_, fun hhigher => ?_⟩,
      fun hother hbusy => ?_, fun hstate hhook => ⟨fun hfull => ?_, fun hrate hroom => ?_⟩⟩⟩⟩
  · rintro rfl hout
    exact callSection_ringing hrun hcall hout
  · rintro rfl hback
    rw [callSection_own_message hrun hcall (by decide), ownMessage_dialling hstate]
    exact if_neg (by rw [hback]; nofun)
  · rintro rfl
    rw [callSection_own_message hrun hcall (by decide), ownMessage_dialling hstate]
    exact connect_connects s
  · rintro rfl
    exact callSection_release hrun hcall (.inl hstate)
  · exact fun hm => ⟨s.connect, connect_connects s, callSection_connects hrun hcall hstate hm⟩
  · rintro rfl
    exact callSection_setup_dialling hrun hcall hstate
  · rintro rfl
    exact callSection_release hrun hcall (.inr (.inl hstate))
  · rintro rfl rfl rfl
    exact callSection_incoming_again hrun hcall hstate
  · exact callSection_incoming_other hrun hcall hstate
  · rintro rfl
    exact callSection_release hrun hcall (.inr (.inr hstate))
  · exact fun hm => callSection_connected_heard hrun hcall hstate hm dest callee reason
  · rintro rfl
    rw [callSection_own_message hrun hcall (by decide), ownMessage_connected hstate]
    exact ⟨floorTaken_none, floorTaken_remote, floorTaken_caller hcall, floorTaken_callee hcall⟩
  · rintro rfl
    rw [callSection_own_message hrun hcall (by decide), ownMessage_connected hstate]
    exact ⟨floorGiven_local, floorGiven_gives⟩
  · intro hrelease hall
    rw [callSection_page hrun hcall hstate hm, if_pos ⟨hrelease, hall⟩]
    exact ⟨endHeardPage_ends s, (endHeardPage_touches s).wide⟩
  · intro hkept
    rw [callSection_page hrun hcall hstate hm, if_neg (fun ⟨hrelease, hall⟩ => hkept.elim (· hrelease) (· hall))]
  · by_cases hcall : s.clu.ctx.call = some id
    · rw [callSection_own_message hrun hcall hm,
        ownMessage_unheard (.inr (hother.resolve_left (not_not_intro hcall)))]
    · exact callSection_foreign hrun hcall fun ⟨hset, _⟩ => hm hset
  · exact callSection_foreign hrun hcall fun ⟨_, hdest, hcallee⟩ => hthere.elim (· hdest) (· hcallee)
  · subst hm hdest hcallee
    rw [callSection_setup_here hrun (.inl hcall), setupReceived_other hrun (.inl hcall), if_pos ⟨hstate, hpeer⟩]
    exact if_pos hlower
  · subst hm hdest hcallee
    rw [callSection_setup_here hrun (.inl hcall), setupReceived_other hrun (.inl hcall), if_pos ⟨hstate, hpeer⟩]
    exact glare_takes hhigher
  · subst hm hdest hcallee
    have hwhere : s.clu.ctx.call ≠ some id ∨ s.clu.ctx.state = .hearingPage ∨ s.clu.ctx.state = .idle :=
      hother.imp_right .inl
    have hno : ¬ (s.clu.ctx.state = .outgoing ∧ s.clu.ctx.peer = some id.caller) := by
      rintro ⟨hout, hpeer⟩
      rcases hbusy with ⟨-, hbusy⟩ | ⟨hidle, -⟩
      · exact hbusy hout hpeer
      · exact nomatch hout.symm.trans hidle
    rw [callSection_setup_here hrun hwhere, setupReceived_other hrun hwhere, if_neg hno, if_pos]
    exact hbusy.imp (·.1) (·.2)
  · subst hm hdest hcallee
    have hwhere : s.clu.ctx.call ≠ some id ∨ s.clu.ctx.state = .hearingPage ∨ s.clu.ctx.state = .idle :=
      .inr (.inr hstate)
    rw [callSection_setup_here hrun hwhere, setupReceived_other hrun hwhere, if_neg (by simp [hstate]),
      if_neg (by simp [hstate, hhook]), heardBut_eq, if_pos hfull]
  · subst hm hdest hcallee
    have hwhere : s.clu.ctx.call ≠ some id ∨ s.clu.ctx.state = .hearingPage ∨ s.clu.ctx.state = .idle :=
      .inr (.inr hstate)
    rw [callSection_setup_here hrun hwhere, setupReceived_other hrun hwhere, if_neg (by simp [hstate]),
      if_neg (by simp [hstate, hhook]), heardBut_eq, if_neg (not_or_intro hrate (Nat.not_le.2 hroom))]
    exact takeCall_takes s id

end Sys2Proof.Machine


/-! The VOICE sections dispatched to the call unit, and the playback ring (O53). -/

namespace Sys2Proof.Machine

/-! ### Voice received (R114, R121, R124) -/

theorem voiceSection_stopped {s : State} (h : s.running = false) (dest : Nat) (id : CallId) (seq : Nat)
    (blocks : List (List Byte)) : s.voiceSection dest id seq blocks = s := if_pos (by rw [h]; rfl)

theorem voiceSection_page {s : State} (hrun : s.running = true) (id : CallId) (seq : Nat) (blocks : List (List Byte)) :
    s.voiceSection 4095 id seq blocks = s.pageVoice id seq blocks :=
  (if_neg (by rw [hrun]; exact Bool.false_ne_true)).trans (if_pos rfl)

section Here

variable {s : State} {dest : Nat} {id : CallId} (hrun : s.running = true) (hdest : dest ≠ 4095)
include hrun hdest

theorem voiceSection_foreign (hcall : s.clu.ctx.call ≠ some id) (seq : Nat) (blocks : List (List Byte)) :
    s.voiceSection dest id seq blocks = s :=
  (if_neg (by rw [hrun]; exact Bool.false_ne_true)).trans ((if_neg hdest).trans (if_pos hcall))

variable (hcall : s.clu.ctx.call = some id)
include hcall

theorem voiceSection_dialling (h : Dialling s) (seq : Nat) (blocks : List (List Byte)) :
    s.voiceSection dest id seq blocks = s.connect.connectedVoice seq blocks := by
  refine (if_neg (by rw [hrun]; exact Bool.false_ne_true)).trans ((if_neg hdest).trans ((if_neg (not_not_intro hcall)).trans ?_))
  rcases h with h | h <;> simp only [h]

theorem voiceSection_connected (h : s.clu.ctx.state = .connected) (seq : Nat) (blocks : List (List Byte)) :
    s.voiceSection dest id seq blocks = s.connectedVoice seq blocks := by
  refine (if_neg (by rw [hrun]; exact Bool.false_ne_true)).trans ((if_neg hdest).trans ((if_neg (not_not_intro hcall)).trans ?_))
  simp only [h]

theorem voiceSection_unheard (hno : s.clu.ctx.state ≠ .outgoing) (hno' : s.clu.ctx.state ≠ .ringback)
    (hno'' : s.clu.ctx.state ≠ .connected) (seq : Nat) (blocks : List (List Byte)) :
    s.voiceSection dest id seq blocks = s := by
  refine (if_neg (by rw [hrun]; exact Bool.false_ne_true)).trans ((if_neg hdest).trans ((if_neg (not_not_intro hcall)).trans ?_))
  cases hstate : s.clu.ctx.state with
  | outgoing => exact absurd hstate hno
  | ringback => exact absurd hstate hno'
  | connected => exact absurd hstate hno''
  | idle => rfl
  | incoming => rfl
  | paging => rfl
  | hearingPage => rfl

end Here

/-- R114, R119: voice of a call this station is placing connects it, and is then voice of a connected call. -/
theorem voiceSection_connects {s : State} {dest : Nat} {id : CallId} (hrun : s.running = true) (hdest : dest ≠ 4095)
    (hcall : s.clu.ctx.call = some id) (h : Dialling s) (seq : Nat) (blocks : List (List Byte)) :
    s.voiceSection dest id seq blocks = s.connect.voiceSection dest id seq blocks := by
  have hctx := connect_ctx s
  have hconnected : s.connect.running = true := (touched_running (connect_touches s) (by decide)).trans hrun
  rw [voiceSection_dialling hrun hdest hcall h, voiceSection_connected hconnected hdest
    ((congrArg CallContext.call hctx).trans hcall) (congrArg CallContext.state hctx)]

theorem connectedVoice_local {s : State} (h : s.clu.ctx.floor = some .localSide) (seq : Nat) (blocks : List (List Byte)) :
    s.connectedVoice seq blocks = s.restartSilence := by
  have hfloor : s.restartSilence.clu.ctx.floor = some .localSide := h
  simp only [State.connectedVoice, hfloor]

/-- R121: voice of the connected call takes the floor for the other side. -/
theorem connectedVoice_plays {s : State} (h : s.clu.ctx.floor = some .remote ∨ s.clu.ctx.floor = some .none) (seq : Nat)
    (blocks : List (List Byte)) : s.connectedVoice seq blocks
      = (s.setCtx { s.clu.ctx with silenceDue := some (s.ms + 10000), floor := some .remote }).playVoice seq blocks := by
  rcases h with h | h
  · have hfloor : s.restartSilence.clu.ctx.floor = some .remote := h
    simp only [State.connectedVoice, hfloor]
    rw [← h, State.restartSilence]
  · have hfloor : s.restartSilence.clu.ctx.floor = some .none := h
    simp only [State.connectedVoice, hfloor]
    exact congrArg (fun u => State.playVoice u seq blocks) (setCtx_setCtx s _ _)

/-- R124: a page begins to be heard. -/
theorem hearPage_hears (s : State) (id : CallId) : HearsPage s (s.hearPage id) id :=
  ⟨((s.setCtx { CallContext.idle with
      state := .hearingPage, call := some id, peer := some id.caller, gapDue := some (s.ms + 2000) }).emptyPlayback).forgetCall
        id, (((setCtx_touches s _).wide).andThen (emptyPlayback_touches _)).andThen (forgetCall_touches _ id),
    rfl, rfl, rfl, rfl⟩

/-! ### The playback ring (R126, R127) -/

section Ring

variable (r : Playback) (b : List Int)

theorem append_room (h : r.blocks.length < 64) : (r.append b).blocks = r.blocks ++ [b] ∧ (r.append b).given = r.given := by
  have hroom : ¬ 64 ≤ r.blocks.length := by omega
  simp [Playback.append, hroom]

theorem append_full (h : r.blocks.length = 64) :
    (r.append b).blocks = r.blocks.tail ++ [b] ∧ (r.append b).given = 0 := by
  simp [Playback.append, h]

theorem append_playing : (r.append b).playing = true ↔ r.playing = true ∨ 16 ≤ (r.append b).blocks.length := by
  simp [Playback.append]

theorem append_lastBlock : (r.append b).lastBlock = r.lastBlock := rfl

end Ring

theorem foldl_append_lastBlock (bs : List (List Int)) : ∀ r : Playback,
    (bs.foldl Playback.append r).lastBlock = r.lastBlock := by
  induction bs with
  | nil => exact fun r => rfl
  | cons b bs ih => exact fun r => ih (r.append b)

/-- The concealment blocks an accepted frame brings (R126). -/
def concealedBefore (last : Option (List Int)) (d : Nat) : List (List Int) :=
  if 1 ≤ d ∧ d ≤ 8 then concealment last d else []

theorem takeFrame_eq (r : Playback) (d : Nat) (blocks : List (List Byte)) : r.takeFrame d blocks
    = { (concealedBefore r.lastBlock d ++ blocks.map expandVoice).foldl Playback.append r with
        lastBlock := if blocks = [] then r.lastBlock else (blocks.map expandVoice).getLast? } := by
  have hlast : ((blocks.map expandVoice).getLast?.orElse fun _ => r.lastBlock)
      = if blocks = [] then r.lastBlock else (blocks.map expandVoice).getLast? := by
    cases blocks with
    | nil => rfl
    | cons b bs => rw [if_neg (List.cons_ne_nil _ _), List.map_cons, List.getLast?_cons]; rfl
  have hring : (if 1 ≤ d ∧ d ≤ 8 then r.appendAll (concealment r.lastBlock d) else r)
      = (concealedBefore r.lastBlock d).foldl Playback.append r := by
    unfold concealedBefore
    split <;> rfl
  unfold Playback.takeFrame
  dsimp only
  rw [hring, Playback.appendAll, foldl_append_lastBlock, foldl_append_lastBlock, hlast, List.foldl_append]

theorem concealedBefore_none (last : Option (List Int)) {d : Nat} (h : d = 0 ∨ 9 ≤ d) : concealedBefore last d = [] :=
  if_neg (by omega)

theorem concealedBefore_some (last : Option (List Int)) {d : Nat} (hlow : 1 ≤ d) (hhigh : d ≤ 8) :
    concealedBefore last d = concealment last d := if_pos ⟨hlow, hhigh⟩

/-- R126: the distance of a voice sequence from the one expected. -/
theorem voiceDistance_eq {expected : Option Nat} {seq d : Nat} (hseq : seq < 256) (hd : d < 256)
    (h : (expected = none ∧ d = 0) ∨ ∃ e, expected = some e ∧ e < 256 ∧ (e + d) % 256 = seq) :
    voiceDistance expected seq = d := by
  rcases h with ⟨rfl, rfl⟩ | ⟨e, rfl, he, hsum⟩
  · rfl
  · show (seq + 256 - e % 256) % 256 = d
    omega

theorem playVoice_late {s : State} {seq d : Nat} (h : voiceDistance s.clu.ctx.expectSeq seq = d) (hd : 128 ≤ d)
    (blocks : List (List Byte)) : s.playVoice seq blocks = s := if_pos (by rw [h]; exact hd)

theorem playVoice_accepted {s : State} {seq d : Nat} (h : voiceDistance s.clu.ctx.expectSeq seq = d) (hd : d < 128)
    (blocks : List (List Byte)) : s.playVoice seq blocks
      = (s.setPlayback (s.clu.playback.takeFrame d blocks)).setCtx
          { s.clu.ctx with expectSeq := some ((seq + 1) % 256) } := by
  subst h
  exact if_neg (Nat.not_le.2 hd)

/-! ### A sample request (R127) -/

theorem codecSample_playback (s : State) (mic : BitVec 16) :
    (s.codecOut.captureSample mic.toInt).clu.playback = s.clu.playback.giveSample.2 :=
  captureSample_touches s.codecOut _ .playback (by decide)

/-- Settles O53: voice by the state of the context, an accepted frame, an append, and a sample request. -/
theorem voiceAndPlaybackResult : Obligations.VoiceAndPlaybackResult := by
  refine ⟨?_, fun s seq d blocks hseq hd hexpect => ⟨?_, ?_⟩, fun r b => ⟨append_room r b, append_full r b,
    append_playing r b, append_lastBlock r b⟩, fun s mic hstarted => ⟨_, exec_codecSample_started hstarted mic, ?_⟩⟩
  · rintro s dest id seq blocks t rfl
    refine ⟨fun hstopped => voiceSection_stopped hstopped dest id seq blocks, fun hrun => ⟨?_, fun hdest => ⟨?_, ?_, ?_⟩⟩⟩
    · rintro rfl
      rw [voiceSection_page hrun]
      refine ⟨fun hidle => ⟨_, hearPage_hears s id, if_pos hidle⟩, fun hhearing hcall => ?_, fun hbusy hother => ?_⟩
      · exact (if_neg (by rw [hhearing]; nofun)).trans (if_pos ⟨hhearing, hcall⟩)
      · exact (if_neg hbusy).trans (if_neg fun ⟨hhearing, hcall⟩ => hother.elim (· hhearing) (· hcall))
    · exact fun hcall hstate => ⟨s.connect, connect_connects s, voiceSection_connects hrun hdest hcall hstate seq blocks⟩
    · intro hcall hstate
      rw [voiceSection_connected hrun hdest hcall hstate]
      exact ⟨fun hfloor => connectedVoice_local hfloor seq blocks, fun hfloor => connectedVoice_plays hfloor seq blocks⟩
    · intro hother
      by_cases hcall : s.clu.ctx.call = some id
      · obtain ⟨hno, hno', hno''⟩ := hother.resolve_left (not_not_intro hcall)
        exact voiceSection_unheard hrun hdest hcall hno hno' hno'' seq blocks
      · exact voiceSection_foreign hrun hdest hcall seq blocks
  · exact fun hlate => playVoice_late (voiceDistance_eq hseq hd hexpect) hlate blocks
  · intro hnear
    have hplay := playVoice_accepted (voiceDistance_eq hseq hd hexpect) hnear blocks
    refine ⟨(playVoice_touches s seq blocks).wide, by rw [hplay]; rfl, concealedBefore s.clu.playback.lastBlock d, ?_,
      concealedBefore_none _, fun hlow hhigh => ?_⟩
    · rw [← takeFrame_eq, hplay]
      rfl
    · rw [concealedBefore_some _ hlow hhigh, concealment]
      refine ⟨?_, ?_, fun b hb => List.eq_of_mem_replicate hb⟩
      · rw [List.length_cons, List.length_replicate]
        omega
      · cases s.clu.playback.lastBlock <;> rfl
  · rw [codecSample_playback]
    refine ⟨fun hidle => ?_, fun hplaying hempty => ?_, fun b more hplaying hblocks => ⟨fun hfew => ?_, fun hlast => ?_⟩⟩
    · rw [giveSample_idle hidle]
    · rw [giveSample_empty hplaying hempty]
    · rw [giveSample_plays hplaying hblocks, if_neg (by omega)]
    · rw [giveSample_plays hplaying hblocks, if_pos (by omega)]

end Sys2Proof.Machine


/-! The debounce cells, what an accepted edge does, and the cadence generator (O54). -/

namespace Sys2Proof.Machine

/-! ### The accepted edges (R62, R113, R116, R118, R120, R123, R125, R130, R157, R169) -/

theorem pulseEdge_taken (s : State) : EdgeTaken .pulse .active s s.pulseEdge :=
  ⟨fun hstarted hset => if_pos ⟨hstarted, hset⟩, fun hno => if_neg fun ⟨hstarted, hset⟩ =>
    hno.elim (fun hstopped => nomatch hstarted.symm.trans hstopped) hset⟩

/-- R157: the pull cord raises an alarm where none it raised is held. -/
theorem pullCord_taken (s : State) : EdgeTaken .pullCord .active s s.pullCord := by
  refine ⟨fun hno => if_pos ?_, fun hstarted hfree => ?_⟩
  · rcases hno with hstopped | hheld
    · simp [hstopped]
    · simp [Option.isSome_iff_ne_none.2 hheld]
  · have hpull : s.pullCord = match (s.raise .pullcord (.zone s.cfg.zone)).1 with
        | some n => (s.raise .pullcord (.zone s.cfg.zone)).2.setAru
            { (s.raise .pullcord (.zone s.cfg.zone)).2.aru with pullRef := some n }
        | none => (s.raise .pullcord (.zone s.cfg.zone)).2 := if_neg (by simp [hstarted, hfree])
    refine ⟨fun hroom => ?_, fun hfull => ?_⟩
    · obtain ⟨n, v, hraise, hraises⟩ := raise_held hroom (x := .zone s.cfg.zone)
      refine ⟨n, v, hraises, ?_⟩
      simp only [hpull, hraise]
    · simp only [hpull, raise_not_held hfull]

/-- R169: a door edge sets the door field, and an opening raises an alarm outside a muster. -/
theorem doorEdge_taken (s : State) (x : Level) :
    EdgeTaken .refugeDoor x s (s.doorEdge (decide (x = .active))) := by
  refine ⟨fun hno => if_pos (by rcases hno with hno | hno <;> simp [hno]), fun hstarted hrefuge => ?_⟩
  obtain ⟨u, hu⟩ : ∃ u, u = s.setAru { s.aru with doorOpen := decide (x = .active) } := ⟨_, rfl⟩
  have hmuster : u.aru.musterActive = s.aru.musterActive := by rw [hu]; rfl
  have href : u.aru.doorRef = s.aru.doorRef := by rw [hu]; rfl
  have hzone : u.cfg.zone = s.cfg.zone := by rw [hu]; rfl
  have hheld : HasRoom u .refugeDoor ↔ HasRoom s .refugeDoor := by rw [hu]; rfl
  have hdoor : s.doorEdge (decide (x = .active))
      = if (decide (x = .active) && !u.aru.musterActive && u.aru.doorRef.isNone) = true then
          match (u.raise .refugeDoor (.zone u.cfg.zone)).1 with
          | some n => (u.raise .refugeDoor (.zone u.cfg.zone)).2.setAru
              { (u.raise .refugeDoor (.zone u.cfg.zone)).2.aru with doorRef := some n }
          | none => (u.raise .refugeDoor (.zone u.cfg.zone)).2
        else u := by
    rw [hu]
    exact if_neg (by simp [hstarted, hrefuge])
  refine ⟨u, hu, fun hquiet => ?_, fun hactive hcalm hfree => ?_⟩
  · rw [hdoor, if_neg]
    rw [hmuster, href]
    rcases hquiet with hclosed | hquiet | hquiet
    · simp [hclosed]
    · simp [hquiet]
    · simp [hquiet]
  · rw [if_pos (by simp [hmuster, href, hactive, hcalm, hfree])] at hdoor
    refine ⟨fun hroom => ?_, fun hfull => ?_⟩
    · obtain ⟨n, v, hraise, hraises⟩ := raise_held (hheld.2 hroom) (x := .zone u.cfg.zone)
      refine ⟨n, v, hzone ▸ hraises, ?_⟩
      simp only [hdoor, hraise]
    · simp only [hdoor, raise_not_held (fun hroom => hfull (hheld.1 hroom))]

theorem hookLifted_taken (s : State) : EdgeTaken .hook .active s (s.hookEdge true) := by
  refine ⟨s.setHook true false, setHook_touches s true false, rfl, rfl, fun hincoming => ?_, fun hother => ?_⟩
  · rw [show s.hookEdge true = (s.setHook true false).answerCall from if_pos hincoming]
    exact connect_connects _
  · exact if_neg hother

theorem hookLaid_taken (s : State) : EdgeTaken .hook .inactive s (s.hookEdge false) := by
  refine ⟨s.setHook false false, setHook_touches s false false, rfl, rfl, fun hkept => ?_, fun hidle hpage => ?_⟩
  · refine if_neg (c := (s.setHook false false).clu.ctx.state.releasable = true) ?_
    have hstate : (s.setHook false false).clu.ctx.state = s.clu.ctx.state := rfl
    rcases hkept with hkept | hkept <;> rw [hstate, hkept] <;> exact Bool.false_ne_true
  · have hreleasable : (s.setHook false false).clu.ctx.state.releasable = true := by
      show s.clu.ctx.state.releasable = true
      cases hstate : s.clu.ctx.state with
      | idle => exact absurd hstate hidle
      | hearingPage => exact absurd hstate hpage
      | outgoing => rfl
      | ringback => rfl
      | incoming => rfl
      | connected => rfl
      | paging => rfl
    rw [show s.hookEdge false = (s.setHook false false).dropCall .normal from if_pos hreleasable]
    exact dropCall_releases _ .normal

theorem callAnswer_not_admitted {s : State} {callee : Nat} (h : callee = s.cfg.station
    ∨ (callee = 4095 ∧ s.cfg.operator = false) ∨ admissionLimit s.cfg.rate ≤ s.pru.heard.length) :
    s.callAnswer callee ≠ .ok := by
  unfold State.callAnswer
  intro hok
  split at hok
  · exact nomatch hok
  · split at hok
    · exact nomatch hok
    next hown =>
      split at hok
      · exact nomatch hok
      next hpage =>
        split at hok
        · exact nomatch hok
        · rw [if_pos ((h.resolve_left hown).resolve_left hpage)] at hok
          exact nomatch hok

/-- R113, R130: the button calls the hotline with the handset taken, or starts the deny tone. -/
theorem buttonPressed_taken (s : State) : EdgeTaken .callButton .active s s.buttonPressed := by
  refine ⟨fun hrun hidle hoff hfresh => ?_, fun hno => if_neg ?_⟩
  · have hpressed : s.buttonPressed = if s.cfg.hotline ≠ 0 ∧ s.callAnswer s.cfg.hotline = .ok
        then s.placeAdmitted s.cfg.hotline else s.startDeny :=
      if_pos ⟨hrun, hidle, by simp [State.handsetTaken, hoff, hfresh]⟩
    refine ⟨fun hset hown hpage hroom => ?_, fun hrefused => ?_⟩
    · rw [hpressed, if_pos ⟨hset, callAnswer_admitted ((running_iff s).1 hrun) hown hpage hidle hroom⟩, State.placeAdmitted]
      refine ⟨fun hcall => ?_, fun hall => ?_⟩
      · rw [if_neg hcall]
        exact placeCall_places s _
      · rw [if_pos hall]
        exact placePage_places s
    · rw [hpressed, if_neg fun ⟨hset, hok⟩ => callAnswer_not_admitted (hrefused.resolve_left hset) hok]
      exact ⟨startDeny_touches s, rfl⟩
  · rintro ⟨hrun, hidle, htaken⟩
    obtain ⟨hoff, hfresh⟩ : s.clu.hookOff = true ∧ s.clu.hookStale = false := by simpa [State.handsetTaken] using htaken
    rcases hno with hno | hno | hno | hno
    · exact nomatch hrun.symm.trans hno
    · exact hno hidle
    · exact nomatch hoff.symm.trans hno
    · exact nomatch hfresh.symm.trans hno

/-- R120, R123: push-to-talk takes the floor, or begins the talk span of a page. -/
theorem pttPressed_taken (s : State) : EdgeTaken .pushToTalk .active s s.pttPressed := by
  refine ⟨fun hconnected => ⟨fun hfree => ?_, fun hlocal => ?_, fun hremote => ?_⟩,
    fun hpaging => ⟨fun hfresh => ?_, fun hspan => ?_⟩, fun hno hno' => ?_⟩
  · obtain ⟨u, hu⟩ : ∃ u, u = s.sendMessage .floorTake none := ⟨_, rfl⟩
    have hpressed : s.pttPressed
        = (u.setCtx { u.clu.ctx with floor := some .localSide, talkDue := some (u.ms + 60000) }).startRun := by
      simp only [State.pttPressed, hconnected, hfree, hu]
    have hclu : u.clu = { s.clu with ctx := { s.clu.ctx with holdingDue := some (s.ms + 3000) } } := by
      rw [hu, sendMessage_clu, if_pos hconnected]
    have hms : u.ms = s.ms := by rw [hu, sendMessage_ms]
    obtain ⟨htouch, hstarted⟩ := startRun_started
      (u.setCtx { u.clu.ctx with floor := some .localSide, talkDue := some (u.ms + 60000) })
    have hcapture : (u.setCtx { u.clu.ctx with floor := some .localSide, talkDue := some (u.ms + 60000) }).clu.capture
        = s.clu.capture := (show _ = u.clu.capture from rfl).trans (by rw [hclu])
    rw [← hu, hpressed]
    refine ⟨((setCtx_touches u _).wide).andThen htouch, ?_, (htouch .context (by decide)).trans ?_⟩
    · rw [RunStarted, ← hcapture]
      exact hstarted
    · show ({ u.clu.ctx with floor := some .localSide, talkDue := some (u.ms + 60000) } : CallContext) = _
      rw [hclu, hms]
  · simp only [State.pttPressed, hconnected, hlocal]
  · have hpressed : s.pttPressed = (takeIn (.floorDenied s.callId) s).startDeny := by
      simp only [State.pttPressed, hconnected, hremote]
    have htones : (takeIn (.floorDenied s.callId) s).clu.tones = s.clu.tones := takeIn_touches _ s .tones (by decide)
    rw [hpressed]
    refine ⟨((takeIn_touches _ s).wide).andThen (startDeny_touches _), rfl, ?_⟩
    show ({ (takeIn (.floorDenied s.callId) s).clu.tones with deny := some 0 } : Tones) = _
    rw [htones]
  · have hpressed : s.pttPressed = (s.setCtx { s.clu.ctx with
        setupDue := none, talkSpan := true, talkDue := some (s.ms + 60000) }).startRun := by
      simp only [State.pttPressed, hpaging, hfresh, Bool.false_eq_true, if_false]
    obtain ⟨htouch, hstarted⟩ := startRun_started (s.setCtx { s.clu.ctx with
      setupDue := none, talkSpan := true, talkDue := some (s.ms + 60000) })
    rw [hpressed]
    exact ⟨((setCtx_touches s _).wide).andThen htouch, hstarted, htouch .context (by decide)⟩
  · simp only [State.pttPressed, hpaging, hspan, if_true]
  · cases hstate : s.clu.ctx.state with
    | connected => exact absurd hstate hno
    | paging => exact absurd hstate hno'
    | idle => simp only [State.pttPressed, hstate]
    | outgoing => simp only [State.pttPressed, hstate]
    | ringback => simp only [State.pttPressed, hstate]
    | incoming => simp only [State.pttPressed, hstate]
    | hearingPage => simp only [State.pttPressed, hstate]

theorem pttReleased_taken (s : State) : EdgeTaken .pushToTalk .inactive s s.pttReleased := by
  refine ⟨fun hconnected hlocal => ?_, fun hpaging hspan => ?_, fun hno => ?_⟩
  · rw [show s.pttReleased = s.giveFloor by simp only [State.pttReleased, hconnected, hlocal, if_true]]
    exact giveFloor_gives s hconnected
  · rw [show s.pttReleased = s.endPage by simp only [State.pttReleased, hpaging, hspan, if_true]]
    exact endPage_ends s
  · rcases hno with ⟨hconnected, hother⟩ | ⟨hpaging, hspan⟩ | ⟨hno, hno'⟩
    · simp only [State.pttReleased, hconnected, hother, if_false]
    · simp only [State.pttReleased, hpaging, hspan, Bool.false_eq_true, if_false]
    · cases hstate : s.clu.ctx.state with
      | connected => exact absurd hstate hno
      | paging => exact absurd hstate hno'
      | idle => simp only [State.pttReleased, hstate]
      | outgoing => simp only [State.pttReleased, hstate]
      | ringback => simp only [State.pttReleased, hstate]
      | incoming => simp only [State.pttReleased, hstate]
      | hearingPage => simp only [State.pttReleased, hstate]

/-- R172: an accepted edge is handed to the unit the table of 10.1 names. -/
theorem handEdge_taken (s : State) (i : Input) (x : Level) : EdgeTaken i x s (s.handEdge i x) := by
  cases i with
  | pullCord =>
    cases x with
    | active => exact pullCord_taken s
    | inactive => rfl
  | refugeDoor =>
    cases x with
    | active => exact doorEdge_taken s .active
    | inactive => exact doorEdge_taken s .inactive
  | pushToTalk =>
    cases x with
    | active => exact pttPressed_taken s
    | inactive => exact pttReleased_taken s
  | hook =>
    cases x with
    | active => exact hookLifted_taken s
    | inactive => exact hookLaid_taken s
  | callButton =>
    cases x with
    | active => exact buttonPressed_taken s
    | inactive => rfl
  | pulse =>
    cases x with
    | active => exact pulseEdge_taken s
    | inactive => rfl

/-! ### Cells and raw levels (R172 to R174) -/

section Cells

variable (s : State) (i : Input)

theorem cell_setCell (x : Cell) : (s.setCell i x).cell i = x := Vector.getElem_set_self _

theorem rawLevel_setRaw (x : Level) : (s.setRaw i x).rawLevel i = x := Vector.getElem_set_self _

theorem handEdge_cell (x : Level) : (s.handEdge i x).cell i = s.cell i := by
  have hcells : (s.handEdge i x).iou.cells = s.iou.cells := handEdge_touches s i x .cells (by cases i <;> decide)
  unfold State.cell
  rw [hcells]

theorem handEdge_rawLevel (x : Level) : (s.handEdge i x).rawLevel i = s.rawLevel i := by
  have hraw : (s.handEdge i x).iou.raw = s.iou.raw := handEdge_touches s i x .raw (by cases i <;> decide)
  unfold State.rawLevel
  rw [hraw]

theorem acceptEdge_cell (x : Level) (due : Option Nat) :
    (s.acceptEdge i x due).cell i = { s.cell i with level := x, due := due } :=
  (handEdge_cell _ i x).trans (cell_setCell s i _)

theorem afterMs_eq (n : Nat) : s.afterMs n = s.clock.usec + n * 1000 := by
  rw [State.afterMs, Nat.mul_comm]

end Cells

section RawChange

variable {s : State} {i : Input} {x : Level}

theorem exec_rawInputChange (h : s.rawLevel i ≠ x) : exec (.rawInputChange i x) s = .next ((s.setRaw i x).cellRaw i x) :=
  congrArg Host.Outcome.next (if_neg h)

theorem cellRaw_unset (hset : (s.cell i).setting = none) : (s.setRaw i x).cellRaw i x = s.setRaw i x := by
  have hset : ((s.setRaw i x).cell i).setting = none := hset
  simp only [State.cellRaw, hset]

variable {g : CellConfig} (hset : (s.cell i).setting = some g)
include hset

theorem cellRaw_delayed (hdelayed : g.immediate = false) : (s.setRaw i x).cellRaw i x
    = (s.setRaw i x).setCell i
        { s.cell i with due := if x = (s.cell i).level then none else some (s.clock.usec + g.t * 1000) } := by
  have hset : ((s.setRaw i x).cell i).setting = some g := hset
  simp only [State.cellRaw, hset, hdelayed, Bool.false_eq_true, if_false, afterMs_eq]
  rw [← hset]
  rfl

theorem cellRaw_accepts (himmediate : g.immediate = true) (hfree : (s.cell i).due = none) (hdiffers : x ≠ (s.cell i).level) :
    (s.setRaw i x).cellRaw i x = (s.setRaw i x).acceptEdge i x (some (s.clock.usec + g.t * 1000)) := by
  have hset : ((s.setRaw i x).cell i).setting = some g := hset
  have hcond : ((s.setRaw i x).cell i).due.isNone = true ∧ x ≠ ((s.setRaw i x).cell i).level :=
    ⟨Option.isNone_iff_eq_none.2 hfree, hdiffers⟩
  simp only [State.cellRaw, hset, himmediate, if_true, if_pos hcond, afterMs_eq]
  rfl

theorem cellRaw_held (himmediate : g.immediate = true) (hheld : (s.cell i).due ≠ none ∨ x = (s.cell i).level) :
    (s.setRaw i x).cellRaw i x = s.setRaw i x := by
  have hset : ((s.setRaw i x).cell i).setting = some g := hset
  have hcond : ¬ (((s.setRaw i x).cell i).due.isNone = true ∧ x ≠ ((s.setRaw i x).cell i).level) :=
    fun ⟨hfree, hdiffers⟩ => hheld.elim (fun hdue => hdue (Option.isNone_iff_eq_none.1 hfree)) hdiffers
  simp only [State.cellRaw, hset, himmediate, if_true, if_neg hcond]

end RawChange

section Expiry

variable {s : State} {i : Input} {g : CellConfig} {d : Nat} (hset : (s.cell i).setting = some g)
  (hdue : (s.cell i).due = some d) (hd : d ≤ s.clock.usec)
include hdue hd

theorem dueUs_cell : s.dueUs (s.cell i).due = true := by
  rw [hdue]
  exact decide_eq_true hd

include hset

theorem exec_debounceTimerExpiry_due (hdelayed : g.immediate = false) :
    exec (.debounceTimerExpiry i) s = .next (s.acceptEdge i (s.rawLevel i) none) := by
  refine congrArg Host.Outcome.next ?_
  simp only [hset]
  exact if_pos (by simp [hdelayed, dueUs_cell hdue hd])

theorem exec_immediateHoldExpiry_due (himmediate : g.immediate = true) : exec (.immediateHoldExpiry i) s
    = .next (if s.rawLevel i = (s.cell i).level then s.setCell i { s.cell i with due := none }
        else s.acceptEdge i (s.rawLevel i) (some (s.clock.usec + g.t * 1000))) := by
  refine congrArg Host.Outcome.next ?_
  simp only [hset, ← afterMs_eq]
  exact if_pos (by simp [himmediate, dueUs_cell hdue hd])

end Expiry

/-! ### The cadence generator (R175) -/

theorem exec_cadencePhaseChange_due {s : State} {g : Cadence} (hg : s.iou.cadence = some g) (hdue : g.due ≤ s.ms) :
    exec .cadencePhaseChange s
      = .next (s.setIou { s.iou with cadence := some { phase := (g.phase + 1) % 8, due := g.due + 125 } }) := by
  refine congrArg Host.Outcome.next ?_
  simp only [hg]
  exact if_pos (decide_eq_true hdue)

/-- Settles O54: a raw change, the two expiries, each with its edge, and the change of phase. -/
theorem inputsAndCadenceResult : Obligations.InputsAndCadenceResult := by
  refine ⟨fun s i x hraw => ⟨fun hset => ?_, fun g hset hdelayed => ?_, fun g hset himmediate hfree hdiffers => ?_,
    fun g hset himmediate hheld => ?_⟩, fun s i g d hset hdue hd => ⟨fun hdelayed => ?_, fun himmediate hsame => ?_,
    fun himmediate hdiffers => ?_⟩, fun s g hg hdue => ?_⟩
  · refine ⟨_, exec_rawInputChange hraw, ?_⟩
    rw [cellRaw_unset hset]
    exact ⟨rawLevel_setRaw s i x, setRaw_touches s i x⟩
  · refine ⟨_, exec_rawInputChange hraw, ?_⟩
    rw [cellRaw_delayed hset hdelayed]
    exact ⟨rawLevel_setRaw s i x, cell_setCell _ i _, ((setRaw_touches s i x).wide).andThen (setCell_touches _ i _)⟩
  · rw [exec_rawInputChange hraw, cellRaw_accepts hset himmediate hfree hdiffers]
    refine ⟨_, _, rfl, (handEdge_rawLevel _ i x).trans (rawLevel_setRaw s i x), acceptEdge_cell (s.setRaw i x) i x _,
      ((setRaw_touches s i x).wide).andThen (setCell_touches _ i _), handEdge_taken _ i x⟩
  · refine ⟨_, exec_rawInputChange hraw, ?_⟩
    rw [cellRaw_held hset himmediate hheld]
    exact ⟨rawLevel_setRaw s i x, setRaw_touches s i x⟩
  · exact ⟨_, _, exec_debounceTimerExpiry_due hset hdue hd hdelayed, acceptEdge_cell s i _ none, setCell_touches s i _,
      handEdge_taken _ i _⟩
  · refine ⟨_, exec_immediateHoldExpiry_due hset hdue hd himmediate, ?_⟩
    rw [if_pos hsame]
    exact ⟨cell_setCell s i _, setCell_touches s i _⟩
  · rw [exec_immediateHoldExpiry_due hset hdue hd himmediate, if_neg hdiffers]
    exact ⟨_, _, rfl, acceptEdge_cell s i _ _, setCell_touches s i _, handEdge_taken _ i _⟩
  · refine ⟨_, exec_cadencePhaseChange_due hg hdue, rfl, ?_, ?_, rfl⟩
    · simp [Iou.cadenceOn, hg]
    · simp [Iou.cadenceOn, hg]

end Sys2Proof.Machine


/-! The track table, lane states, conflicts and the evaluation of the lane monitor (O57). -/

namespace Sys2Proof.Machine

/-! ### The first of a list under an order, and tables ordered by a number -/

/-- The element that every other one stands strictly above is the one chosen. -/
theorem firstBy_least {α : Type} {le : α → α → Bool} (tr : ∀ a b c, le a b = true → le b c = true → le a c = true)
    (tot : ∀ a b, le a b = false → le b a = true) {xs : List α} {v : α} (hv : v ∈ xs)
    (hleast : ∀ x ∈ xs, x ≠ v → le x v = false) : firstBy le xs = some v := by
  cases hf : firstBy le xs with
  | none =>
    rw [firstBy_none _ _ hf] at hv
    cases hv
  | some m =>
    by_cases hm : m = v
    · rw [hm]
    · have hlow := hleast m (firstBy_mem _ _ _ hf) hm
      obtain hle | heq := firstBy_le tr tot hf v hv
      · exact nomatch hlow.symm.trans hle
      · exact absurd heq.symm hm

section Ordered

variable {α : Type} {f : α → Nat} {xs : List α} (hxs : xs.Pairwise (fun a b => f a < f b))
include hxs

theorem pairwise_lt_inj {x y : α} (hx : x ∈ xs) (hy : y ∈ xs) (h : f x = f y) : x = y :=
  List.inj_on_of_nodup_map (List.pairwise_map.2 (hxs.imp fun hlt => Nat.ne_of_lt hlt)) hx hy h

theorem find?_of_mem {x : α} (hx : x ∈ xs) (p : α → Bool) (hp : ∀ y ∈ xs, p y = true ↔ f y = f x) :
    xs.find? p = some x := by
  cases hf : xs.find? p with
  | none => exact absurd ((hp x hx).2 rfl) (by simpa using List.find?_eq_none.1 hf x hx)
  | some y =>
    have hy := List.mem_of_find?_eq_some hf
    rw [pairwise_lt_inj hxs hy hx ((hp y hy).1 (List.find?_some hf))]

end Ordered

/-! ### The track table (R142) -/

theorem replacesSighting_iff (t : Track) (x : TruckSighting) : replacesSighting t x = true
    ↔ x.reporter = t.reporter ∨ t.strength + 6 < x.strength ∨ t.sighted + 3000 < x.time := by
  simp [replacesSighting, or_assoc]

section EnterTrack

variable {ts : List Track} {x : TruckSighting}

theorem enterTrack_replaces {t : Track} (h : ts.find? (fun y => decide (y.tag = x.tag)) = some t)
    (hreplaces : x.reporter = t.reporter ∨ t.strength + 6 < x.strength ∨ t.sighted + 3000 < x.time) :
    enterTrack ts x = (ts.map (fun u => if u.tag = x.tag then u.sightedBy x else u), true) := by
  simp only [enterTrack, h, if_pos ((replacesSighting_iff t x).2 hreplaces)]

theorem enterTrack_stands {t : Track} (h : ts.find? (fun y => decide (y.tag = x.tag)) = some t)
    (hreporter : x.reporter ≠ t.reporter) (hweak : x.strength ≤ t.strength + 6) (hearly : x.time ≤ t.sighted + 3000) :
    enterTrack ts x = (ts, false) := by
  have hno : ¬ replacesSighting t x = true := by
    rw [replacesSighting_iff]
    omega
  simp only [enterTrack, h, if_neg hno]

variable (h : ts.find? (fun y => decide (y.tag = x.tag)) = none)
include h

theorem enterTrack_adds (hroom : ts.length < 16) :
    enterTrack ts x = (insertBy trackBefore (.ofSighting x) ts, true) := by
  simp only [enterTrack, h, if_pos hroom]

theorem enterTrack_displaces {v : Track} (hfull : 16 ≤ ts.length) (hv : trackVictim ts = some v) :
    enterTrack ts x
      = (insertBy trackBefore (.ofSighting x) (ts.filter (fun t => decide (t.tag ≠ v.tag))), true) := by
  simp only [enterTrack, h, if_neg (Nat.not_lt.2 hfull), hv]

theorem enterTrack_full (hfull : 16 ≤ ts.length) (hv : trackVictim ts = none) : enterTrack ts x = (ts, false) := by
  simp only [enterTrack, h, if_neg (Nat.not_lt.2 hfull), hv]

end EnterTrack

theorem trackVictim_none {ts : List Track} (h : ∀ y ∈ ts, y.lane ≠ .outside) : trackVictim ts = none := by
  have hnone : ts.filter (fun t => decide (t.lane = .outside)) = [] :=
    List.filter_eq_nil_iff.2 fun y hy => by simpa using h y hy
  rw [trackVictim, hnone]
  rfl

theorem trackVictim_some {ts : List Track} {v : Track} (hv : v ∈ ts) (hlane : v.lane = .outside)
    (hleast : ∀ y ∈ ts, y.lane = .outside → y.tag ≠ v.tag →
      v.sighted < y.sighted ∨ v.sighted = y.sighted ∧ v.tag < y.tag)
    (hts : ts.Pairwise (fun a b => a.tag < b.tag)) : trackVictim ts = some v := by
  refine firstBy_least (fun a b c hab hbc => by simp only [decide_eq_true_eq] at hab hbc ⊢; omega)
    (fun a b hab => by simp only [decide_eq_true_eq, decide_eq_false_iff_not] at hab ⊢; omega)
    (List.mem_filter.2 ⟨hv, decide_eq_true hlane⟩) fun y hy hne => ?_
  obtain ⟨hyts, hylane⟩ := List.mem_filter.1 hy
  have htag : y.tag ≠ v.tag := fun e => hne (pairwise_lt_inj hts hyts hv e)
  have hlow := hleast y hyts (of_decide_eq_true hylane) htag
  rw [decide_eq_false_iff_not]
  omega

/-! ### Lane states (R143) -/

section Lane

variable {x : LaneSection} {t : Track}

theorem claims_iff (t : Track) (h : Heading) (d : LaneDir) : t.claims h d = true
    ↔ t.heading = h ∨ (t.heading = .stopped ∧ t.lane = .approaching ∧ t.dir = some d) := by
  simp [Track.claims, and_assoc]

theorem placeTrack_outside {lane : Option LaneSection} (h : lanePlace lane t = (.outside, none)) (now : Nat) :
    placeTrack lane now t
      = { t with lane := .outside, dir := none, entered := none, advisory := none, repeatDue := none } := by
  simp only [placeTrack, h, if_true]

theorem placeTrack_inside {lane : Option LaneSection} {l : LaneState} {d : Option LaneDir}
    (h : lanePlace lane t = (l, d)) (hl : l ≠ .outside) (now : Nat) : placeTrack lane now t
      = { t with lane := l, dir := d, entered := if t.lane = .outside then some now else t.entered } := by
  simp only [placeTrack, h, if_neg hl]

theorem lanePlace_inSection (hlow : x.pLow ≤ t.chainage) (hhigh : t.chainage ≤ x.pHigh) :
    lanePlace (some x) t = (.inSection, match t.heading with
      | .inbye => some .inbye
      | .outbye => some .outbye
      | .stopped => t.dir) := by
  refine (if_pos ⟨hlow, hhigh⟩).trans ?_
  cases t.heading <;> rfl

theorem lanePlace_inbye (hnear : x.pLow ≤ t.chainage + x.approach) (hbefore : t.chainage < x.pLow)
    (hclaims : t.heading = .inbye ∨ (t.heading = .stopped ∧ t.lane = .approaching ∧ t.dir = some .inbye)) :
    lanePlace (some x) t = (.approaching, some .inbye) :=
  (if_neg (by omega)).trans (if_pos ⟨hnear, hbefore, (claims_iff t .inbye .inbye).2 hclaims⟩)

theorem lanePlace_outbye (hsection : x.pLow ≤ x.pHigh) (hnear : t.chainage ≤ x.pHigh + x.approach)
    (hafter : x.pHigh < t.chainage)
    (hclaims : t.heading = .outbye ∨ (t.heading = .stopped ∧ t.lane = .approaching ∧ t.dir = some .outbye)) :
    lanePlace (some x) t = (.approaching, some .outbye) :=
  (if_neg (by omega)).trans ((if_neg (by omega)).trans
    (if_pos ⟨hafter, hnear, (claims_iff t .outbye .outbye).2 hclaims⟩))

theorem lanePlace_outside (hsection : x.pLow ≤ x.pHigh)
    (h : t.chainage + x.approach < x.pLow ∨ x.pHigh + x.approach < t.chainage
      ∨ (t.chainage < x.pLow ∧ t.heading ≠ .inbye ∧ (t.heading = .outbye ∨ t.lane ≠ .approaching ∨ t.dir ≠ some .inbye))
      ∨ (x.pHigh < t.chainage ∧ t.heading ≠ .outbye
          ∧ (t.heading = .inbye ∨ t.lane ≠ .approaching ∨ t.dir ≠ some .outbye))) :
    lanePlace (some x) t = (.outside, none) := by
  have hbetween : ¬ (x.pLow ≤ t.chainage ∧ t.chainage ≤ x.pHigh) := by omega
  have hbefore : ¬ (x.pLow ≤ t.chainage + x.approach ∧ t.chainage < x.pLow ∧ t.claims .inbye .inbye = true) := by
    rw [claims_iff]
    rintro ⟨hnear, hlow, hclaims⟩
    obtain ⟨-, hno, hnot⟩ := (h.resolve_left (by omega)).resolve_left (by omega) |>.resolve_right (by omega)
    obtain hin | ⟨hstop, happroaching, hdir⟩ := hclaims
    · exact hno hin
    · exact hnot.elim (fun hout => nomatch hstop.symm.trans hout) fun hnot => hnot.elim (· happroaching) (· hdir)
  have hafter : ¬ (x.pHigh < t.chainage ∧ t.chainage ≤ x.pHigh + x.approach ∧ t.claims .outbye .outbye = true) := by
    rw [claims_iff]
    rintro ⟨hhigh, hnear, hclaims⟩
    obtain ⟨-, hno, hnot⟩ := (h.resolve_left (by omega)).resolve_left (by omega) |>.resolve_left (by omega)
    obtain hout | ⟨hstop, happroaching, hdir⟩ := hclaims
    · exact hno hout
    · exact hnot.elim (fun hin => nomatch hstop.symm.trans hin) fun hnot => hnot.elim (· happroaching) (· hdir)
  exact (if_neg hbetween).trans ((if_neg hbefore).trans (if_neg hafter))

end Lane

/-! ### Conflicts (R144) -/

theorem keyLe_nil : keyLe [] [] = true := rfl

theorem keyLe_cons (a b : Nat) (as bs : List Nat) :
    keyLe (a :: as) (b :: bs) = true ↔ a < b ∨ (a = b ∧ keyLe as bs = true) := by
  rw [keyLe]
  split
  next h => simp [h]
  next h =>
    split
    next h' => simp only [Bool.false_eq_true, false_iff]; omega
    next h' =>
      have heq : a = b := by omega
      simp [heq]

theorem keyLe_trans : ∀ xs ys zs : List Nat, keyLe xs ys = true → keyLe ys zs = true → keyLe xs zs = true
  | [], _, _, _, _ => rfl
  | _ :: _, [], _, h, _ => nomatch h
  | _ :: _, _ :: _, [], _, h => nomatch h
  | x :: xs, y :: ys, z :: zs, hxy, hyz => by
    rw [keyLe_cons] at hxy hyz ⊢
    obtain hxy | ⟨hxy, hxs⟩ := hxy <;> obtain hyz | ⟨hyz, hys⟩ := hyz
    · exact .inl (by omega)
    · exact .inl (by omega)
    · exact .inl (by omega)
    · exact .inr ⟨by omega, keyLe_trans xs ys zs hxs hys⟩

theorem keyLe_total : ∀ xs ys : List Nat, keyLe xs ys = false → keyLe ys xs = true
  | [], _, h => nomatch h
  | _ :: _, [], _ => rfl
  | x :: xs, y :: ys, h => by
    rw [← Bool.not_eq_true, keyLe_cons] at h
    rw [keyLe_cons]
    push Not at h
    obtain ⟨hle, hrest⟩ := h
    obtain hlt | heq := Nat.lt_or_eq_of_le hle
    · exact .inl hlt
    · exact .inr ⟨heq, keyLe_total xs ys (Bool.eq_false_iff.2 (hrest heq.symm))⟩

theorem laneRank_lt (a b : LaneState) : ((if a = .inSection then 0 else 1) < if b = .inSection then 0 else 1)
    ↔ a = .inSection ∧ b ≠ .inSection := by
  by_cases ha : a = .inSection <;> by_cases hb : b = .inSection <;> simp [ha, hb]

theorem laneRank_eq (a b : LaneState) : ((if a = .inSection then 0 else 1) = if b = .inSection then 0 else 1)
    ↔ (a = .inSection ↔ b = .inSection) := by
  by_cases ha : a = .inSection <;> by_cases hb : b = .inSection <;> simp [ha, hb]

theorem loadRank_lt (a b : Bool) : ((if a then 0 else 1) < if b then 0 else 1) ↔ a = true ∧ b = false := by
  cases a <;> cases b <;> decide

theorem loadRank_eq (a b : Bool) : ((if a then 0 else 1) = if b then 0 else 1) ↔ a = b := by
  cases a <;> cases b <;> decide

theorem dirRank_lt : ∀ a b : Option LaneDir, dirRank a < dirRank b
    ↔ (a = some .outbye ∧ b ≠ some .outbye) ∨ (a = some .inbye ∧ b = none)
  | none, none => by decide
  | none, some .inbye => by decide
  | none, some .outbye => by decide
  | some .inbye, none => by decide
  | some .inbye, some .inbye => by decide
  | some .inbye, some .outbye => by decide
  | some .outbye, none => by decide
  | some .outbye, some .inbye => by decide
  | some .outbye, some .outbye => by decide

theorem dirRank_eq : ∀ a b : Option LaneDir, dirRank a = dirRank b ↔ a = b
  | none, none => by decide
  | none, some .inbye => by decide
  | none, some .outbye => by decide
  | some .inbye, none => by decide
  | some .inbye, some .inbye => by decide
  | some .inbye, some .outbye => by decide
  | some .outbye, none => by decide
  | some .outbye, some .inbye => by decide
  | some .outbye, some .outbye => by decide

/-- R144: the tests in order, for two claimants of different tags. -/
theorem claimsBefore_of_keyLe {w t : Track} (htag : t.tag ≠ w.tag) (h : keyLe w.claimKey t.claimKey = true) :
    ClaimsBefore w t := by
  simp only [Track.claimKey, keyLe_cons, laneRank_lt, laneRank_eq, loadRank_lt, loadRank_eq, dirRank_lt, dirRank_eq,
    keyLe_nil, and_true] at h
  obtain hlane | ⟨hlane, hload | ⟨hload, (hdir | hdir) | ⟨hdir, hrest⟩⟩⟩ := h
  · exact .inl hlane
  · exact .inr ⟨hlane, .inl hload⟩
  · exact .inr ⟨hlane, .inr ⟨hload, .inl hdir⟩⟩
  · exact .inr ⟨hlane, .inr ⟨hload, .inr (.inl hdir)⟩⟩
  · exact .inr ⟨hlane, .inr ⟨hload, .inr (.inr ⟨hdir, by omega⟩)⟩⟩

theorem claimant_iff (t : Track) : t.claimant = true ↔ t.lane ≠ .outside := decide_eq_true_iff

theorem winnerOf_none (ts : List Track) : winnerOf ts = none ↔ ∀ t ∈ ts, t.lane = .outside := by
  refine ⟨fun h t ht => ?_, fun h => ?_⟩
  · have hempty := firstBy_none _ _ h
    by_contra hlane
    exact List.filter_eq_nil_iff.1 hempty t ht ((claimant_iff t).2 hlane)
  · have hempty : ts.filter Track.claimant = [] := List.filter_eq_nil_iff.2 fun t ht hclaims =>
      (claimant_iff t).1 hclaims (h t ht)
    rw [winnerOf, hempty]
    rfl

theorem winnerOf_some {ts : List Track} {w : Track} (h : winnerOf ts = some w) : w ∈ ts ∧ w.lane ≠ .outside
    ∧ ∀ t ∈ ts, t.lane ≠ .outside → t.tag ≠ w.tag → ClaimsBefore w t := by
  obtain ⟨hmem, hclaims⟩ := List.mem_filter.1 (firstBy_mem _ _ _ h)
  refine ⟨hmem, (claimant_iff w).1 hclaims, fun t ht hlane htag => ?_⟩
  have hle := firstBy_le (fun a b c => keyLe_trans a.claimKey b.claimKey c.claimKey)
    (fun a b => keyLe_total a.claimKey b.claimKey) h t (List.mem_filter.2 ⟨ht, (claimant_iff t).2 hlane⟩)
  exact claimsBefore_of_keyLe htag (hle.resolve_right fun e => htag (congrArg Track.tag e))

theorem isLoser_iff (w t : Track) :
    isLoser w t = true ↔ t.tag ≠ w.tag ∧ (t.dir ≠ w.dir ∨ t.dir = none ∨ w.dir = none) := by
  simp [isLoser, or_assoc]

end Sys2Proof.Machine


/-! The advisory queue, and one evaluation of the lane monitor (O57). -/

namespace Sys2Proof.Machine

/-! ### Queueing beside the lane monitor's own fields (R145 to R149) -/

/-- The state with other tracks and outputs. -/
def State.laneDressed (s : State) (ts : List Track) (x : Iou) : State := (s.setTracks ts).setIou x

theorem startSending_laneDressed (s : State) (ts : List Track) (x : Iou) :
    (s.laneDressed ts x).startSending = s.startSending.laneDressed ts x := by
  have hcond : ((s.laneDressed ts x).running && (s.laneDressed ts x).tgu.sending.isNone)
      = (s.running && s.tgu.sending.isNone) := rfl
  have hqueue : (s.laneDressed ts x).tgu.advisories = s.tgu.advisories := rfl
  unfold State.startSending
  rw [hcond, hqueue]
  by_cases h : (s.running && s.tgu.sending.isNone) = true
  · rw [if_pos h, if_pos h]
    cases s.tgu.advisories <;> rfl
  · rw [if_neg h, if_neg h]

/-- The queue takes no account of the tracks and the outputs. -/
theorem queueAdvisory_laneDressed (a : Advisory) (s : State) (ts : List Track) (x : Iou) :
    (s.laneDressed ts x).queueAdvisory a = (s.queueAdvisory a).laneDressed ts x := by
  have hlink : (s.laneDressed ts x).cfg.link = s.cfg.link := rfl
  have hqueue : (s.laneDressed ts x).tgu.advisories = s.tgu.advisories := rfl
  unfold State.queueAdvisory
  dsimp only
  rw [hlink, hqueue]
  by_cases h : s.cfg.link = .notUsed
  · rw [if_pos h, if_pos h]
  · rw [if_neg h, if_neg h, ← startSending_laneDressed]
    congr 1
    split <;> rfl

/-- Every advisory of a list queued, in order. -/
def State.queueAll (s : State) (as : List Advisory) : State := as.foldl (fun v a => State.queueAdvisory a v) s

theorem queueAll_laneDressed (as : List Advisory) : ∀ (s : State) (ts : List Track) (x : Iou),
    (s.laneDressed ts x).queueAll as = (s.queueAll as).laneDressed ts x := by
  induction as with
  | nil => exact fun s ts x => rfl
  | cons a as ih => exact fun s ts x => (congrArg (State.queueAll · as) (queueAdvisory_laneDressed a s ts x)).trans (ih _ ts x)

theorem queueAll_append (s : State) (as bs : List Advisory) : s.queueAll (as ++ bs) = (s.queueAll as).queueAll bs :=
  List.foldl_append

theorem queueAll_touches (s : State) (as : List Advisory) : OnlyTouches advisoryFoot s (s.queueAll as) :=
  .foldl _ (fun t a => queueAdvisory_touches a t) as s

theorem queueAll_iou (s : State) (as : List Advisory) : (s.queueAll as).iou = s.iou := by
  have htouch := queueAll_touches s as
  have hraw : (s.queueAll as).iou.raw = s.iou.raw := htouch .raw (by decide)
  have hcells : (s.queueAll as).iou.cells = s.iou.cells := htouch .cells (by decide)
  have hcadence : (s.queueAll as).iou.cadence = s.iou.cadence := htouch .cadence (by decide)
  obtain ⟨hout, hin⟩ := htouch .lamps (by decide)
  have hsounder : (s.queueAll as).iou.sounder = s.iou.sounder := htouch .sounder (by decide)
  rcases ht : (s.queueAll as).iou
  rcases hs : s.iou
  simp_all

/-! ### The general evacuation advisory (R145) -/

/-- The general advisory an evaluation queues. -/
def State.generalAdvisory (s : State) : List Advisory :=
  if s.evacuation = true ∧ s.tgu.evacHeld = false ∧ s.cfg.link ≠ .notUsed then [evacuateAdvisory] else []

/-- The evacuation condition held, and its repeat timer. -/
def State.evacuationMarked (s : State) : State :=
  s.setTgu { s.tgu with
    evacHeld := s.evacuation,
    evacDue := if s.evacuation = false then none
      else if s.tgu.evacHeld = false ∧ s.cfg.link ≠ .notUsed then some (s.ms + 2000) else s.tgu.evacDue }

theorem evacuationMarked_touches (s : State) : OnlyTouches [.evacuation] s s.evacuationMarked := by
  intro x hx
  cases x <;> first | rfl | exact ⟨rfl, rfl⟩ | exact ⟨rfl, rfl, rfl⟩ | exact absurd (by decide) hx

theorem evacuationStep_eq (s : State) : s.evacuationStep = s.evacuationMarked.queueAll s.generalAdvisory := by
  unfold State.evacuationStep State.evacuationMarked State.generalAdvisory State.queueEvacuate
  cases hnow : s.evacuation with
  | false => rfl
  | true =>
    cases hheld : s.tgu.evacHeld with
    | true => rfl
    | false =>
      by_cases hlink : s.cfg.link = .notUsed
      · simp [hlink]
        rfl
      · simp [hlink]
        rfl

/-! ### The evaluation (R143 to R149) -/

/-- The tracks with their lane states. -/
def State.lanePlaced (s : State) : List Track := s.tgu.tracks.map (placeTrack s.cfg.lane s.ms)

/-- The advisory of a claimant at an evaluation. -/
def State.laneChoice (s : State) : Track → AdvisoryCode :=
  chooseAdvisory s.zae.lockout (decide (0 < s.personsNear)) (winnerOf s.lanePlaced)

/-- The tracks with their advisories. -/
def State.laneAdvised (s : State) : List (Option Advisory × Track) :=
  s.lanePlaced.map (adviseTrack s.evacuation s.zae.lockout (decide (0 < s.personsNear)) (winnerOf s.lanePlaced) s.ms)

/-- The lamps at an evaluation. -/
def State.laneLamps (s : State) : LampSetting × LampSetting :=
  lampSettings s.evacuation s.zae.lockout (decide (0 < s.personsNear)) (winnerOf s.lanePlaced)

/-- What an evaluation leaves but for its queueing, at a station with a lane section. -/
def State.laneMarked (s : State) : State :=
  s.evacuationMarked.laneDressed (s.laneAdvised.map Prod.snd)
    { s.iou with lampOut := some s.laneLamps.1, lampIn := some s.laneLamps.2 }

theorem laneMarked_touches (s : State) : OnlyTouches [.tracks, .evacuation, .lamps] s s.laneMarked := by
  intro x hx
  cases x <;> first | rfl | exact ⟨rfl, rfl⟩ | exact ⟨rfl, rfl, rfl⟩ | exact absurd (by decide) hx

theorem laneEvaluate_without {s : State} (hrun : s.running = true) (hlane : s.cfg.lane = none) :
    s.laneEvaluate = (s.setTracks s.lanePlaced).evacuationMarked.queueAll s.generalAdvisory := by
  obtain ⟨p, hp⟩ : ∃ p, p = s.setTracks s.lanePlaced := ⟨_, rfl⟩
  have hcfg : p.evacuationStep.cfg = s.cfg := (touched_cfg (evacuationStep_touches p)).trans (by rw [hp]; rfl)
  have hgeneral : p.generalAdvisory = s.generalAdvisory := by rw [hp]; rfl
  refine (if_neg (by rw [hrun]; exact Bool.false_ne_true)).trans ?_
  rw [show s.setTgu { s.tgu with tracks := s.tgu.tracks.map (placeTrack s.cfg.lane s.ms) } = p from hp.symm]
  simp only [hcfg, hlane]
  rw [evacuationStep_eq, hgeneral, hp]

/-- R149: an evaluation queues its advisories on a state with its fields set. -/
theorem laneEvaluate_with {s : State} {x : LaneSection} (hrun : s.running = true) (hlane : s.cfg.lane = some x) :
    s.laneEvaluate = s.laneMarked.queueAll (s.generalAdvisory ++ s.laneAdvised.filterMap Prod.fst) := by
  obtain ⟨p, hp⟩ : ∃ p, p = s.setTracks s.lanePlaced := ⟨_, rfl⟩
  have hstep : p.evacuationStep = p.evacuationMarked.queueAll s.generalAdvisory := by
    rw [evacuationStep_eq, hp]
    rfl
  have htouch := evacuationStep_touches p
  have hcfg : p.evacuationStep.cfg = s.cfg := (touched_cfg htouch).trans (by rw [hp]; rfl)
  have hms : p.evacuationStep.ms = s.ms := (touched_ms htouch).trans (by rw [hp]; rfl)
  have hlockout : p.evacuationStep.zae.lockout = s.zae.lockout := (htouch .lockout (by decide)).trans (by rw [hp]; rfl)
  have htracks : p.evacuationStep.tgu.tracks = s.lanePlaced := (htouch .tracks (by decide)).trans (by rw [hp]; rfl)
  have hafter : ((p.evacuationStep.setTracks (s.laneAdvised.map Prod.snd)).queueAll
      (s.laneAdvised.filterMap Prod.fst)).zae.lockout = s.zae.lockout :=
    (queueAll_touches _ _ .lockout (by decide)).trans hlockout
  have hwhole : s.laneEvaluate = ((p.evacuationStep.setTracks (s.laneAdvised.map Prod.snd)).queueAll
      (s.laneAdvised.filterMap Prod.fst)).setLamps s.laneLamps := by
    refine (if_neg (by rw [hrun]; exact Bool.false_ne_true)).trans ?_
    rw [show s.setTgu { s.tgu with tracks := s.tgu.tracks.map (placeTrack s.cfg.lane s.ms) } = p from hp.symm]
    have hnear : p.personsNear = s.personsNear := by rw [hp]; rfl
    have hevac : p.evacuation = s.evacuation := by rw [hp]; rfl
    have hplaced : p.tgu.tracks = s.lanePlaced := by rw [hp]; rfl
    simp only [hcfg, hlane, hms, hlockout, htracks, hnear, hevac, hplaced]
    exact congrArg (fun l => State.setLamps _ (lampSettings s.evacuation l _ _)) hafter
  obtain ⟨q, hq⟩ : ∃ q, q = p.evacuationMarked := ⟨_, rfl⟩
  have hiou : (q.queueAll s.generalAdvisory).iou = s.iou := (queueAll_iou _ _).trans (by rw [hq, hp]; rfl)
  have hdressed : p.evacuationStep.setTracks (s.laneAdvised.map Prod.snd)
      = (q.queueAll s.generalAdvisory).laneDressed (s.laneAdvised.map Prod.snd) s.iou := by
    rw [hstep, ← hq, ← hiou]
    rfl
  have hmarked : s.laneMarked = q.laneDressed (s.laneAdvised.map Prod.snd)
      { s.iou with lampOut := some s.laneLamps.1, lampIn := some s.laneLamps.2 } := by
    rw [hq, hp]
    rfl
  rw [hwhole, hdressed, hmarked, queueAll_laneDressed, queueAll_laneDressed, queueAll_append]
  rfl

/-! ### The tracks and the counts after an evaluation -/

theorem queueAll_tracks (s : State) (as : List Advisory) : (s.queueAll as).tgu.tracks = s.tgu.tracks :=
  queueAll_touches s as .tracks (by decide)

theorem lanePlaced_tags (s : State) : s.lanePlaced.map Track.tag = s.tgu.tracks.map Track.tag := by
  rw [State.lanePlaced, List.map_map]
  exact List.map_congr_left fun t _ => placeTrack_tag _ _ t

theorem laneAdvised_tags (s : State) : (s.laneAdvised.map Prod.snd).map Track.tag = s.tgu.tracks.map Track.tag := by
  rw [← lanePlaced_tags, State.laneAdvised, List.map_map, List.map_map]
  exact List.map_congr_left fun t _ => adviseTrack_tag _ _ _ _ _ t

/-- R142: an evaluation keeps every track. -/
theorem laneEvaluate_tags (s : State) : s.laneEvaluate.tgu.tracks.map Track.tag = s.tgu.tracks.map Track.tag := by
  cases hrun : s.running with
  | false => rw [laneEvaluate_not_running hrun]
  | true =>
    cases hlane : s.cfg.lane with
    | none =>
      rw [laneEvaluate_without hrun hlane, queueAll_tracks]
      exact lanePlaced_tags s
    | some x =>
      rw [laneEvaluate_with hrun hlane, queueAll_tracks]
      exact laneAdvised_tags s

theorem laneEvaluate_length (s : State) : s.laneEvaluate.tgu.tracks.length = s.tgu.tracks.length := by
  rw [← List.length_map Track.tag, laneEvaluate_tags, List.length_map]

theorem evaluateLockout_length (s : State) : s.evaluateLockout.tgu.tracks.length = s.tgu.tracks.length := by
  unfold State.evaluateLockout
  dsimp only
  split
  · rfl
  · exact laneEvaluate_length _

/-! ### The advisories and the lamps of an evaluation (R145, R146, R148) -/

theorem personsNear_pos (s : State) : 0 < s.personsNear ↔ ∃ n ∈ s.tgu.near, n.kind = .person ∧ n.near = true := by
  simp [State.personsNear, List.countP_pos_iff]

section Advise

variable (evacuation lockout near : Bool) (winner : Option Track) (now : Nat) (t : Track)

theorem adviseTrack_track : (adviseTrack evacuation lockout near winner now t).2
    = if t.lane = .outside then t
      else if evacuation = true then { t with advisory := none, repeatDue := none }
      else if t.advisory = some (chooseAdvisory lockout near winner t) then t
      else { t with
        advisory := some (chooseAdvisory lockout near winner t), repeatDue := some (now + 2000) } := by
  unfold adviseTrack
  by_cases hlane : t.lane = .outside
  · simp [Track.claimant, hlane]
  · cases evacuation with
    | true => simp [Track.claimant, hlane]
    | false =>
      by_cases hadvised : t.advisory = some (chooseAdvisory lockout near winner t)
      · simp [Track.claimant, hlane, hadvised]
      · simp [Track.claimant, hlane, hadvised]

theorem adviseTrack_advisory : (adviseTrack evacuation lockout near winner now t).1
    = if t.lane ≠ .outside ∧ evacuation = false ∧ t.advisory ≠ some (chooseAdvisory lockout near winner t)
      then some { tag := t.tag, code := chooseAdvisory lockout near winner t, validity := 5 } else none := by
  unfold adviseTrack
  by_cases hlane : t.lane = .outside
  · simp [Track.claimant, hlane]
  · cases evacuation with
    | true => simp [Track.claimant, hlane]
    | false =>
      by_cases hadvised : t.advisory = some (chooseAdvisory lockout near winner t)
      · simp [Track.claimant, hlane, hadvised]
      · simp [Track.claimant, hlane, hadvised]

end Advise

theorem filterMap_ite {α β : Type} (p : α → Prop) [DecidablePred p] (f : α → β) (xs : List α) :
    xs.filterMap (fun x => if p x then some (f x) else none) = (xs.filter (fun x => decide (p x))).map f := by
  induction xs with
  | nil => rfl
  | cons x xs ih => by_cases h : p x <;> simp [h, ih]

theorem laneAdvised_queued (s : State) : s.laneAdvised.filterMap Prod.fst
    = (s.lanePlaced.filter (fun t => decide (t.lane ≠ .outside ∧ s.evacuation = false
        ∧ t.advisory ≠ some (s.laneChoice t)))).map (fun t => { tag := t.tag, code := s.laneChoice t, validity := 5 }) := by
  rw [← filterMap_ite, State.laneAdvised, List.filterMap_map]
  exact List.filterMap_congr fun t _ => adviseTrack_advisory _ _ _ _ _ t

theorem laneAdvised_tracks (s : State) : s.laneAdvised.map Prod.snd = s.lanePlaced.map (fun t =>
    if t.lane = .outside then t
    else if s.evacuation = true then { t with advisory := none, repeatDue := none }
    else if t.advisory = some (s.laneChoice t) then t
    else { t with advisory := some (s.laneChoice t), repeatDue := some (s.ms + 2000) }) := by
  rw [State.laneAdvised, List.map_map]
  exact List.map_congr_left fun t _ => adviseTrack_track _ _ _ _ _ t

/-- R145: the rows below the first, in order. -/
theorem laneChoice_spec (s : State) (t : Track) :
    (s.zae.lockout = true → s.laneChoice t = if t.lane = .inSection then .slow else .hold)
    ∧ (s.zae.lockout = false →
      ((∃ w, winnerOf s.lanePlaced = some w ∧ isLoser w t = true) → s.laneChoice t = .hold)
      ∧ ((∀ w, winnerOf s.lanePlaced = some w → isLoser w t = false) →
        (0 < s.personsNear → s.laneChoice t = .slow) ∧ (¬ 0 < s.personsNear → s.laneChoice t = .proceed))) := by
  unfold State.laneChoice chooseAdvisory
  refine ⟨fun hlockout => if_pos hlockout, fun hlockout => ?_⟩
  rw [if_neg (by rw [hlockout]; exact Bool.false_ne_true)]
  refine ⟨fun ⟨w, hw, hloser⟩ => if_pos (by rw [hw]; exact hloser), fun hno => ?_⟩
  have hwins : ¬ ((winnerOf s.lanePlaced).map (fun w => isLoser w t)).getD false = true := by
    cases hw : winnerOf s.lanePlaced with
    | none => exact Bool.false_ne_true
    | some w =>
      have hfalse : isLoser w t = false := hno w hw
      simp [hfalse]
  rw [if_neg hwins]
  exact ⟨fun hnear => if_pos (decide_eq_true hnear), fun hfar => if_neg (by simpa using hfar)⟩

/-- R148: the lamps by the first case that applies. -/
theorem laneLamps_spec (s : State) :
    (s.evacuation = true → s.laneLamps = (redFast, redFast))
    ∧ (s.evacuation = false → s.zae.lockout = true → s.laneLamps = (redSteady, redSteady))
    ∧ (s.evacuation = false → s.zae.lockout = false →
      (winnerOf s.lanePlaced = none → s.laneLamps = (greenSteady, greenSteady))
      ∧ ∀ w, winnerOf s.lanePlaced = some w → ∀ green,
        (0 < s.personsNear ∧ green = amberSlow ∨ ¬ 0 < s.personsNear ∧ green = greenSteady) →
        s.laneLamps = (if w.dir = some .inbye then green else redSteady,
          if w.dir = some .outbye then green else redSteady)) := by
  unfold State.laneLamps lampSettings
  refine ⟨fun hevac => if_pos hevac, fun hevac hlockout => ?_, fun hevac hlockout => ?_⟩
  · rw [if_neg (by rw [hevac]; exact Bool.false_ne_true), if_pos hlockout]
  · rw [if_neg (by rw [hevac]; exact Bool.false_ne_true), if_neg (by rw [hlockout]; exact Bool.false_ne_true)]
    refine ⟨fun hnone => by simp only [hnone], fun w hw green hgreen => ?_⟩
    have hshown : (if decide (0 < s.personsNear) = true then amberSlow else greenSteady) = green := by
      rcases hgreen with ⟨hnear, rfl⟩ | ⟨hfar, rfl⟩
      · exact if_pos (decide_eq_true hnear)
      · exact if_neg (by simpa using hfar)
    simp only [hshown, hw]
    cases w.dir with
    | none => rfl
    | some d => cases d <;> rfl

/-- Settles O57: the track table, the lane states, the conflicts, the evaluation and the second that makes one. -/
theorem laneMonitorResult : Obligations.LaneMonitorResult := by
  refine ⟨fun ts x => ⟨fun t hfind => ⟨enterTrack_replaces hfind, enterTrack_stands hfind⟩, fun hnone new hnew =>
      ⟨fun hroom => ?_, fun hfull hbusy => enterTrack_full hnone hfull (trackVictim_none hbusy),
        fun v hfull hv hlane hleast hts => ?_⟩⟩,
    fun s x => ⟨fun hchanged => if_pos hchanged, fun hsame => if_neg (by rw [hsame]; exact Bool.false_ne_true)⟩,
    fun x now t u hu hsection => ⟨fun hlow hhigh => ?_, fun hnear hbefore hclaims => ?_, fun hafter hnear hclaims => ?_,
      fun hfar => ?_⟩,
    fun ts => ⟨winnerOf_none ts, fun w => winnerOf_some⟩, isLoser_iff, fun s => laneEvaluate_not_running,
    fun s placed near hrun hplaced hnear => ?_, fun s hdue hs => ?_⟩
  · subst hnew
    rw [enterTrack_adds hnone hroom]
    exact ⟨rfl, fun y => mem_insertBy _ _ _ _⟩
  · subst hnew
    rw [enterTrack_displaces hnone hfull (trackVictim_some hv hlane hleast hts)]
    refine ⟨rfl, fun y => (mem_insertBy _ _ _ _).trans ?_⟩
    rw [List.mem_filter, decide_eq_true_eq]
    rfl
  · exact hu.trans (placeTrack_inside (lanePlace_inSection hlow hhigh) nofun now)
  · rw [hu, placeTrack_inside (lanePlace_inbye hnear hbefore hclaims) nofun]
  · rw [hu, placeTrack_inside (lanePlace_outbye hsection hnear hafter hclaims) nofun]
  · rw [hu, placeTrack_outside (lanePlace_outside hsection hfar)]
  · have hpositive : near ↔ 0 < s.personsNear := hnear.trans (personsNear_pos s).symm
    obtain rfl : placed = s.lanePlaced := hplaced
    obtain ⟨hred, hlocked, hopen⟩ := laneLamps_spec s
    cases hlane : s.cfg.lane with
    | none =>
      refine ⟨s.lanePlaced, s.generalAdvisory, [], (s.setTracks s.lanePlaced).evacuationMarked, ?_, rfl, ?_, rfl, rfl,
        rfl, fun _ => ⟨rfl, rfl, rfl⟩, nofun⟩
      · rw [laneEvaluate_without hrun hlane, List.append_nil]
        rfl
      · exact ((setTracks_touches s _).wide).andThen (evacuationMarked_touches _)
    | some x =>
      refine ⟨s.laneAdvised.map Prod.snd, s.generalAdvisory, s.laneAdvised.filterMap Prod.fst, s.laneMarked,
        laneEvaluate_with hrun hlane, rfl, laneMarked_touches s, rfl, rfl, rfl, nofun, fun y _ =>
        ⟨⟨s.laneChoice, fun t => ?_, laneAdvised_tracks s, laneAdvised_queued s⟩, fun hevac => ?_, fun hevac hlock => ?_,
          fun hevac hfree => ⟨fun hnone => ?_, fun w green hw hgreen => ?_⟩⟩⟩
      · rw [hpositive]
        exact laneChoice_spec s t
      · exact ⟨congrArg (fun l => some (Prod.fst l)) (hred hevac), congrArg (fun l => some (Prod.snd l)) (hred hevac)⟩
      · exact ⟨congrArg (fun l => some (Prod.fst l)) (hlocked hevac hlock),
          congrArg (fun l => some (Prod.snd l)) (hlocked hevac hlock)⟩
      · have hgreen := (hopen hevac hfree).1 hnone
        exact ⟨congrArg (fun l => some (Prod.fst l)) hgreen, congrArg (fun l => some (Prod.snd l)) hgreen⟩
      · rw [hpositive] at hgreen
        have hlamps := (hopen hevac hfree).2 w hw green hgreen
        exact ⟨congrArg (fun l => some (Prod.fst l)) hlamps, congrArg (fun l => some (Prod.snd l)) hlamps⟩
  · have hclock : OnlyTouches [.clock] s s.nextSecond := setClock_touches s _
    exact ⟨_, exec_secondsEvent_due hdue hs, (hclock.wide).andThen (evaluateLockout_touches _),
      evaluateLockout_length s.nextSecond⟩

end Sys2Proof.Machine


/-! The deadlines of the tag unit's tables and the advisory queue (O56). -/

namespace Sys2Proof.Machine

/-! ### The queue (R147) -/

section Enqueue

variable {a : Advisory} {q : List Advisory}

theorem enqueueAdvisory_replaces (h : ∃ x ∈ q, x.tag = a.tag) :
    enqueueAdvisory a q = (q.map (fun x => if x.tag = a.tag then a else x), false) :=
  if_pos (by simpa [List.any_eq_true] using h)

variable (h : ∀ x ∈ q, x.tag ≠ a.tag)
include h

theorem enqueueAdvisory_joins (hroom : q.length < 8) : enqueueAdvisory a q = (q ++ [a], false) :=
  (if_neg (by simpa [List.any_eq_true] using h)).trans (if_pos hroom)

/-- R147: the lowest of a full queue, the oldest of them, gives way to a newcomer that is not below it. -/
theorem enqueueAdvisory_full {older newer : List Advisory} {v : Advisory} (hq : q = older ++ v :: newer)
    (hfull : 8 ≤ q.length) (holder : ∀ x ∈ older, v.code.severity < x.code.severity)
    (hnewer : ∀ x ∈ newer, v.code.severity ≤ x.code.severity) : enqueueAdvisory a q
      = if a.code.severity < v.code.severity then (q, true) else (older ++ newer ++ [a], true) := by
  have hvictim : firstBy (fun x y : Advisory => decide (x.code.severity ≤ y.code.severity)) q = some v :=
    (firstBy_split (fun a b c hab hbc => by simp only [decide_eq_true_eq] at hab hbc ⊢; omega)
      (fun a b hab => by simp only [decide_eq_true_eq, decide_eq_false_iff_not] at hab ⊢; omega) q v).2
      ⟨older, newer, hq, fun x hx => by simpa using holder x hx, fun x hx => by simpa using hnewer x hx⟩
  have herase : q.eraseP (fun x => decide (x = v)) = older ++ newer := by
    rw [hq, List.eraseP_append_right _ (fun x hx => ?_), List.eraseP_cons_of_pos (by simp)]
    rw [decide_eq_true_eq]
    rintro rfl
    exact Nat.lt_irrefl _ (holder _ hx)
  refine (if_neg (by simpa [List.any_eq_true] using h)).trans ((if_neg (Nat.not_lt.2 hfull)).trans ?_)
  simp only [hvictim, herase]

end Enqueue

theorem startSending_waits {s : State} (h : s.running = false ∨ s.tgu.sending ≠ none) : s.startSending = s := by
  refine if_neg ?_
  rcases h with h | h <;> simp [h]

theorem startSending_empty {s : State} (h : s.tgu.advisories = []) : s.startSending = s := by
  unfold State.startSending
  split
  · simp only [h]
  · rfl

theorem startSending_takes {s : State} {x : Advisory} {more : List Advisory} (hrun : s.running = true)
    (hidle : s.tgu.sending = none) (hqueue : s.tgu.advisories = x :: more) : s.startSending = s.setTgu { s.tgu with
      advisories := more,
      sending := some { advisory := x, bytes := advisoryBytes x, startedAt := s.clock.usec } } := by
  refine (if_pos (by simp [hrun, hidle])).trans ?_
  simp only [hqueue]

/-- The queue with a newcomer, and the count of one dropped. -/
def State.advisoryQueued (s : State) (a : Advisory) : State :=
  s.setTgu { s.tgu with
    advisories := (enqueueAdvisory a s.tgu.advisories).1,
    counters := if (enqueueAdvisory a s.tgu.advisories).2 = true
      then { s.tgu.counters with dropped := s.tgu.counters.dropped.bump } else s.tgu.counters }

theorem advisoryQueued_touches (s : State) (a : Advisory) :
    OnlyTouches [.advisories, .linkCounters] s (s.advisoryQueued a) := by
  intro x hx
  cases x <;> first | rfl | exact ⟨rfl, rfl⟩ | exact ⟨rfl, rfl, rfl⟩ | exact absurd (by decide) hx

theorem queueAdvisory_unused {s : State} (h : s.cfg.link = .notUsed) (a : Advisory) : s.queueAdvisory a = s := if_pos h

theorem queueAdvisory_used {s : State} (h : s.cfg.link ≠ .notUsed) (a : Advisory) :
    s.queueAdvisory a = (s.advisoryQueued a).startSending := by
  refine (if_neg h).trans (congrArg State.startSending ?_)
  unfold State.advisoryQueued
  by_cases hdropped : (enqueueAdvisory a s.tgu.advisories).2 = true
  · simp only [if_pos hdropped]
    rfl
  · simp only [if_neg hdropped]

/-! ### The near table's and the track table's deadlines (R138, R139, R142) -/

theorem removeNear_person {s : State} {n : NearEntry} (h : n.kind = .person ∧ n.near = true) : s.removeNear n
    = (s.setNear (s.tgu.near.filter (fun x => decide (x.tag ≠ n.tag)))).laneEvaluate.onPorts
        (State.requestLive .vehicleReport) := if_pos h

theorem removeNear_other {s : State} {n : NearEntry} (h : n.kind ≠ .person ∨ n.near = false) :
    s.removeNear n = s.setNear (s.tgu.near.filter (fun x => decide (x.tag ≠ n.tag))) :=
  if_neg fun ⟨hkind, hnear⟩ => h.elim (· hkind) fun hfar => nomatch hfar.symm.trans hnear

section Deadlines

variable {s : State}

theorem exec_nearEntryExpiry_due {n : NearEntry} (hn : n ∈ s.tgu.near)
    (hnear : s.tgu.near.Pairwise (fun a b => a.tag < b.tag)) (hdue : n.lastSeen + s.cfg.tagExpiry * 1000 ≤ s.ms) :
    exec (.nearEntryExpiry n.tag) s = .next (s.removeNear n) := by
  have hfind : s.tgu.near.find? (fun y => decide (y.tag = n.tag)) = some n :=
    find?_of_mem hnear hn _ fun y _ => decide_eq_true_iff
  refine congrArg Host.Outcome.next ?_
  simp only [hfind]
  exact if_pos (by rwa [Nat.mul_comm])

variable {x : Track} (hx : x ∈ s.tgu.tracks) (htracks : s.tgu.tracks.Pairwise (fun a b => a.tag < b.tag))
include hx htracks

theorem exec_trackRemovalDeadline_due (hdue : x.sighted + 30000 ≤ s.ms) : exec (.trackRemovalDeadline x.tag) s
    = .next (s.setTracks (s.tgu.tracks.filter (fun y => decide (y.tag ≠ x.tag)))).laneEvaluate := by
  have hfind : s.tgu.tracks.find? (fun y => decide (y.tag = x.tag)) = some x :=
    find?_of_mem htracks hx _ fun y _ => decide_eq_true_iff
  refine congrArg Host.Outcome.next ?_
  simp only [hfind]
  exact if_pos hdue

theorem exec_advisoryRepeatDeadline_due {a : AdvisoryCode} {d : Nat} (ha : x.advisory = some a)
    (hd : x.repeatDue = some d) (hdue : d ≤ s.ms) : exec (.advisoryRepeatDeadline x.tag) s
      = .next ((s.setTracks (s.tgu.tracks.map (fun t =>
          if t.tag = x.tag then { t with repeatDue := some (s.ms + 2000) } else t))).queueAdvisory
            { tag := x.tag, code := a, validity := 5 }) := by
  have hfind : s.tgu.tracks.find? (fun t => decide (t.tag = x.tag) && s.dueMs t.repeatDue) = some x := by
    refine find?_of_mem htracks hx _ fun y hy => ?_
    rw [Bool.and_eq_true, decide_eq_true_eq]
    refine and_iff_left_of_imp fun htag => ?_
    rw [pairwise_lt_inj htracks hy hx htag]
    exact dueMs_some hd hdue
  have hrepeat : s.repeatOfTag x.tag = some a := by
    rw [State.repeatOfTag, hfind]
    exact ha
  refine congrArg Host.Outcome.next ?_
  simp only [hrepeat]

end Deadlines

/-! ### The timers of the advisories (R145, R147) -/

theorem exec_evacuationRepeatTimer_due {s : State} {d : Nat} (hd : s.tgu.evacDue = some d) (hdue : d ≤ s.ms)
    (hlink : s.cfg.link ≠ .notUsed) : exec .evacuationRepeatTimer s
      = .next ((s.setTgu { s.tgu with evacDue := some (s.ms + 2000) }).queueAdvisory evacuateAdvisory) :=
  congrArg Host.Outcome.next ((if_pos (dueMs_some hd hdue)).trans (if_neg hlink))

theorem exec_advisorySendComplete_due {s : State} {x : Sending} (hx : s.tgu.sending = some x)
    (hdone : s.linkHundredBits x.startedAt = true) :
    exec .advisorySendComplete s = .next (s.setTgu { s.tgu with sending := none }).startSending := by
  refine congrArg Host.Outcome.next ?_
  simp only [hx]
  exact if_pos hdone

/-- Settles O56: the deadlines of the two tables, the repeats, the end of a record, and the queue. -/
theorem tagDeadlinesResult : Obligations.TagDeadlinesResult := by
  refine ⟨fun s => ⟨fun n hn hnear hdue => ?_, fun x hx htracks hdue => ?_, fun x hx htracks a d ha hd hdue => ?_,
      fun d hd hdue hlink => ?_, fun x hx hdone => ⟨fun hidle => ?_, fun a more hrun hqueue => ?_⟩⟩,
    ⟨by decide, by decide, by decide⟩,
    fun a q => ⟨enqueueAdvisory_replaces, fun hnew => ⟨enqueueAdvisory_joins hnew,
      fun older v newer hq hfull holder hnewer => ⟨fun hbelow => ?_, fun habove => ?_⟩⟩⟩,
    fun s a => ⟨fun hlink => queueAdvisory_unused hlink a, fun hlink => ⟨s.advisoryQueued a, advisoryQueued_touches s a, rfl,
      rfl, rfl, fun hwaits => ?_, fun x more hrun hidle hqueue => ?_⟩⟩⟩
  · exact ⟨_, s.setNear (s.tgu.near.filter (fun x => decide (x.tag ≠ n.tag))), exec_nearEntryExpiry_due hn hnear hdue,
      removeNear_near s n, setNear_touches s _, (removeNear_near s n).symm, removeNear_person, removeNear_other⟩
  · obtain ⟨u, hu⟩ : ∃ u, u = s.setTracks (s.tgu.tracks.filter (fun y => decide (y.tag ≠ x.tag))) := ⟨_, rfl⟩
    have hkept : u.tgu.tracks = s.tgu.tracks.filter (fun y => decide (y.tag ≠ x.tag)) := by rw [hu]; rfl
    have htags := laneEvaluate_tags u
    refine ⟨_, u, exec_trackRemovalDeadline_due hx htracks hdue, fun y hy htag => ?_, by rw [hu]; exact setTracks_touches s _,
      hkept, by rw [hu], ?_⟩
    · rw [← hu] at hy
      have hmem : x.tag ∈ u.tgu.tracks.map Track.tag := by
        rw [← htags, ← htag]
        exact List.mem_map_of_mem hy
      obtain ⟨z, hz, hztag⟩ := List.mem_map.1 hmem
      rw [hkept] at hz
      exact of_decide_eq_true (List.mem_filter.1 hz).2 hztag
    · rw [← hu, htags, hkept]
  · exact ⟨_, exec_advisoryRepeatDeadline_due hx htracks ha hd hdue, setTracks_touches s _, rfl⟩
  · refine ⟨s.setTgu { s.tgu with evacDue := some (s.ms + 2000) }, exec_evacuationRepeatTimer_due hd hdue hlink, rfl, ?_⟩
    intro y hy
    cases y <;> first | rfl | exact ⟨rfl, rfl⟩ | exact ⟨rfl, rfl, rfl⟩ | exact absurd (by decide) hy
  · refine ⟨_, exec_advisorySendComplete_due hx hdone, ?_⟩
    rcases hidle with hstopped | hempty
    · rw [startSending_waits (s := s.setTgu { s.tgu with sending := none }) (.inl hstopped)]
      rfl
    · rw [startSending_empty (s := s.setTgu { s.tgu with sending := none }) hempty]
      rfl
  · refine ⟨_, exec_advisorySendComplete_due hx hdone, ?_⟩
    rw [startSending_takes (s := s.setTgu { s.tgu with sending := none }) hrun rfl hqueue]
    rfl
  · rw [enqueueAdvisory_full hnew hq hfull holder hnewer, if_pos hbelow]
  · rw [enqueueAdvisory_full hnew hq hfull holder hnewer, if_neg (Nat.not_lt.2 habove)]
  · rw [queueAdvisory_used hlink, startSending_waits (s := s.advisoryQueued a) hwaits]
  · have hsent := startSending_takes (s := s.advisoryQueued a) hrun hidle hqueue
    rw [queueAdvisory_used hlink]
    refine ⟨startSending_touches _, ?_, ?_⟩
    · rw [hsent]
      rfl
    · rw [hsent]
      rfl

end Sys2Proof.Machine


/-! The vehicle link, the near table and what a sighting hands on (O55). -/

namespace Sys2Proof.Machine

/-! ### The assembler (R132, R133) -/

section Assembler

variable {s : State}

theorem exec_linkByteReceived {b : Byte} (hs : s.started = true) (hlink : s.cfg.link ≠ .notUsed) (framing overrun : Bool) :
    exec (.linkByteReceived b framing overrun) s
      = .next (if (framing || overrun) = true then (s.setAssembler .hunt).countLostByte framing else s.goodByte b) :=
  congrArg Host.Outcome.next (if_neg (by simp [State.linkOpen, hs, hlink]))

theorem exec_linkByteReceived_good (b : Byte) (hs : s.started = true) (hlink : s.cfg.link ≠ .notUsed) :
    exec (.linkByteReceived b false false) s = .next (s.goodByte b) := exec_linkByteReceived hs hlink false false

theorem goodByte_hunt (h : s.tgu.assembler = .hunt) (b : Byte) :
    s.goodByte b = s.setAssembler (if b = 0xC3#8 then .length else .hunt) := by
  simp only [State.goodByte, h]
  split <;> rfl

theorem goodByte_length (h : s.tgu.assembler = .length) (b : Byte) : s.goodByte b
    = if b = 8#8 then s.setAssembler (.body [] 8)
      else (s.setAssembler .hunt).countLink (fun c => { c with bad := c.bad.bump }) := by
  simp only [State.goodByte, h]

theorem goodByte_body {got : List Byte} {sum : Nat} (h : s.tgu.assembler = .body got sum) (b : Byte) : s.goodByte b
    = s.setAssembler (if got.length < 7 then .body (got ++ [b]) (sum + b.toNat) else .check (got ++ [b]) (sum + b.toNat)) := by
  simp only [State.goodByte, h]
  by_cases hfew : got.length < 7
  · rw [if_neg (Nat.not_le.2 hfew), if_pos hfew]
  · rw [if_pos (Nat.not_lt.1 hfew), if_neg hfew]

theorem goodByte_check {got : List Byte} {sum : Nat} (h : s.tgu.assembler = .check got sum) (b : Byte) :
    s.goodByte b = (s.setAssembler .hunt).closeRecord got (sum + b.toNat) := by
  simp only [State.goodByte, h]

theorem closeRecord_checksum {got : List Byte} {sum : Nat} (h : sum % 256 ≠ 0) :
    s.closeRecord got sum = s.countLink (fun c => { c with checksum := c.checksum.bump }) := if_pos h

theorem closeRecord_bad {got : List Byte} {sum : Nat} (h : sum % 256 = 0) (hread : readSighting got = none) :
    s.closeRecord got sum = s.countLink (fun c => { c with bad := c.bad.bump }) := by
  refine (if_neg (not_not_intro h)).trans ?_
  simp only [hread]

theorem closeRecord_whole {got : List Byte} {sum : Nat} {x : Sighting} (h : sum % 256 = 0)
    (hread : readSighting got = some x) :
    s.closeRecord got sum = (s.countLink (fun c => { c with whole := c.whole.bump })).takeSighting x := by
  refine (if_neg (not_not_intro h)).trans ?_
  simp only [hread]

theorem setAssembler_counted_touches (s : State) (f : LinkCounters → LinkCounters) :
    OnlyTouches [.assembler, .linkCounters] s ((s.setAssembler .hunt).countLink f) :=
  ((setAssembler_touches s .hunt).wide).andThen (countLink_touches _ f)

theorem exec_linkGapTimerExpiry_due (hs : s.started = true) (hlink : s.cfg.link ≠ .notUsed) (hbody : s.tgu.assembler ≠ .hunt)
    (hgap : s.linkHundredBits s.tgu.lastByte = true) : exec .linkGapTimerExpiry s
      = .next ((s.setTgu { s.tgu with assembler := .hunt }).countLink (fun c => { c with bad := c.bad.bump })) :=
  congrArg Host.Outcome.next (if_pos (by simp [State.linkOpen, hs, hlink, hbody, hgap]))

end Assembler

/-! ### The near judgement (R137) -/

section Judge

variable (threshold : Int) (n : NearEntry)

/-- A judgement changes the near flag and its counts. -/
theorem judgeNear_same : (judgeNear threshold n).tag = n.tag ∧ (judgeNear threshold n).kind = n.kind
    ∧ (judgeNear threshold n).heading = n.heading ∧ (judgeNear threshold n).loaded = n.loaded
    ∧ (judgeNear threshold n).speed = n.speed ∧ (judgeNear threshold n).lastSeen = n.lastSeen := by
  have hcases : ∃ near up down, judgeNear threshold n = { n with near := near, up := up, down := down } := by
    unfold judgeNear
    split
    · split
      · split
        · exact ⟨_, _, _, rfl⟩
        · exact ⟨_, _, _, rfl⟩
      · exact ⟨_, _, _, rfl⟩
    · split
      · split
        · exact ⟨_, _, _, rfl⟩
        · exact ⟨_, _, _, rfl⟩
      · exact ⟨_, _, _, rfl⟩
  obtain ⟨near, up, down, h⟩ := hcases
  rw [h]
  exact ⟨rfl, rfl, rfl, rfl, rfl, rfl⟩

theorem judgeNear_far (h : n.near = false) :
    (threshold ≤ n.strength → n.up = 0 → judgeNear threshold n = { n with up := 1 })
    ∧ (threshold ≤ n.strength → 1 ≤ n.up → judgeNear threshold n = { n with near := true, up := 0, down := 0 })
    ∧ (n.strength < threshold → judgeNear threshold n = { n with up := 0 }) := by
  have hfar : judgeNear threshold n = if threshold ≤ n.strength then
      (if 2 ≤ n.up + 1 then { n with near := true, up := 0, down := 0 } else { n with up := n.up + 1 })
      else { n with up := 0 } := if_neg (by rw [h]; exact Bool.false_ne_true)
  rw [hfar]
  refine ⟨fun hstrong hup => ?_, fun hstrong hup => ?_, fun hweak => if_neg (by omega)⟩
  · rw [if_pos hstrong, if_neg (by omega), hup]
  · rw [if_pos hstrong, if_pos (by omega)]

theorem judgeNear_near (h : n.near = true) :
    (threshold - 4 ≤ n.strength → judgeNear threshold n = { n with down := 0 })
    ∧ (n.strength < threshold - 4 → n.down < 2 → judgeNear threshold n = { n with down := n.down + 1 })
    ∧ (n.strength < threshold - 4 → 2 ≤ n.down →
        judgeNear threshold n = { n with near := false, up := 0, down := 0 }) := by
  have hnear : judgeNear threshold n = if n.strength < threshold - 4 then
      (if 3 ≤ n.down + 1 then { n with near := false, up := 0, down := 0 } else { n with down := n.down + 1 })
      else { n with down := 0 } := if_pos h
  rw [hnear]
  refine ⟨fun hstrong => if_neg (by omega), fun hweak hdown => ?_, fun hweak hdown => ?_⟩
  · rw [if_pos hweak, if_neg (by omega)]
  · rw [if_pos hweak, if_pos (by omega)]

end Judge

/-! ### What a sighting hands on (R139, R141, R168) -/

theorem musters_iff (s : State) (n : NearEntry) : s.musters n = true ↔ Musters s n := by
  simp [State.musters, Musters, and_assoc]

section Muster

variable {s : State} {n : NearEntry}

theorem musterHandover_same (h : s.aru.musterActive = false ∨ ¬ Musters s n ∨ n.tag ∈ s.aru.muster) :
    s.musterHandover n = s := by
  unfold State.musterHandover
  split
  next hcond =>
    obtain ⟨hactive, hmusters⟩ := Bool.and_eq_true_iff.1 hcond
    have hheld : n.tag ∈ s.aru.muster :=
      (h.resolve_left fun hno => nomatch hno.symm.trans hactive).resolve_left (not_not_intro ((musters_iff s n).1 hmusters))
    have hlist : musterTag n.tag s.aru = s.aru := if_pos (List.contains_iff_mem.2 hheld)
    rw [hlist]
    rfl
  next => rfl

theorem musterHandover_enters (hactive : s.aru.musterActive = true) (hmusters : Musters s n)
    (hnew : n.tag ∉ s.aru.muster) : s.musterHandover n
      = s.setAru (if s.aru.muster.length < 64 then { s.aru with muster := s.aru.muster ++ [n.tag] }
          else { s.aru with overflow := min 65535 (s.aru.overflow + 1) }) := by
  have hlist : musterTag n.tag s.aru = if s.aru.muster.length < 64 then { s.aru with muster := s.aru.muster ++ [n.tag] }
      else { s.aru with overflow := min 65535 (s.aru.overflow + 1) } :=
    if_neg fun hin => hnew (List.contains_iff_mem.1 hin)
  rw [← hlist]
  exact if_pos (by rw [hactive, (musters_iff s n).2 hmusters]; rfl)

end Muster

/-- Whether the own sighting of a truck changes the track table (R141, R142). -/
def State.tracksSighting (a : State) (after : NearEntry) : Bool :=
  decide (after.kind ≠ .person) && (enterTrack a.tgu.tracks (a.ownSighting after)).2

/-- The track table after the own sighting (R141). -/
def State.sightingTracked (a : State) (after : NearEntry) : State :=
  if a.tracksSighting after = true then a.setTracks (enterTrack a.tgu.tracks (a.ownSighting after)).1 else a

/-- The evaluation that a change of the tracks or of a person's near flag asks for (R139). -/
def State.sightingEvaluated (a : State) (before : Option NearEntry) (after : NearEntry) : State :=
  if (a.tracksSighting after || personFlagChanged before after) = true then (a.sightingTracked after).laneEvaluate
  else a.sightingTracked after

theorem handOnSighting_eq (s : State) (before : Option NearEntry) (after : NearEntry) (count : Nat) :
    s.handOnSighting before after count
      = if wantsReport before after count ((s.musterHandover after).sightingEvaluated before after).personsNear = true
        then ((s.musterHandover after).sightingEvaluated before after).onPorts (State.requestLive .vehicleReport)
        else (s.musterHandover after).sightingEvaluated before after := rfl

theorem tracksSighting_iff (a : State) (after : NearEntry) : a.tracksSighting after = true
    ↔ after.kind ≠ .person ∧ (enterTrack a.tgu.tracks (a.ownSighting after)).2 = true := by
  simp [State.tracksSighting]

theorem personFlagChanged_iff (before : Option NearEntry) (after : NearEntry) : personFlagChanged before after = true
    ↔ after.kind = .person ∧ (before.map NearEntry.near).getD false ≠ after.near := by
  simp [personFlagChanged]

theorem wantsReport_iff (before : Option NearEntry) (after : NearEntry) (i j : Nat) : wantsReport before after i j = true
    ↔ (after.kind ≠ .person ∧ (∀ n, before = some n → n.heading ≠ after.heading ∨ n.loaded ≠ after.loaded)) ∨ i ≠ j := by
  cases before with
  | none => simp [wantsReport]
  | some n => simp [wantsReport]

theorem sightingEvaluated_touches (a : State) (before : Option NearEntry) (after : NearEntry) :
    OnlyTouches laneFoot a (a.sightingEvaluated before after) := by
  have htracked : OnlyTouches laneFoot a (a.sightingTracked after) := .ite ((setTracks_touches a _).wide) (.refl _ _)
  exact .ite (htracked.trans (laneEvaluate_touches _)) htracked

theorem handOnSighting_near (s : State) (before : Option NearEntry) (after : NearEntry) (count : Nat) :
    (s.handOnSighting before after count).tgu.near = s.tgu.near := by
  have hkept : ((s.musterHandover after).sightingEvaluated before after).tgu.near = s.tgu.near :=
    (sightingEvaluated_touches _ before after .near (by decide)).trans (musterHandover_touches s after .near (by decide))
  rw [handOnSighting_eq]
  split
  · exact (requestVehicleReport_touches _ .near (by decide)).trans hkept
  · exact hkept

/-! ### The count of whole sightings (R132) -/

theorem queueAdvisory_whole (a : Advisory) (s : State) :
    (s.queueAdvisory a).tgu.counters.whole = s.tgu.counters.whole := by
  by_cases hlink : s.cfg.link = .notUsed
  · rw [queueAdvisory_unused hlink]
  · have hcounters : (s.advisoryQueued a).startSending.tgu.counters = (s.advisoryQueued a).tgu.counters :=
      startSending_touches _ .linkCounters (by decide)
    rw [queueAdvisory_used hlink, hcounters]
    unfold State.advisoryQueued
    dsimp only [State.setTgu]
    split <;> rfl

theorem queueAll_whole (as : List Advisory) : ∀ s : State, (s.queueAll as).tgu.counters.whole = s.tgu.counters.whole := by
  induction as with
  | nil => exact fun s => rfl
  | cons a as ih => exact fun s => (ih _).trans (queueAdvisory_whole a s)

theorem laneEvaluate_whole (s : State) : s.laneEvaluate.tgu.counters.whole = s.tgu.counters.whole := by
  cases hrun : s.running with
  | false => rw [laneEvaluate_not_running hrun]
  | true =>
    cases hlane : s.cfg.lane with
    | none =>
      rw [laneEvaluate_without hrun hlane, queueAll_whole]
      rfl
    | some x =>
      rw [laneEvaluate_with hrun hlane, queueAll_whole]
      rfl

theorem requestVehicleReport_counters (s : State) :
    (s.onPorts (State.requestLive .vehicleReport)).tgu.counters = s.tgu.counters :=
  requestVehicleReport_touches s .linkCounters (by decide)

theorem handOnSighting_whole (s : State) (before : Option NearEntry) (after : NearEntry) (count : Nat) :
    (s.handOnSighting before after count).tgu.counters.whole = s.tgu.counters.whole := by
  have hmuster : (s.musterHandover after).tgu.counters = s.tgu.counters :=
    musterHandover_touches s after .linkCounters (by decide)
  have htracked (a : State) : (a.sightingTracked after).tgu.counters = a.tgu.counters := by
    unfold State.sightingTracked
    split <;> rfl
  have hevaluated (a : State) : (a.sightingEvaluated before after).tgu.counters.whole = a.tgu.counters.whole := by
    unfold State.sightingEvaluated
    split
    · rw [laneEvaluate_whole, htracked]
    · rw [htracked]
  rw [handOnSighting_eq]
  split
  · rw [requestVehicleReport_counters, hevaluated, hmuster]
  · rw [hevaluated, hmuster]

theorem removeNear_whole (s : State) (n : NearEntry) :
    (s.removeNear n).tgu.counters.whole = s.tgu.counters.whole := by
  by_cases h : n.kind = .person ∧ n.near = true
  · rw [removeNear_person h, requestVehicleReport_counters, laneEvaluate_whole]
    rfl
  · rw [State.removeNear, if_neg h]
    rfl

/-! ### A whole sighting (R136) -/

/-- The state in which the near table has room for a newcomer (R136). -/
def State.nearRoom (s : State) : State :=
  if s.tgu.near.length < 64 then s
  else match nearVictim s.tgu.near with
    | some v => s.removeNear v
    | none => s

section Sighted

variable {s : State} {x : Sighting}

theorem takeSighting_held {n : NearEntry} (h : s.tgu.near.find? (fun y => decide (y.tag = x.tag)) = some n) :
    s.takeSighting x = (s.setNear (s.tgu.near.map (fun m =>
        if m.tag = x.tag then judgeNear s.cfg.nearThreshold (n.sighted x s.ms) else m))).handOnSighting (some n)
          (judgeNear s.cfg.nearThreshold (n.sighted x s.ms)) s.personsNear := by
  simp only [State.takeSighting, h]

theorem takeSighting_new (h : s.tgu.near.find? (fun y => decide (y.tag = x.tag)) = none) :
    s.takeSighting x = (s.nearRoom.setNear (insertBy nearBefore
        (judgeNear s.nearRoom.cfg.nearThreshold (.ofSighting x s.nearRoom.ms)) s.nearRoom.tgu.near)).handOnSighting none
          (judgeNear s.nearRoom.cfg.nearThreshold (.ofSighting x s.nearRoom.ms)) s.nearRoom.personsNear := by
  simp only [State.takeSighting, h]
  rfl

theorem nearRoom_room (h : s.tgu.near.length < 64) : s.nearRoom = s := if_pos h

theorem nearRoom_full {v : NearEntry} (hfull : ¬ s.tgu.near.length < 64) (hv : nearVictim s.tgu.near = some v) :
    s.nearRoom = s.removeNear v := by
  refine (if_neg hfull).trans ?_
  simp only [hv]

theorem nearRoom_touches (s : State) : OnlyTouches sightingFoot s s.nearRoom := by
  unfold State.nearRoom
  refine .ite (.refl _ _) ?_
  split
  · exact removeNear_touches s _
  · exact .refl _ _

theorem nearRoom_whole (s : State) : s.nearRoom.tgu.counters.whole = s.tgu.counters.whole := by
  unfold State.nearRoom
  split
  · rfl
  · split
    · exact removeNear_whole s _
    · rfl

theorem takeSighting_whole (s : State) (x : Sighting) :
    (s.takeSighting x).tgu.counters.whole = s.tgu.counters.whole := by
  cases h : s.tgu.near.find? (fun y => decide (y.tag = x.tag)) with
  | some n =>
    rw [takeSighting_held h, handOnSighting_whole]
    rfl
  | none =>
    rw [takeSighting_new h, handOnSighting_whole]
    exact nearRoom_whole s

/-- R136: the entry of the tag after a whole sighting. -/
theorem takeSighting_entry (s : State) (x : Sighting) : ∃ n ∈ (s.takeSighting x).tgu.near, n.tag = x.tag
    ∧ n.kind = x.kind ∧ n.heading = x.heading ∧ n.loaded = x.loaded ∧ n.speed = x.speed ∧ n.lastSeen = s.ms := by
  cases h : s.tgu.near.find? (fun y => decide (y.tag = x.tag)) with
  | some n =>
    have htag : n.tag = x.tag := by simpa using List.find?_some h
    obtain ⟨hjtag, hkind, hheading, hloaded, hspeed, hseen⟩ := judgeNear_same s.cfg.nearThreshold (n.sighted x s.ms)
    refine ⟨judgeNear s.cfg.nearThreshold (n.sighted x s.ms), ?_, hjtag.trans htag, hkind, hheading, hloaded, hspeed, hseen⟩
    rw [takeSighting_held h, handOnSighting_near]
    exact List.mem_map.2 ⟨n, List.mem_of_find?_eq_some h, if_pos htag⟩
  | none =>
    obtain ⟨hjtag, hkind, hheading, hloaded, hspeed, hseen⟩ :=
      judgeNear_same s.nearRoom.cfg.nearThreshold (.ofSighting x s.nearRoom.ms)
    refine ⟨judgeNear s.nearRoom.cfg.nearThreshold (.ofSighting x s.nearRoom.ms), ?_, hjtag, hkind, hheading, hloaded,
      hspeed, hseen.trans (touched_ms (nearRoom_touches s))⟩
    rw [takeSighting_new h, handOnSighting_near]
    exact (mem_insertBy _ _ _ _).2 (.inl rfl)

end Sighted

theorem nearVictim_some {ns : List NearEntry} {v : NearEntry} (hv : v ∈ ns)
    (hns : ns.Pairwise (fun a b => a.tag < b.tag))
    (hleast : ∀ y ∈ ns, y.tag ≠ v.tag → v.lastSeen < y.lastSeen ∨ (v.lastSeen = y.lastSeen
      ∧ (v.firstSeen < y.firstSeen ∨ (v.firstSeen = y.firstSeen ∧ v.tag < y.tag)))) : nearVictim ns = some v := by
  refine firstBy_least (fun a b c hab hbc => by simp only [decide_eq_true_eq] at hab hbc ⊢; omega)
    (fun a b hab => by simp only [decide_eq_true_eq, decide_eq_false_iff_not] at hab ⊢; omega) hv fun y hy hne => ?_
  have hlow := hleast y hy fun e => hne (pairwise_lt_inj hns hy hv e)
  rw [decide_eq_false_iff_not]
  omega

/-- R136: after the displacement the table has room, and the sighting is taken in it. -/
theorem takeSighting_displaces {s : State} {x : Sighting} {v : NearEntry}
    (h : s.tgu.near.find? (fun y => decide (y.tag = x.tag)) = none) (hv : v ∈ s.tgu.near) (hfull : s.tgu.near.length = 64)
    (hvictim : nearVictim s.tgu.near = some v) : s.takeSighting x = (s.removeNear v).takeSighting x := by
  have hnear := removeNear_near s v
  have hnone : (s.removeNear v).tgu.near.find? (fun y => decide (y.tag = x.tag)) = none := by
    rw [hnear, List.find?_eq_none]
    exact fun y hy => List.find?_eq_none.1 h y (List.mem_filter.1 hy).1
  have hroom : (s.removeNear v).tgu.near.length < 64 := by
    rw [hnear, ← hfull]
    exact List.length_filter_lt_length_iff_exists.2 ⟨v, hv, by simp⟩
  rw [takeSighting_new h, takeSighting_new hnone, nearRoom_room hroom, nearRoom_full (by omega) hvictim]

/-- Settles O55: a byte by the state of the assembler, the gap, and a sighting with what it hands on. -/
theorem linkBytesResult : Obligations.LinkBytesResult := by
  refine ⟨fun s b hs hlink => ⟨fun framing overrun hlost => ?_, fun hhunt => ?_, fun hlength => ?_, fun got sum hbody => ?_,
      fun got sum hcheck => ⟨fun hsum => ?_, fun hsum hread => ?_, fun x hsum hread => ?_⟩, fun hbody hgap => ?_⟩,
    fun s x => ⟨fun n hfind => ?_, fun hnone => ⟨fun hroom => ?_, fun v hv hfull hnear hleast => ?_⟩⟩,
    fun threshold n => ⟨judgeNear_far threshold n, judgeNear_near threshold n⟩, fun s before after count => ?_⟩
  · have hcond : (framing || overrun) = true := by rcases hlost with rfl | rfl <;> simp
    refine ⟨_, exec_linkByteReceived hs hlink framing overrun, ?_⟩
    rw [if_pos hcond]
    exact ⟨rfl, rfl, setAssembler_counted_touches s _⟩
  · refine ⟨_, exec_linkByteReceived_good b hs hlink, ?_⟩
    rw [goodByte_hunt hhunt]
    exact ⟨rfl, setAssembler_touches s _⟩
  · refine ⟨_, exec_linkByteReceived_good b hs hlink, ?_⟩
    rw [goodByte_length hlength]
    by_cases hb : b = 8#8
    · rw [if_pos hb, if_pos hb, if_pos hb]
      exact ⟨rfl, rfl⟩
    · rw [if_neg hb, if_neg hb, if_neg hb]
      exact ⟨rfl, rfl⟩
  · refine ⟨_, exec_linkByteReceived_good b hs hlink, ?_⟩
    rw [goodByte_body hbody]
    exact ⟨rfl, setAssembler_touches s _⟩
  · refine ⟨_, exec_linkByteReceived_good b hs hlink, ?_⟩
    rw [goodByte_check hcheck, closeRecord_checksum hsum]
    exact ⟨rfl, rfl, setAssembler_counted_touches s _⟩
  · refine ⟨_, exec_linkByteReceived_good b hs hlink, ?_⟩
    rw [goodByte_check hcheck, closeRecord_bad hsum hread]
    exact ⟨rfl, rfl, setAssembler_counted_touches s _⟩
  · obtain ⟨u, hu⟩ : ∃ u, u = (s.setAssembler .hunt).countLink (fun c => { c with whole := c.whole.bump }) := ⟨_, rfl⟩
    have hexec : exec (.linkByteReceived b false false) s = .next (u.takeSighting x) := by
      rw [exec_linkByteReceived_good b hs hlink, goodByte_check hcheck,
        closeRecord_whole hsum hread, hu]
    have hhunt : u.tgu.assembler = .hunt := by rw [hu]; rfl
    have hcounters : u.tgu.counters = { s.tgu.counters with whole := s.tgu.counters.whole.bump } := by rw [hu]; rfl
    have hms : u.ms = s.ms := by rw [hu]; rfl
    have hentry := takeSighting_entry u x
    rw [hms] at hentry
    refine ⟨_, u, hexec, ?_, rfl, by rw [hu]; exact setAssembler_counted_touches s _, hhunt, hcounters, ?_, hentry⟩
    · obtain ⟨hassembler, -⟩ := takeSighting_touches u x .assembler (by decide)
      exact hassembler.trans hhunt
    · rw [takeSighting_whole, hcounters]
  · refine ⟨_, exec_linkGapTimerExpiry_due hs hlink hbody hgap, rfl, rfl, ?_⟩
    intro y hy
    cases y <;> first | rfl | exact ⟨rfl, rfl⟩ | exact ⟨rfl, rfl, rfl⟩ | exact absurd (by decide) hy
  · exact ⟨_, s.setNear _, rfl, setNear_touches s _, rfl, takeSighting_held hfind⟩
  · have htaken := takeSighting_new hnone
    rw [nearRoom_room hroom] at htaken
    exact ⟨_, s.setNear _, rfl, setNear_touches s _, fun y => mem_insertBy _ _ _ _, htaken⟩
  · exact ⟨s.setNear (s.tgu.near.filter (fun y => decide (y.tag ≠ v.tag))), s.removeNear v, setNear_touches s _, rfl,
      removeNear_person, removeNear_other, takeSighting_displaces hnone hv hfull (nearVictim_some hv hnear hleast)⟩
  · obtain ⟨a, ha⟩ : ∃ a, a = s.musterHandover after := ⟨_, rfl⟩
    have hcfg : a.cfg = s.cfg := by
      rw [ha]
      exact touched_cfg (musterHandover_touches s after)
    have hown (r) (hr : r = enterTrack a.tgu.tracks {
        tag := after.tag, kind := after.kind, reporter := s.cfg.station, chainage := s.cfg.chainage,
        strength := after.strength, heading := after.heading, speed := after.speed, loaded := after.loaded,
        time := after.lastSeen }) : r = enterTrack a.tgu.tracks (a.ownSighting after) := by
      rw [hr, State.ownSighting, hcfg]
    refine ⟨a, a.sightingTracked after, a.sightingEvaluated before after, ?_, ?_, fun r hr => ⟨?_, ?_, ?_, ?_⟩, ?_, ?_⟩
    · rw [ha]
      exact musterHandover_same
    · intro hactive hmusters hnew
      rw [ha, musterHandover_enters hactive hmusters hnew]
      exact ⟨fun hroom => by rw [if_pos hroom], fun hfull => by rw [if_neg (Nat.not_lt.2 hfull)]⟩
    · rw [hown r hr]
      exact fun htruck => if_pos ((tracksSighting_iff a after).2 htruck)
    · rw [hown r hr]
      refine fun hno => if_neg fun htracks => ?_
      obtain ⟨hkind, hchanged⟩ := (tracksSighting_iff a after).1 htracks
      exact hno.elim hkind fun hsame => nomatch hsame.symm.trans hchanged
    · rw [hown r hr]
      refine fun hasks => if_pos ?_
      rw [Bool.or_eq_true, tracksSighting_iff, personFlagChanged_iff]
      exact hasks
    · rw [hown r hr]
      refine fun hno => if_neg ?_
      rw [Bool.or_eq_true, tracksSighting_iff, personFlagChanged_iff]
      rintro (⟨hkind, hchanged⟩ | ⟨hkind, hflag⟩)
      · obtain ⟨-, hsame⟩ | ⟨hperson, -⟩ := hno
        · exact nomatch hsame.symm.trans hchanged
        · exact hkind hperson
      · obtain ⟨htruck, -⟩ | ⟨-, hsame⟩ := hno
        · exact htruck hkind
        · exact hflag hsame
    · rw [handOnSighting_eq, ← ha]
      exact fun hasks => if_pos ((wantsReport_iff _ _ _ _).2 hasks)
    · rw [handOnSighting_eq, ← ha]
      refine fun hquiet hcount => if_neg ?_
      rw [wantsReport_iff]
      rintro (⟨hkind, hdiffers⟩ | hne)
      · obtain hperson | ⟨n, hbefore, hheading, hloaded⟩ := hquiet
        · exact hkind hperson
        · exact (hdiffers n hbefore).elim (· hheading) (· hloaded)
      · exact hne hcount

end Sys2Proof.Machine


/-! The merge of an alarm record (O59). -/

namespace Sys2Proof.Machine

/-! ### A change handed on, with the clear it may ask for (R94, R160) -/

theorem clearAsOrigin_mem {s : State} {i : AlarmId} {x : Alarm} (hx : x ∈ s.aru.alarms) (h : x.id ≠ i) :
    x ∈ (s.clearAsOrigin i).aru.alarms := by
  cases ha : s.findAlarm i with
  | none =>
    rw [clearAsOrigin_same fun a hsome => nomatch ha.symm.trans hsome]
    exact hx
  | some a =>
    by_cases hstate : a.state = .acknowledged
    · rw [clearAsOrigin_acknowledged ha hstate, ownChange_alarms]
      exact List.mem_map.2 ⟨x, hx, if_neg fun e => h (Eq.trans e (find_id (a := a) ha))⟩
    · rw [clearAsOrigin_same fun b hb => Option.some.inj (ha.symm.trans hb) ▸ hstate]
      exact hx

section Handed

variable {u : State} {a : Alarm}

theorem thenClear_find_kept (ha : u.findAlarm a.id = some a) (h : ¬ AsksClear u a.id a.state) :
    (State.thenClear (u.handOn a false) a.id).findAlarm a.id = some a := by
  rw [thenClear_not_asked u a a.id h, find_congr (handOn_alarms u a false)]
  exact ha

theorem thenClear_find_cleared (ha : u.findAlarm a.id = some a) (h : AsksClear u a.id a.state) :
    (State.thenClear (u.handOn a false) a.id).findAlarm a.id = some (a.become .cleared u.ms) := by
  obtain ⟨hstate, -⟩ := id h
  have hheld : (u.handOn a false).1.findAlarm a.id = some a := (find_congr (handOn_alarms u a false) a.id).trans ha
  rw [thenClear_asked u a a.id h, clearAsOrigin_find _ a.id a hheld, if_pos hstate, touched_ms (handOn_touches u a false)]

theorem thenClear_mem {x : Alarm} (hx : x ∈ u.aru.alarms) (h : x.id ≠ a.id) :
    x ∈ (State.thenClear (u.handOn a false) a.id).aru.alarms := by
  have hheld : x ∈ (u.handOn a false).1.aru.alarms := by
    rw [handOn_alarms]
    exact hx
  by_cases hasks : AsksClear u a.id a.state
  · rw [thenClear_asked u a a.id hasks]
    exact clearAsOrigin_mem hheld h
  · rw [thenClear_not_asked u a a.id hasks]
    exact hheld

end Handed

/-! ### The table after one change (R153 to R155, R159) -/

theorem addAlarm_alarms (s : State) (a : Alarm) : (s.addAlarm a).aru.alarms = insertBy alarmBefore a s.aru.alarms :=
  placeAlarmChange_touches _ _ _ .alarms (by decide)

theorem addAlarm_find {s : State} {a : Alarm} (h : s.findAlarm a.id = none) (i : AlarmId) :
    (s.addAlarm a).findAlarm i = if i = a.id then some a else s.findAlarm i := by
  rw [State.findAlarm, addAlarm_alarms, find_insert _ a i h]
  rfl

theorem removeAlarm_find (s : State) (v : Alarm) (i : AlarmId) :
    (s.removeAlarm v).findAlarm i = if i = v.id then none else s.findAlarm i := by
  rw [State.findAlarm, removeAlarm_alarms, List.find?_filter]
  split
  next h =>
    refine List.find?_eq_none.2 fun x _ hx => ?_
    simp only [decide_eq_true_eq] at hx
    exact hx.1 (hx.2.trans h)
  next h =>
    refine congrArg (fun p => List.find? p s.aru.alarms) (funext fun x => ?_)
    by_cases hx : x.id = i
    · simp [hx, h]
    · simp [hx]

theorem advanced_alarms (s : State) (a : Alarm) : (placeAlarmChange a .advanced (s.replaceAlarm a)).aru.alarms
    = s.aru.alarms.map (fun x => if x.id = a.id then a else x) := placeAlarmChange_touches _ _ _ .alarms (by decide)

theorem advanced_find (s : State) (a : Alarm) (i : AlarmId) : (placeAlarmChange a .advanced (s.replaceAlarm a)).findAlarm i
    = if i = a.id then (s.findAlarm i).map (fun _ => a) else s.findAlarm i := by
  rw [State.findAlarm, advanced_alarms, find_map_replace]
  rfl

/-! ### The merge by cases (R153, R159) -/

section Merge

variable {s : State} {r : AlarmRecord}

theorem mergeAlarm_made {t : State} (hnone : s.findAlarm r.id = none) (hmade : s.makeAlarmRoom r.kind r.state = some t) :
    s.mergeAlarm r = State.thenClear ((t.addAlarm (t.newAlarm r.id r.kind r.scope r.state)).handOn
      (t.newAlarm r.id r.kind r.scope r.state) false) r.id := by
  simp only [State.mergeAlarm, hnone, hmade]
  rfl

theorem mergeAlarm_adds (hnone : s.findAlarm r.id = none) (hroom : s.aru.alarms.length < 16) :
    s.mergeAlarm r = State.thenClear ((s.addAlarm (s.newAlarm r.id r.kind r.scope r.state)).handOn
      (s.newAlarm r.id r.kind r.scope r.state) false) r.id := mergeAlarm_made hnone (if_pos hroom)

theorem mergeAlarm_refused (hnone : s.findAlarm r.id = none) (hfull : 16 ≤ s.aru.alarms.length)
    (hv : alarmVictim s.aru.alarms r.kind.severity r.state = none) : s.mergeAlarm r = s := by
  have hmade : s.makeAlarmRoom r.kind r.state = none := by
    rw [State.makeAlarmRoom, if_neg (Nat.not_lt.2 hfull), hv]
    rfl
  simp only [State.mergeAlarm, hnone, hmade]

theorem mergeAlarm_stale {a : Alarm} (ha : s.findAlarm r.id = some a) (h : r.state.rank ≤ a.state.rank) :
    s.mergeAlarm r = s := by
  simp only [State.mergeAlarm, ha, if_neg (Nat.not_lt.2 h)]

theorem mergeAlarm_advances {a : Alarm} (ha : s.findAlarm r.id = some a) (h : a.state.rank < r.state.rank) :
    s.mergeAlarm r = State.thenClear ((placeAlarmChange (a.become r.state s.ms) .advanced
      (s.replaceAlarm (a.become r.state s.ms))).handOn (a.become r.state s.ms) false) r.id := by
  have hid : (a.become r.state s.ms).id = r.id := find_id (a := a) ha
  simp only [State.mergeAlarm, ha, if_pos h, hid]

theorem makeAlarmRoom_full {v : Alarm} (hfull : ¬ s.aru.alarms.length < 16)
    (hv : alarmVictim s.aru.alarms r.kind.severity r.state = some v) :
    s.makeAlarmRoom r.kind r.state = some (s.removeAlarm v) := by
  rw [State.makeAlarmRoom, if_neg hfull, hv]
  rfl

theorem removeAlarm_unheld (hnone : s.findAlarm r.id = none) (v : Alarm) : (s.removeAlarm v).findAlarm r.id = none := by
  rw [removeAlarm_find, hnone, ite_self]

/-- R153: the victim removed, the newcomer finds room. -/
theorem mergeAlarm_displaces {v : Alarm} (hnone : s.findAlarm r.id = none) (hfull : s.aru.alarms.length = 16)
    (hv : alarmVictim s.aru.alarms r.kind.severity r.state = some v) : s.mergeAlarm r = (s.removeAlarm v).mergeAlarm r := by
  have hmem : v ∈ s.aru.alarms := by
    obtain ⟨before, after, heq, -⟩ := (alarmVictim_iff _ _ _ _).1 hv
    rw [heq]
    simp
  have hroom : (s.removeAlarm v).aru.alarms.length < 16 := by
    rw [removeAlarm_alarms, ← hfull]
    exact List.length_filter_lt_length_iff_exists.2 ⟨v, hmem, by simp⟩
  rw [mergeAlarm_adds (removeAlarm_unheld hnone v) hroom, mergeAlarm_made hnone (makeAlarmRoom_full (by omega) hv)]

theorem mergeAlarm_made_find_other {t : State} (hnone : s.findAlarm r.id = none)
    (hmade : s.makeAlarmRoom r.kind r.state = some t) (hunheld : t.findAlarm r.id = none) {i : AlarmId} (h : i ≠ r.id) :
    (s.mergeAlarm r).findAlarm i = t.findAlarm i := by
  have hadded := addAlarm_find (a := t.newAlarm r.id r.kind r.scope r.state) hunheld i
  rw [mergeAlarm_made hnone hmade, thenClear_find_other _ _ _ h.symm, find_congr (handOn_alarms _ _ _), hadded]
  exact if_neg h

theorem mergeAlarm_advances_find_other {a : Alarm} (ha : s.findAlarm r.id = some a) (hlater : a.state.rank < r.state.rank)
    {i : AlarmId} (h : i ≠ r.id) : (s.mergeAlarm r).findAlarm i = s.findAlarm i := by
  have hid : (a.become r.state s.ms).id = r.id := find_id (a := a) ha
  rw [mergeAlarm_advances ha hlater, thenClear_find_other _ _ _ h.symm, find_congr (handOn_alarms _ _ _), advanced_find,
    hid, if_neg h]

end Merge

/-! ### What a merge leaves of its alarm -/

section Merged

variable {s : State} {r : AlarmRecord}

/-- R153, R154, R163: an unknown alarm, in a table with room. -/
theorem mergeAlarm_added (hnone : s.findAlarm r.id = none) (hroom : s.aru.alarms.length < 16) :
    ∃ a, (s.mergeAlarm r).findAlarm r.id = some a ∧ a.kind = r.kind ∧ a.scope = r.scope ∧ a.firstHeard = s.ms
      ∧ (a.silenced = true ↔ ∃ x ∈ s.aru.alarms, x.silenced = true ∧ r.kind.severity ≤ x.kind.severity)
      ∧ (¬ AsksClear s r.id r.state → a.state = r.state) ∧ (AsksClear s r.id r.state → a.state = .cleared)
      ∧ (a.state = .cleared → a.linger = some (s.ms + 60000)) ∧ (a.state ≠ .cleared → a.linger = none)
      ∧ (a.testUntil = if r.kind = .test then some (s.ms + 5000) else none) := by
  obtain ⟨b, hb⟩ : ∃ b, b = s.newAlarm r.id r.kind r.scope r.state := ⟨_, rfl⟩
  have hadds : AddsAlarm s (s.addAlarm b) b := hb ▸ addAlarm_adds s r.id r.kind r.scope r.state
  obtain ⟨htouch, -, -, hheard, hsilenced, hlinger, htest⟩ := hadds
  have hid : b.id = r.id := by rw [hb]; rfl
  have hstate : b.state = r.state := by rw [hb]; rfl
  have hkind : b.kind = r.kind := by rw [hb]; rfl
  have hscope : b.scope = r.scope := by rw [hb]; rfl
  have hfind : (s.addAlarm b).findAlarm b.id = some b := by rw [addAlarm_find (hid ▸ hnone), if_pos rfl]
  have hmerge := mergeAlarm_adds hnone hroom
  rw [← hb, ← hid] at hmerge
  have hasks : AsksClear (s.addAlarm b) b.id b.state ↔ AsksClear s r.id r.state := by
    rw [hid, hstate]
    exact asksClear_congr (touched_cfg htouch) (touched_channel htouch) _ _
  rw [hkind] at hsilenced htest
  by_cases hclear : AsksClear s r.id r.state
  · have hnow := thenClear_find_cleared hfind (hasks.2 hclear)
    rw [← hmerge, hid, touched_ms htouch] at hnow
    exact ⟨b.become .cleared s.ms, hnow, hkind, hscope, hheard, hsilenced, fun hno => absurd hclear hno, fun _ => rfl,
      fun _ => rfl, fun hno => absurd rfl hno, htest⟩
  · have hnow := thenClear_find_kept hfind (fun h => hclear (hasks.1 h))
    rw [← hmerge, hid] at hnow
    exact ⟨b, hnow, hkind, hscope, hheard, hsilenced, fun _ => hstate, fun hyes => absurd hyes hclear,
      fun hcleared => hlinger.trans (if_pos hcleared), fun hother => hlinger.trans (if_neg hother), htest⟩

/-- R154, R160: the entry as it is added, its indication and its hand-on. -/
theorem mergeAlarm_added_handed (hnone : s.findAlarm r.id = none) (hroom : s.aru.alarms.length < 16) :
    (∀ x ∈ s.aru.alarms, x ∈ (s.mergeAlarm r).aru.alarms)
    ∧ ∃ (u : State) (b : Alarm), b.id = r.id ∧ b.kind = r.kind ∧ b.scope = r.scope ∧ b.state = r.state
      ∧ AddsAlarm s u b ∧ (¬ AsksClear s r.id r.state → s.mergeAlarm r = (u.handOn b false).1)
      ∧ (AsksClear s r.id r.state → s.mergeAlarm r = (u.handOn b false).1.clearAsOrigin r.id) := by
  obtain ⟨b, hb⟩ : ∃ b, b = s.newAlarm r.id r.kind r.scope r.state := ⟨_, rfl⟩
  have hadds : AddsAlarm s (s.addAlarm b) b := hb ▸ addAlarm_adds s r.id r.kind r.scope r.state
  obtain ⟨htouch, hmem, -⟩ := id hadds
  have hid : b.id = r.id := by rw [hb]; rfl
  have hstate : b.state = r.state := by rw [hb]; rfl
  have hmerge := mergeAlarm_adds hnone hroom
  rw [← hb] at hmerge
  have hasks : AsksClear (s.addAlarm b) b.id b.state ↔ AsksClear s r.id r.state := by
    rw [hid, hstate]
    exact asksClear_congr (touched_cfg htouch) (touched_channel htouch) _ _
  refine ⟨fun x hx => ?_, s.addAlarm b, b, hid, by rw [hb]; rfl, by rw [hb]; rfl, hstate, hadds, fun hno => ?_,
    fun hyes => ?_⟩
  · rw [hmerge, ← hid]
    exact thenClear_mem ((hmem x).2 (.inr hx)) (hid ▸ findAlarm_none hnone x hx)
  · rw [hmerge]
    exact thenClear_not_asked _ b r.id fun h => hno (hasks.1 h)
  · rw [hmerge]
    exact thenClear_asked _ b r.id (hasks.2 hyes)

variable {a : Alarm} (ha : s.findAlarm r.id = some a) (hlater : a.state.rank < r.state.rank)
include ha hlater

/-- R159, R160: the entry as it is advanced, its indication and its hand-on. -/
theorem mergeAlarm_advanced_handed : ∃ (u : State) (later : Alarm),
    later = { a with
      state := r.state, linger := if r.state = .cleared then some (s.ms + 60000) else a.linger }
    ∧ AdvancesAlarm s u later ∧ (¬ AsksClear s r.id r.state → s.mergeAlarm r = (u.handOn later false).1)
    ∧ (AsksClear s r.id r.state → s.mergeAlarm r = (u.handOn later false).1.clearAsOrigin r.id) := by
  obtain ⟨b, hb⟩ : ∃ b, b = a.become r.state s.ms := ⟨_, rfl⟩
  have hadvances : AdvancesAlarm s (placeAlarmChange b .advanced (s.replaceAlarm b)) b := replaceAlarm_advances s b
  obtain ⟨htouch, -⟩ := id hadvances
  have hid : b.id = r.id := (congrArg Alarm.id hb).trans (find_id (a := a) ha)
  have hstate : b.state = r.state := congrArg Alarm.state hb
  have hmerge := mergeAlarm_advances ha hlater
  rw [← hb] at hmerge
  have hasks : AsksClear (placeAlarmChange b .advanced (s.replaceAlarm b)) b.id b.state ↔ AsksClear s r.id r.state := by
    rw [hid, hstate]
    exact asksClear_congr (touched_cfg htouch) (touched_channel htouch) _ _
  refine ⟨_, b, hb, hadvances, fun hno => ?_, fun hyes => ?_⟩
  · rw [hmerge]
    exact thenClear_not_asked _ b r.id fun h => hno (hasks.1 h)
  · rw [hmerge]
    exact thenClear_asked _ b r.id (hasks.2 hyes)

theorem mergeAlarm_advanced : ∃ b, (s.mergeAlarm r).findAlarm r.id = some b ∧ b.kind = a.kind ∧ b.scope = a.scope
    ∧ b.firstHeard = a.firstHeard ∧ b.silenced = a.silenced
    ∧ (¬ AsksClear s r.id r.state → b.state = r.state) ∧ (AsksClear s r.id r.state → b.state = .cleared)
    ∧ (b.state = .cleared → b.linger = some (s.ms + 60000)) ∧ (b.state ≠ .cleared → b.linger = a.linger) := by
  obtain ⟨b, hb⟩ : ∃ b, b = a.become r.state s.ms := ⟨_, rfl⟩
  obtain ⟨u, hu⟩ : ∃ u, u = placeAlarmChange b .advanced (s.replaceAlarm b) := ⟨_, rfl⟩
  have hadvances : AdvancesAlarm s u b := hu ▸ replaceAlarm_advances s b
  obtain ⟨htouch, -⟩ := hadvances
  have hid : b.id = r.id := (congrArg Alarm.id hb).trans (find_id (a := a) ha)
  have hstate : b.state = r.state := congrArg Alarm.state hb
  have hfind : u.findAlarm b.id = some b := by
    rw [hu, advanced_find, if_pos rfl, hid, ha]
    rfl
  have hmerge := mergeAlarm_advances ha hlater
  rw [← hb, ← hu, ← hid] at hmerge
  have hasks : AsksClear u b.id b.state ↔ AsksClear s r.id r.state := by
    rw [hid, hstate]
    exact asksClear_congr (touched_cfg htouch) (touched_channel htouch) _ _
  by_cases hclear : AsksClear s r.id r.state
  · have hnow := thenClear_find_cleared hfind (hasks.2 hclear)
    rw [← hmerge, hid, touched_ms htouch] at hnow
    refine ⟨b.become .cleared s.ms, hnow, ?_, ?_, ?_, ?_, fun hno => absurd hclear hno, fun _ => rfl, fun _ => rfl,
      fun hno => absurd rfl hno⟩ <;> rw [hb] <;> rfl
  · have hnow := thenClear_find_kept hfind (fun h => hclear (hasks.1 h))
    rw [← hmerge, hid] at hnow
    subst hb
    exact ⟨_, hnow, rfl, rfl, rfl, rfl, fun _ => rfl, fun hyes => absurd hyes hclear, fun hcleared => if_pos hcleared,
      fun hother => if_neg hother⟩

end Merged

/-- R159: no held entry moves back. -/
theorem mergeAlarm_rank {s : State} {r : AlarmRecord} {id : AlarmId} {a b : Alarm} (ha : s.findAlarm id = some a)
    (hb : (s.mergeAlarm r).findAlarm id = some b) : a.state.rank ≤ b.state.rank := by
  have hsame (h : (s.mergeAlarm r).findAlarm id = s.findAlarm id) : a.state.rank ≤ b.state.rank := by
    rw [h, ha] at hb
    rw [Option.some.inj hb]
  cases hr : s.findAlarm r.id with
  | none =>
    have hother : id ≠ r.id := by
      rintro rfl
      exact nomatch hr.symm.trans ha
    by_cases hroom : s.aru.alarms.length < 16
    · exact hsame (mergeAlarm_made_find_other hr (if_pos hroom) hr hother)
    · cases hv : alarmVictim s.aru.alarms r.kind.severity r.state with
      | none => exact hsame (by rw [mergeAlarm_refused hr (Nat.not_lt.1 hroom) hv])
      | some v =>
        have hfind := mergeAlarm_made_find_other hr (makeAlarmRoom_full hroom hv) (removeAlarm_unheld hr v) hother
        rw [removeAlarm_find] at hfind
        by_cases hvictim : id = v.id
        · rw [if_pos hvictim, hb] at hfind
          nomatch hfind
        · rw [if_neg hvictim] at hfind
          exact hsame hfind
  | some held =>
    by_cases hlater : held.state.rank < r.state.rank
    · by_cases hown : id = r.id
      · subst hown
        obtain ⟨c, hc, -, -, -, -, hkept, hcleared, -⟩ := mergeAlarm_advanced hr hlater
        obtain rfl : c = b := Option.some.inj (hc.symm.trans hb)
        obtain rfl : held = a := Option.some.inj (hr.symm.trans ha)
        by_cases hclear : AsksClear s r.id r.state
        · rw [hcleared hclear]
          cases held.state <;> decide
        · rw [hkept hclear]
          exact hlater.le
      · exact hsame (mergeAlarm_advances_find_other hr hlater hown)
    · exact hsame (by rw [mergeAlarm_stale hr (Nat.not_lt.1 hlater)])

/-- Settles O59: an unknown alarm, with room, from a full table or not held; a held one, later or not. -/
theorem mergeAlarmResult : Obligations.MergeAlarmResult := by
  refine fun s r => ⟨fun hnone hroom => ?_, fun v hnone hfull hv => ?_, fun hnone hfull hno => ?_,
    fun a ha hstale => mergeAlarm_stale ha hstale, fun a ha hlater => ?_, fun id a b ha hb => mergeAlarm_rank ha hb⟩
  · obtain ⟨a, hfind, hkind, hscope, hheard, hsilenced, hkept, hcleared, hlinger, hno, htest⟩ :=
      mergeAlarm_added hnone hroom
    exact ⟨a, hfind, hkind, hscope, hheard, hsilenced, hkept, hcleared, hlinger, hno, htest,
      mergeAlarm_added_handed hnone hroom⟩
  · have hremoves := removeAlarm_removes s v
    obtain ⟨u, hu, -, hspu, hhanded⟩ := id hremoves
    have htouch := handOn_touches u v true
    refine ⟨s.removeAlarm v, hremoves, removeAlarm_alarms s v, ?_, ?_,
      mergeAlarm_displaces hnone hfull ((alarmVictim_iff _ _ _ _).2 hv)⟩
    · rw [hhanded]
      exact (hu.wide).andThen htouch
    · rw [hhanded, touched_spu htouch (by decide), hspu]
  · refine mergeAlarm_refused hnone hfull (Option.eq_none_iff_forall_ne_some.2 fun v hv => ?_)
    exact hno v ((alarmVictim_iff _ _ _ _).1 hv)
  · obtain ⟨b, hfind, hkind, hscope, hheard, hsilenced, hkept, hcleared, hlinger, hno⟩ := mergeAlarm_advanced ha hlater
    exact ⟨b, hfind, hkind, hscope, hheard, hsilenced, hkept, hcleared, hlinger, hno, mergeAlarm_advanced_handed ha hlater⟩

end Sys2Proof.Machine


/-! The delivery of an own change and its outcomes (O60). -/

namespace Sys2Proof.Machine

/-! ### The slots missing (R165) -/

theorem mem_unionSlots (a b : List Nat) (n : Nat) : n ∈ unionSlots a b ↔ n < 64 ∧ (n ∈ a ∨ n ∈ b) := by
  simp [unionSlots]

theorem expectedSlots_lt {s : State} {p : Port} {n : Nat} (h : n ∈ s.expectedSlots p) : n < 64 :=
  List.mem_range.1 (List.mem_filter.1 h).1

/-- The expected slots that neither hear map has. -/
theorem missingSlots_union (s : State) (p : Port) (heard map : List Nat) : s.missingSlots p (unionSlots heard map)
    = (s.expectedSlots p).filter (fun k => !(heard.contains k) && !(map.contains k)) := by
  refine List.filter_congr fun n hn => ?_
  have hin : (unionSlots heard map).contains n = (heard.contains n || map.contains n) := by
    rw [Bool.eq_iff_iff, Bool.or_eq_true, List.contains_iff_mem, List.contains_iff_mem, List.contains_iff_mem,
      mem_unionSlots]
    exact and_iff_right (expectedSlots_lt hn)
  rw [hin, Bool.not_or]

theorem missingSlots_union_nil (s : State) (p : Port) (heard map : List Nat) :
    (s.missingSlots p (unionSlots heard map)).isEmpty = true ↔ ∀ n ∈ s.expectedSlots p, n ∈ heard ∨ n ∈ map := by
  rw [missingSlots_union, List.isEmpty_iff, List.filter_eq_nil_iff]
  refine forall_congr' fun n => imp_congr_right fun _ => ?_
  rw [Bool.and_eq_true, Bool.not_eq_true', Bool.not_eq_true', ← Bool.not_eq_true, ← Bool.not_eq_true,
    List.contains_iff_mem, List.contains_iff_mem]
  tauto

/-! ### An outcome of a pending frame (R165) -/

section Outcome

variable {s : State} {p : Port} {frame : List Byte} {map : List Nat} {d : Delivery}
  (hd : (s.deliveriesOn p).find? (fun x => decide (frameKey x.frame = frameKey frame)) = some d)
include hd

theorem deliveryOutcome_eq : s.deliveryOutcome p frame map
    = if (s.missingSlots p (unionSlots d.hearMap map)).isEmpty = true then s.dropDelivery p d.id
      else if d.transmissions < 6 then
        s.setDeliveries p ((s.deliveriesOn p).map (fun x => if x.id = d.id then
          { x with hearMap := unionSlots d.hearMap map, phase := .waiting, repeatDue := some (s.ms + 500) } else x))
      else takeIn (.deliveryIncomplete d.id p (s.missingSlots p (unionSlots d.hearMap map)).length)
        (s.dropDelivery p d.id) := by
  simp only [State.deliveryOutcome, hd]

theorem deliveryOutcome_heard (h : ∀ n ∈ s.expectedSlots p, n ∈ d.hearMap ∨ n ∈ map) :
    s.deliveryOutcome p frame map = s.dropDelivery p d.id := by
  rw [deliveryOutcome_eq hd, if_pos ((missingSlots_union_nil s p d.hearMap map).2 h)]

variable (h : ∃ n ∈ s.expectedSlots p, n ∉ d.hearMap ∧ n ∉ map)
include h

omit hd in
theorem missingSlots_union_ne : ¬ (s.missingSlots p (unionSlots d.hearMap map)).isEmpty = true := by
  rw [missingSlots_union_nil]
  obtain ⟨n, hn, hno, hno'⟩ := h
  exact fun hall => (hall n hn).elim hno hno'

theorem deliveryOutcome_waits (hfew : d.transmissions < 6) : s.deliveryOutcome p frame map
    = s.setDeliveries p ((s.deliveriesOn p).map (fun x => if x.id = d.id then
        { x with hearMap := unionSlots d.hearMap map, phase := .waiting, repeatDue := some (s.ms + 500) } else x)) := by
  rw [deliveryOutcome_eq hd, if_neg (missingSlots_union_ne h), if_pos hfew]

theorem deliveryOutcome_ends (hlast : 6 ≤ d.transmissions) : s.deliveryOutcome p frame map
    = takeIn (.deliveryIncomplete d.id p
        ((s.expectedSlots p).filter (fun k => !(d.hearMap.contains k) && !(map.contains k))).length)
          (s.dropDelivery p d.id) := by
  rw [deliveryOutcome_eq hd, if_neg (missingSlots_union_ne h), if_neg (Nat.not_lt.2 hlast), missingSlots_union]

end Outcome

theorem dropDelivery_deliveriesOn (s : State) (p : Port) (id : AlarmId) :
    (s.dropDelivery p id).deliveriesOn p = (s.deliveriesOn p).filter (fun x => decide (x.id ≠ id)) :=
  setDeliveries_deliveriesOn s p _

/-- Settles O60: the outcomes of a pending frame, and the delivery of an own change. -/
theorem deliveryOutcomeResult : Obligations.DeliveryOutcomeResult := by
  refine ⟨fun s p frame map d hd => ⟨fun hheard => ?_, fun hmissing => ⟨fun hfew => ?_, fun hlast => ?_⟩⟩,
    fun s p a f d hf hdelivery => ?_⟩
  · rw [deliveryOutcome_heard hd hheard]
    exact ⟨dropDelivery_deliveriesOn s p d.id, dropDelivery_touches s p d.id⟩
  · rw [deliveryOutcome_waits hd hmissing hfew]
    exact ⟨unionSlots d.hearMap map, mem_unionSlots _ _, setDeliveries_deliveriesOn s p _, setDeliveries_touches s p _⟩
  · have hends := deliveryOutcome_ends hd hmissing hlast
    rw [hends]
    refine ⟨(takeIn_touches _ _ (.deliveries p) (by cases p <;> decide)).trans (dropDelivery_deliveriesOn s p d.id),
      fun hroom => ?_⟩
    obtain ⟨lost, hplaced⟩ := takeIn_last (s := s.dropDelivery p d.id) (r := .deliveryIncomplete d.id p
      ((s.expectedSlots p).filter (fun k => !(d.hearMap.contains k) && !(map.contains k))).length) hroom
    exact ⟨_, lost, hplaced, rfl⟩
  · subst hf hdelivery
    refine ⟨(s.compose 4095 .alarm true [.alarm [s.alarmRecord a]]).2, _, ?_, rfl, holdDelivery_holds _ p _, rfl⟩
    intro x hx
    cases x <;> first | rfl | exact ⟨rfl, rfl⟩ | exact ⟨rfl, rfl, rfl⟩ | exact absurd (by decide) hx

end Sys2Proof.Machine


/-! The timers of the alarm unit, a change handed on, the sounder and muster (O58). -/

namespace Sys2Proof.Machine

/-! ### The alarm and refuge unit by its parts -/

theorem touched_aru {foot : List Part} {s t : State} (h : OnlyTouches foot s t)
    (hfoot : ∀ x ∈ [Part.alarms, .deliveries .A, .deliveries .B, .alarmNumber, .references, .muster, .door], x ∉ foot) :
    t.aru = s.aru := by
  have halarms : t.aru.alarms = s.aru.alarms := h .alarms (hfoot _ (by decide))
  have hA : t.aru.deliveries.get .A = s.aru.deliveries.get .A := h (.deliveries .A) (hfoot _ (by decide))
  have hB : t.aru.deliveries.get .B = s.aru.deliveries.get .B := h (.deliveries .B) (hfoot _ (by decide))
  have hnumber : t.aru.nextNumber = s.aru.nextNumber := h .alarmNumber (hfoot _ (by decide))
  obtain ⟨hpull, hdoorRef⟩ := h .references (hfoot _ (by decide))
  obtain ⟨hactive, hmuster, hoverflow⟩ := h .muster (hfoot _ (by decide))
  have hdoor : t.aru.doorOpen = s.aru.doorOpen := h .door (hfoot _ (by decide))
  have hdeliveries : t.aru.deliveries = s.aru.deliveries := by
    rcases ht : t.aru.deliveries
    rcases hs : s.aru.deliveries
    rw [ht, hs] at hA hB
    simp_all [PortPair.get]
  rcases ht : t.aru
  rcases hs : s.aru
  simp_all

/-! ### The timers (R154, R155, R165, R167) -/

section Timers

variable {s : State}

theorem exec_deliveryRepeatTimer_due {p : Port} {id : AlarmId} {d : Delivery}
    (hd : (s.deliveriesOn p).find? (fun x => decide (x.id = id) && s.dueMs x.repeatDue) = some d) :
    exec (.deliveryRepeatTimer p id.origin id.number) s
      = .next ((s.setDeliveries p ((s.deliveriesOn p).map (fun x => if x.id = id then
          { x with transmissions := x.transmissions + 1, phase := .queued, repeatDue := none } else x))).queueRequest p
            { TxEntry.fixed d.frame .alarm .aru with relayed := decide (d.source = .relay) }) := by
  have hready : s.repeatReady p ⟨id.origin, id.number⟩ = some d := hd
  have hid : d.id = id := by
    obtain ⟨hid, -⟩ := Bool.and_eq_true_iff.1 (List.find?_some (p := fun x : Delivery =>
      decide (x.id = id) && s.dueMs x.repeatDue) hd)
    exact of_decide_eq_true hid
  refine congrArg Host.Outcome.next ?_
  simp only [hready, hid]

variable {a : Alarm} {id : AlarmId} {n : Nat} (ha : s.findAlarm id = some a) (hdue : n ≤ s.ms)
include ha hdue

theorem exec_lingerDeadline_due (hn : a.linger = some n) :
    exec (.lingerDeadline id.origin id.number) s = .next (s.removeAlarm a) := by
  have hheld : s.findAlarm ⟨id.origin, id.number⟩ = some a := ha
  refine congrArg Host.Outcome.next ?_
  simp only [hheld]
  exact if_pos (dueMs_some hn hdue)

theorem exec_testWindowExpiry_due (hn : a.testUntil = some n) :
    exec (.testWindowExpiry id.origin id.number) s
      = .next (s.replaceAlarm { a with testUntil := none }).decideSounder := by
  have hheld : s.findAlarm ⟨id.origin, id.number⟩ = some a := ha
  refine congrArg Host.Outcome.next ?_
  simp only [hheld]
  exact if_pos (dueMs_some hn hdue)

end Timers

theorem decideSounder_sounder (s : State) : s.decideSounder.iou.sounder = s.decideSounder.sounderPattern := rfl

/-! ### A change handed on (R160) -/

/-- The state a change is handed on in, before muster and the sounder. -/
def State.changeTold (s : State) (a : Alarm) (removed : Bool) : State :=
  (((s.clearReferences a removed).evaluateLockout).reportToChannels a removed).1.laneEvaluate

theorem handOn_eq (s : State) (a : Alarm) (removed : Bool) :
    (s.handOn a removed).1 = (s.changeTold a removed).testMuster.decideSounder := rfl

theorem changeTold_touches (s : State) (a : Alarm) (removed : Bool) :
    OnlyTouches ([.references, .channels] ++ lockoutFoot) s (s.changeTold a removed) :=
  ((((clearReferences_touches s a removed).wide).andThen (evaluateLockout_touches _)).andThen
    (reportToChannels_touches _ a removed)).andThen (laneEvaluate_touches _)

theorem changeTold_channel (s : State) (a : Alarm) (removed : Bool) (c : Fin 7) : (s.changeTold a removed).channel c
    = if a.id.origin = s.cfg.station ∧ emptiesField a (s.ownEnded a removed) (s.channel c) = true
      then { s.channel c with raised := none } else s.channel c := by
  have hafter : OnlyTouches [.muster, .sounder] (s.changeTold a removed) (s.handOn a removed).1 :=
    ((testMuster_touches _).wide).andThen (decideSounder_touches _)
  rw [← handOn_channel, touched_channel hafter]

theorem changeTold_aru (s : State) (a : Alarm) (removed : Bool) :
    (s.changeTold a removed).aru = (s.clearReferences a removed).aru := by
  have htouch : OnlyTouches (.channels :: lockoutFoot) (s.clearReferences a removed) (s.changeTold a removed) :=
    (((evaluateLockout_touches _).wide).andThen (reportToChannels_touches _ a removed)).andThen (laneEvaluate_touches _)
  exact touched_aru htouch (by decide)

section Told

variable {s : State} {a : Alarm} {removed : Bool}

/-- R94, R157, R160: nothing names an own alarm that is CLEARED or gone. -/
theorem changeTold_ended (hown : a.id.origin = s.cfg.station) (hended : removed = true ∨ a.state = .cleared) :
    (s.changeTold a removed).aru.pullRef = (if s.aru.pullRef = some a.id.number then none else s.aru.pullRef)
    ∧ (s.changeTold a removed).aru.doorRef = (if s.aru.doorRef = some a.id.number then none else s.aru.doorRef)
    ∧ ∀ c, ((s.changeTold a removed).channel c).raised ≠ some a.id.number := by
  have hends : s.ownEnded a removed = true := by
    rcases hended with h | h <;> simp [State.ownEnded, hown, h]
  have hcleared : s.clearReferences a removed = s.setAru { s.aru with
      pullRef := if s.aru.pullRef = some a.id.number then none else s.aru.pullRef,
      doorRef := if s.aru.doorRef = some a.id.number then none else s.aru.doorRef } := if_pos hends
  rw [changeTold_aru, hcleared]
  refine ⟨rfl, rfl, fun c => ?_⟩
  rw [changeTold_channel]
  split
  next => exact nofun
  next hkept => exact fun hnamed => hkept ⟨hown, by simp [emptiesField, hends, hnamed]⟩

/-- R160: an alarm of another station leaves the references and the channels. -/
theorem changeTold_foreign (hother : a.id.origin ≠ s.cfg.station) :
    (s.changeTold a removed).aru = s.aru ∧ (s.changeTold a removed).acu = s.acu := by
  have hkept : s.clearReferences a removed = s := if_neg (by simp [State.ownEnded, hother])
  refine ⟨(changeTold_aru s a removed).trans (congrArg State.aru hkept),
    acu_ext (fun c => ?_) (changeTold_touches s a removed .gate (by decide))⟩
  rw [changeTold_channel, if_neg fun h => hother h.1]

end Told

/-! ### The sounder pattern (R167) -/

theorem any_sounding (s : State) (p : Alarm → Bool) :
    (s.aru.alarms.filter (fun a => s.standsHere a && !a.silenced)).any p = true ↔ ∃ a, Sounds s a ∧ p a = true := by
  rw [List.any_eq_true]
  refine exists_congr fun a => ?_
  rw [List.mem_filter, Bool.and_eq_true, standsHere_iff, Bool.not_eq_true', Sounds]
  tauto

theorem warningClass_iff (k : AlarmKind) : k.cls = .warning ↔ k = .vent ∨ k = .pullcord := by cases k <;> decide

section Sounder

variable {s : State} {evacuation warning door test : Prop}
  (hevacuation : evacuation ↔ ∃ a, Sounds s a ∧ (a.kind = .fire ∨ a.kind = .evacuate ∨ a.kind = .gas))
  (hwarning : warning ↔ ∃ a, Sounds s a ∧ (a.kind = .vent ∨ a.kind = .pullcord))
  (hdoor : door ↔ s.cfg.refuge = true ∧ ∃ a, Sounds s a ∧ a.kind = .refugeDoor)
  (htest : test ↔ ∃ a, Sounds s a ∧ a.kind = .test ∧ a.testUntil ≠ none)
include hevacuation hwarning hdoor htest

open Classical in
theorem sounderPattern_rows : s.sounderPattern
    = if evacuation then .fast else if warning then .slow else if door then .slow else if test then .slow else .off := by
  unfold State.sounderPattern
  refine ite_congr (propext ?_) (fun _ => rfl) fun _ => ite_congr (propext ?_) (fun _ => rfl)
    fun _ => ite_congr (propext ?_) (fun _ => rfl) fun _ => ite_congr (propext ?_) (fun _ => rfl) fun _ => rfl
  · rw [any_sounding, hevacuation]
    simp only [decide_eq_true_eq, evacuationClass_iff]
  · rw [any_sounding, hwarning]
    simp only [decide_eq_true_eq, warningClass_iff]
  · rw [Bool.and_eq_true, any_sounding, hdoor]
    simp only [decide_eq_true_eq]
  · rw [any_sounding, htest]
    simp only [Bool.and_eq_true, decide_eq_true_eq, Option.isSome_iff_ne_none]

theorem sounderPattern_iff : (s.sounderPattern = .fast ↔ evacuation)
    ∧ (s.sounderPattern = .slow ↔ ¬ evacuation ∧ (warning ∨ door ∨ test))
    ∧ (s.sounderPattern = .off ↔ ¬ evacuation ∧ ¬ warning ∧ ¬ door ∧ ¬ test) := by
  rw [sounderPattern_rows hevacuation hwarning hdoor htest]
  by_cases he : evacuation
  · simp [he]
  · by_cases hw : warning
    · simp [he, hw]
    · by_cases hd : door
      · simp [he, hw, hd]
      · by_cases ht : test <;> simp [he, hw, hd, ht]

end Sounder

/-! ### Muster (R168) -/

/-- The sweep: new tags, in order, while the list has room. -/
theorem foldl_musterTag (ns : List NearEntry) : ∀ x : Aru, (∀ n ∈ ns, n.tag ∉ x.muster) →
    ns.Pairwise (fun a b => a.tag < b.tag) → x.muster.length + ns.length ≤ 64 →
    ns.foldl (fun x n => musterTag n.tag x) x = { x with muster := x.muster ++ ns.map NearEntry.tag } := by
  induction ns with
  | nil =>
    intro x _ _ _
    rw [List.map_nil, List.append_nil]
    rfl
  | cons n ns ih =>
    intro x hnew hpair hroom
    obtain ⟨hbelow, hpair⟩ := List.pairwise_cons.1 hpair
    rw [List.length_cons] at hroom
    have hfirst : musterTag n.tag x = { x with muster := x.muster ++ [n.tag] } :=
      (if_neg fun hin => hnew n (List.mem_cons_self ..) (List.contains_iff_mem.1 hin)).trans (if_pos (by omega))
    rw [List.foldl_cons, hfirst, ih _ (fun m hm hin => ?_) hpair (by simp; omega), List.map_cons, List.append_assoc]
    · rfl
    · obtain hin | hin := List.mem_append.1 hin
      · exact hnew m (List.mem_cons_of_mem n hm) hin
      · have hlt := hbelow m hm
        rw [List.mem_singleton.1 hin] at hlt
        exact Nat.lt_irrefl _ hlt

section MusterTest

variable {s : State}

theorem testMuster_goes_on (hrefuge : s.cfg.refuge = true) (hevacuates : Evacuates s)
    (hactive : s.aru.musterActive = true) : s.testMuster = s := by
  have hnow : (s.cfg.refuge && s.evacuation) = true := by
    rw [hrefuge, (evacuation_iff s).2 hevacuates]
    rfl
  unfold State.testMuster
  rw [hnow, hactive]
  rfl

/-- R168: muster begins with the qualifying tags of the near table, in order. -/
theorem testMuster_begins (hrefuge : s.cfg.refuge = true) (hevacuates : Evacuates s) (hidle : s.aru.musterActive = false)
    (hempty : s.aru.muster = []) (hlen : s.tgu.near.length ≤ 64)
    (hnear : s.tgu.near.Pairwise (fun x y => x.tag < y.tag)) :
    s.testMuster = s.setAru { s.aru with
      musterActive := true, muster := (s.tgu.near.filter s.musters).map NearEntry.tag } := by
  have hnow : (s.cfg.refuge && s.evacuation) = true := by
    rw [hrefuge, (evacuation_iff s).2 hevacuates]
    rfl
  have hbegins : s.testMuster = s.setAru ((s.tgu.near.filter s.musters).foldl (fun x n => musterTag n.tag x)
      { s.aru with musterActive := true }) := if_pos (by rw [hnow, hidle]; rfl)
  have hroom := (List.length_filter_le s.musters s.tgu.near).trans hlen
  rw [hbegins, foldl_musterTag _ _ (fun n _ => by simp [hempty]) (hnear.filter _) (by simpa [hempty] using hroom)]
  simp only [hempty, List.nil_append]

theorem testMuster_ends (h : s.cfg.refuge = false ∨ ¬ Evacuates s) :
    s.testMuster = s.setAru { s.aru with musterActive := false, muster := [], overflow := 0 } := by
  have hnow : (s.cfg.refuge && s.evacuation) = false := by
    rcases h with h | h
    · rw [h]
      rfl
    · rw [Bool.eq_false_iff.2 fun hyes => h ((evacuation_iff s).1 hyes), Bool.and_false]
  unfold State.testMuster
  rw [hnow]
  rfl

end MusterTest

/-- Settles O58: the timers, a change handed on, the sounder's rows, and muster's beginning, course and end. -/
theorem alarmTimersResult : Obligations.AlarmTimersResult := by
  refine ⟨fun s => ⟨fun p id d hd => ?_, fun a id n ha hn hdue => ?_, fun a id n ha hn hdue => ?_⟩,
    fun s a removed t ht => ?_, fun s evacuation warning door test he hw hd ht => sounderPattern_iff he hw hd ht,
    fun s => ⟨testMuster_goes_on, fun hrefuge hevacuates hidle hempty hlen hnear => ?_, testMuster_ends⟩⟩
  · exact ⟨_, exec_deliveryRepeatTimer_due hd, setDeliveries_touches s p _, setDeliveries_deliveriesOn s p _⟩
  · refine ⟨_, exec_lingerDeadline_due ha hdue hn, removeAlarm_removes s a, ?_⟩
    rw [removeAlarm_alarms, find_id ha]
  · refine ⟨_, exec_testWindowExpiry_due ha hdue hn, ?_, decideSounder_sounder _,
      ((replaceAlarm_touches s _).wide).andThen (decideSounder_touches _)⟩
    show s.aru.alarms.map (fun x => if x.id = a.id then _ else x) = _
    rw [find_id ha]
  · rw [ht, handOn_eq]
    exact ⟨s.changeTold a removed, _, rfl, decideSounder_touches _, decideSounder_sounder _, changeTold_touches s a removed,
      changeTold_ended, changeTold_foreign⟩
  · exact ⟨s.tgu.near.filter s.musters, List.filter_sublist, fun n => by rw [List.mem_filter, musters_iff],
      testMuster_begins hrefuge hevacuates hidle hempty hlen hnear⟩

end Sys2Proof.Machine
